-- ==== Sys2Proof/Word.lean ====
section
/-! DEFINITION. The word types of the flamego core: 64-bit registers and addresses (R5, R7), 32-bit instruction
words (R6), bytes. Everything computed from them stands in Decode.lean or under Machine/. -/

namespace Sys2Proof

/-- A register value or an address: an unsigned 64-bit number (R5, R7). -/
abbrev Word := BitVec 64

/-- One instruction word (R6, R76). -/
abbrev InstrWord := BitVec 32

/-- One byte of Memory, of a Bus or of a cache line. -/
abbrev Byte := BitVec 8

end Sys2Proof
end

