-- ==== Sys2Proof/Config.lean ====
section
/-! DEFINITION. The implementation parameters of 00_scope.md section 4 (R3, R7 to R11), the parameters of
93_implementation_defined.md section 3 (P1 to P7), and the free values: constants without a body for what the spec
leaves undefined, so that nothing in Lean can evaluate one or prove its value. -/

namespace Sys2Proof

/-- The four parameters of a cache (R8): `Size`, `LineWidth`, `BusWidth` in bytes, and `OffsetBits`. -/
structure CacheConfig where
  size : Nat
  lineWidth : Nat
  busWidth : Nat
  offsetBits : Nat
deriving DecidableEq, Repr

/-- The operations a Device handler may be registered for (R172). -/
inductive DeviceOp where
  | status
  | enable
  | disable
  | read
  | write
deriving DecidableEq, Repr

/-- Which way a registered handler copies data between the Device and Memory (R172; D41 leaves the handlers' effects a
parameter). -/
inductive Transfer where
  /-- The handler moves no data: it completes at once. -/
  | idle
  /-- The handler writes bytes the Device supplies into Memory. -/
  | toMemory
  /-- The handler reads bytes from Memory for the Device. -/
  | fromMemory
deriving DecidableEq, Repr

/-- One registered handler: the operation code it answers to, its operation and the way it moves data (R172, D41). -/
structure DeviceHandler where
  code : BitVec 32
  operation : DeviceOp
  transfer : Transfer
deriving DecidableEq, Repr

/-- `devBusySignal` (R172, D41): what a Signal to a Device with an operation in progress does. -/
inductive BusySignal where
  /-- The Signal is dropped. -/
  | ignored
  /-- The Device runs one more operation when the current one is done. -/
  | queued
  /-- The Signal aborts the simulation. -/
  | fatal
deriving DecidableEq, Repr

/-- The parameters of one Device (R170 to R172, P7): its control-block offset `CB_d`, its bus width, its handlers, whether
it writes the control block back when it is done, and `devBusySignal`. -/
structure DeviceConfig where
  controlBlock : Nat
  busWidth : Nat
  handlers : List DeviceHandler
  writesBack : Bool
  busySignal : BusySignal
deriving DecidableEq, Repr

/-- The parameters of a machine (00_scope.md section 4). `lockElect` (R164) is a table of the exceptions to the
reference choice: a set of requesters, as an ascending list, and the one elected from it; a set the table does not list
elects its lowest index. Every election rule that depends on the set alone is such a table. -/
structure Config where
  coreCount : Nat
  memorySize : Nat
  memoryBusWidth : Nat
  l1i : CacheConfig
  l1d : CacheConfig
  l2 : CacheConfig
  l3 : CacheConfig
  divL2 : Nat
  divL3 : Nat
  divMem : Nat
  divDev : Nat
  dirtyOnUnchangedWrite : Bool
  lockElect : List (List Nat × Nat)
  devices : List DeviceConfig
deriving DecidableEq, Repr

/-- The reference configuration of R11. -/
def Config.reference : Config where
  coreCount := 1
  memorySize := 65536
  memoryBusWidth := 32
  l1i := { size := 256, lineWidth := 8, busWidth := 8, offsetBits := 3 }
  l1d := { size := 256, lineWidth := 8, busWidth := 8, offsetBits := 3 }
  l2 := { size := 1024, lineWidth := 16, busWidth := 8, offsetBits := 4 }
  l3 := { size := 4096, lineWidth := 32, busWidth := 16, offsetBits := 5 }
  divL2 := 10
  divL3 := 100
  divMem := 1000
  divDev := 5000
  dirtyOnUnchangedWrite := false
  lockElect := []
  devices := []

/-- FREE VALUE (log entry 3). The byte at a position of a Bus after an unsuccessful result, which R47 leaves not defined;
the first argument counts the unsuccessful results of the port, so that each leaves fresh bytes. -/
opaque Config.undefinedByte : Nat → Nat → Byte

/-- FREE VALUE (log entry 3). The valid bit at a position of a Bus after an unsuccessful result (R47). -/
opaque Config.undefinedValid : Nat → Nat → Bool

/-- FREE VALUE (log entry 6). The bytes a Device supplies (D41): the Device's index and the count of bytes it supplied
before. -/
opaque Config.deviceByte : Nat → Nat → Byte

end Sys2Proof
end

