-- ==== Sys2Proof/Syntax.lean ====
section
/-! DEFINITION. The instruction set: the closed set of 32 instructions of spec/opcode_table.json (R93, conflict C7),
one constructor each. The field widths of section 3 of 30_encoding.md stand in the types, so a term of `Instr` is an
instruction of the set and nothing else: an operand that does not fit its field cannot be written (R93, F5). -/

namespace Sys2Proof

/-- A 5-bit register number, R0 to R31 (R5, R89). -/
abbrev Reg := BitVec 5

/-- The direction bit of a jump (R87): 0 forward, 1 backward. -/
inductive Direction where
  | forward
  | backward
deriving DecidableEq, Repr

/-- The instructions of the flamego ISA (R93), in the order of spec/opcode_table.json. -/
inductive Instr where
  /-- `loadc C rD` (R115). -/
  | loadc (c : BitVec 26) (d : Reg)
  /-- `jez ±OFF rR` (R117). -/
  | jez (dir : Direction) (off : BitVec 22) (r : Reg)
  /-- `jnz ±OFF rR` (R118). -/
  | jnz (dir : Direction) (off : BitVec 22) (r : Reg)
  /-- `jle ±OFF rR` (R119). -/
  | jle (dir : Direction) (off : BitVec 22) (r : Reg)
  /-- `jlz ±OFF rR` (R120). -/
  | jlz (dir : Direction) (off : BitVec 22) (r : Reg)
  /-- `load rA OFF rD` (R123). -/
  | load (a : Reg) (off : BitVec 17) (d : Reg)
  /-- `store rA OFF rD`, D the source (R124). -/
  | store (a : Reg) (off : BitVec 17) (d : Reg)
  /-- `clear rA OFF` (R125). -/
  | clear (a : Reg) (off : BitVec 17)
  /-- `flush rA OFF` (R126). -/
  | flush (a : Reg) (off : BitVec 17)
  /-- `not rA rD` (R128). -/
  | not (a d : Reg)
  /-- `and rA rB rD` (R129). -/
  | and (a b d : Reg)
  /-- `or rA rB rD` (R130). -/
  | or (a b d : Reg)
  /-- `xor rA rB rD` (R131). -/
  | xor (a b d : Reg)
  /-- `leftshift rA rB rD` (R132). -/
  | leftshift (a b d : Reg)
  /-- `rightshift rA rB rD` (R133). -/
  | rightshift (a b d : Reg)
  /-- `add rA rB rD` (R134). -/
  | add (a b d : Reg)
  /-- `subtract rA rB rD` (R135). -/
  | subtract (a b d : Reg)
  /-- `multiply rA rB rD` (R136). -/
  | multiply (a b d : Reg)
  /-- `divide rA rB rD` (R137). -/
  | divide (a b d : Reg)
  /-- `modulo rA rB rD` (R138). -/
  | modulo (a b d : Reg)
  /-- `push rI rJ ...`: bit i of the mask names R(16+i) (R140). -/
  | push (mask : BitVec 16)
  /-- `pop rI rJ ...` (R141). -/
  | pop (mask : BitVec 16)
  /-- `call rR` (R142). -/
  | call (r : Reg)
  /-- `return` (R143). -/
  | ret
  /-- `halt` (R144). -/
  | halt
  /-- `noop` (R145). -/
  | noop
  /-- `sleep` (R146). -/
  | sleep
  /-- `signal rR` (R147). -/
  | signal (r : Reg)
  /-- `lock` (R148). -/
  | lock
  /-- `unlock` (R149). -/
  | unlock
  /-- `interrupt V` (R150). -/
  | interrupt (v : BitVec 8)
  /-- `uninterrupt` (R151). -/
  | uninterrupt
deriving DecidableEq, Repr

end Sys2Proof
end

