-- ==== Sys2Proof/Decode.lean ====
section
/-! DEFINITION. The decoder (R77 to R92), total on every word and rejecting by name, and after it the encoder (R93),
both from the formats of 30_encoding.md section 3. The byte order of an instruction word stands here too (R66, R76). -/

namespace Sys2Proof

/-- Why a word is unrecognized (R91, R92). -/
inductive DecodeError where
  /-- The all-zero word. -/
  | zeroWord
  /-- The most significant set bit is 27, or 23 or lower. -/
  | noFamily
  /-- ALU OP 6, 7, 13, 14 or 15 (R85). -/
  | reservedAluOp
  /-- Control SUBT 8 to 15 (R88). -/
  | reservedSubtype
  /-- A must-be-zero bit is set (R91). -/
  | mustBeZero
deriving DecidableEq, Repr

/-- `be(bytes)` of a 4-byte instruction word: the first byte holds bits 31:24 (R66, R76). -/
def wordOfBytes (b0 b1 b2 b3 : BitVec 8) : InstrWord := b0 ++ b1 ++ b2 ++ b3

/-- The four bytes of an instruction word in memory order (R66, R76). -/
def bytesOfWord (w : InstrWord) : List (BitVec 8) :=
  [w.extractLsb' 24 8, w.extractLsb' 16 8, w.extractLsb' 8 8, w.extractLsb' 0 8]

/-- `DIR` (R87). -/
def directionOf (bit : BitVec 1) : Direction := if bit = 0 then .forward else .backward

/-- The bit of a direction (R87). -/
def Direction.bit : Direction → BitVec 1
  | .forward => 0
  | .backward => 1

/-- Accept `i` only when the must-be-zero bits are zero (R91). -/
def whenZero {n : Nat} (bits : BitVec n) (i : Instr) : Except DecodeError Instr :=
  if bits = 0 then .ok i else .error .mustBeZero

/-- Jump family (R79, R87). -/
def decodeJump (w : InstrWord) : Except DecodeError Instr :=
  let dir := directionOf (w.extractLsb' 27 1)
  let off := w.extractLsb' 5 22
  let r := w.extractLsb' 0 5
  match w.extractLsb' 28 2 with
  | 0#2 => .ok (.jez dir off r)
  | 1#2 => .ok (.jnz dir off r)
  | 2#2 => .ok (.jle dir off r)
  | _ => .ok (.jlz dir off r)

/-- Memory family (R80, R86). -/
def decodeMemory (w : InstrWord) : Except DecodeError Instr :=
  let off := w.extractLsb' 10 17
  let a := w.extractLsb' 5 5
  let d := w.extractLsb' 0 5
  match w.extractLsb' 27 2 with
  | 0#2 => .ok (.load a off d)
  | 1#2 => .ok (.store a off d)
  | 2#2 => whenZero d (.clear a off)
  | _ => whenZero d (.flush a off)

/-- The instruction of an ALU OP code; `none` for a reserved one (R85). Not leaves B out. -/
def aluOf (op : BitVec 4) (a b d : Reg) : Option Instr :=
  match op with
  | 0#4 => some (.not a d)
  | 1#4 => some (.and a b d)
  | 2#4 => some (.or a b d)
  | 3#4 => some (.xor a b d)
  | 4#4 => some (.leftshift a b d)
  | 5#4 => some (.rightshift a b d)
  | 8#4 => some (.add a b d)
  | 9#4 => some (.subtract a b d)
  | 10#4 => some (.multiply a b d)
  | 11#4 => some (.divide a b d)
  | 12#4 => some (.modulo a b d)
  | _ => none

/-- ALU family (R81, R85, R91): bits 23:15 are zero, and B is zero for Not. -/
def decodeAlu (w : InstrWord) : Except DecodeError Instr :=
  let op := w.extractLsb' 24 4
  let b := w.extractLsb' 10 5
  match aluOf op (w.extractLsb' 5 5) b (w.extractLsb' 0 5) with
  | none => .error .reservedAluOp
  | some i => if op = 0 ∧ b ≠ 0 then .error .mustBeZero else whenZero (w.extractLsb' 15 9) i

/-- Push/Pop family (R82): bit 25 is the direction, bits 24:16 are zero. -/
def decodePushPop (w : InstrWord) : Except DecodeError Instr :=
  let mask := w.extractLsb' 0 16
  whenZero (w.extractLsb' 16 9) (if w.getLsbD 25 then .pop mask else .push mask)

/-- Call/Return family (R83): bit 24 is the flag, bits 23:5 are zero, and R is zero for Return. -/
def decodeCallReturn (w : InstrWord) : Except DecodeError Instr :=
  if w.getLsbD 24 then whenZero (w.extractLsb' 0 24) .ret
  else whenZero (w.extractLsb' 5 19) (.call (w.extractLsb' 0 5))

/-- Control family (R84, R88): bits 19:8 are zero, and the payload bits an instruction does not use. -/
def decodeControl (w : InstrWord) : Except DecodeError Instr :=
  match w.extractLsb' 20 4 with
  | 0#4 => whenZero (w.extractLsb' 0 20) .halt
  | 1#4 => whenZero (w.extractLsb' 0 20) .noop
  | 2#4 => whenZero (w.extractLsb' 0 20) .sleep
  | 3#4 => whenZero (w.extractLsb' 5 15) (.signal (w.extractLsb' 0 5))
  | 4#4 => whenZero (w.extractLsb' 0 20) .lock
  | 5#4 => whenZero (w.extractLsb' 0 20) .unlock
  | 6#4 => whenZero (w.extractLsb' 8 12) (.interrupt (w.extractLsb' 0 8))
  | 7#4 => whenZero (w.extractLsb' 0 20) .uninterrupt
  | _ => .error .reservedSubtype

/-- The decoder: the most significant set bit selects the family (R77); a word that no family accepts is refused by name
(R92). -/
def decode (w : InstrWord) : Except DecodeError Instr :=
  if w = 0 then .error .zeroWord
  else if w.getLsbD 31 then .ok (.loadc (w.extractLsb' 5 26) (w.extractLsb' 0 5))
  else if w.getLsbD 30 then decodeJump w
  else if w.getLsbD 29 then decodeMemory w
  else if w.getLsbD 28 then decodeAlu w
  else if w.getLsbD 27 then .error .noFamily
  else if w.getLsbD 26 then decodePushPop w
  else if w.getLsbD 25 then decodeCallReturn w
  else if w.getLsbD 24 then decodeControl w
  else .error .noFamily

/-- The decoder on the bytes the machine fetches, the first at the lowest address (R76); `none` where it refuses. -/
def decodeBytes : List (BitVec 8) → Option Instr
  | [b0, b1, b2, b3] => (decode (wordOfBytes b0 b1 b2 b3)).toOption
  | _ => none

/-- The instruction the decoder reads from an instruction whose bits are `w`, numbered as spec/opcode_table.json numbers
them: the word is laid out as the hardware stores it and given to `decodeBytes`. -/
def decodeTableWord (nbits w : Nat) : Option Instr := decodeBytes (bytesOfWord (BitVec.ofNat 32 (w % 2 ^ nbits)))

/-- A word of the Jump family (R79). -/
def encodeJump (cc : BitVec 2) (dir : Direction) (off : BitVec 22) (r : Reg) : InstrWord :=
  1#2 ++ cc ++ dir.bit ++ off ++ r

/-- A word of the Memory family (R80). -/
def encodeMemory (sub : BitVec 2) (a : Reg) (off : BitVec 17) (d : Reg) : InstrWord := 1#3 ++ sub ++ off ++ a ++ d

/-- A word of the ALU family (R81). -/
def encodeAlu (op : BitVec 4) (a b d : Reg) : InstrWord := 1#4 ++ op ++ 0#9 ++ b ++ a ++ d

/-- A word of the Push/Pop family (R82). -/
def encodePushPop (dir : BitVec 1) (mask : BitVec 16) : InstrWord := 1#6 ++ dir ++ 0#9 ++ mask

/-- A word of the Call/Return family (R83). -/
def encodeCallReturn (f : BitVec 1) (r : Reg) : InstrWord := 1#7 ++ f ++ 0#19 ++ r

/-- A word of the Control family (R84). -/
def encodeControl (subt : BitVec 4) (pay : BitVec 8) : InstrWord := 1#8 ++ subt ++ 0#12 ++ pay

/-- The encoder (R93): the word of each instruction, field for field from its format. -/
def encode : Instr → InstrWord
  | .loadc c d => 1#1 ++ c ++ d
  | .jez dir off r => encodeJump 0 dir off r
  | .jnz dir off r => encodeJump 1 dir off r
  | .jle dir off r => encodeJump 2 dir off r
  | .jlz dir off r => encodeJump 3 dir off r
  | .load a off d => encodeMemory 0 a off d
  | .store a off d => encodeMemory 1 a off d
  | .clear a off => encodeMemory 2 a off 0
  | .flush a off => encodeMemory 3 a off 0
  | .not a d => encodeAlu 0 a 0 d
  | .and a b d => encodeAlu 1 a b d
  | .or a b d => encodeAlu 2 a b d
  | .xor a b d => encodeAlu 3 a b d
  | .leftshift a b d => encodeAlu 4 a b d
  | .rightshift a b d => encodeAlu 5 a b d
  | .add a b d => encodeAlu 8 a b d
  | .subtract a b d => encodeAlu 9 a b d
  | .multiply a b d => encodeAlu 10 a b d
  | .divide a b d => encodeAlu 11 a b d
  | .modulo a b d => encodeAlu 12 a b d
  | .push mask => encodePushPop 0 mask
  | .pop mask => encodePushPop 1 mask
  | .call r => encodeCallReturn 0 r
  | .ret => encodeCallReturn 1 0
  | .halt => encodeControl 0 0
  | .noop => encodeControl 1 0
  | .sleep => encodeControl 2 0
  | .signal r => encodeControl 3 (0#3 ++ r)
  | .lock => encodeControl 4 0
  | .unlock => encodeControl 5 0
  | .interrupt v => encodeControl 6 v
  | .uninterrupt => encodeControl 7 0

end Sys2Proof
end

