-- ==== Sys2Proof/Machine/State.lean ====
section
/-! DEFINITION. The state of the machine: everything 10_state.md gives it, as plain data, and its value at reset
(R174). The tree of R1 is the tree of these structures; the parameters a machine was constructed with (R179) stand in it
as `cfg`, which no step changes. Fields that are the model's own are marked so. -/

namespace Sys2Proof.Machine

/-- The fatal conditions (R12, 93_implementation_defined.md section 1). All of them are the spec's; the state after one is
not defined and no further step is taken, so stopping here is safe. -/
inductive Fault where
  /-- F1: a request to a Store port that is busy or not free (R44). Raised by a port's request. Safe. -/
  | portNotIdle
  /-- F2: `Free()` on a port that is not completed-unconsumed (R43). Raised by a port's free. Safe. -/
  | freeNotCompleted
  /-- F3: an Error or an interrupt entry while one is pending or being serviced (R153, R156). Safe. -/
  | doubleInterrupt
  /-- F4: decoding an unrecognized word (R92), with the decoder's reason. Safe. -/
  | unrecognizedOpcode (reason : DecodeError)
  /-- F6: `Signal(id)` with an id that names no Context and no Device (R161). Safe. -/
  | unknownSignalTarget
  /-- F7: a Memory request whose window passes `MemorySize` (R48). Safe. -/
  | memoryOutOfRange
  /-- F7: Clear or Flush sent to Memory (R44). Safe. -/
  | memoryUnsupportedOperation
  /-- F8: a Device operation code with no registered handler, or a Store request a Device does not support (R44, R172).
  Safe. -/
  | deviceUnsupportedOperation
  /-- A Signal to a Device with an operation in progress, when `devBusySignal` is `fatal` (R172, D41). Safe. -/
  | deviceBusy
deriving DecidableEq, Repr

/-- Why the model gives a step no meaning. -/
inductive Refusal where
  /-- Raised by `exec` for an instruction without a meaning. Safe. No arm of `exec` answers it. -/
  | notModelled (mnemonic : String)
  /-- Raised by `step` for a configuration that is not well formed (R9, P2: refuse). Safe. -/
  | illFormedConfiguration
deriving DecidableEq, Repr

/-- One byte position of a Bus or of a cache line: the byte with its valid and dirty bits (R34, R37). -/
structure Lane where
  data : Byte
  valid : Bool
  dirty : Bool
deriving DecidableEq, Repr

/-- The reset value of a byte position: byte 0, not valid, not dirty (R34, R37). -/
def Lane.reset : Lane := { data := 0, valid := false, dirty := false }

/-- The request methods of a Store (R41). -/
inductive StoreOp where
  | read
  | write
  | clear
  | flush
deriving DecidableEq, Repr

/-- The upward port of a Store (R35). `bus` is its Bus (R34). `failures` is the MODEL'S OWN counter of unsuccessful
results: it picks the free values a Bus holds after one (R47, log entry 3). -/
structure Port where
  busy : Bool
  free : Bool
  successful : Bool
  op : StoreOp
  addr : Word
  bus : List Lane
  failures : Nat
deriving DecidableEq, Repr

/-- An idle port with a Bus of `width` bytes (R35). -/
def Port.reset (width : Nat) : Port where
  busy := false
  free := true
  successful := false
  op := .read
  addr := 0
  bus := List.replicate width Lane.reset
  failures := 0

/-- A cache line: its tag and its byte positions (R37). The tag is a number below `2^TagBits`. -/
structure Line where
  tag : Nat
  lanes : List Lane
deriving DecidableEq, Repr

/-- A line of `width` bytes at reset (R37). -/
def Line.reset (width : Nat) : Line := { tag := 0, lanes := List.replicate width Lane.reset }

/-- The lower request a cache has outstanding (R38). Line addresses are numbers below `2^64`. -/
inductive LowerRequest where
  /-- `None`. -/
  | idle
  /-- `Fetch(la)`. -/
  | fetch (la : Nat)
  /-- `WriteBack(la, mask, withFill)`. -/
  | writeBack (la : Nat) (mask : List Bool) (withFill : Bool)
deriving DecidableEq, Repr

/-- A cache: its port (R35), its lines (R37) and its miss-handling state (R38). -/
structure Cache where
  port : Port
  lines : List Line
  lp : LowerRequest
  fill : Option (Nat × List Byte)
deriving DecidableEq, Repr

/-- A cache at reset (R37, R38). -/
def Cache.reset (g : CacheConfig) : Cache where
  port := Port.reset g.busWidth
  lines := List.replicate (g.size / g.lineWidth) (Line.reset g.lineWidth)
  lp := .idle
  fill := none

/-- The in-flight instruction (R31): its static fields `instr`, the four operand slots, and the transient state that
persists across retries. -/
structure InFlight where
  instr : Instr
  op0 : Word
  op1 : Word
  op2 : Word
  op3 : Word
  issued : Bool
  success : Bool
  offset : Nat
  buf : List Byte
  synthesized : Bool
deriving DecidableEq, Repr

/-- The opcode latch's content (10_state.md section 2): the word and its `synthesized` mark. -/
structure Opcode where
  word : InstrWord
  synthesized : Bool
deriving DecidableEq, Repr

/-- A Context: the 28 stored registers R4 to R31 in order (R13, R14), and the state of 10_state.md section 2. -/
structure Context where
  regs : Vector Word 28
  interrupted : Bool
  asleep : Bool
  signalled : Bool
  pending : Option (BitVec 8)
  requiresLock : Bool
  acquiredLock : Bool
  fetchIssued : Bool
  fetchAddr : Word
  opcode : Option Opcode
  instruction : Option InFlight
  isRetrying : Bool
  l1i : Cache
  l1d : Cache
deriving DecidableEq, Repr

/-- A Context at reset: every stored register 0, asleep, every other flag false, every latch empty (R25 to R30). -/
def Context.reset (cfg : Config) : Context where
  regs := Vector.replicate 28 0
  interrupted := false
  asleep := true
  signalled := false
  pending := none
  requiresLock := false
  acquiredLock := false
  fetchIssued := false
  fetchAddr := 0
  opcode := none
  instruction := none
  isRetrying := false
  l1i := Cache.reset cfg.l1i
  l1d := Cache.reset cfg.l1d

/-- A Core (R32): its 8 Contexts (R2), its L2 cache, the pipeline cursor, the Context that holds its lock, and whether it
holds the system lock. -/
structure Core where
  ctxs : Vector Context 8
  l2 : Cache
  next : Fin 8
  holder : Option (Fin 8)
  coreAcquired : Bool
deriving DecidableEq, Repr

/-- A Core at reset (R32). -/
def Core.reset (cfg : Config) : Core where
  ctxs := Vector.replicate 8 (Context.reset cfg)
  l2 := Cache.reset cfg.l2
  next := 0
  holder := none
  coreAcquired := false

/-- What a Device is doing (R172). -/
inductive DeviceWork where
  /-- No operation in progress. -/
  | idle
  /-- Reading the control block: the bytes read so far. -/
  | readingBlock (got : List Byte)
  /-- Running a handler: the controller id, how data moves, DeviceAddress, MemoryAddress and Parameter as they advance. -/
  | running (controller : BitVec 32) (handler : DeviceHandler) (deviceAddress memoryAddress parameter : Word)
  /-- Writing the control block back: the controller id, the block's 32 bytes and how many are written. -/
  | writingBlock (controller : BitVec 32) (block : List Byte) (done : Nat)
deriving DecidableEq, Repr

/-- A Device, as far as the Processor's signal routing and the Memory port reach it (R170 to R172): its upward port (R35),
what it is doing, whether a request of it awaits its result on the Memory port, whether one more operation is queued
(`devBusySignal`), and the MODEL'S OWN count of the bytes it supplied (it picks the free values of log entry 6). -/
structure Device where
  port : Port
  work : DeviceWork
  issued : Bool
  queued : Bool
  supplied : Nat
deriving DecidableEq, Repr

/-- A Device at reset: idle. -/
def Device.reset (d : DeviceConfig) : Device where
  port := Port.reset d.busWidth
  work := .idle
  issued := false
  queued := false
  supplied := 0

/-- Memory (R39): its bytes and its port. `cells` lists, addresses strictly rising, every byte that is not 0; an unlisted
byte reads as 0 (R175). -/
structure Memory where
  cells : List Host.Cell
  port : Port
deriving DecidableEq, Repr

/-- The Processor (R33) with the parameters it was constructed with: Core 0 and the Cores above it (R3: at least one), the
L3 cache, Memory, the Devices, the Core that holds the system lock, `halted` and `cycle`. -/
structure State where
  cfg : Config
  core0 : Core
  upper : List Core
  l3 : Cache
  memory : Memory
  devices : List Device
  pholder : Option Nat
  halted : Bool
  cycle : Nat
deriving DecidableEq, Repr

/-- Construction (R174, R179): every element of state at its reset value, with an empty memory image. -/
def State.construct (cfg : Config) : State where
  cfg := cfg
  core0 := Core.reset cfg
  upper := List.replicate (cfg.coreCount - 1) (Core.reset cfg)
  l3 := Cache.reset cfg.l3
  memory := { cells := [], port := Port.reset cfg.memoryBusWidth }
  devices := cfg.devices.map Device.reset
  pholder := none
  halted := false
  cycle := 0

/-- The machine right after reset, in the reference configuration (R11, R174). Every Context sleeps until the host calls
`Signal(0)` (R176; log entry 1). -/
def State.reset : State := State.construct Config.reference

end Sys2Proof.Machine
end

