-- ==== Sys2Proof/Machine/Ops.lean ====
section
/-! DEFINITION. The named operations over bytes, Memory, ports, registers and the parts of the machine, and the one
operation by which a Context raises an Error, enters an interrupt and returns from one. -/

namespace Sys2Proof.Machine

/-! ## Bytes (00_scope.md section 5, R66) -/

/-- `be(bytes)`: the unsigned number whose most significant byte is the first. -/
def be (bytes : List Byte) : Nat := bytes.foldl (fun n b => n * 256 + b.toNat) 0

/-- `be` of 8 bytes, as a register value (R66). -/
def be8 (bytes : List Byte) : Word := BitVec.ofNat 64 (be bytes)

/-- `be_8(v)`: the 8 bytes of a register, the most significant first (R66). -/
def bytes8 (v : Word) : List Byte :=
  [v.extractLsb' 56 8, v.extractLsb' 48 8, v.extractLsb' 40 8, v.extractLsb' 32 8,
   v.extractLsb' 24 8, v.extractLsb' 16 8, v.extractLsb' 8 8, v.extractLsb' 0 8]

/-- `xs` with the elements from position `at_` replaced by `ys`. -/
def overwrite {α : Type} (xs : List α) (at_ : Nat) (ys : List α) : List α :=
  xs.take at_ ++ ys ++ xs.drop (at_ + ys.length)

/-! ## The bytes of Memory (R39, R175) -/

/-- The byte at an address: an unlisted byte is 0 (R175). -/
def readCells : List Host.Cell → Nat → Byte
  | [], _ => 0
  | (k, b) :: rest, a => if k = a then b else readCells rest a

/-- The cells with the byte at an address replaced, in the canonical form: addresses strictly rising, no 0 listed. -/
def writeCells : List Host.Cell → Nat → Byte → List Host.Cell
  | [], a, v => if v = 0 then [] else [(a, v)]
  | (k, b) :: rest, a, v =>
    if a < k then (if v = 0 then (k, b) :: rest else (a, v) :: (k, b) :: rest)
    else if a = k then (if v = 0 then rest else (a, v) :: rest)
    else (k, b) :: writeCells rest a v

/-- `n` bytes from an address on. -/
def readBytes (cells : List Host.Cell) (a : Nat) : Nat → List Byte
  | 0 => []
  | n + 1 => readCells cells a :: readBytes cells (a + 1) n

/-- Write the valid bytes of a Bus from an address on; the others are left alone (R48). -/
def writeLanes (cells : List Host.Cell) (a : Nat) : List Lane → List Host.Cell
  | [] => cells
  | l :: rest => writeLanes (if l.valid then writeCells cells a l.data else cells) (a + 1) rest

/-- One byte of Memory. -/
def Memory.byte (m : Memory) (a : Nat) : Byte := readCells m.cells a

/-- Memory's canonical form: addresses strictly rising, and no listed byte reads as an unlisted one does. -/
def Memory.wf (m : Memory) : Bool :=
  decide (m.cells.Pairwise (fun x y => x.1 < y.1)) && m.cells.all (fun x => x.2 != 0)

/-! ## Ports: the Store protocol (R41 to R47) -/

/-- `idle` (R36). -/
def Port.idle (p : Port) : Bool := !p.busy && p.free

/-- `completed-unconsumed` (R36). -/
def Port.completed (p : Port) : Bool := !p.busy && !p.free

/-- Issue a request (R41): only an idle port takes one (R44). `bus` is the Write payload; other requests leave the Bus. -/
def Port.request (p : Port) (op : StoreOp) (a : Nat) (bus : Option (List Lane)) : Except Fault Port :=
  if p.idle then
    .ok { p with busy := true, free := false, op := op, addr := BitVec.ofNat 64 a, bus := bus.getD p.bus }
  else .error .portNotIdle

/-- `Free()` (R43): only a completed-unconsumed port is freed (R44). -/
def Port.release (p : Port) : Except Fault Port :=
  if p.completed then .ok { p with free := true } else .error .freeNotCompleted

/-- A Bus of `width` bytes after the `k`-th unsuccessful result: free values (R47), the dirty bits kept 0 (R34). -/
def undefinedBus (k width : Nat) : List Lane :=
  (List.range width).map fun i =>
    { data := Config.undefinedByte k i, valid := Config.undefinedValid k i, dirty := false }

/-- Resolve the request of a busy port (R42). After an unsuccessful result the Bus content is not defined (R47). -/
def Port.resolve (p : Port) (ok : Bool) : Port :=
  if ok then { p with busy := false, successful := true }
  else { p with busy := false, successful := false, bus := undefinedBus p.failures p.bus.length,
                failures := p.failures + 1 }

/-- The Bus of a successful Read: every `valid` bit set (R47), the dirty bits 0 (R34). -/
def readBus (bytes : List Byte) : List Lane := bytes.map fun b => { data := b, valid := true, dirty := false }

/-- The Write payload that carries `bytes` at the Bus positions from `s` on and marks every other position not valid
(R46, R113). DESIGN CHOICE (log entry 13): the data byte of a position that is not valid is 0, and stays so in the Bus; the
spec gives it no value and ignores it (R41, R113). -/
def writeBus (width s : Nat) (bytes : List Byte) : List Lane :=
  List.replicate s Lane.reset ++ readBus bytes ++ List.replicate (width - s - bytes.length) Lane.reset

/-- `base(a)` for a Bus of `width` bytes (R46). -/
def windowBase (width a : Nat) : Nat := a - a % width

/-! ## Memory's clock (R48) -/

/-- `Memory.Clock()` (R48). Clear and Flush are requests Memory does not have (R44). -/
def Memory.clock (cfg : Config) (m : Memory) : Except Fault Memory :=
  if m.port.busy then
    let b := windowBase cfg.memoryBusWidth m.port.addr.toNat
    if b + cfg.memoryBusWidth > cfg.memorySize then .error .memoryOutOfRange
    else
      match m.port.op with
      | .read =>
        .ok { m with port := { m.port with bus := readBus (readBytes m.cells b cfg.memoryBusWidth) }.resolve true }
      | .write => .ok { cells := writeLanes m.cells b m.port.bus, port := m.port.resolve true }
      | _ => .error .memoryUnsupportedOperation
  else .ok m

/-! ## Registers (R13 to R18) -/

/-- Where a Context stands and the parameters of the machine: what its stages read and never write. -/
structure Env where
  cfg : Config
  coreId : Nat
  ctxId : Nat
deriving DecidableEq, Repr

/-- Which stored register a register number names; `none` for the synthesized R0 to R3 (R13). -/
def storedIndex (i : Reg) : Option (Fin 28) :=
  if h : 4 ≤ i.toNat then some ⟨i.toNat - 4, by have := i.isLt; omega⟩ else none

/-- `x[i]` (R13): R0 to R3 are synthesized, the others stored; every register is readable in both modes. -/
def Context.read (e : Env) (c : Context) (i : Reg) : Word :=
  match storedIndex i with
  | some k => c.regs[k]
  | none =>
    if i = 0 then 0 else if i = 1 then 1 else if i = 2 then BitVec.ofNat 64 e.coreId else BitVec.ofNat 64 e.ctxId

/-- `hw x[i] <- v` (R16): the hardware's own write, not checked. -/
def Context.hwWrite (c : Context) (i : Reg) (v : Word) : Context :=
  match storedIndex i with
  | some k => { c with regs := c.regs.set k v }
  | none => c

/-- IVT, R4 (R14, R21). -/
def Context.ivt (c : Context) : Word := c.regs[0]
/-- PS, R5 (R14, R19). -/
def Context.ps (c : Context) : Word := c.regs[1]
/-- PL, R6 (R14, R19). -/
def Context.pl (c : Context) : Word := c.regs[2]
/-- PC, R7 (R14, R17). -/
def Context.pc (c : Context) : Word := c.regs[3]
/-- SS, R8 (R14, R20). -/
def Context.ss (c : Context) : Word := c.regs[4]
/-- SL, R9 (R14, R20). -/
def Context.sl (c : Context) : Word := c.regs[5]
/-- SP, R10 (R14, R20). -/
def Context.sp (c : Context) : Word := c.regs[6]
/-- IPC, R11 (R14, R22). -/
def Context.ipc (c : Context) : Word := c.regs[7]
/-- IV, R12 (R14, R22). -/
def Context.iv (c : Context) : Word := c.regs[8]

/-- `pc <- target` (R16, R17). -/
def Context.setPc (c : Context) (v : Word) : Context := c.hwWrite 7 v

/-- `hw x[10] <- v` (R16). -/
def Context.setSp (c : Context) (v : Word) : Context := c.hwWrite 10 v

/-- `pc <- pc + 4` modulo 2^64, reading PC now (R18). -/
def Context.advancePc (c : Context) : Context := c.setPc (c.pc + 4)

/-- An architectural write is allowed to R16 to R31, and to R4 to R15 while interrupted (R15). -/
def Context.mayWrite (c : Context) (i : Reg) : Bool :=
  decide (16 ≤ i.toNat) || (decide (4 ≤ i.toNat) && c.interrupted)

/-! ## Errors and interrupts (R152 to R159) -/

/-- `InterruptSignal` (R152). -/
def interruptSignal : BitVec 8 := 0x00
/-- `ProgramAccessError` (R152). -/
def programAccessError : BitVec 8 := 0x04
/-- `RegisterAccessError` (R152). -/
def registerAccessError : BitVec 8 := 0x08
/-- `StackOverflowError` (R152). -/
def stackOverflowError : BitVec 8 := 0x0C
/-- `StackUnderflowError` (R152). -/
def stackUnderflowError : BitVec 8 := 0x10
/-- `ArithmeticError` (R152). -/
def arithmeticError : BitVec 8 := 0x14
/-- `UnsupportedOperationError` (R152). -/
def unsupportedOperationError : BitVec 8 := 0x18

/-- The in-flight instruction with `success` cleared (R153). -/
def InFlight.failed (f : InFlight) : InFlight := { f with success := false }

/-- `Error(v)` (R153): a second Error before the first is taken, or one in interrupt mode, is a fatal double interrupt;
otherwise `v` is recorded as pending and the in-flight instruction does not succeed. -/
def Context.raise (c : Context) (v : BitVec 8) : Except Fault Context :=
  if c.pending.isSome || c.interrupted then .error .doubleInterrupt
  else .ok { c with pending := some v, instruction := c.instruction.map InFlight.failed }

/-- The architectural register write of R15, with its `RegisterAccessError`. -/
def Context.archWrite (c : Context) (i : Reg) (v : Word) : Except Fault Context :=
  if c.mayWrite i then .ok (c.hwWrite i v) else c.raise registerAccessError

/-- `InterruptEntry(v, resume)` (R156): taking an interrupt. IPC and IV are saved, the mode changes, PC goes to IVT + v;
a second entry is a fatal double interrupt. -/
def Context.interruptEntry (c : Context) (v : Word) (resume : Word) : Except Fault Context :=
  if c.interrupted then .error .doubleInterrupt
  else
    let saved := { (c.hwWrite 11 resume).hwWrite 12 v with interrupted := true }
    .ok (saved.setPc (saved.ivt + v))

/-- The return from an interrupt (R159): `pc <- IPC`, `interrupted <- false`; nothing else is restored. -/
def Context.interruptReturn (c : Context) : Context := { c.setPc c.ipc with interrupted := false }

/-! ## The in-flight instruction (R31) -/

/-- The in-flight instruction replaced. -/
def Context.put (c : Context) (f : InFlight) : Context := { c with instruction := some f }

/-- The registers a Push or Pop mask names, ascending (R139). -/
def maskRegs (mask : BitVec 16) : List Reg :=
  (List.range 16).filterMap fun i => if mask.getLsbD i then some (BitVec.ofNat 5 (16 + i)) else none

/-- The length in bytes of the buffer an instruction's transfer uses (R68). -/
def bufferLength : Instr → Nat
  | .load .. => 8
  | .store .. => 8
  | .call _ => 8
  | .ret => 8
  | .push mask => 8 * (maskRegs mask).length
  | .pop mask => 8 * (maskRegs mask).length
  | _ => 0

/-- A newly decoded instruction (R31): operand slots empty, `issued` and `success` false, `offset` 0, `buf` all zero. -/
def InFlight.fresh (i : Instr) (synthesized : Bool) : InFlight where
  instr := i
  op0 := 0
  op1 := 0
  op2 := 0
  op3 := 0
  issued := false
  success := false
  offset := 0
  buf := List.replicate (bufferLength i) 0
  synthesized := synthesized

/-- What a phase or a stage of a Context asks of the Processor: a Signal (R161) or the halt (R144). -/
inductive Effect where
  | none
  | signal (id : Word)
  | halt
deriving DecidableEq, Repr

/-- The result of a phase: the Context, what it asks of the Processor, and what Retire returns (R95). -/
structure PhaseOut where
  ctx : Context
  effect : Effect
  done : Bool
deriving DecidableEq, Repr

/-- The five phases of the instruction contract (R95). -/
inductive Phase where
  | load
  | execute
  | format
  | store
  | retire
deriving DecidableEq, Repr

/-- A phase that only changes the Context. -/
def PhaseOut.just (c : Context) : PhaseOut := { ctx := c, effect := .none, done := false }

/-- A Retire phase that returns true (R95). -/
def PhaseOut.retired (c : Context) : PhaseOut := { ctx := c, effect := .none, done := true }

/-- A phase whose Context part may be fatal. -/
def justly (r : Except Fault Context) : Except Fault PhaseOut := r.map PhaseOut.just

/-! ## The parts of the machine (R1, R33) -/

/-- The eight Contexts of a Core in order (R32). -/
def allCtx : List (Fin 8) := [0, 1, 2, 3, 4, 5, 6, 7]

/-- Core k. -/
def State.core (s : State) : Nat → Core
  | 0 => s.core0
  | k + 1 => s.upper.getD k (Core.reset s.cfg)

/-- Core k replaced. -/
def State.setCore (s : State) (k : Nat) (c : Core) : State :=
  match k with
  | 0 => { s with core0 := c }
  | k + 1 => { s with upper := s.upper.set k c }

/-- `CoreCount` (R3). -/
def State.coreCount (s : State) : Nat := s.upper.length + 1

/-- Context j of a Core. -/
def Core.ctx (c : Core) (j : Fin 8) : Context := c.ctxs[j]

/-- Context j of a Core replaced. -/
def Core.setCtx (c : Core) (j : Fin 8) (x : Context) : Core := { c with ctxs := c.ctxs.set j x }

/-- Context j of Core k. -/
def State.ctx (s : State) (k : Nat) (j : Fin 8) : Context := (s.core k).ctx j

/-- Context j of Core k replaced. -/
def State.setCtx (s : State) (k : Nat) (j : Fin 8) (x : Context) : State := s.setCore k ((s.core k).setCtx j x)

/-- Where Context j of Core k stands. -/
def State.env (s : State) (k : Nat) (j : Fin 8) : Env := { cfg := s.cfg, coreId := k, ctxId := j }

/-! ## Signals (R161) and the start of a Device's operation (R172) -/

/-- A Signal to a Context: it wakes and the Signal is posted; several coalesce (R161, R27). -/
def Context.signal (c : Context) : Context := { c with asleep := false, signalled := true }

/-- A Signal to a Device (R172): an idle one starts to read its control block; for one with an operation in progress
`devBusySignal` decides (D41). -/
def Device.signal (d : DeviceConfig) (x : Device) : Except Fault Device :=
  match x.work with
  | .idle => .ok { x with work := .readingBlock [] }
  | _ =>
    match d.busySignal with
    | .ignored => .ok x
    | .queued => .ok { x with queued := true }
    | .fatal => .error .deviceBusy

/-- `Processor.Signal(id)` (R161). -/
def State.signal (s : State) (id : Nat) : Except Fault State :=
  if id < 8 * s.coreCount then
    let j : Fin 8 := Fin.ofNat 8 (id % 8)
    .ok (s.setCtx (id / 8) j (s.ctx (id / 8) j).signal)
  else
    match s.devices[id - 8 * s.coreCount]?, s.cfg.devices[id - 8 * s.coreCount]? with
    | some x, some d => do
      let x' ← x.signal d
      .ok { s with devices := s.devices.set (id - 8 * s.coreCount) x' }
    | _, _ => .error .unknownSignalTarget

/-- The part of an effect that reaches the Processor: a Signal (R161), the halt (R144). -/
def State.apply (s : State) : Effect → Except Fault State
  | .none => .ok s
  | .signal id => s.signal id.toNat
  | .halt => .ok { s with halted := true }

/-! ## Lock election (R164) -/

/-- `lockElect(R)` for a non-empty ascending set: the table's choice where it lists the set and chooses a member, else the
lowest index. -/
def lockElect (table : List (List Nat × Nat)) (r : List Nat) : Nat :=
  match table.lookup r with
  | some i => if r.contains i then i else r.headD 0
  | none => r.headD 0

end Sys2Proof.Machine
end

