-- ==== Sys2Proof/Machine/Device.lean ====
section
/-! DEFINITION. A Device's clock (R170 to R172): a requester of Memory that reads its control block, runs the handler
registered for the operation and signals the controller. What the handlers do inside the Device is left open (D41): the
bytes a Device supplies are free values, and the bytes it takes leave the model. -/

namespace Sys2Proof.Machine

/-- The size of a control block (R171). -/
def controlBlockSize : Nat := 32

/-- How many bytes the next request of a Device moves: at most a window, at most what is left (R172). -/
def deviceChunk (width a left : Nat) : Nat := min (width - a % width) left

/-- The 8 bytes of a control-block field, as a number (R171). -/
def blockField (block : List Byte) (offset : Nat) : Word := BitVec.ofNat 64 (be ((block.drop offset).take 8))

/-- The handler registered for an operation code (R172). -/
def handlerOf (d : DeviceConfig) (code : BitVec 32) : Option DeviceHandler :=
  d.handlers.find? fun h => h.code == code

/-- Decode a control block and start its operation (R171, R172): Command is the controller id and the operation code; a
code without a handler is fatal (F8). -/
def startOperation (d : DeviceConfig) (block : List Byte) : Except Fault DeviceWork :=
  let command := blockField block 0
  match handlerOf d (command.extractLsb' 0 32) with
  | none => .error .deviceUnsupportedOperation
  | some h =>
    .ok (.running (command.extractLsb' 32 32) h (blockField block 8) (blockField block 16) (blockField block 24))

/-- The control block written back: the fields as the operation left them (R171, D41). -/
def blockBytes (controller : BitVec 32) (code : BitVec 32) (da ma par : Word) : List Byte :=
  (bytes8 (controller ++ code) ++ bytes8 da) ++ (bytes8 ma ++ bytes8 par)

/-- The address, the bytes left and the method of the next Memory request of a Device at work; `none` when it needs
none. -/
def DeviceWork.nextRequest (d : DeviceConfig) : DeviceWork → Option (StoreOp × Nat × Nat)
  | .idle => none
  | .readingBlock got => some (.read, d.controlBlock + got.length, controlBlockSize - got.length)
  | .running _ h _ ma par =>
    match h.transfer with
    | .idle => none
    | .toMemory => some (.write, ma.toNat, par.toNat)
    | .fromMemory => some (.read, ma.toNat, par.toNat)
  | .writingBlock _ _ done => some (.write, d.controlBlock + done, controlBlockSize - done)

/-- The work after `k` bytes of a resolved request, with the Bus bytes of a read (R172). -/
def DeviceWork.advance (d : DeviceConfig) (k : Nat) (bytes : List Byte) : DeviceWork → Except Fault DeviceWork
  | .idle => .ok .idle
  | .readingBlock got =>
    let got' := got ++ bytes
    if got'.length < controlBlockSize then .ok (.readingBlock got') else startOperation d got'
  | .running controller h da ma par =>
    .ok (.running controller h (da + BitVec.ofNat 64 k) (ma + BitVec.ofNat 64 k) (par - BitVec.ofNat 64 k))
  | .writingBlock controller block done => .ok (.writingBlock controller block (done + k))

/-- An operation that is done (R172): its controller id, once nothing is left to move and the control block is written
back where the Device does so; otherwise the work goes on. -/
def DeviceWork.settle (d : DeviceConfig) : DeviceWork → DeviceWork × Option (BitVec 32)
  | .running controller h da ma par =>
    if h.transfer = .idle ∨ par = 0 then
      if d.writesBack then (.writingBlock controller (blockBytes controller h.code da ma par) 0, none)
      else (.idle, some controller)
    else (.running controller h da ma par, none)
  | .writingBlock controller block done =>
    if done < controlBlockSize then (.writingBlock controller block done, none) else (.idle, some controller)
  | work => (work, none)

/-- Consume the result of the Device's outstanding request once it has completed, and free the port (R170). -/
def Device.consume (cfg : Config) (d : DeviceConfig) (x : Device) (mem : Port) : Except Fault (Device × Port) :=
  if x.issued && mem.completed then
    match x.work.nextRequest d with
    | none => .ok (x, mem)
    | some (_, a, left) => do
      let k := deviceChunk cfg.memoryBusWidth a left
      let bytes := ((mem.bus.drop (a % cfg.memoryBusWidth)).take k).map Lane.data
      let work ← if mem.successful then x.work.advance d k bytes else .ok x.work
      let mem' ← mem.release
      .ok ({ x with work := work, issued := false }, mem')
  else .ok (x, mem)

/-- The bytes of the Device's next Write request: the control block's, or free values (D41). -/
def Device.outgoing (x : Device) (idx k : Nat) : List Byte :=
  match x.work with
  | .writingBlock _ block done => (block.drop done).take k
  | _ => (List.range k).map fun i => Config.deviceByte idx (x.supplied + i)

/-- Issue the Device's next request when none is outstanding and the Memory port is idle (R170). -/
def Device.issue (cfg : Config) (d : DeviceConfig) (idx : Nat) (x : Device) (mem : Port) :
    Except Fault (Device × Port) :=
  match x.work.nextRequest d with
  | none => .ok (x, mem)
  | some (op, a, left) =>
    if x.issued || !mem.idle then .ok (x, mem)
    else
      let k := deviceChunk cfg.memoryBusWidth a left
      match op with
      | .write =>
        (mem.request .write a (some (writeBus cfg.memoryBusWidth (a % cfg.memoryBusWidth) (x.outgoing idx k)))).map
          fun mem' => ({ x with issued := true, supplied := x.supplied + k }, mem')
      | _ => (mem.request .read a none).map fun mem' => ({ x with issued := true }, mem')

/-- `Device.Clock()` (R170 to R172): consume, settle, issue. The last component is the id to signal when the operation is
done. A request on the Device's own port is one it does not support (R44). -/
def Device.clock (cfg : Config) (d : DeviceConfig) (idx : Nat) (x : Device) (mem : Port) :
    Except Fault (Device × Port × Option (BitVec 32)) :=
  if x.port.busy then .error .deviceUnsupportedOperation
  else do
    let (x1, mem1) ← x.consume cfg d mem
    let (work, done) := x1.work.settle d
    let x2 :=
      if done.isSome && x1.queued then { x1 with work := .readingBlock [], queued := false }
      else { x1 with work := work }
    let (x3, mem2) ← x2.issue cfg d idx mem1
    .ok (x3, mem2, done)

end Sys2Proof.Machine
end

