-- ==== Sys2Proof/Machine/Cache.lean ====
section
/-! DEFINITION. The cache controller (R50 to R63): geometry, the background work that consumes a completed lower request,
and the four operations. `lower` is the port of the cache's lower Store. -/

namespace Sys2Proof.Machine

/-! ## Geometry (R8, R50) -/

/-- The ceiling of `log2 n` (R8). -/
def ceilLog2 (n : Nat) : Nat := if 2 ^ Nat.log2 n = n then Nat.log2 n else Nat.log2 n + 1

/-- `LineCount = Size / LineWidth` (R8). -/
def lineCount (g : CacheConfig) : Nat := g.size / g.lineWidth

/-- `IndexBits = ceil(log2(LineCount))` (R8). -/
def indexBits (g : CacheConfig) : Nat := ceilLog2 (lineCount g)

/-- `index(a) = a[O+I−1:O]` (R50). -/
def indexOf (g : CacheConfig) (a : Nat) : Nat := a / 2 ^ g.offsetBits % 2 ^ indexBits g

/-- `tag(a) = a[63:O+I]` (R50). -/
def tagOf (g : CacheConfig) (a : Nat) : Nat := a / 2 ^ (g.offsetBits + indexBits g)

/-- `la(a) = a − (a mod L)` (R50). -/
def lineAddr (g : CacheConfig) (a : Nat) : Nat := a - a % g.lineWidth

/-- `lineaddr(t, j) = t·2^(O+I) + j·2^O` (R50). -/
def addrOfLine (g : CacheConfig) (t j : Nat) : Nat := t * 2 ^ (g.offsetBits + indexBits g) + j * 2 ^ g.offsetBits

/-- `wo(a) = base(a) mod L` (R50). -/
def windowOffset (g : CacheConfig) (a : Nat) : Nat := windowBase g.busWidth a % g.lineWidth

/-! ## Lines -/

/-- Line j of a cache. -/
def Cache.line (g : CacheConfig) (c : Cache) (j : Nat) : Line := c.lines.getD j (Line.reset g.lineWidth)

/-- Line j of a cache replaced. -/
def Cache.setLine (c : Cache) (j : Nat) (ln : Line) : Cache := { c with lines := c.lines.set j ln }

/-- Positions `w .. w+n−1` of a line. -/
def Line.window (ln : Line) (w n : Nat) : List Lane := (ln.lanes.drop w).take n

/-- The dirty bits of a line, as a set of positions. -/
def Line.dirtyMask (ln : Line) : List Bool := ln.lanes.map Lane.dirty

/-- Some byte of the line is dirty. -/
def Line.isDirty (ln : Line) : Bool := ln.lanes.any Lane.dirty

/-- The dirty positions of the window `w .. w+n−1`, as a set of line positions (R62). -/
def Line.windowDirtyMask (ln : Line) (w n : Nat) : List Bool :=
  List.zipWith (fun l p => l.dirty && decide (w ≤ p) && decide (p < w + n)) ln.lanes (List.range ln.lanes.length)

/-- The Bus of a write-back: the bytes of `mask` are valid, the others are not written (D7). -/
def Line.writeBackBus (ln : Line) (mask : List Bool) : List Lane :=
  List.zipWith (fun l m => { data := l.data, valid := m, dirty := false }) ln.lanes mask

/-- A byte position after a fill: a dirty byte keeps its newer data, every byte becomes valid (R54). -/
def Lane.fill (l : Lane) (b : Byte) : Lane :=
  { data := if l.dirty then l.data else b, valid := true, dirty := l.dirty }

/-- A byte position after a Write of the Bus byte `b` (R58): a byte written with the value it held stays clean, unless
`DirtyOnUnchangedWrite`. -/
def Lane.written (always : Bool) (l b : Lane) : Lane :=
  if b.valid then
    { data := b.data, valid := true, dirty := l.dirty || !l.valid || decide (l.data ≠ b.data) || always }
  else l

/-- A byte position after Clear (R61). -/
def Lane.cleared (l : Lane) : Lane := { l with valid := false, dirty := false }

/-- A byte position whose dirty bit a completed write-back clears when it is in the mask (R53). -/
def Lane.cleaned (l : Lane) (m : Bool) : Lane := if m then { l with dirty := false } else l

/-- A write-back of line j is outstanding (R58). -/
def Cache.writeBackOutstanding (g : CacheConfig) (c : Cache) (j : Nat) : Bool :=
  match c.lp with
  | .writeBack va _ _ => indexOf g va == j
  | _ => false

/-! ## Lower requests (R54, R55) -/

/-- `Install(la, fetched)` (R54). A dirty victim is written back first while the fetched line waits in the fill buffer. -/
def Cache.install (g : CacheConfig) (c : Cache) (lower : Port) (la : Nat) (fetched : List Byte) :
    Except Fault (Cache × Port) :=
  let j := indexOf g la
  let t := tagOf g la
  let ln := c.line g j
  if ln.tag = t then .ok (c.setLine j { ln with lanes := List.zipWith Lane.fill ln.lanes fetched }, lower)
  else if !ln.isDirty then .ok (c.setLine j { tag := t, lanes := readBus fetched }, lower)
  else
    let va := addrOfLine g ln.tag j
    (lower.request .write va (some (ln.writeBackBus ln.dirtyMask))).map fun lower' =>
      ({ c with fill := some (la, fetched), lp := .writeBack va ln.dirtyMask true }, lower')

/-- `RequestLower(Fetch(la))` (R55). -/
def Cache.requestFetch (c : Cache) (lower : Port) (la : Nat) : Except Fault (Cache × Port) :=
  if c.lp = .idle ∧ lower.idle then
    (lower.request .read la none).map fun lower' => ({ c with lp := .fetch la }, lower')
  else .ok (c, lower)

/-- `RequestLower(WriteBack(va, mask, false))` (R55). -/
def Cache.requestWriteBack (g : CacheConfig) (c : Cache) (lower : Port) (va : Nat) (mask : List Bool) :
    Except Fault (Cache × Port) :=
  if c.lp = .idle ∧ lower.idle then
    (lower.request .write va (some ((c.line g (indexOf g va)).writeBackBus mask))).map fun lower' =>
      ({ c with lp := .writeBack va mask false }, lower')
  else .ok (c, lower)

/-- Clear the dirty bits of a completed write-back (R53). -/
def Cache.cleanLine (g : CacheConfig) (c : Cache) (va : Nat) (mask : List Bool) : Cache :=
  let j := indexOf g va
  let ln := c.line g j
  c.setLine j { ln with lanes := List.zipWith Lane.cleaned ln.lanes mask }

/-- `Background()` (R53): consume the cache's own lower request once it has completed. -/
def Cache.background (g : CacheConfig) (c : Cache) (lower : Port) : Except Fault (Cache × Port) :=
  if lower.completed then
    match c.lp with
    | .idle => .ok (c, lower)
    | .fetch la =>
      lower.release.bind fun lower' =>
        let c' := { c with lp := .idle }
        if lower.successful then c'.install g lower' la ((lower.bus.take g.lineWidth).map Lane.data)
        else .ok (c', lower')
    | .writeBack va mask withFill =>
      lower.release.bind fun lower' =>
        let c' := { c with lp := .idle }
        if lower.successful then
          let c'' := c'.cleanLine g va mask
          if withFill then
            match c''.fill with
            | some (fa, fd) => { c'' with fill := none }.install g lower' fa fd
            | none => .ok (c'', lower')
          else .ok (c'', lower')
        else .ok ({ c' with fill := none }, lower')
  else .ok (c, lower)

/-! ## The four operations (R56 to R62): each answers whether the attempt succeeds -/

/-- Read (R56, R57). -/
def Cache.attemptRead (g : CacheConfig) (c : Cache) (lower : Port) (a : Nat) : Except Fault (Bool × Cache × Port) :=
  let ln := c.line g (indexOf g a)
  let win := ln.window (windowOffset g a) g.busWidth
  if ln.tag = tagOf g a ∧ win.all Lane.valid then
    .ok (true, { c with port := { c.port with bus := readBus (win.map Lane.data) } }, lower)
  else (c.requestFetch lower (lineAddr g a)).map fun r => (false, r.1, r.2)

/-- The line with the Bus written into its window (R58). -/
def Line.write (always : Bool) (ln : Line) (w : Nat) (bus : List Lane) : Line :=
  { ln with lanes := overwrite ln.lanes w (List.zipWith (Lane.written always) (ln.window w bus.length) bus) }

/-- Write (R58 to R60): a hit writes the valid Bus bytes; a miss on a clean line repurposes it in the same attempt; a miss
on a dirty line asks for its write-back and fails; an outstanding write-back of the line fails it. -/
def Cache.attemptWrite (g : CacheConfig) (always : Bool) (c : Cache) (lower : Port) (a : Nat) :
    Except Fault (Bool × Cache × Port) :=
  let j := indexOf g a
  let t := tagOf g a
  let ln := c.line g j
  if ln.tag ≠ t ∧ ln.isDirty then
    (c.requestWriteBack g lower (addrOfLine g ln.tag j) ln.dirtyMask).map fun r => (false, r.1, r.2)
  else if c.writeBackOutstanding g j then .ok (false, c, lower)
  else
    let base : Line :=
      if ln.tag = t then ln
      else { tag := t, lanes := ln.lanes.map Lane.cleared }
    .ok (true, c.setLine j (base.write always (windowOffset g a) c.port.bus), lower)

/-- Clear (R61): always succeeds, with no lower traffic. -/
def Cache.attemptClear (g : CacheConfig) (c : Cache) (lower : Port) (a : Nat) : Except Fault (Bool × Cache × Port) :=
  let j := indexOf g a
  let ln := c.line g j
  let w := windowOffset g a
  if ln.tag = tagOf g a then
    .ok (true, c.setLine j { ln with lanes := overwrite ln.lanes w ((ln.window w g.busWidth).map Lane.cleared) }, lower)
  else .ok (true, c, lower)

/-- Flush (R62): a clean window succeeds at once; a dirty one asks for its write-back and fails. -/
def Cache.attemptFlush (g : CacheConfig) (c : Cache) (lower : Port) (a : Nat) : Except Fault (Bool × Cache × Port) :=
  let j := indexOf g a
  let ln := c.line g j
  let m := ln.windowDirtyMask (windowOffset g a) g.busWidth
  if ln.tag = tagOf g a ∧ m.any id then
    (c.requestWriteBack g lower (addrOfLine g (tagOf g a) j) m).map fun r => (false, r.1, r.2)
  else .ok (true, c, lower)

/-- `Attempt(op, addr)` (R52). -/
def Cache.attempt (g : CacheConfig) (always : Bool) (c : Cache) (lower : Port) : Except Fault (Bool × Cache × Port) :=
  match c.port.op with
  | .read => c.attemptRead g lower c.port.addr.toNat
  | .write => c.attemptWrite g always lower c.port.addr.toNat
  | .clear => c.attemptClear g lower c.port.addr.toNat
  | .flush => c.attemptFlush g lower c.port.addr.toNat

/-- `Cache.Clock()` (R52): the background work, then the request of a busy port. -/
def Cache.clock (g : CacheConfig) (always : Bool) (c : Cache) (lower : Port) : Except Fault (Cache × Port) :=
  (c.background g lower).bind fun (c1, lower1) =>
    if c1.port.busy then
      (c1.attempt g always lower1).map fun (ok, c2, lower2) => ({ c2 with port := c2.port.resolve ok }, lower2)
    else .ok (c1, lower1)

end Sys2Proof.Machine
end

