-- ==== Sys2Proof/Machine/Operands.lean ====
section
/-! DEFINITION. Operands: immediates (R89), effective and physical addresses and their checks (R99, R121, R122), the stack
checks (R20, R140 to R143), and the data access engine (R113). -/

namespace Sys2Proof.Machine

/-! ## Immediates (R89): zero-extended and unscaled -/

/-- `zext_64(v)`. -/
def zext {n : Nat} (v : BitVec n) : Word := v.setWidth 64

/-- `EA = (x[A] + zext_64(OFF)) mod 2^64` (R121). -/
def effectiveAddress (e : Env) (c : Context) (a : Reg) (off : BitVec 17) : Word := c.read e a + zext off

/-- The base added to a program-relative address: PS in normal mode, 0 while interrupted (R17, R121). -/
def programBase (c : Context) : Word := if c.interrupted then 0 else c.ps

/-- A physical address in integers: base plus offset, with no wrap (R121). -/
def physical (base ea : Word) : Nat := base.toNat + ea.toNat

/-- `data_ok(P, n)` (R122). -/
def dataOk (e : Env) (c : Context) (p n : Nat) : Bool :=
  decide (p + n ≤ e.cfg.memorySize) && (c.interrupted || decide (p + n ≤ c.pl.toNat))

/-- The fetch address, in integers (R17, R98). -/
def fetchAddress (c : Context) : Nat := physical (programBase c) c.pc

/-- `fetch_ok(a)` (R99). -/
def fetchOk (e : Env) (c : Context) (a : Nat) : Bool :=
  decide (a % 4 = 0) && decide (a + 4 ≤ e.cfg.memorySize) &&
  (c.interrupted || (decide (c.ps.toNat ≤ a) && decide (a + 4 ≤ c.pl.toNat)))

/-! ## The data access engine (R113) -/

/-- The address of the next window request of a transfer at `p`. -/
def InFlight.nextAddr (f : InFlight) (p : Nat) : Nat := p + f.offset

/-- How many bytes the next window request of a transfer of `n` bytes at `p` moves: `min(W − s, n − offset)`. -/
def InFlight.chunk (f : InFlight) (width p n : Nat) : Nat :=
  min (width - f.nextAddr p % width) (n - f.offset)

/-- The Write payload of the next window request. -/
def InFlight.payload (f : InFlight) (width p n : Nat) : List Lane :=
  writeBus width (f.nextAddr p % width) ((f.buf.drop f.offset).take (f.chunk width p n))

/-- `AccessExecute(op, P, n)` (R113): send the next window request, unless one is outstanding or the L1D is not idle. -/
def accessExecute (e : Env) (op : StoreOp) (p n : Nat) (c : Context) (f : InFlight) : Except Fault Context :=
  if f.issued || !c.l1d.port.idle then .ok (c.put f.failed)
  else
    let bus := match op with
      | .write => some (f.payload e.cfg.l1d.busWidth p n)
      | _ => none
    (c.l1d.port.request op (f.nextAddr p) bus).map fun port =>
      { c with l1d := { c.l1d with port := port } }.put { f with issued := true, success := false }

/-- The buffer after a resolved Read request: the bytes of the window from the request's address on (R113). -/
def InFlight.received (f : InFlight) (width p n : Nat) (bus : List Lane) : InFlight :=
  let bytes := ((bus.drop (f.nextAddr p % width)).take (f.chunk width p n)).map Lane.data
  { f with buf := overwrite f.buf f.offset bytes }

/-- `AccessFormat(op, P, n)` (R113): consume the result of the outstanding request and free the port. -/
def accessFormat (e : Env) (op : StoreOp) (p n : Nat) (c : Context) (f : InFlight) : Except Fault Context :=
  if !f.issued || c.l1d.port.busy then .ok (c.put f.failed)
  else
    let width := e.cfg.l1d.busWidth
    let port := c.l1d.port
    let f1 := if port.successful && op == .read then f.received width p n port.bus else f
    let offset := if port.successful then f.offset + f.chunk width p n else f.offset
    (port.release).map fun port' =>
      { c with l1d := { c.l1d with port := port' } }.put
        { f1 with issued := false, offset := offset, success := port.successful && offset == n }

/-- The Execute phase of an instruction that uses the engine (R114): its error check on every visit, then the next request. -/
def checkedAccess (e : Env) (op : StoreOp) (p n : Nat) (error : Option (BitVec 8)) (c : Context) (f : InFlight) :
    Except Fault Context :=
  match error with
  | some v => c.raise v
  | none => accessExecute e op p n c f

/-! ## The stack checks (R20, R140 to R143), in integers -/

/-- The check of a transfer of `n` registers, `0 < n`, pushed at `s`: `StackOverflowError` when the last register would
start at or above SL, `ProgramAccessError` past `MemorySize` (R140; R142 with `n = 1`). -/
def pushError (e : Env) (c : Context) (s : Word) (n : Nat) : Option (BitVec 8) :=
  if c.sl.toNat ≤ s.toNat + 8 * (n - 1) then some stackOverflowError
  else if e.cfg.memorySize < s.toNat + 8 * n then some programAccessError
  else none

/-- The check of a transfer of `n` registers popped from below `s`: `StackUnderflowError` when `s − 8n < SS` in integers,
`ProgramAccessError` when `s` is past `MemorySize` (R141; R143 with `n = 1`). -/
def popError (e : Env) (c : Context) (s : Word) (n : Nat) : Option (BitVec 8) :=
  if (s.toNat : Int) - 8 * n < c.ss.toNat then some stackUnderflowError
  else if e.cfg.memorySize < s.toNat then some programAccessError
  else none

/-- The address a transfer of `n` registers is popped from: `s − 8n`, not negative once `popError` passes (R141). -/
def popAddr (s : Word) (n : Nat) : Nat := s.toNat - 8 * n

/-- The check of a Memory-family transfer (R122). -/
def dataError (e : Env) (c : Context) (p n : Nat) : Option (BitVec 8) :=
  if dataOk e c p n then none else some programAccessError

end Sys2Proof.Machine
end

