-- ==== Sys2Proof/Machine/LoadConst.lean ====
section
/-! DEFINITION. The default phases (R96) and LoadC (R115). -/

namespace Sys2Proof.Machine

/-- The Retire of R96 (R18): `pc <- pc + 4`, true. -/
def retireAdvance (c : Context) : Except Fault PhaseOut := .ok (.retired c.advancePc)

/-- The phases of LoadC (R115). -/
def loadcPhase (k : BitVec 26) (d : Reg) (p : Phase) (_e : Env) (c : Context) (f : InFlight) : Except Fault PhaseOut :=
  match p with
  | .load => .ok (.just (c.put { f with op0 := zext k, success := false }))
  | .execute => .ok (.just (c.put { f with op2 := f.op0, success := true }))
  | .format => .ok (.just c)
  | .store => justly (c.archWrite d f.op2)
  | .retire => retireAdvance c

end Sys2Proof.Machine
end

