-- ==== Sys2Proof/Machine/Alu.lean ====
section
/-! DEFINITION. The ALU instructions (R127 to R138): `op0` and `op1` the operands, `op2` the result. -/

namespace Sys2Proof.Machine

/-- The phases every ALU instruction has (R127). `op` is the operation of its OP; it answers `none` where the instruction
raises `ArithmeticError`. -/
def aluPhase (op : Word → Word → Option Word) (a b d : Reg) (p : Phase) (e : Env) (c : Context) (f : InFlight) :
    Except Fault PhaseOut :=
  match p with
  | .load => .ok (.just (c.put { f with op0 := c.read e a, op1 := c.read e b, success := false }))
  | .execute =>
    match op f.op0 f.op1 with
    | some r => .ok (.just (c.put { f with op2 := r, success := true }))
    | none => justly (c.raise arithmeticError)
  | .format => .ok (.just c)
  | .store => justly (c.archWrite d f.op2)
  | .retire => retireAdvance c

/-- `not`: the bitwise complement (R128). -/
def aluNot (x : Word) : Word := ~~~x

/-- The phases of Not (R128), which reads only its first operand (R127). -/
def notPhase (a d : Reg) (p : Phase) (e : Env) (c : Context) (f : InFlight) : Except Fault PhaseOut :=
  match p with
  | .load => .ok (.just (c.put { f with op0 := c.read e a, success := false }))
  | .execute => .ok (.just (c.put { f with op2 := aluNot f.op0, success := true }))
  | .format => .ok (.just c)
  | .store => justly (c.archWrite d f.op2)
  | .retire => retireAdvance c

/-- The operation of `and` (R129). -/
def aluAnd (x y : Word) : Word := x &&& y

/-- The phases of `and` (R129). -/
def andPhase (a b d : Reg) (p : Phase) (e : Env) (c : Context) (f : InFlight) : Except Fault PhaseOut :=
  aluPhase (fun x y => some (aluAnd x y)) a b d p e c f

/-- The operation of `or` (R130). -/
def aluOr (x y : Word) : Word := x ||| y

/-- The phases of `or` (R130). -/
def orPhase (a b d : Reg) (p : Phase) (e : Env) (c : Context) (f : InFlight) : Except Fault PhaseOut :=
  aluPhase (fun x y => some (aluOr x y)) a b d p e c f

/-- The operation of `xor` (R131). -/
def aluXor (x y : Word) : Word := x ^^^ y

/-- The phases of `xor` (R131). -/
def xorPhase (a b d : Reg) (p : Phase) (e : Env) (c : Context) (f : InFlight) : Except Fault PhaseOut :=
  aluPhase (fun x y => some (aluXor x y)) a b d p e c f

/-- The operation of `leftshift` (R132). -/
def aluLeftshift (x y : Word) : Word := if y.toNat < 64 then x <<< y.toNat else 0

/-- The phases of `leftshift` (R132). -/
def leftshiftPhase (a b d : Reg) (p : Phase) (e : Env) (c : Context) (f : InFlight) : Except Fault PhaseOut :=
  aluPhase (fun x y => some (aluLeftshift x y)) a b d p e c f

/-- The operation of `rightshift` (R133). -/
def aluRightshift (x y : Word) : Word := if y.toNat < 64 then x >>> y.toNat else 0

/-- The phases of `rightshift` (R133). -/
def rightshiftPhase (a b d : Reg) (p : Phase) (e : Env) (c : Context) (f : InFlight) : Except Fault PhaseOut :=
  aluPhase (fun x y => some (aluRightshift x y)) a b d p e c f

/-- The operation of `add` (R134). -/
def aluAdd (x y : Word) : Word := x + y

/-- The phases of `add` (R134). -/
def addPhase (a b d : Reg) (p : Phase) (e : Env) (c : Context) (f : InFlight) : Except Fault PhaseOut :=
  aluPhase (fun x y => some (aluAdd x y)) a b d p e c f

/-- The operation of `subtract` (R135). -/
def aluSubtract (x y : Word) : Word := x - y

/-- The phases of `subtract` (R135). -/
def subtractPhase (a b d : Reg) (p : Phase) (e : Env) (c : Context) (f : InFlight) : Except Fault PhaseOut :=
  aluPhase (fun x y => some (aluSubtract x y)) a b d p e c f

/-- The operation of `multiply` (R136). -/
def aluMultiply (x y : Word) : Word := x * y

/-- The phases of `multiply` (R136). -/
def multiplyPhase (a b d : Reg) (p : Phase) (e : Env) (c : Context) (f : InFlight) : Except Fault PhaseOut :=
  aluPhase (fun x y => some (aluMultiply x y)) a b d p e c f

/-- The operation of `divide` (R137): unsigned `floor(op0 / op1)`, and `ArithmeticError` for a zero divisor. -/
def aluDivide (x y : Word) : Option Word := if y = 0 then none else some (BitVec.ofNat 64 (x.toNat / y.toNat))

/-- The phases of `divide` (R137). -/
def dividePhase (a b d : Reg) (p : Phase) (e : Env) (c : Context) (f : InFlight) : Except Fault PhaseOut :=
  aluPhase aluDivide a b d p e c f

/-- The operation of `modulo` (R138): unsigned `op0 mod op1`, and `ArithmeticError` for a zero divisor. -/
def aluModulo (x y : Word) : Option Word := if y = 0 then none else some (BitVec.ofNat 64 (x.toNat % y.toNat))

/-- The phases of `modulo` (R138). -/
def moduloPhase (a b d : Reg) (p : Phase) (e : Env) (c : Context) (f : InFlight) : Except Fault PhaseOut :=
  aluPhase aluModulo a b d p e c f

end Sys2Proof.Machine
end

