-- ==== Sys2Proof/Machine/CallReturn.lean ====
section
/-! DEFINITION. Call and Return (R142, R143): `op0` holds S, the stack pointer read in Load, `op1` the target T. -/

namespace Sys2Proof.Machine

/-- The phases of Call (R142). -/
def callPhase (r : Reg) (p : Phase) (e : Env) (c : Context) (f : InFlight) : Except Fault PhaseOut :=
  match p with
  | .load => .ok (.just (c.put { f with op0 := c.sp, op1 := c.read e r, buf := bytes8 (c.pc + 4), success := false }))
  | .execute => justly (checkedAccess e .write f.op0.toNat 8 (pushError e c f.op0 1) c f)
  | .format => justly (accessFormat e .write f.op0.toNat 8 c f)
  | .store => .ok (.just (c.setSp (f.op0 + 8)))
  | .retire => .ok (.retired (c.setPc f.op1))

/-- The phases of Return (R143). -/
def retPhase (p : Phase) (e : Env) (c : Context) (f : InFlight) : Except Fault PhaseOut :=
  match p with
  | .load => .ok (.just (c.put { f with op0 := c.sp, success := false }))
  | .execute => justly (checkedAccess e .read (popAddr f.op0 1) 8 (popError e c f.op0 1) c f)
  | .format => justly (accessFormat e .read (popAddr f.op0 1) 8 c f)
  | .store => .ok (.just ((c.put { f with op1 := be8 (f.buf.take 8) }).setSp (f.op0 - 8)))
  | .retire => .ok (.retired (c.setPc f.op1))

end Sys2Proof.Machine
end

