-- ==== Sys2Proof/Machine/Flags.lean ====
section
/-! DEFINITION. The machine has no condition-code register (R24): what other machines compute as flags, the conditional
jumps compute from the value of a register (R87, R117 to R120). -/

namespace Sys2Proof.Machine

/-- `ez`: `x = 0` (R87, R117). -/
def isZero (x : Word) : Bool := decide (x = 0)

/-- `nz`: `x ≠ 0` (R87, R118). -/
def isNonZero (x : Word) : Bool := decide (x ≠ 0)

/-- `le`: `signed(x) ≤ 0` (R87, R119). -/
def isNonPositive (x : Word) : Bool := decide (x.toInt ≤ 0)

/-- `lz`: `signed(x) < 0` (R87, R120). -/
def isNegative (x : Word) : Bool := decide (x.toInt < 0)

end Sys2Proof.Machine
end

