-- ==== Sys2Proof/Machine/Jump.lean ====
section
/-! DEFINITION. Conditional jumps (R116 to R120). -/

namespace Sys2Proof.Machine

/-- The target of a jump (R116): the jump's own PC plus or minus the offset, modulo 2^64. -/
def jumpTarget (pc : Word) (dir : Direction) (off : BitVec 22) : Word :=
  match dir with
  | .forward => pc + zext off
  | .backward => pc - zext off

/-- The phases every jump has (R116): `op0` the tested value, `op1` the target, `op2` 1 when taken. -/
def jumpPhase (cond : Word → Bool) (dir : Direction) (off : BitVec 22) (r : Reg) (p : Phase) (e : Env) (c : Context)
    (f : InFlight) : Except Fault PhaseOut :=
  match p with
  | .load => .ok (.just (c.put { f with op0 := c.read e r, success := false }))
  | .execute =>
    .ok (.just (c.put { f with op1 := jumpTarget c.pc dir off, op2 := if cond f.op0 then 1 else 0, success := true }))
  | .format => .ok (.just c)
  | .store => .ok (.just c)
  | .retire => if f.op2 = 1 then .ok (.retired (c.setPc f.op1)) else retireAdvance c

/-- The phases of `jez` (R117). -/
def jezPhase (dir : Direction) (off : BitVec 22) (r : Reg) (p : Phase) (e : Env) (c : Context) (f : InFlight) :
    Except Fault PhaseOut :=
  jumpPhase isZero dir off r p e c f

/-- The phases of `jnz` (R118). -/
def jnzPhase (dir : Direction) (off : BitVec 22) (r : Reg) (p : Phase) (e : Env) (c : Context) (f : InFlight) :
    Except Fault PhaseOut :=
  jumpPhase isNonZero dir off r p e c f

/-- The phases of `jle` (R119). -/
def jlePhase (dir : Direction) (off : BitVec 22) (r : Reg) (p : Phase) (e : Env) (c : Context) (f : InFlight) :
    Except Fault PhaseOut :=
  jumpPhase isNonPositive dir off r p e c f

/-- The phases of `jlz` (R120). -/
def jlzPhase (dir : Direction) (off : BitVec 22) (r : Reg) (p : Phase) (e : Env) (c : Context) (f : InFlight) :
    Except Fault PhaseOut :=
  jumpPhase isNegative dir off r p e c f

end Sys2Proof.Machine
end

