-- ==== Sys2Proof/Machine/LoadStore.lean ====
section
/-! DEFINITION. Load, Store, Clear and Flush (R121 to R126). The physical address P is kept exactly, as two operand slots:
`op0` the effective address and `op1` the base added to it. -/

namespace Sys2Proof.Machine

/-- P, in integers (R121). -/
def InFlight.physical (f : InFlight) : Nat := Machine.physical f.op1 f.op0

/-- The Load phase of the Memory family: P (R121). -/
def loadAddress (e : Env) (c : Context) (a : Reg) (off : BitVec 17) (f : InFlight) : InFlight :=
  { f with op0 := effectiveAddress e c a off, op1 := programBase c, success := false }

/-- The phases of Load (R123). -/
def loadPhase (a : Reg) (off : BitVec 17) (d : Reg) (p : Phase) (e : Env) (c : Context) (f : InFlight) :
    Except Fault PhaseOut :=
  match p with
  | .load => .ok (.just (c.put (loadAddress e c a off f)))
  | .execute => justly (checkedAccess e .read f.physical 8 (dataError e c f.physical 8) c f)
  | .format => justly (accessFormat e .read f.physical 8 c f)
  | .store => justly (c.archWrite d (be8 (f.buf.take 8)))
  | .retire => retireAdvance c

/-- The phases of Store (R124). -/
def storePhase (a : Reg) (off : BitVec 17) (d : Reg) (p : Phase) (e : Env) (c : Context) (f : InFlight) :
    Except Fault PhaseOut :=
  match p with
  | .load => .ok (.just (c.put { loadAddress e c a off f with buf := bytes8 (c.read e d) }))
  | .execute => justly (checkedAccess e .write f.physical 8 (dataError e c f.physical 8) c f)
  | .format => justly (accessFormat e .write f.physical 8 c f)
  | .store => .ok (.just c)
  | .retire => retireAdvance c

/-- The phases of Clear (R125). -/
def clearPhase (a : Reg) (off : BitVec 17) (p : Phase) (e : Env) (c : Context) (f : InFlight) : Except Fault PhaseOut :=
  match p with
  | .load => .ok (.just (c.put (loadAddress e c a off f)))
  | .execute => justly (checkedAccess e .clear f.physical 1 (dataError e c f.physical 1) c f)
  | .format => justly (accessFormat e .clear f.physical 1 c f)
  | .store => .ok (.just c)
  | .retire => retireAdvance c

/-- The phases of Flush (R126). -/
def flushPhase (a : Reg) (off : BitVec 17) (p : Phase) (e : Env) (c : Context) (f : InFlight) : Except Fault PhaseOut :=
  match p with
  | .load => .ok (.just (c.put (loadAddress e c a off f)))
  | .execute => justly (checkedAccess e .flush f.physical 1 (dataError e c f.physical 1) c f)
  | .format => justly (accessFormat e .flush f.physical 1 c f)
  | .store => .ok (.just c)
  | .retire => retireAdvance c

end Sys2Proof.Machine
end

