-- ==== Sys2Proof/Machine/PushPop.lean ====
section
/-! DEFINITION. Push and Pop (R139 to R141): `op0` holds S, the stack pointer read in Load. -/

namespace Sys2Proof.Machine

/-- The bytes a Push stores: `be_8` of each register of the mask, ascending (R139, R140). -/
def pushBytes (e : Env) (c : Context) (mask : BitVec 16) : List Byte :=
  (maskRegs mask).flatMap fun r => bytes8 (c.read e r)

/-- The number of registers a mask names (R139). -/
def maskCount (mask : BitVec 16) : Nat := (maskRegs mask).length

/-- The registers of a Pop loaded from the transfer's bytes, in order (R141). They are R16 to R31: never refused. -/
def popRegs : List Reg → List Byte → Context → Context
  | [], _, c => c
  | r :: rs, bytes, c => popRegs rs (bytes.drop 8) (c.hwWrite r (be8 (bytes.take 8)))

/-- The phases of Push (R140). -/
def pushPhase (mask : BitVec 16) (p : Phase) (e : Env) (c : Context) (f : InFlight) : Except Fault PhaseOut :=
  let n := maskCount mask
  match p with
  | .load => .ok (.just (c.put { f with op0 := c.sp, buf := pushBytes e c mask, success := false }))
  | .execute =>
    if n = 0 then .ok (.just (c.put { f with success := true }))
    else justly (checkedAccess e .write f.op0.toNat (8 * n) (pushError e c f.op0 n) c f)
  | .format => if n = 0 then .ok (.just c) else justly (accessFormat e .write f.op0.toNat (8 * n) c f)
  | .store => .ok (.just (c.setSp (f.op0 + BitVec.ofNat 64 (8 * n))))
  | .retire => retireAdvance c

/-- The phases of Pop (R141). -/
def popPhase (mask : BitVec 16) (p : Phase) (e : Env) (c : Context) (f : InFlight) : Except Fault PhaseOut :=
  let n := maskCount mask
  match p with
  | .load => .ok (.just (c.put { f with op0 := c.sp, success := false }))
  | .execute =>
    if n = 0 then .ok (.just (c.put { f with success := true }))
    else justly (checkedAccess e .read (popAddr f.op0 n) (8 * n) (popError e c f.op0 n) c f)
  | .format => if n = 0 then .ok (.just c) else justly (accessFormat e .read (popAddr f.op0 n) (8 * n) c f)
  | .store => .ok (.just ((popRegs (maskRegs mask) f.buf c).setSp (f.op0 - BitVec.ofNat 64 (8 * n))))
  | .retire => retireAdvance c

end Sys2Proof.Machine
end

