-- ==== Sys2Proof/Machine/System.lean ====
section
/-! DEFINITION. The system instructions (R144 to R151). Sleep, Signal, Lock and Unlock act in their Store phase; Halt,
Interrupt and Uninterrupt in their Retire phase (D37). -/

namespace Sys2Proof.Machine

/-- The phases of an instruction that has no operand and acts, if at all, in `store` and `retire`; Execute succeeds. -/
def plainPhase (store retire : Context → InFlight → Except Fault PhaseOut) (p : Phase) (c : Context) (f : InFlight) :
    Except Fault PhaseOut :=
  match p with
  | .load => .ok (.just (c.put f.failed))
  | .execute => .ok (.just (c.put { f with success := true }))
  | .format => .ok (.just c)
  | .store => store c f
  | .retire => retire c f

/-- The phases of a privileged instruction (R160): in normal mode Execute raises `UnsupportedOperationError`. -/
def privilegedPhase (retire : Context → Except Fault PhaseOut) (p : Phase) (c : Context) (f : InFlight) :
    Except Fault PhaseOut :=
  match p with
  | .load => .ok (.just (c.put f.failed))
  | .execute =>
    if c.interrupted then .ok (.just (c.put { f with success := true })) else justly (c.raise unsupportedOperationError)
  | .format => .ok (.just c)
  | .store => .ok (.just c)
  | .retire => retire c

/-- The phases of Halt (R144). -/
def haltPhase (p : Phase) (_e : Env) (c : Context) (f : InFlight) : Except Fault PhaseOut :=
  privilegedPhase (fun c => .ok { ctx := c.advancePc, effect := .halt, done := true }) p c f

/-- The phases of Noop (R145). -/
def noopPhase (p : Phase) (_e : Env) (c : Context) (f : InFlight) : Except Fault PhaseOut :=
  plainPhase (fun c _ => .ok (.just c)) (fun c _ => retireAdvance c) p c f

/-- The phases of Sleep (R146): a Signal that is posted and not taken makes it fall through. -/
def sleepPhase (p : Phase) (_e : Env) (c : Context) (f : InFlight) : Except Fault PhaseOut :=
  plainPhase (fun c _ => .ok (.just (if c.signalled then c else { c with asleep := true })))
    (fun c _ => retireAdvance c) p c f

/-- The phases of Signal (R147): `op0` holds the id. -/
def signalPhase (r : Reg) (p : Phase) (e : Env) (c : Context) (f : InFlight) : Except Fault PhaseOut :=
  match p with
  | .load => .ok (.just (c.put { f with op0 := c.read e r, success := false }))
  | .execute => .ok (.just (c.put { f with success := true }))
  | .format => .ok (.just c)
  | .store => .ok { ctx := c, effect := .signal f.op0, done := false }
  | .retire => retireAdvance c

/-- The phases of Lock (R148): Retire fails until the polls have granted the lock. -/
def lockPhase (p : Phase) (_e : Env) (c : Context) (f : InFlight) : Except Fault PhaseOut :=
  plainPhase (fun c _ => .ok (.just { c with requiresLock := true }))
    (fun c _ => if c.acquiredLock then retireAdvance c else .ok (.just c)) p c f

/-- The phases of Unlock (R149). -/
def unlockPhase (p : Phase) (_e : Env) (c : Context) (f : InFlight) : Except Fault PhaseOut :=
  plainPhase (fun c _ => .ok (.just { c with requiresLock := false })) (fun c _ => retireAdvance c) p c f

/-- The phases of Interrupt (R150): `op0` holds the value. A synthesized one resumes at its own PC, an explicit one after
itself. -/
def interruptPhase (v : BitVec 8) (p : Phase) (_e : Env) (c : Context) (f : InFlight) : Except Fault PhaseOut :=
  match p with
  | .load => .ok (.just (c.put { f with op0 := zext v, success := false }))
  | .execute => .ok (.just (c.put { f with success := true }))
  | .format => .ok (.just c)
  | .store => .ok (.just c)
  | .retire => (c.interruptEntry f.op0 (if f.synthesized then c.pc else c.pc + 4)).map PhaseOut.retired

/-- The phases of Uninterrupt (R151). -/
def uninterruptPhase (p : Phase) (_e : Env) (c : Context) (f : InFlight) : Except Fault PhaseOut :=
  privilegedPhase (fun c => .ok (.retired c.interruptReturn)) p c f

end Sys2Proof.Machine
end

