-- ==== Sys2Proof/Machine/Phases.lean ====
section
/-! DEFINITION. The phases of the instruction a Context has in flight (R95): one arm per instruction. -/

namespace Sys2Proof.Machine

/-- Phase `p` of instruction `i` (R95), in Context `c` with `f` in flight. -/
def runPhase (i : Instr) (p : Phase) (e : Env) (c : Context) (f : InFlight) : Except Fault PhaseOut :=
  match i with
  | .loadc k d => loadcPhase k d p e c f
  | .jez dir off r => jezPhase dir off r p e c f
  | .jnz dir off r => jnzPhase dir off r p e c f
  | .jle dir off r => jlePhase dir off r p e c f
  | .jlz dir off r => jlzPhase dir off r p e c f
  | .load a off d => loadPhase a off d p e c f
  | .store a off d => storePhase a off d p e c f
  | .clear a off => clearPhase a off p e c f
  | .flush a off => flushPhase a off p e c f
  | .not a d => notPhase a d p e c f
  | .and a b d => andPhase a b d p e c f
  | .or a b d => orPhase a b d p e c f
  | .xor a b d => xorPhase a b d p e c f
  | .leftshift a b d => leftshiftPhase a b d p e c f
  | .rightshift a b d => rightshiftPhase a b d p e c f
  | .add a b d => addPhase a b d p e c f
  | .subtract a b d => subtractPhase a b d p e c f
  | .multiply a b d => multiplyPhase a b d p e c f
  | .divide a b d => dividePhase a b d p e c f
  | .modulo a b d => moduloPhase a b d p e c f
  | .push mask => pushPhase mask p e c f
  | .pop mask => popPhase mask p e c f
  | .call r => callPhase r p e c f
  | .ret => retPhase p e c f
  | .halt => haltPhase p e c f
  | .noop => noopPhase p e c f
  | .sleep => sleepPhase p e c f
  | .signal r => signalPhase r p e c f
  | .lock => lockPhase p e c f
  | .unlock => unlockPhase p e c f
  | .interrupt v => interruptPhase v p e c f
  | .uninterrupt => uninterruptPhase p e c f

end Sys2Proof.Machine
end

