-- ==== Sys2Proof/Machine/Pipeline.lean ====
section
/-! DEFINITION. The Context's eight stages (R98 to R104), the lock polls (R162, R163), the Core's barrel scheduler (R106)
and the Processor's clock tree (R110). -/

namespace Sys2Proof.Machine

/-! ## The eight stages of a Context -/

/-- The stages (R98): `k` positions behind the cursor. -/
inductive Stage where
  | fetch
  | loadInstruction
  | decodeInstruction
  | loadData
  | execute
  | format
  | store
  | retire
deriving DecidableEq, Repr

/-- The number of a stage (40_pipeline.md section 2). -/
def Stage.number : Stage → Fin 8
  | .fetch => 0
  | .loadInstruction => 1
  | .decodeInstruction => 2
  | .loadData => 3
  | .execute => 4
  | .format => 5
  | .store => 6
  | .retire => 7

/-- An interrupt that LoadInstruction will synthesize (R98, R100): a pending Error, or a Signal outside an interrupt. -/
def Context.takeable (c : Context) : Bool := c.pending.isSome || (c.signalled && !c.interrupted)

/-- Stage 0, Fetch (R98). -/
def fetchStage (e : Env) (c : Context) : Except Fault Context :=
  if c.asleep || c.isRetrying || c.instruction.isSome || c.fetchIssued then .ok c
  else if c.takeable then .ok c
  else
    let a := fetchAddress c
    if !fetchOk e c a then c.raise programAccessError
    else if !c.l1i.port.idle then .ok c
    else
      (c.l1i.port.request .read a none).map fun port =>
        { c with l1i := { c.l1i with port := port }, fetchIssued := true, fetchAddr := BitVec.ofNat 64 a }

/-- The word of a successful fetch (R100): the four bytes of the window at the fetch address. -/
def fetchedWord (e : Env) (c : Context) : InstrWord :=
  let o := c.fetchAddr.toNat % e.cfg.l1i.busWidth
  BitVec.ofNat 32 (be (((c.l1i.port.bus.drop o).take 4).map Lane.data))

/-- The synthesized Interrupt opcode of a value (R90). -/
def synthesizedWord (v : BitVec 8) : InstrWord := encode (.interrupt v)

/-- Consume and free a completed fetch (R100): the Context and the word, if the fetch succeeded. -/
def consumeFetch (e : Env) (c : Context) : Except Fault (Context × Option InstrWord) :=
  if c.fetchIssued && !c.l1i.port.busy then
    c.l1i.port.release.map fun port =>
      ({ c with l1i := { c.l1i with port := port }, fetchIssued := false },
        if c.l1i.port.successful then some (fetchedWord e c) else none)
  else .ok (c, none)

/-- Which word LoadInstruction latches (R100): a pending Error, else a takeable Signal, else the fetched word. -/
def latchOpcode (c : Context) (word : Option InstrWord) : Context :=
  match c.pending with
  | some v => { c with opcode := some { word := synthesizedWord v, synthesized := true }, pending := none }
  | none =>
    if c.signalled && !c.interrupted then
      { c with opcode := some { word := synthesizedWord interruptSignal, synthesized := true }, signalled := false }
    else
      match word with
      | some w => { c with opcode := some { word := w, synthesized := false } }
      | none => c

/-- Stage 1, LoadInstruction (R100). -/
def loadInstructionStage (e : Env) (c : Context) : Except Fault Context :=
  if c.asleep || c.isRetrying then .ok c
  else (consumeFetch e c).map fun (c', word) => latchOpcode c' word

/-- Instruction `i` put in flight by Decode, the latch emptied (R101). -/
def Context.inFlight (c : Context) (i : Instr) (synthesized : Bool) : Context :=
  { c with instruction := some (InFlight.fresh i synthesized), opcode := none }

/-- Stage 2, DecodeInstruction (R101). -/
def decodeStage (c : Context) : Except Fault Context :=
  if c.isRetrying then .ok c
  else
    match c.opcode with
    | none => .ok c
    | some o =>
      match decode o.word with
      | .ok i => .ok (c.inFlight i o.synthesized)
      | .error r => .error (.unrecognizedOpcode r)

/-- A phase of the instruction in flight, if there is one (R102, R103). -/
def phaseStage (p : Phase) (e : Env) (c : Context) : Except Fault PhaseOut :=
  match c.instruction with
  | none => .ok (.just c)
  | some f => runPhase f.instr p e c f

/-- Stage 3, LoadData (R102): not on a retry visit. -/
def loadDataStage (e : Env) (c : Context) : Except Fault PhaseOut :=
  if c.isRetrying then .ok (.just c) else phaseStage .load e c

/-- Stage 6, Store (R103): only when the instruction has succeeded. -/
def storeStage (e : Env) (c : Context) : Except Fault PhaseOut :=
  match c.instruction with
  | none => .ok (.just c)
  | some f => if f.success then runPhase f.instr .store e c f else .ok (.just c)

/-- The instruction leaves the Context: complete, or discarded (R104). -/
def Context.leave (c : Context) : Context := { c with instruction := none, isRetrying := false }

/-- What the Retire stage does with Retire's answer (R104): complete, discard after an Error, or retry next round. -/
def settleRetire (r : PhaseOut) : PhaseOut :=
  if r.done || r.ctx.pending.isSome then { r with ctx := r.ctx.leave }
  else { r with ctx := { r.ctx with isRetrying := true } }

/-- Stage 7, Retire (R104). -/
def retireStage (e : Env) (c : Context) : Except Fault PhaseOut :=
  match c.instruction with
  | none => .ok (.just c)
  | some f =>
    (if f.success && c.pending.isNone then runPhase f.instr .retire e c f else .ok (.just c)).map settleRetire

/-- One stage of a Context. -/
def runStage (st : Stage) (e : Env) (c : Context) : Except Fault PhaseOut :=
  match st with
  | .fetch => justly (fetchStage e c)
  | .loadInstruction => justly (loadInstructionStage e c)
  | .decodeInstruction => justly (decodeStage c)
  | .loadData => loadDataStage e c
  | .execute => phaseStage .execute e c
  | .format => phaseStage .format e c
  | .store => storeStage e c
  | .retire => retireStage e c

/-! ## The Core (R106) -/

/-- The Context that runs stage `st` of Core k: as many positions behind the cursor as the stage's number (R106). -/
def State.atStage (s : State) (k : Nat) (st : Stage) : Fin 8 := (s.core k).next - st.number

/-- Run stage `st` of Core k on its Context, and let the Processor see what it asks (R106, R161). -/
def clockStage (k : Nat) (s : State) (st : Stage) : Except Fault State :=
  let j := s.atStage k st
  (runStage st (s.env k j) (s.ctx k j)).bind fun r => (s.setCtx k j r.ctx).apply r.effect

/-- The L2 of Core k, clocked every `DivL2` cycles (R106). -/
def clockL2 (k : Nat) (s : State) : Except Fault State :=
  if s.cycle % s.cfg.divL2 = 0 then
    ((s.core k).l2.clock s.cfg.l2 s.cfg.dirtyOnUnchangedWrite s.l3.port).map fun (l2, port) =>
      { s.setCore k { s.core k with l2 := l2 } with l3 := { s.l3 with port := port } }
  else .ok s

/-- The L1 caches of Context j, clocked every cycle, the L1I before the L1D (R106, D35). -/
def Core.clockL1 (cfg : Config) (c : Core) (j : Fin 8) : Except Fault Core :=
  let x := c.ctx j
  (x.l1i.clock cfg.l1i cfg.dirtyOnUnchangedWrite c.l2.port).bind fun (l1i, p1) =>
    (x.l1d.clock cfg.l1d cfg.dirtyOnUnchangedWrite p1).map fun (l1d, p2) =>
      { c.setCtx j { x with l1i := l1i, l1d := l1d } with l2 := { c.l2 with port := p2 } }

/-- Every L1 cache of Core k, Context 0 first (R106). -/
def clockL1s (k : Nat) (s : State) : Except Fault State :=
  (allCtx.foldlM (Core.clockL1 s.cfg) (s.core k)).map (s.setCore k)

/-- The Contexts of a Core that require the lock, ascending. -/
def Core.requesters (c : Core) : List (Fin 8) := allCtx.filter fun j => (c.ctx j).requiresLock

/-- The release of R163: the holder goes when it no longer requires the lock or the Core lost the system lock. -/
def Core.releaseLock (c : Core) : Core :=
  match c.holder with
  | some j =>
    if !(c.ctx j).requiresLock || !c.coreAcquired then
      { c.setCtx j { c.ctx j with acquiredLock := false } with holder := none }
    else c
  | none => c

/-- The grant of R163: with the system lock and no holder, one of the requesters is elected. -/
def Core.grantLock (table : List (List Nat × Nat)) (c : Core) : Core :=
  if c.holder = none ∧ c.coreAcquired ∧ c.requesters ≠ [] then
    let j : Fin 8 := Fin.ofNat 8 (lockElect table (c.requesters.map Fin.val))
    { c.setCtx j { c.ctx j with acquiredLock := true } with holder := some j }
  else c

/-- `CoreLockPoll()` (R163). -/
def Core.lockPoll (table : List (List Nat × Nat)) (c : Core) : Core := c.releaseLock.grantLock table

/-- The stages of a clock before Decode, in order (R106: reverse stage order). -/
def stagesBeforeDecode : List Stage := [.retire, .store, .format, .execute, .loadData]

/-- The stages of a clock after Decode. -/
def stagesAfterDecode : List Stage := [.loadInstruction, .fetch]

/-- `Core.Clock(c)` up to its Decode stage (R106). -/
def coreBeforeDecode (k : Nat) (s : State) : Except Fault State := do
  let s ← clockL2 k s
  let s ← clockL1s k s
  let s := s.setCore k ((s.core k).lockPoll s.cfg.lockElect)
  stagesBeforeDecode.foldlM (clockStage k) s

/-- The cursor moves to the next Context (R106). -/
def Core.tick (c : Core) : Core := { c with next := c.next + 1 }

/-- The rest of `Core.Clock(c)` after its Decode stage (R106). -/
def coreAfterDecode (k : Nat) (s : State) : Except Fault State :=
  (stagesAfterDecode.foldlM (clockStage k) s).map fun s => s.setCore k (s.core k).tick

/-- `Core.Clock(c)` of Core k (R106). -/
def clockCore (s : State) (k : Nat) : Except Fault State := do
  let s ← coreBeforeDecode k s
  let s ← clockStage k s .decodeInstruction
  coreAfterDecode k s

/-! ## The Processor (R110) -/

/-- Some Context of Core k requires the lock (`req(i)` of R162). -/
def State.coreRequires (s : State) (k : Nat) : Bool := !(s.core k).requesters.isEmpty

/-- The Cores with a Context that requires the lock, ascending. -/
def State.lockRequesters (s : State) : List Nat := (List.range s.coreCount).filter s.coreRequires

/-- `coreAcquired` of Core k replaced. -/
def State.setAcquired (s : State) (k : Nat) (b : Bool) : State := s.setCore k { s.core k with coreAcquired := b }

/-- The release of R162: the Core that holds the system lock goes when none of its Contexts requires it. -/
def State.releaseSystemLock (s : State) : State :=
  match s.pholder with
  | some k => if s.coreRequires k then s else { s.setAcquired k false with pholder := none }
  | none => s

/-- The grant of R162: with no holder, one of the requiring Cores is elected. -/
def State.grantSystemLock (s : State) : State :=
  if s.pholder = none ∧ s.lockRequesters ≠ [] then
    let k := lockElect s.cfg.lockElect s.lockRequesters
    { s.setAcquired k true with pholder := some k }
  else s

/-- `ProcessorLockPoll()` (R162). -/
def State.lockPoll (s : State) : State := s.releaseSystemLock.grantSystemLock

/-- Memory, clocked every `DivMem` cycles (R110). -/
def clockMemory (s : State) : Except Fault State :=
  if s.cycle % s.cfg.divMem = 0 then (s.memory.clock s.cfg).map fun m => { s with memory := m } else .ok s

/-- The L3, clocked every `DivL3` cycles (R110). -/
def clockL3 (s : State) : Except Fault State :=
  if s.cycle % s.cfg.divL3 = 0 then
    (s.l3.clock s.cfg.l3 s.cfg.dirtyOnUnchangedWrite s.memory.port).map fun (l3, port) =>
      { s with l3 := l3, memory := { s.memory with port := port } }
  else .ok s

/-- Device d, clocked (R170), with the Signal of a finished operation (R172). -/
def clockDevice (s : State) (d : Nat) : Except Fault State :=
  match s.devices[d]?, s.cfg.devices[d]? with
  | some x, some cfg =>
    (x.clock s.cfg cfg d s.memory.port).bind fun (x', port, done) =>
      let s' := { s with devices := s.devices.set d x', memory := { s.memory with port := port } }
      match done with
      | some id => s'.signal id.toNat
      | none => .ok s'
  | _, _ => .ok s

/-- Every Device, clocked every `DivDev` cycles after the Cores (R110). -/
def clockDevices (s : State) : Except Fault State :=
  if s.cycle % s.cfg.divDev = 0 then (List.range s.devices.length).foldlM clockDevice s else .ok s

/-- `Processor.Clock()` up to the Decode stage of Core 0 (R110). -/
def clockBeforeDecode (s : State) : Except Fault State := do
  let s ← clockMemory s
  let s ← clockL3 s
  coreBeforeDecode 0 s.lockPoll

/-- The Cores above Core 0, in order (R110). -/
def clockUpper (s : State) : Except Fault State := ((List.range s.upper.length).map (· + 1)).foldlM clockCore s

/-- The end of a clock: one more completed Processor clock (R33, R110). -/
def State.tick (s : State) : State := { s with cycle := s.cycle + 1 }

/-- The rest of `Processor.Clock()` after the Decode stage of Core 0 (R110). -/
def clockAfterDecode (s : State) : Except Fault State := do
  let s ← coreAfterDecode 0 s
  let s ← clockUpper s
  let s ← clockDevices s
  .ok s.tick

/-- `Processor.Clock()` (R110, R111): once halted it changes nothing. -/
def processorClock (s : State) : Except Fault State :=
  if s.halted then .ok s
  else do
    let s ← clockBeforeDecode s
    let s ← clockStage 0 s .decodeInstruction
    clockAfterDecode s

/-- `n` Processor clocks. -/
def clocks : Nat → State → Except Fault State
  | 0, s => .ok s
  | n + 1, s => (processorClock s).bind (clocks n)

end Sys2Proof.Machine
end

