-- ==== Sys2Proof/Machine/Visit.lean ====
section
/-! DEFINITION. The visit of an instruction (R97, R107): the focal Context is the one at the Decode stage of Core 0; the
visit starts at that point of the globally ordered sequence of R71 and ends with the clock of its Retire stage, the whole
machine clocking on as the spec says. -/

namespace Sys2Proof.Machine

/-- The focal Context of a visit: the one at the Decode stage of Core 0. -/
def State.focal (s : State) : Fin 8 := s.atStage 0 .decodeInstruction

/-- The Context `i` is put in flight in: a retry visit keeps the operands and the transient state (R97), otherwise Decode
makes a new one with the latch's `synthesized` mark (R101). -/
def Context.enter (c : Context) (i : Instr) : Context :=
  match c.isRetrying, c.instruction with
  | true, some f => c.put { f with instr := i }
  | _, _ => c.inFlight i (match c.opcode with | some o => o.synthesized | none => false)

/-- The machine with `i` in flight in the focal Context. -/
def State.enter (s : State) (i : Instr) : State := s.setCtx 0 s.focal ((s.ctx 0 s.focal).enter i)

/-- The rest of the focal Context's round after its Decode stage: the rest of this clock, and the five clocks in which it
runs LoadData to Retire (R107). -/
def finishRound (s : State) : Except Fault State := (clockAfterDecode s).bind (clocks 5)

/-- The outcome of a computation that may be fatal (R12). -/
def toOutcome : Except Fault State → Host.Outcome State Fault Refusal
  | .ok s => .next s
  | .error f => .fault f

/-- One visit of instruction `i` to the stages after Decode (R97, R107). -/
def visit (i : Instr) (s : State) : Host.Outcome State Fault Refusal := toOutcome (finishRound (s.enter i))

/-- What the focal Context's Decode stage yields (R101). -/
inductive Decoded where
  /-- No instruction: the Context sleeps, waits for its fetch, or has nothing in its latch. -/
  | nothing
  /-- An instruction, newly decoded or retried. -/
  | run (i : Instr)
  /-- An unrecognized word. -/
  | unrecognized (r : DecodeError)
deriving DecidableEq, Repr

/-- The instruction the focal Context drives in this round (R97, R101). -/
def Context.decoded (c : Context) : Decoded :=
  if c.isRetrying then
    match c.instruction with
    | some f => .run f.instr
    | none => .nothing
  else
    match c.opcode with
    | none => .nothing
    | some o =>
      match decode o.word with
      | .ok i => .run i
      | .error r => .unrecognized r

/-- The part of a round before the focal Context's Decode stage: its Fetch and LoadInstruction clocks, and the next clock
up to Decode (R107). -/
def startRound (s : State) : Except Fault State := clocks 2 s

end Sys2Proof.Machine
end

