-- ==== Sys2Proof/Machine/Exec.lean ====
section
/-! DEFINITION. The meaning of each instruction as the step runs it: one round's visit of the instruction to the focal
Context's stages, through its phases (`<name>Phase`), in the machine that clocks on around it. -/

namespace Sys2Proof.Machine

/-- `loadc` (R115): its phases are `loadcPhase`. -/
def execLoadc (k : BitVec 26) (d : Reg) (s : State) : Host.Outcome State Fault Refusal := visit (.loadc k d) s

/-- `jez` (R117): its phases are `jezPhase`. -/
def execJez (dir : Direction) (off : BitVec 22) (r : Reg) (s : State) : Host.Outcome State Fault Refusal := visit (.jez dir off r) s

/-- `jnz` (R118): its phases are `jnzPhase`. -/
def execJnz (dir : Direction) (off : BitVec 22) (r : Reg) (s : State) : Host.Outcome State Fault Refusal := visit (.jnz dir off r) s

/-- `jle` (R119): its phases are `jlePhase`. -/
def execJle (dir : Direction) (off : BitVec 22) (r : Reg) (s : State) : Host.Outcome State Fault Refusal := visit (.jle dir off r) s

/-- `jlz` (R120): its phases are `jlzPhase`. -/
def execJlz (dir : Direction) (off : BitVec 22) (r : Reg) (s : State) : Host.Outcome State Fault Refusal := visit (.jlz dir off r) s

/-- `load` (R123): its phases are `loadPhase`. -/
def execLoad (a : Reg) (off : BitVec 17) (d : Reg) (s : State) : Host.Outcome State Fault Refusal := visit (.load a off d) s

/-- `store` (R124): its phases are `storePhase`. -/
def execStore (a : Reg) (off : BitVec 17) (d : Reg) (s : State) : Host.Outcome State Fault Refusal := visit (.store a off d) s

/-- `clear` (R125): its phases are `clearPhase`. -/
def execClear (a : Reg) (off : BitVec 17) (s : State) : Host.Outcome State Fault Refusal := visit (.clear a off) s

/-- `flush` (R126): its phases are `flushPhase`. -/
def execFlush (a : Reg) (off : BitVec 17) (s : State) : Host.Outcome State Fault Refusal := visit (.flush a off) s

/-- `not` (R128): its phases are `notPhase`. -/
def execNot (a : Reg) (d : Reg) (s : State) : Host.Outcome State Fault Refusal := visit (.not a d) s

/-- `and` (R129): its phases are `andPhase`. -/
def execAnd (a : Reg) (b : Reg) (d : Reg) (s : State) : Host.Outcome State Fault Refusal := visit (.and a b d) s

/-- `or` (R130): its phases are `orPhase`. -/
def execOr (a : Reg) (b : Reg) (d : Reg) (s : State) : Host.Outcome State Fault Refusal := visit (.or a b d) s

/-- `xor` (R131): its phases are `xorPhase`. -/
def execXor (a : Reg) (b : Reg) (d : Reg) (s : State) : Host.Outcome State Fault Refusal := visit (.xor a b d) s

/-- `leftshift` (R132): its phases are `leftshiftPhase`. -/
def execLeftshift (a : Reg) (b : Reg) (d : Reg) (s : State) : Host.Outcome State Fault Refusal := visit (.leftshift a b d) s

/-- `rightshift` (R133): its phases are `rightshiftPhase`. -/
def execRightshift (a : Reg) (b : Reg) (d : Reg) (s : State) : Host.Outcome State Fault Refusal := visit (.rightshift a b d) s

/-- `add` (R134): its phases are `addPhase`. -/
def execAdd (a : Reg) (b : Reg) (d : Reg) (s : State) : Host.Outcome State Fault Refusal := visit (.add a b d) s

/-- `subtract` (R135): its phases are `subtractPhase`. -/
def execSubtract (a : Reg) (b : Reg) (d : Reg) (s : State) : Host.Outcome State Fault Refusal := visit (.subtract a b d) s

/-- `multiply` (R136): its phases are `multiplyPhase`. -/
def execMultiply (a : Reg) (b : Reg) (d : Reg) (s : State) : Host.Outcome State Fault Refusal := visit (.multiply a b d) s

/-- `divide` (R137): its phases are `dividePhase`. -/
def execDivide (a : Reg) (b : Reg) (d : Reg) (s : State) : Host.Outcome State Fault Refusal := visit (.divide a b d) s

/-- `modulo` (R138): its phases are `moduloPhase`. -/
def execModulo (a : Reg) (b : Reg) (d : Reg) (s : State) : Host.Outcome State Fault Refusal := visit (.modulo a b d) s

/-- `push` (R140): its phases are `pushPhase`. -/
def execPush (mask : BitVec 16) (s : State) : Host.Outcome State Fault Refusal := visit (.push mask) s

/-- `pop` (R141): its phases are `popPhase`. -/
def execPop (mask : BitVec 16) (s : State) : Host.Outcome State Fault Refusal := visit (.pop mask) s

/-- `call` (R142): its phases are `callPhase`. -/
def execCall (r : Reg) (s : State) : Host.Outcome State Fault Refusal := visit (.call r) s

/-- `return` (R143): its phases are `retPhase`. -/
def execRet (s : State) : Host.Outcome State Fault Refusal := visit .ret s

/-- `halt` (R144): its phases are `haltPhase`. -/
def execHalt (s : State) : Host.Outcome State Fault Refusal := visit .halt s

/-- `noop` (R145): its phases are `noopPhase`. -/
def execNoop (s : State) : Host.Outcome State Fault Refusal := visit .noop s

/-- `sleep` (R146): its phases are `sleepPhase`. -/
def execSleep (s : State) : Host.Outcome State Fault Refusal := visit .sleep s

/-- `signal` (R147): its phases are `signalPhase`. -/
def execSignal (r : Reg) (s : State) : Host.Outcome State Fault Refusal := visit (.signal r) s

/-- `lock` (R148): its phases are `lockPhase`. -/
def execLock (s : State) : Host.Outcome State Fault Refusal := visit .lock s

/-- `unlock` (R149): its phases are `unlockPhase`. -/
def execUnlock (s : State) : Host.Outcome State Fault Refusal := visit .unlock s

/-- `interrupt` (R150): its phases are `interruptPhase`. -/
def execInterrupt (v : BitVec 8) (s : State) : Host.Outcome State Fault Refusal := visit (.interrupt v) s

/-- `uninterrupt` (R151): its phases are `uninterruptPhase`. -/
def execUninterrupt (s : State) : Host.Outcome State Fault Refusal := visit .uninterrupt s

end Sys2Proof.Machine
end

