-- ==== Sys2Proof/Machine/Dispatch.lean ====
section
/-! DEFINITION. `exec`: one arm per constructor of `Instr`, each one direct call of the instruction's meaning. -/

namespace Sys2Proof.Machine

def exec (i : Instr) (s : State) : Host.Outcome State Fault Refusal :=
  match i with
  | .loadc k d => Sys2Proof.Machine.execLoadc k d s
  | .jez dir off r => Sys2Proof.Machine.execJez dir off r s
  | .jnz dir off r => Sys2Proof.Machine.execJnz dir off r s
  | .jle dir off r => Sys2Proof.Machine.execJle dir off r s
  | .jlz dir off r => Sys2Proof.Machine.execJlz dir off r s
  | .load a off d => Sys2Proof.Machine.execLoad a off d s
  | .store a off d => Sys2Proof.Machine.execStore a off d s
  | .clear a off => Sys2Proof.Machine.execClear a off s
  | .flush a off => Sys2Proof.Machine.execFlush a off s
  | .not a d => Sys2Proof.Machine.execNot a d s
  | .and a b d => Sys2Proof.Machine.execAnd a b d s
  | .or a b d => Sys2Proof.Machine.execOr a b d s
  | .xor a b d => Sys2Proof.Machine.execXor a b d s
  | .leftshift a b d => Sys2Proof.Machine.execLeftshift a b d s
  | .rightshift a b d => Sys2Proof.Machine.execRightshift a b d s
  | .add a b d => Sys2Proof.Machine.execAdd a b d s
  | .subtract a b d => Sys2Proof.Machine.execSubtract a b d s
  | .multiply a b d => Sys2Proof.Machine.execMultiply a b d s
  | .divide a b d => Sys2Proof.Machine.execDivide a b d s
  | .modulo a b d => Sys2Proof.Machine.execModulo a b d s
  | .push mask => Sys2Proof.Machine.execPush mask s
  | .pop mask => Sys2Proof.Machine.execPop mask s
  | .call r => Sys2Proof.Machine.execCall r s
  | .ret => Sys2Proof.Machine.execRet s
  | .halt => Sys2Proof.Machine.execHalt s
  | .noop => Sys2Proof.Machine.execNoop s
  | .sleep => Sys2Proof.Machine.execSleep s
  | .signal r => Sys2Proof.Machine.execSignal r s
  | .lock => Sys2Proof.Machine.execLock s
  | .unlock => Sys2Proof.Machine.execUnlock s
  | .interrupt v => Sys2Proof.Machine.execInterrupt v s
  | .uninterrupt => Sys2Proof.Machine.execUninterrupt s

end Sys2Proof.Machine
end

