-- ==== Sys2Proof/Machine/Host.lean ====
section
/-! DEFINITION. The host interface (R175, R176, R179), and how a test places one instruction to run. -/

namespace Sys2Proof.Machine

/-- The cells with the bytes of an image written from an address on. DESIGN CHOICE (log entry 12): bytes at or past
`MemorySize` are left out, because Memory has none there (R39, R70); the spec says nothing of a host write that names one. -/
def loadImage (cfg : Config) (cells : List Host.Cell) (a : Nat) (image : List Byte) : List Host.Cell :=
  writeLanes cells a (readBus (image.take (cfg.memorySize - a)))

/-- Write bytes of the memory image (R49, R175): only before the first Processor clock; later the call does nothing.
DESIGN CHOICE (log entry 12): of a write that passes `MemorySize` the bytes inside Memory are written and the others, which
do not exist (R39, R70), are left out. -/
def State.hostWrite (s : State) (a : Nat) (bytes : List Byte) : State :=
  if s.cycle = 0 then { s with memory := { s.memory with cells := loadImage s.cfg s.memory.cells a bytes } } else s

/-- The host's `Signal(id)` (R161, R179). -/
def State.hostSignal (s : State) (id : Nat) : Except Fault State := s.signal id

/-- The host's `Clock()` (R179). -/
def State.hostClock (s : State) : Except Fault State := processorClock s

/-- `HasHalted()` (R179). -/
def State.hasHalted (s : State) : Bool := s.halted

/-- The cycle count (R179). -/
def State.cycleCount (s : State) : Nat := s.cycle

/-- The boot of R176 and R179: construct, load the image at an address, `Signal(0)`. -/
def State.boot (cfg : Config) (a : Nat) (image : List Byte) : Except Fault State :=
  ((State.construct cfg).hostWrite a image).hostSignal 0

/-- The line of a cache that holds address `a`, filled with Memory's bytes, valid and clean. -/
def State.lineFromMemory (s : State) (g : CacheConfig) (a : Nat) : Line where
  tag := tagOf g a
  lanes := readBus (readBytes s.memory.cells (lineAddr g a) g.lineWidth)

/-- A Context about to fetch: awake, with no instruction, interrupt or fetch in the way, PL raised to `limit` in normal
mode so that the fetch address lies in the program region, its L1I idle and holding `ln` as line `j`. -/
def Context.readyToFetch (c : Context) (limit : Word) (j : Nat) (ln : Line) : Context :=
  let c := if c.interrupted then c else c.hwWrite 6 limit
  { c with
      asleep := false
      signalled := c.signalled && c.interrupted
      pending := none
      opcode := none
      instruction := none
      isRetrying := false
      fetchIssued := false
      l1i := { c.l1i with
        port := { c.l1i.port with busy := false, free := true }
        lp := .idle
        fill := none
        lines := c.l1i.lines.set j ln } }

/-- `s` with the word `w` where the next step fetches: its four bytes in Memory at the fetch address of the Context at the
cursor of Core 0, the L1I line of that address filled from Memory, and that Context ready to fetch. It stands for what the
host and the boot do before a program's instruction runs: the memory image, `Signal(0)`, and the fetch that brings the line
into the L1I (log entry 1). -/
def State.placeWord (s : State) (w : InstrWord) : State :=
  let j := s.core0.next
  let a := fetchAddress (s.ctx 0 j)
  let s1 := { s with halted := false,
                     memory := { s.memory with cells := loadImage s.cfg s.memory.cells a (bytesOfWord w) } }
  let g := s.cfg.l1i
  s1.setCtx 0 j
    ((s1.ctx 0 j).readyToFetch (BitVec.ofNat 64 (min s.cfg.memorySize (2 ^ 64 - 1))) (indexOf g a) (s1.lineFromMemory g a))

end Sys2Proof.Machine
end

