-- ==== Sys2Proof/WellFormed.lean ====
section
/-! DEFINITION. Well-formedness. An instruction needs no check: the field widths stand in the types of `Instr`. A
configuration is well formed as R9 says; `step` refuses one that is not. -/

namespace Sys2Proof

/-- `n` is a power of two. -/
def isPowerOfTwo (n : Nat) : Bool := n == 2 ^ Nat.log2 n

/-- `LineWidth`, `BusWidth` and `LineCount` are powers of two (R9). `LineCount` is the exact quotient (R8), so the lines
fill `Size` with no rest. -/
def CacheConfig.sizesArePowers (g : CacheConfig) : Bool :=
  isPowerOfTwo g.lineWidth && isPowerOfTwo g.busWidth && g.size % g.lineWidth == 0 && isPowerOfTwo (g.size / g.lineWidth)

/-- `OffsetBits = log2(LineWidth)` (R9, conflict C5). -/
def CacheConfig.offsetMatchesLine (g : CacheConfig) : Bool := g.lineWidth == 2 ^ g.offsetBits

/-- `BusWidth` divides `LineWidth` (R9). -/
def CacheConfig.busDividesLine (g : CacheConfig) : Bool := g.lineWidth % g.busWidth == 0

/-- `TagBits = 64 − IndexBits − OffsetBits` is a width, so index and offset fit an address (R8; DEDUCED, log entry 7). -/
def CacheConfig.tagFits (g : CacheConfig) : Bool := decide (Nat.log2 (g.size / g.lineWidth) + g.offsetBits ≤ 64)

/-- Every check that concerns one cache (R8, R9). -/
def CacheConfig.wellFormed (g : CacheConfig) : Bool :=
  g.sizesArePowers && g.offsetMatchesLine && g.busDividesLine && g.tagFits

/-- The `BusWidth` of each cache's lower Store equals the cache's `LineWidth` (R9, R64). -/
def Config.levelsMatch (cfg : Config) : Bool :=
  cfg.l2.busWidth == cfg.l1i.lineWidth && cfg.l2.busWidth == cfg.l1d.lineWidth &&
  cfg.l3.busWidth == cfg.l2.lineWidth && cfg.memoryBusWidth == cfg.l3.lineWidth

/-- The L1 caches have `BusWidth ≥ 4` (R9, R67). -/
def Config.fetchFitsWindow (cfg : Config) : Bool := decide (4 ≤ cfg.l1i.busWidth) && decide (4 ≤ cfg.l1d.busWidth)

/-- `MemoryBusWidth` is a power of two that divides `MemorySize` (R9). -/
def Config.memoryBusDivides (cfg : Config) : Bool :=
  isPowerOfTwo cfg.memoryBusWidth && cfg.memorySize % cfg.memoryBusWidth == 0

/-- Every byte of Memory has a 64-bit address (R7; DEDUCED, log entry 7). -/
def Config.memoryAddressable (cfg : Config) : Bool := decide (cfg.memorySize ≤ 2 ^ 64)

/-- There is at least one Core (R3). -/
def Config.hasCore (cfg : Config) : Bool := decide (1 ≤ cfg.coreCount)

/-- Every clock divider divides (R10; DEDUCED, log entry 7). -/
def Config.dividersPositive (cfg : Config) : Bool :=
  decide (1 ≤ cfg.divL2) && decide (1 ≤ cfg.divL3) && decide (1 ≤ cfg.divMem) && decide (1 ≤ cfg.divDev)

/-- Every byte of every Device's control block has a 64-bit address (R7, R70, R171; DEDUCED, log entry 7). -/
def Config.controlBlocksAddressable (cfg : Config) : Bool := cfg.devices.all fun d => decide (d.controlBlock + 32 ≤ 2 ^ 64)

/-- A configuration is well formed only when every check of R9 holds, and those of log entry 7. -/
def Config.wellFormed (cfg : Config) : Bool :=
  cfg.hasCore && cfg.dividersPositive && cfg.l1i.wellFormed && cfg.l1d.wellFormed && cfg.l2.wellFormed &&
  cfg.l3.wellFormed && cfg.levelsMatch && cfg.fetchFitsWindow && cfg.memoryBusDivides && cfg.memoryAddressable &&
  cfg.controlBlocksAddressable

end Sys2Proof
end

