-- ==== Sys2Proof/Machine/Step.lean ====
section
/-! DEFINITION. One step of the machine: one round (R107), the eight Processor clocks in which the Context at the cursor of
Core 0 passes once through all eight stages. The instruction it drives runs through `exec`; every other Context of every
Core is clocked in between. -/

namespace Sys2Proof.Machine

/-- The step after the two clocks of Fetch and LoadInstruction: a halt in them ends the round; else the third clock up to
Decode, then the instruction. -/
def stepFrom (s : State) : Host.Outcome State Fault Refusal :=
  if s.halted then .next s
  else
    match clockBeforeDecode s with
    | .error f => .fault f
    | .ok s =>
      match (s.ctx 0 s.focal).decoded with
      | .run i => exec i s
      | .nothing => toOutcome (finishRound s)
      | .unrecognized r => .fault (.unrecognizedOpcode r)

/-- One round. A configuration that is not well formed is refused (R9). -/
def step (s : State) : Host.Outcome State Fault Refusal :=
  if !s.cfg.wellFormed then .refused .illFormedConfiguration
  else
    match startRound s with
    | .error f => .fault f
    | .ok s => stepFrom s

/-- `s` with an instruction word stored where the next step fetches (log entry 1): see `State.placeWord`. -/
def State.withFetchWord (s : State) (nbits w : Nat) : State := s.placeWord (BitVec.ofNat 32 (w % 2 ^ nbits))

end Sys2Proof.Machine
end

