-- ==== Sys2Proof/Laws/PerInstr.lean ====
section
/-! SUPPORT. For every instruction, its word is the match of its row of spec/opcode_table.json under the row's mask. -/

namespace Sys2Proof.Laws

/-- The match of an instruction's row. -/
def MatchesTable.matchOf : Instr → InstrWord
  | .loadc .. => 0x80000000
  | .jez .. => 0x40000000
  | .jnz .. => 0x50000000
  | .jle .. => 0x60000000
  | .jlz .. => 0x70000000
  | .load .. => 0x20000000
  | .store .. => 0x28000000
  | .clear .. => 0x30000000
  | .flush .. => 0x38000000
  | .not .. => 0x10000000
  | .and .. => 0x11000000
  | .or .. => 0x12000000
  | .xor .. => 0x13000000
  | .leftshift .. => 0x14000000
  | .rightshift .. => 0x15000000
  | .add .. => 0x18000000
  | .subtract .. => 0x19000000
  | .multiply .. => 0x1A000000
  | .divide .. => 0x1B000000
  | .modulo .. => 0x1C000000
  | .push .. => 0x04000000
  | .pop .. => 0x06000000
  | .call .. => 0x02000000
  | .ret => 0x03000000
  | .halt => 0x01000000
  | .noop => 0x01100000
  | .sleep => 0x01200000
  | .signal .. => 0x01300000
  | .lock => 0x01400000
  | .unlock => 0x01500000
  | .interrupt .. => 0x01600000
  | .uninterrupt => 0x01700000

/-- The mask of an instruction's row. -/
def MatchesTable.maskOf : Instr → InstrWord
  | .loadc .. => 0x80000000
  | .jez .. => 0xF0000000
  | .jnz .. => 0xF0000000
  | .jle .. => 0xF0000000
  | .jlz .. => 0xF0000000
  | .load .. => 0xF8000000
  | .store .. => 0xF8000000
  | .clear .. => 0xF800001F
  | .flush .. => 0xF800001F
  | .not .. => 0xFFFFFC00
  | .and .. => 0xFFFF8000
  | .or .. => 0xFFFF8000
  | .xor .. => 0xFFFF8000
  | .leftshift .. => 0xFFFF8000
  | .rightshift .. => 0xFFFF8000
  | .add .. => 0xFFFF8000
  | .subtract .. => 0xFFFF8000
  | .multiply .. => 0xFFFF8000
  | .divide .. => 0xFFFF8000
  | .modulo .. => 0xFFFF8000
  | .push .. => 0xFFFF0000
  | .pop .. => 0xFFFF0000
  | .call .. => 0xFFFFFFE0
  | .ret => 0xFFFFFFFF
  | .halt => 0xFFFFFFFF
  | .noop => 0xFFFFFFFF
  | .sleep => 0xFFFFFFFF
  | .signal .. => 0xFFFFFFE0
  | .lock => 0xFFFFFFFF
  | .unlock => 0xFFFFFFFF
  | .interrupt .. => 0xFFFFFF00
  | .uninterrupt => 0xFFFFFFFF

/-- The word of the instruction has the fixed bits of its row. -/
def MatchesTable.Statement (i : Instr) : Prop := encode i &&& MatchesTable.maskOf i = MatchesTable.matchOf i

theorem MatchesTable.loadc (k : BitVec 26) (d : Reg) : MatchesTable.Statement (.loadc k d) := by
  apply BitVec.eq_of_getLsbD_eq
  intro i hi
  simp only [encode, MatchesTable.maskOf, MatchesTable.matchOf, BitVec.getLsbD_and, BitVec.getLsbD_append]
  interval_cases i <;> simp

theorem MatchesTable.jez (dir : Direction) (off : BitVec 22) (r : Reg) : MatchesTable.Statement (.jez dir off r) := by
  cases dir <;>
  · apply BitVec.eq_of_getLsbD_eq
    intro i hi
    simp only [encode, encodeJump, MatchesTable.maskOf, MatchesTable.matchOf, BitVec.getLsbD_and, BitVec.getLsbD_append]
    interval_cases i <;> simp [Direction.bit]

theorem MatchesTable.jnz (dir : Direction) (off : BitVec 22) (r : Reg) : MatchesTable.Statement (.jnz dir off r) := by
  cases dir <;>
  · apply BitVec.eq_of_getLsbD_eq
    intro i hi
    simp only [encode, encodeJump, MatchesTable.maskOf, MatchesTable.matchOf, BitVec.getLsbD_and, BitVec.getLsbD_append]
    interval_cases i <;> simp [Direction.bit]

theorem MatchesTable.jle (dir : Direction) (off : BitVec 22) (r : Reg) : MatchesTable.Statement (.jle dir off r) := by
  cases dir <;>
  · apply BitVec.eq_of_getLsbD_eq
    intro i hi
    simp only [encode, encodeJump, MatchesTable.maskOf, MatchesTable.matchOf, BitVec.getLsbD_and, BitVec.getLsbD_append]
    interval_cases i <;> simp [Direction.bit]

theorem MatchesTable.jlz (dir : Direction) (off : BitVec 22) (r : Reg) : MatchesTable.Statement (.jlz dir off r) := by
  cases dir <;>
  · apply BitVec.eq_of_getLsbD_eq
    intro i hi
    simp only [encode, encodeJump, MatchesTable.maskOf, MatchesTable.matchOf, BitVec.getLsbD_and, BitVec.getLsbD_append]
    interval_cases i <;> simp [Direction.bit]

theorem MatchesTable.load (a : Reg) (off : BitVec 17) (d : Reg) : MatchesTable.Statement (.load a off d) := by
  apply BitVec.eq_of_getLsbD_eq
  intro i hi
  simp only [encode, encodeMemory, MatchesTable.maskOf, MatchesTable.matchOf, BitVec.getLsbD_and, BitVec.getLsbD_append]
  interval_cases i <;> simp

theorem MatchesTable.store (a : Reg) (off : BitVec 17) (d : Reg) : MatchesTable.Statement (.store a off d) := by
  apply BitVec.eq_of_getLsbD_eq
  intro i hi
  simp only [encode, encodeMemory, MatchesTable.maskOf, MatchesTable.matchOf, BitVec.getLsbD_and, BitVec.getLsbD_append]
  interval_cases i <;> simp

theorem MatchesTable.clear (a : Reg) (off : BitVec 17) : MatchesTable.Statement (.clear a off) := by
  apply BitVec.eq_of_getLsbD_eq
  intro i hi
  simp only [encode, encodeMemory, MatchesTable.maskOf, MatchesTable.matchOf, BitVec.getLsbD_and, BitVec.getLsbD_append]
  interval_cases i <;> simp

theorem MatchesTable.flush (a : Reg) (off : BitVec 17) : MatchesTable.Statement (.flush a off) := by
  apply BitVec.eq_of_getLsbD_eq
  intro i hi
  simp only [encode, encodeMemory, MatchesTable.maskOf, MatchesTable.matchOf, BitVec.getLsbD_and, BitVec.getLsbD_append]
  interval_cases i <;> simp

theorem MatchesTable.not (a d : Reg) : MatchesTable.Statement (.not a d) := by
  apply BitVec.eq_of_getLsbD_eq
  intro i hi
  simp only [encode, encodeAlu, MatchesTable.maskOf, MatchesTable.matchOf, BitVec.getLsbD_and, BitVec.getLsbD_append]
  interval_cases i <;> simp

theorem MatchesTable.and (a b d : Reg) : MatchesTable.Statement (.and a b d) := by
  apply BitVec.eq_of_getLsbD_eq
  intro i hi
  simp only [encode, encodeAlu, MatchesTable.maskOf, MatchesTable.matchOf, BitVec.getLsbD_and, BitVec.getLsbD_append]
  interval_cases i <;> simp

theorem MatchesTable.or (a b d : Reg) : MatchesTable.Statement (.or a b d) := by
  apply BitVec.eq_of_getLsbD_eq
  intro i hi
  simp only [encode, encodeAlu, MatchesTable.maskOf, MatchesTable.matchOf, BitVec.getLsbD_and, BitVec.getLsbD_append]
  interval_cases i <;> simp

theorem MatchesTable.xor (a b d : Reg) : MatchesTable.Statement (.xor a b d) := by
  apply BitVec.eq_of_getLsbD_eq
  intro i hi
  simp only [encode, encodeAlu, MatchesTable.maskOf, MatchesTable.matchOf, BitVec.getLsbD_and, BitVec.getLsbD_append]
  interval_cases i <;> simp

theorem MatchesTable.leftshift (a b d : Reg) : MatchesTable.Statement (.leftshift a b d) := by
  apply BitVec.eq_of_getLsbD_eq
  intro i hi
  simp only [encode, encodeAlu, MatchesTable.maskOf, MatchesTable.matchOf, BitVec.getLsbD_and, BitVec.getLsbD_append]
  interval_cases i <;> simp

theorem MatchesTable.rightshift (a b d : Reg) : MatchesTable.Statement (.rightshift a b d) := by
  apply BitVec.eq_of_getLsbD_eq
  intro i hi
  simp only [encode, encodeAlu, MatchesTable.maskOf, MatchesTable.matchOf, BitVec.getLsbD_and, BitVec.getLsbD_append]
  interval_cases i <;> simp

theorem MatchesTable.add (a b d : Reg) : MatchesTable.Statement (.add a b d) := by
  apply BitVec.eq_of_getLsbD_eq
  intro i hi
  simp only [encode, encodeAlu, MatchesTable.maskOf, MatchesTable.matchOf, BitVec.getLsbD_and, BitVec.getLsbD_append]
  interval_cases i <;> simp

theorem MatchesTable.subtract (a b d : Reg) : MatchesTable.Statement (.subtract a b d) := by
  apply BitVec.eq_of_getLsbD_eq
  intro i hi
  simp only [encode, encodeAlu, MatchesTable.maskOf, MatchesTable.matchOf, BitVec.getLsbD_and, BitVec.getLsbD_append]
  interval_cases i <;> simp

theorem MatchesTable.multiply (a b d : Reg) : MatchesTable.Statement (.multiply a b d) := by
  apply BitVec.eq_of_getLsbD_eq
  intro i hi
  simp only [encode, encodeAlu, MatchesTable.maskOf, MatchesTable.matchOf, BitVec.getLsbD_and, BitVec.getLsbD_append]
  interval_cases i <;> simp

theorem MatchesTable.divide (a b d : Reg) : MatchesTable.Statement (.divide a b d) := by
  apply BitVec.eq_of_getLsbD_eq
  intro i hi
  simp only [encode, encodeAlu, MatchesTable.maskOf, MatchesTable.matchOf, BitVec.getLsbD_and, BitVec.getLsbD_append]
  interval_cases i <;> simp

theorem MatchesTable.modulo (a b d : Reg) : MatchesTable.Statement (.modulo a b d) := by
  apply BitVec.eq_of_getLsbD_eq
  intro i hi
  simp only [encode, encodeAlu, MatchesTable.maskOf, MatchesTable.matchOf, BitVec.getLsbD_and, BitVec.getLsbD_append]
  interval_cases i <;> simp

theorem MatchesTable.push (mask : BitVec 16) : MatchesTable.Statement (.push mask) := by
  apply BitVec.eq_of_getLsbD_eq
  intro i hi
  simp only [encode, encodePushPop, MatchesTable.maskOf, MatchesTable.matchOf, BitVec.getLsbD_and, BitVec.getLsbD_append]
  interval_cases i <;> simp

theorem MatchesTable.pop (mask : BitVec 16) : MatchesTable.Statement (.pop mask) := by
  apply BitVec.eq_of_getLsbD_eq
  intro i hi
  simp only [encode, encodePushPop, MatchesTable.maskOf, MatchesTable.matchOf, BitVec.getLsbD_and, BitVec.getLsbD_append]
  interval_cases i <;> simp

theorem MatchesTable.call (r : Reg) : MatchesTable.Statement (.call r) := by
  apply BitVec.eq_of_getLsbD_eq
  intro i hi
  simp only [encode, encodeCallReturn, MatchesTable.maskOf, MatchesTable.matchOf, BitVec.getLsbD_and, BitVec.getLsbD_append]
  interval_cases i <;> simp

theorem MatchesTable.ret : MatchesTable.Statement .ret := by
  unfold MatchesTable.Statement
  decide

theorem MatchesTable.halt : MatchesTable.Statement .halt := by
  unfold MatchesTable.Statement
  decide

theorem MatchesTable.noop : MatchesTable.Statement .noop := by
  unfold MatchesTable.Statement
  decide

theorem MatchesTable.sleep : MatchesTable.Statement .sleep := by
  unfold MatchesTable.Statement
  decide

theorem MatchesTable.signal (r : Reg) : MatchesTable.Statement (.signal r) := by
  apply BitVec.eq_of_getLsbD_eq
  intro i hi
  simp only [encode, encodeControl, MatchesTable.maskOf, MatchesTable.matchOf, BitVec.getLsbD_and, BitVec.getLsbD_append]
  interval_cases i <;> simp

theorem MatchesTable.lock : MatchesTable.Statement .lock := by
  unfold MatchesTable.Statement
  decide

theorem MatchesTable.unlock : MatchesTable.Statement .unlock := by
  unfold MatchesTable.Statement
  decide

theorem MatchesTable.interrupt (v : BitVec 8) : MatchesTable.Statement (.interrupt v) := by
  apply BitVec.eq_of_getLsbD_eq
  intro i hi
  simp only [encode, encodeControl, MatchesTable.maskOf, MatchesTable.matchOf, BitVec.getLsbD_and, BitVec.getLsbD_append]
  interval_cases i <;> simp

theorem MatchesTable.uninterrupt : MatchesTable.Statement .uninterrupt := by
  unfold MatchesTable.Statement
  decide

end Sys2Proof.Laws
end

