-- ==== Sys2Proof/Safety.lean ====
section
/-! DEFINITION. The terms statements use: what a cache, a Context and the machine at rest are, what a request that hits
leaves behind, what a visit leaves behind, and the invariants of 10_state.md. -/

namespace Sys2Proof.Machine

/-! ## At rest -/

/-- A cache with no request to resolve and no lower request outstanding: its clock changes nothing. -/
structure Cache.AtRest (c : Cache) : Prop where
  notBusy : c.port.busy = false
  noLower : c.lp = .idle

/-- A Context that sleeps with an empty pipeline and does not ask for the lock: its stages change nothing. -/
structure Context.Quiet (c : Context) : Prop where
  asleep : c.asleep = true
  noOpcode : c.opcode = none
  noInstruction : c.instruction = none
  noLock : c.requiresLock = false
  l1i : c.l1i.AtRest
  l1d : c.l1d.AtRest

/-- A Device with nothing to do: its clock changes nothing. -/
structure Device.Quiet (d : Device) : Prop where
  notBusy : d.port.busy = false
  idle : d.work = .idle
  noRequest : d.issued = false

/-- A Core whose Contexts are quiet, whose lock is free and whose L2 is at rest. -/
structure Core.Quiet (c : Core) : Prop where
  ctxs : ∀ j, (c.ctx j).Quiet
  l2 : c.l2.AtRest
  noHolder : c.holder = none

/-- The lock polls change nothing when only Context j of Core 0 may require the lock: either it does not require it and
nobody holds it, or it requires it and holds it (R162, R163). -/
def State.LocksSettled (s : State) (j : Fin 8) : Prop :=
  ((s.ctx 0 j).requiresLock = false ∧ s.pholder = none ∧ s.core0.holder = none) ∨
  ((s.ctx 0 j).requiresLock = true ∧ s.pholder = some 0 ∧ s.core0.coreAcquired = true ∧ s.core0.holder = some j)

/-- Everything around Context j of Core 0 is at rest: the machine runs, every other Context is quiet, no cache, Device or
Memory port but that Context's L1D has work to do. -/
structure State.Calm (s : State) (j : Fin 8) : Prop where
  running : s.halted = false
  others : ∀ i, i ≠ j → (s.ctx 0 i).Quiet
  l1i : (s.ctx 0 j).l1i.AtRest
  l2 : s.core0.l2.AtRest
  l3 : s.l3.AtRest
  memory : s.memory.port.busy = false
  upper : ∀ c ∈ s.upper, c.Quiet
  devices : ∀ d ∈ s.devices, d.Quiet

/-- The focal Context of a visit is alone: everything around it is at rest, the lock is settled, and its own L1D is at rest
with its port idle. -/
structure State.Alone (s : State) : Prop where
  calm : s.Calm s.focal
  locks : s.LocksSettled s.focal
  l1d : (s.ctx 0 s.focal).l1d.AtRest
  l1dIdle : (s.ctx 0 s.focal).l1d.port.idle = true

/-- A Context at the start of a fresh visit: it does not retry and has no Error pending. -/
structure Context.Ready (c : Context) : Prop where
  notRetrying : c.isRetrying = false
  noPending : c.pending = none

/-! ## What a visit leaves behind -/

/-- The focal Context. -/
def State.focalCtx (s : State) : Context := s.ctx 0 s.focal

/-- Where the focal Context stands. -/
def State.focalEnv (s : State) : Env := s.env 0 s.focal

/-- The value of a register in the focal Context (R13). -/
def State.reg (s : State) (i : Reg) : Word := s.focalCtx.read s.focalEnv i

/-- The cursor of a Core `n` clocks later. -/
def Core.ticks (c : Core) (n : Nat) : Core := { c with next := c.next + Fin.ofNat 8 n }

/-- The machine `n` clocks later when nothing else happens: the cursors and the cycle count move on (R32, R33). -/
def State.ticks (s : State) (n : Nat) : State :=
  { s with core0 := s.core0.ticks n, upper := s.upper.map (Core.ticks · n), cycle := s.cycle + n }

/-- The machine after a visit that leaves the focal Context as `c` and touches nothing else: six clocks later. -/
def State.afterVisit (s : State) (c : Context) : State := (s.setCtx 0 s.focal c).ticks 6

/-- The Context with its latch and its in-flight instruction gone (R101, R104). -/
def Context.done (c : Context) : Context := { c with opcode := none, instruction := none, isRetrying := false }

/-- The Context with its instruction discarded and the Error `v` pending (R104, R153). -/
def Context.trapped (c : Context) (v : BitVec 8) : Context := { c.done with pending := some v }

/-- The Context with its instruction complete and the PC advanced (R18). -/
def Context.completed (c : Context) : Context := c.done.advancePc

/-- A sleeping Context that a Signal has woken, as the clock in which it is signalled and the next one leave it: its Core's
cursor decides whether LoadInstruction has taken the Signal in the second of them, or in the first and Decode in the second
(R98, R100, R101, R107). `next` is the cursor four clocks before the Signal. -/
def Context.woken (c : Context) (next j : Fin 8) : Context :=
  if j = next + 3 then
    { c with asleep := false, signalled := false, opcode := none, instruction := some (.fresh (.interrupt 0) true) }
  else if j = next + 4 then
    { c with asleep := false, signalled := false, opcode := some { word := 0x01600000, synthesized := true } }
  else { c with asleep := false, signalled := true }

/-- The Context with `f` in flight and its latch empty. -/
def Context.holding (c : Context) (f : InFlight) : Context := { c with opcode := none, instruction := some f }

/-- The Context with its L1D replaced. -/
def Context.withL1d (c : Context) (l1d : Cache) : Context := { c with l1d := l1d }

/-- The `synthesized` mark a newly decoded instruction takes from the latch (R90, R101). -/
def Context.latchMark (c : Context) : Bool :=
  match c.opcode with
  | some o => o.synthesized
  | none => false

/-! ## What a request that succeeds leaves behind (R41 to R43, R56 to R62) -/

/-- A port after a request that succeeded and was freed. -/
def Port.served (p : Port) (op : StoreOp) (a : Nat) (bus : List Lane) : Port :=
  { p with busy := false, free := true, successful := true, op := op, addr := BitVec.ofNat 64 a, bus := bus }

/-- The in-flight instruction after a window request of its transfer of `n` bytes at `p` that succeeded with `bus` on the
Bus (R113): the offset past the bytes moved, success when all are. -/
def InFlight.advanced (f : InFlight) (width : Nat) (op : StoreOp) (p n : Nat) (bus : List Lane) : InFlight :=
  { (if op == .read then f.received width p n bus else f) with
    issued := false, offset := f.offset + f.chunk width p n, success := f.offset + f.chunk width p n == n }

/-- The focal Context brings `f` to its Execute stage for instruction `i` (R97, R102): the result of the Load phase of a
fresh visit, or what a visit before left in flight, with no request outstanding. -/
def State.Brings (s : State) (i : Instr) (f : InFlight) : Prop :=
  s.focalCtx.pending = none ∧ f.instr = i ∧ f.issued = false ∧
  ((s.focalCtx.isRetrying = false ∧
      runPhase i .load s.focalEnv (s.focalCtx.holding (.fresh i s.focalCtx.latchMark))
        (.fresh i s.focalCtx.latchMark) = .ok (.just (s.focalCtx.holding f))) ∨
    (s.focalCtx.isRetrying = true ∧ s.focalCtx.opcode = none ∧ s.focalCtx.instruction = some f))

/-- The Context with `f` in flight for a retry visit (R104). -/
def Context.retrying (c : Context) (f : InFlight) : Context := { c.holding f with isRetrying := true }

/-- The line an address may be held in. -/
def Cache.lineOf (g : CacheConfig) (c : Cache) (a : Nat) : Line := c.line g (indexOf g a)

/-- The byte positions of the window of an address in its line. -/
def Cache.windowOf (g : CacheConfig) (c : Cache) (a : Nat) : List Lane :=
  (c.lineOf g a).window (windowOffset g a) g.busWidth

/-- A read of the window of `a` hits (R56). -/
def Cache.ReadHit (g : CacheConfig) (c : Cache) (a : Nat) : Prop :=
  (c.lineOf g a).tag = tagOf g a ∧ (c.windowOf g a).all Lane.valid = true

/-- A write to the window of `a` succeeds at once (R58, R59): the line holds the tag, or is clean. -/
def Cache.WriteReady (g : CacheConfig) (c : Cache) (a : Nat) : Prop :=
  (c.lineOf g a).tag = tagOf g a ∨ (c.lineOf g a).isDirty = false

/-- A flush of the window of `a` finds it clean (R62). -/
def Cache.FlushClean (g : CacheConfig) (c : Cache) (a : Nat) : Prop :=
  (c.lineOf g a).tag = tagOf g a →
    ((c.lineOf g a).windowDirtyMask (windowOffset g a) g.busWidth).any id = false

/-- The `n` bytes from address `a` on, as a hit of its window reads them. -/
def Cache.hitBytes (g : CacheConfig) (c : Cache) (a n : Nat) : List Byte :=
  (((c.windowOf g a).drop (a % g.busWidth)).take n).map Lane.data

/-- A cache after a read of `a` that hit. -/
def Cache.afterRead (g : CacheConfig) (c : Cache) (a : Nat) : Cache :=
  { c with port := c.port.served .read a (readBus ((c.windowOf g a).map Lane.data)) }

/-- The line a write to `a` goes into: the line itself, or the repurposed one with no valid byte (R59). -/
def Cache.writeBase (g : CacheConfig) (c : Cache) (a : Nat) : Line :=
  if (c.lineOf g a).tag = tagOf g a then c.lineOf g a
  else { tag := tagOf g a, lanes := (c.lineOf g a).lanes.map Lane.cleared }

/-- A cache after a write of `bytes` at `a`, inside one window, that succeeded (R58, R59). -/
def Cache.afterWrite (g : CacheConfig) (always : Bool) (c : Cache) (a : Nat) (bytes : List Byte) : Cache :=
  let bus := writeBus g.busWidth (a % g.busWidth) bytes
  { c.setLine (indexOf g a) ((c.writeBase g a).write always (windowOffset g a) bus) with
    port := c.port.served .write a bus }

/-- The line of `a` with its window cleared, when it holds the tag (R61). -/
def Cache.clearedLine (g : CacheConfig) (c : Cache) (a : Nat) : Line :=
  { c.lineOf g a with
    lanes := overwrite (c.lineOf g a).lanes (windowOffset g a) ((c.windowOf g a).map Lane.cleared) }

/-- A cache after a clear of `a` (R61). -/
def Cache.afterClear (g : CacheConfig) (c : Cache) (a : Nat) : Cache :=
  let c' := if (c.lineOf g a).tag = tagOf g a then c.setLine (indexOf g a) (c.clearedLine g a) else c
  { c' with port := c.port.served .clear a c.port.bus }

/-- A cache after a flush of `a` that found its window clean (R62). -/
def Cache.afterFlush (c : Cache) (a : Nat) : Cache := { c with port := c.port.served .flush a c.port.bus }

/-! ## What a request that fails leaves behind (R42, R43, R47, R53 to R62) -/

/-- A port that has taken a request (R41). -/
def Port.taken (p : Port) (op : StoreOp) (a : Nat) (bus : List Lane) : Port :=
  { p with busy := true, free := false, op := op, addr := BitVec.ofNat 64 a, bus := bus }

/-- A completed port that its requester has freed (R43). -/
def Port.freed (p : Port) : Port := { p with free := true }

/-- A port after a request that failed and was freed; the content of its Bus is not defined (R47, log entry 3). -/
def Port.turnedAway (p : Port) (op : StoreOp) (a : Nat) : Port :=
  { p with busy := false, free := true, successful := false, op := op, addr := BitVec.ofNat 64 a,
           bus := undefinedBus p.failures p.bus.length, failures := p.failures + 1 }

/-- The positions of the line of `a` that a flush of its window writes back: the dirty ones in the window (R62). -/
def Cache.flushMask (g : CacheConfig) (c : Cache) (a : Nat) : List Bool :=
  (c.lineOf g a).windowDirtyMask (windowOffset g a) g.busWidth

/-- A cache after a flush of `a` that failed, with `lp` as its lower request (R62). -/
def Cache.afterFlushDirty (c : Cache) (a : Nat) (lp : LowerRequest) : Cache :=
  { c with port := c.port.turnedAway .flush a, lp := lp }

/-- The machine with the port of Core 0's L2 replaced. -/
def State.withL2Port (s : State) (p : Port) : State :=
  { s with core0 := { s.core0 with l2 := { s.core0.l2 with port := p } } }

/-- A clock of a cache that fails its request: every line and the fill buffer stay, and `lp` is the lower request it leaves
outstanding (R52, R55). -/
structure Cache.Fails (c c' : Cache) (lp : LowerRequest) : Prop where
  lines : c'.lines = c.lines
  fill : c'.fill = c.fill
  lower : c'.lp = lp
  notBusy : c'.port.busy = false
  notFreed : c'.port.free = c.port.free
  failed : c'.port.successful = false

/-- A Write payload that carries the bytes of a line at the positions of `mask` and no other (R54, R55). -/
structure CarriesLine (bus : List Lane) (ln : Line) (mask : List Bool) : Prop where
  data : bus.map Lane.data = ln.lanes.map Lane.data
  valid : bus.map Lane.valid = mask

/-- A cache has the lines, the line width and the Bus width its parameters give it (R8, R34, R37). -/
structure Cache.Shaped (g : CacheConfig) (c : Cache) : Prop where
  lines : c.lines.length = g.size / g.lineWidth
  lanes : ∀ ln ∈ c.lines, ln.lanes.length = g.lineWidth
  bus : c.port.bus.length = g.busWidth

/-- The byte position a cache holds for an address, if its line holds the tag (R51). -/
def Cache.laneAt (g : CacheConfig) (c : Cache) (a : Nat) : Option Lane :=
  if (c.lineOf g a).tag = tagOf g a then (c.lineOf g a).lanes[a % g.lineWidth]? else none

/-- The byte a cache holds valid for an address, if it holds one (R51). -/
def Cache.byteAt (g : CacheConfig) (c : Cache) (a : Nat) : Option Byte :=
  match c.laneAt g a with
  | some l => if l.valid then some l.data else none
  | none => none

/-- A cache holds the byte of an address dirty (R37, R51). -/
def Cache.dirtyAt (g : CacheConfig) (c : Cache) (a : Nat) : Bool :=
  match c.laneAt g a with
  | some l => l.dirty
  | none => false

/-! ## Invariants -/

/-- A port is never busy and free at once (R36). -/
def Port.Legal (p : Port) : Prop := ¬(p.busy = true ∧ p.free = true)

/-- `dirty` implies `valid` at every byte position of every line (R37). -/
def Cache.DirtyValid (c : Cache) : Prop := ∀ ln ∈ c.lines, ∀ l ∈ ln.lanes, l.dirty = true → l.valid = true

/-- No byte of a cache is dirty and it has no write-back outstanding (R63). -/
def Cache.NeverWritten (c : Cache) : Prop :=
  (∀ ln ∈ c.lines, ∀ l ∈ ln.lanes, l.dirty = false) ∧ ∀ va mask fill, c.lp ≠ .writeBack va mask fill

/-- `p` holds of every Context of the machine. -/
def State.EveryContext (s : State) (p : Context → Prop) : Prop :=
  (∀ j, p (s.core0.ctx j)) ∧ ∀ c ∈ s.upper, ∀ j, p (c.ctx j)

/-- `p` holds of every cache of the machine. -/
def State.EveryCache (s : State) (p : Cache → Prop) : Prop :=
  s.EveryContext (fun c => p c.l1i ∧ p c.l1d) ∧ p s.core0.l2 ∧ (∀ c ∈ s.upper, p c.l2) ∧ p s.l3

/-- Every port of the machine is legal (R36). -/
def State.PortsLegal (s : State) : Prop :=
  s.EveryCache (fun c => c.port.Legal) ∧ s.memory.port.Legal ∧ ∀ d ∈ s.devices, d.port.Legal

/-- A retrying Context has an instruction in flight (R30). -/
def Context.RetryHasInstruction (c : Context) : Prop := c.isRetrying = true → c.instruction.isSome = true

/-- The L1 instruction cache is never written (R63): it holds no dirty byte, writes nothing back and takes only reads. -/
def Context.FetchOnly (c : Context) : Prop := c.l1i.NeverWritten ∧ (c.l1i.port.busy = true → c.l1i.port.op = .read)

/-- The lock of a Core is consistent: its holder is the Context that has acquired it, and only a Core with the system lock
has a holder (R32, R163). -/
def Core.LockConsistent (c : Core) : Prop :=
  (∀ j, (c.ctx j).acquiredLock = true ↔ c.holder = some j) ∧ (c.holder.isSome = true → c.coreAcquired = true)

/-- The two-level lock is consistent (R165): every Core's is, and the Cores with the system lock are the one that
`pholder` names. -/
def State.LocksConsistent (s : State) : Prop :=
  (∀ k < s.coreCount, (s.core k).LockConsistent) ∧
  ∀ k < s.coreCount, (s.core k).coreAcquired = true ↔ s.pholder = some k

/-- Two Contexts that have acquired the lock are the same one (R165). -/
def State.LockExclusive (s : State) : Prop :=
  ∀ k < s.coreCount, ∀ k' < s.coreCount, ∀ j j',
    (s.ctx k j).acquiredLock = true → (s.ctx k' j').acquiredLock = true → k = k' ∧ j = j'

/-- The machine has the parts its parameters give it (R1, R3): the Cores, and as many Devices as parameters for them. -/
def State.Shaped (s : State) : Prop :=
  s.coreCount = s.cfg.coreCount ∧ s.devices.length = s.cfg.devices.length

end Sys2Proof.Machine
end

