-- ==== Sys2Proof/Certificates/Slice0/Obligations.lean ====
section
/-! DEFINITION. The statements for the provers. Every statement about `exec` takes its state as `step` gives it to `exec`:
at the Decode stage of the focal Context (log entry 2). `State.Alone` says that nothing else in the machine has work to do;
`afterVisit c` is the whole next state: six clocks later, the focal Context `c`, everything else as it was. -/

open Sys2Proof Sys2Proof.Machine

/-! ## Instructions that use no memory -/

/-- R115: LoadC writes its zero-extended constant; R18: then the PC advances. Everything else stays. -/
def Obligations.LoadcResult : Prop :=
  ∀ (s : State) (k : BitVec 26) (d : Reg), s.Alone → s.focalCtx.Ready → s.focalCtx.mayWrite d = true →
    exec (.loadc k d) s = .next (s.afterVisit (s.focalCtx.hwWrite d (k.setWidth 64)).completed)

/-- R128 to R131: the bitwise instructions, with the match and the mask of each. -/
def Obligations.BitwiseResults : Prop :=
  (∀ a b d : Reg,
    encode (.not a d) &&& 0xFFFFFC00#32 = 0x10000000#32 ∧
    encode (.and a b d) &&& 0xFFFF8000#32 = 0x11000000#32 ∧
    encode (.or a b d) &&& 0xFFFF8000#32 = 0x12000000#32 ∧
    encode (.xor a b d) &&& 0xFFFF8000#32 = 0x13000000#32) ∧
  ∀ (s : State) (a b d : Reg), s.Alone → s.focalCtx.Ready → s.focalCtx.mayWrite d = true →
    exec (.not a d) s
      = .next (s.afterVisit (s.focalCtx.hwWrite d (s.reg a ^^^ 0xFFFFFFFFFFFFFFFF#64)).completed) ∧
    exec (.and a b d) s = .next (s.afterVisit (s.focalCtx.hwWrite d (s.reg a &&& s.reg b)).completed) ∧
    exec (.or a b d) s = .next (s.afterVisit (s.focalCtx.hwWrite d (s.reg a ||| s.reg b)).completed) ∧
    exec (.xor a b d) s = .next (s.afterVisit (s.focalCtx.hwWrite d (s.reg a ^^^ s.reg b)).completed)

/-- R132, R133: the shifts take the whole second operand as the amount; an amount of 64 or more gives 0; with
the match and the mask of each. -/
def Obligations.ShiftResults : Prop :=
  (∀ a b d : Reg,
    encode (.leftshift a b d) &&& 0xFFFF8000#32 = 0x14000000#32 ∧
    encode (.rightshift a b d) &&& 0xFFFF8000#32 = 0x15000000#32) ∧
  ∀ (s : State) (a b d : Reg), s.Alone → s.focalCtx.Ready → s.focalCtx.mayWrite d = true →
    exec (.leftshift a b d) s
      = .next (s.afterVisit (s.focalCtx.hwWrite d
          (if (s.reg b).toNat < 64 then BitVec.ofNat 64 ((s.reg a).toNat * 2 ^ (s.reg b).toNat) else 0)).completed) ∧
    exec (.rightshift a b d) s
      = .next (s.afterVisit (s.focalCtx.hwWrite d
          (if (s.reg b).toNat < 64 then BitVec.ofNat 64 ((s.reg a).toNat / 2 ^ (s.reg b).toNat) else 0)).completed)

/-- R134 to R136: addition, subtraction and multiplication modulo 2^64, with the match and the mask of each. -/
def Obligations.ArithmeticResults : Prop :=
  (∀ a b d : Reg,
    encode (.add a b d) &&& 0xFFFF8000#32 = 0x18000000#32 ∧
    encode (.subtract a b d) &&& 0xFFFF8000#32 = 0x19000000#32 ∧
    encode (.multiply a b d) &&& 0xFFFF8000#32 = 0x1A000000#32) ∧
  ∀ (s : State) (a b d : Reg), s.Alone → s.focalCtx.Ready → s.focalCtx.mayWrite d = true →
    exec (.add a b d) s
      = .next (s.afterVisit (s.focalCtx.hwWrite d
          (BitVec.ofNat 64 (((s.reg a).toNat + (s.reg b).toNat) % 2 ^ 64))).completed) ∧
    exec (.subtract a b d) s
      = .next (s.afterVisit (s.focalCtx.hwWrite d
          (BitVec.ofInt 64 (((s.reg a).toNat : Int) - ((s.reg b).toNat : Int)))).completed) ∧
    exec (.multiply a b d) s
      = .next (s.afterVisit (s.focalCtx.hwWrite d
          (BitVec.ofNat 64 ((s.reg a).toNat * (s.reg b).toNat % 2 ^ 64))).completed)

/-- R137, R138: unsigned quotient and remainder, for a divisor that is not zero. -/
def Obligations.DivisionResults : Prop :=
  ∀ (s : State) (a b d : Reg), s.Alone → s.focalCtx.Ready → s.focalCtx.mayWrite d = true → s.reg b ≠ 0 →
    exec (.divide a b d) s
      = .next (s.afterVisit (s.focalCtx.hwWrite d
          (BitVec.ofNat 64 ((s.reg a).toNat / (s.reg b).toNat))).completed) ∧
    exec (.modulo a b d) s
      = .next (s.afterVisit (s.focalCtx.hwWrite d
          (BitVec.ofNat 64 ((s.reg a).toNat % (s.reg b).toNat))).completed)

/-- R137, R138, R153, R158: a zero divisor raises `ArithmeticError` in normal mode, whatever the destination, and aborts in
interrupt mode. -/
def Obligations.DivisionByZero : Prop :=
  ∀ (s : State) (a b d : Reg), s.Alone → s.focalCtx.Ready → s.reg b = 0 →
    (s.focalCtx.interrupted = false →
      exec (.divide a b d) s = .next (s.afterVisit (s.focalCtx.trapped 0x14)) ∧
      exec (.modulo a b d) s = .next (s.afterVisit (s.focalCtx.trapped 0x14))) ∧
    (s.focalCtx.interrupted = true →
      exec (.divide a b d) s = .fault .doubleInterrupt ∧ exec (.modulo a b d) s = .fault .doubleInterrupt)

/-- R15, R153, R154: a register result that may not be written raises `RegisterAccessError` in normal mode and aborts in
interrupt mode (there only R0 to R3 are refused). -/
def Obligations.RegisterAccessTraps : Prop :=
  ∀ (s : State) (i : Instr) (k : BitVec 26) (a b d : Reg), s.Alone → s.focalCtx.Ready →
    s.focalCtx.mayWrite d = false → (i = .divide a b d ∨ i = .modulo a b d → s.reg b ≠ 0) →
    i ∈ [.loadc k d, .not a d, .and a b d, .or a b d, .xor a b d, .leftshift a b d, .rightshift a b d, .add a b d,
      .subtract a b d, .multiply a b d, .divide a b d, .modulo a b d] →
    exec i s = if s.focalCtx.interrupted then .fault .doubleInterrupt else .next (s.afterVisit (s.focalCtx.trapped 0x08))

/-- R116 to R120: the four conditions and the two directions; R18: a jump not taken advances the PC. With the word, the match
and the mask of each. -/
def Obligations.JumpResults : Prop :=
  (∀ (dir : Direction) (off : BitVec 22) (r : Reg),
    let word (m : InstrWord) : InstrWord :=
      m ||| ((if dir = .forward then 0#32 else 1#32) <<< 27) ||| (off.setWidth 32 <<< 5) ||| r.setWidth 32
    encode (.jez dir off r) = word 0x40000000 ∧ encode (.jnz dir off r) = word 0x50000000 ∧
    encode (.jle dir off r) = word 0x60000000 ∧ encode (.jlz dir off r) = word 0x70000000 ∧
    encode (.jez dir off r) &&& 0xF0000000#32 = 0x40000000#32 ∧
    encode (.jnz dir off r) &&& 0xF0000000#32 = 0x50000000#32 ∧
    encode (.jle dir off r) &&& 0xF0000000#32 = 0x60000000#32 ∧
    encode (.jlz dir off r) &&& 0xF0000000#32 = 0x70000000#32) ∧
  ∀ (s : State) (dir : Direction) (off : BitVec 22) (r : Reg), s.Alone → s.focalCtx.Ready →
    let target := match dir with
      | .forward => s.focalCtx.pc + off.setWidth 64
      | .backward => s.focalCtx.pc - off.setWidth 64
    let jumps (taken : Prop) [Decidable taken] :=
      Host.Outcome.next (s.afterVisit (if taken then s.focalCtx.done.setPc target else s.focalCtx.completed))
    exec (.jez dir off r) s = jumps (s.reg r = 0) ∧
    exec (.jnz dir off r) s = jumps (s.reg r ≠ 0) ∧
    exec (.jle dir off r) s = jumps (s.reg r = 0 ∨ (s.reg r).msb = true) ∧
    exec (.jlz dir off r) s = jumps ((s.reg r).msb = true)

/-! ## Instructions that use memory -/

/-- R121 to R123: an 8-byte load inside one window that hits. `p` is the physical address, in integers. -/
def Obligations.LoadResult : Prop :=
  ∀ (s : State) (a : Reg) (off : BitVec 17) (d : Reg) (p : Nat), s.Alone → s.focalCtx.Ready → s.cfg.wellFormed = true →
    s.focalCtx.l1d.Shaped s.cfg.l1d → s.focalCtx.mayWrite d = true →
    p = (if s.focalCtx.interrupted then 0 else s.focalCtx.ps.toNat) + (s.reg a + off.setWidth 64).toNat →
    p + 8 ≤ s.cfg.memorySize → (s.focalCtx.interrupted = true ∨ p + 8 ≤ s.focalCtx.pl.toNat) →
    p % s.cfg.l1d.busWidth + 8 ≤ s.cfg.l1d.busWidth → s.focalCtx.l1d.ReadHit s.cfg.l1d p →
    exec (.load a off d) s
      = .next (s.afterVisit (((s.focalCtx.withL1d (s.focalCtx.l1d.afterRead s.cfg.l1d p)).hwWrite d
          (be8 (s.focalCtx.l1d.hitBytes s.cfg.l1d p 8))).completed))

/-- R121, R122, R124: an 8-byte store inside one window that the L1D takes at once: the L1D line holds the 8 bytes of the
register, big-endian; no other cache, no register but the PC and no byte of Memory changes. -/
def Obligations.StoreResult : Prop :=
  ∀ (s : State) (a : Reg) (off : BitVec 17) (d : Reg) (p : Nat), s.Alone → s.focalCtx.Ready → s.cfg.wellFormed = true →
    p = (if s.focalCtx.interrupted then 0 else s.focalCtx.ps.toNat) + (s.reg a + off.setWidth 64).toNat →
    p + 8 ≤ s.cfg.memorySize → (s.focalCtx.interrupted = true ∨ p + 8 ≤ s.focalCtx.pl.toNat) →
    p % s.cfg.l1d.busWidth + 8 ≤ s.cfg.l1d.busWidth → s.focalCtx.l1d.WriteReady s.cfg.l1d p →
    exec (.store a off d) s
      = .next (s.afterVisit ((s.focalCtx.withL1d
          (s.focalCtx.l1d.afterWrite s.cfg.l1d s.cfg.dirtyOnUnchangedWrite p (bytes8 (s.reg d)))).completed))

/-- R121, R122, R125, R126: Clear of any window and Flush. A Flush of a window that is clean, or that the line does not hold,
completes, on a fresh visit or a retry. A Flush of a dirty window fails and stays in flight for a retry (R62): the L1D sends an
idle L2 one Write of exactly the dirty bytes of the window, at the address of its line, and notes it; an L2 that is not idle it
sends nothing (R55). In the form that sends, no L2 clock falls into the two last clocks of the visit, in which the L2 would
resolve the Write. -/
def Obligations.ClearFlushResults : Prop :=
  (∀ (s : State) (a : Reg) (off : BitVec 17) (p : Nat), s.Alone → s.focalCtx.Ready → s.cfg.wellFormed = true →
    p = (if s.focalCtx.interrupted then 0 else s.focalCtx.ps.toNat) + (s.reg a + off.setWidth 64).toNat →
    p + 1 ≤ s.cfg.memorySize → (s.focalCtx.interrupted = true ∨ p + 1 ≤ s.focalCtx.pl.toNat) →
    exec (.clear a off) s
      = .next (s.afterVisit ((s.focalCtx.withL1d (s.focalCtx.l1d.afterClear s.cfg.l1d p)).completed)) ∧
    (s.focalCtx.l1d.FlushClean s.cfg.l1d p →
      exec (.flush a off) s
        = .next (s.afterVisit ((s.focalCtx.withL1d (s.focalCtx.l1d.afterFlush p)).completed))) ∧
    ∃ f, s.Brings (.flush a off) f ∧ f.physical = p ∧ f.offset = 0) ∧
  ∀ (s : State) (a : Reg) (off : BitVec 17) (f : InFlight), s.Alone → s.cfg.wellFormed = true →
    s.Brings (.flush a off) f → dataOk s.focalEnv s.focalCtx f.physical 1 = true → f.offset = 0 →
    let g := s.cfg.l1d
    let p := f.physical
    let c := s.focalCtx
    let ln := c.l1d.lineOf g p
    let mask := c.l1d.flushMask g p
    let bus := ln.writeBackBus mask
    (∀ q, mask[q]? = some true ↔
      windowOffset g p ≤ q ∧ q < windowOffset g p + g.busWidth ∧ ∃ l, ln.lanes[q]? = some l ∧ l.dirty = true) ∧
    CarriesLine bus ln mask ∧
    (c.l1d.FlushClean g p → exec (.flush a off) s = .next (s.afterVisit (c.withL1d (c.l1d.afterFlush p)).completed)) ∧
    (¬ c.l1d.FlushClean g p → s.core0.l2.port.idle = false →
      exec (.flush a off) s = .next (s.afterVisit ((c.withL1d (c.l1d.afterFlushDirty p .idle)).retrying f.failed))) ∧
    (¬ c.l1d.FlushClean g p → s.core0.l2.port.idle = true →
      (s.cycle + 4) % s.cfg.divL2 ≠ 0 → (s.cycle + 5) % s.cfg.divL2 ≠ 0 →
      exec (.flush a off) s = .next
        ((s.afterVisit
            ((c.withL1d (c.l1d.afterFlushDirty p (.writeBack (lineAddr g p) mask false))).retrying f.failed)).withL2Port
          (s.core0.l2.port.taken .write (lineAddr g p) bus)))

/-- R97, R113: one visit of a Load, fresh or a retry, whose next window hits: it moves that window, and is in flight for a
retry past it unless it was the last one. After the last one it completes into a register that may be written; into another
it raises `RegisterAccessError` in normal mode, the window read and the register as it was, and aborts in interrupt mode
(R15, R123, R154). -/
def Obligations.LoadWindow : Prop :=
  ∀ (s : State) (a : Reg) (off : BitVec 17) (d : Reg) (f : InFlight), s.Alone → s.cfg.wellFormed = true →
    s.Brings (.load a off d) f → dataOk s.focalEnv s.focalCtx f.physical 8 = true →
    f.offset < 8 → s.focalCtx.l1d.ReadHit s.cfg.l1d (f.physical + f.offset) →
    let l1d := s.focalCtx.l1d.afterRead s.cfg.l1d (f.physical + f.offset)
    let f' := f.advanced s.cfg.l1d.busWidth .read f.physical 8 l1d.port.bus
    exec (.load a off d) s =
      if f'.offset ≠ 8 then .next (s.afterVisit ((s.focalCtx.withL1d l1d).retrying f'))
      else if s.focalCtx.mayWrite d then
        .next (s.afterVisit ((s.focalCtx.withL1d l1d).hwWrite d (be8 (f'.buf.take 8))).completed)
      else if s.focalCtx.interrupted then .fault .doubleInterrupt
      else .next (s.afterVisit ((s.focalCtx.withL1d l1d).trapped 0x08))

/-- R97, R113: one visit of a Store, fresh or a retry, whose next window the L1D takes at once. -/
def Obligations.StoreWindow : Prop :=
  ∀ (s : State) (a : Reg) (off : BitVec 17) (d : Reg) (f : InFlight), s.Alone → s.cfg.wellFormed = true →
    s.Brings (.store a off d) f → dataOk s.focalEnv s.focalCtx f.physical 8 = true →
    f.offset < 8 → s.focalCtx.l1d.WriteReady s.cfg.l1d (f.physical + f.offset) →
    let k := f.chunk s.cfg.l1d.busWidth f.physical 8
    let l1d := s.focalCtx.l1d.afterWrite s.cfg.l1d s.cfg.dirtyOnUnchangedWrite (f.physical + f.offset)
      ((f.buf.drop f.offset).take k)
    let f' := f.advanced s.cfg.l1d.busWidth .write f.physical 8 l1d.port.bus
    exec (.store a off d) s = .next (s.afterVisit
      (if f.offset + k = 8 then (s.focalCtx.withL1d l1d).completed else (s.focalCtx.withL1d l1d).retrying f'))

/-- R139, R140: one visit of a Push of at least one register, fresh or a retry, whose next window the L1D takes at once; the
last window commits SP. `f.op0` is the SP the Load phase read. -/
def Obligations.PushWindow : Prop :=
  ∀ (s : State) (mask : BitVec 16) (f : InFlight), s.Alone → s.cfg.wellFormed = true → mask ≠ 0 →
    s.Brings (.push mask) f → pushError s.focalEnv s.focalCtx f.op0 (maskCount mask) = none →
    f.offset < 8 * maskCount mask → s.focalCtx.l1d.WriteReady s.cfg.l1d (f.op0.toNat + f.offset) →
    let n := 8 * maskCount mask
    let k := f.chunk s.cfg.l1d.busWidth f.op0.toNat n
    let l1d := s.focalCtx.l1d.afterWrite s.cfg.l1d s.cfg.dirtyOnUnchangedWrite (f.op0.toNat + f.offset)
      ((f.buf.drop f.offset).take k)
    let f' := f.advanced s.cfg.l1d.busWidth .write f.op0.toNat n l1d.port.bus
    exec (.push mask) s = .next (s.afterVisit
      (if f.offset + k = n then ((s.focalCtx.withL1d l1d).setSp (f.op0 + BitVec.ofNat 64 n)).completed
       else (s.focalCtx.withL1d l1d).retrying f'))

/-- R139, R141: one visit of a Pop of at least one register, fresh or a retry, whose next window hits; the last window
commits the registers and SP. -/
def Obligations.PopWindow : Prop :=
  ∀ (s : State) (mask : BitVec 16) (f : InFlight), s.Alone → s.cfg.wellFormed = true → mask ≠ 0 →
    s.Brings (.pop mask) f → popError s.focalEnv s.focalCtx f.op0 (maskCount mask) = none →
    f.offset < 8 * maskCount mask →
    s.focalCtx.l1d.ReadHit s.cfg.l1d (f.op0.toNat - 8 * maskCount mask + f.offset) →
    let n := 8 * maskCount mask
    let p := f.op0.toNat - n
    let l1d := s.focalCtx.l1d.afterRead s.cfg.l1d (p + f.offset)
    let f' := f.advanced s.cfg.l1d.busWidth .read p n l1d.port.bus
    exec (.pop mask) s = .next (s.afterVisit
      (if f'.offset = n then
        ((popRegs (maskRegs mask) f'.buf (s.focalCtx.withL1d l1d)).setSp (f.op0 - BitVec.ofNat 64 n)).completed
       else (s.focalCtx.withL1d l1d).retrying f'))

/-- R142: one visit of a Call, fresh or a retry, whose next window the L1D takes at once; the last window commits SP, and
the PC becomes the target the Load phase read. -/
def Obligations.CallWindow : Prop :=
  ∀ (s : State) (r : Reg) (f : InFlight), s.Alone → s.cfg.wellFormed = true → s.Brings (.call r) f →
    pushError s.focalEnv s.focalCtx f.op0 1 = none → f.offset < 8 →
    s.focalCtx.l1d.WriteReady s.cfg.l1d (f.op0.toNat + f.offset) →
    let k := f.chunk s.cfg.l1d.busWidth f.op0.toNat 8
    let l1d := s.focalCtx.l1d.afterWrite s.cfg.l1d s.cfg.dirtyOnUnchangedWrite (f.op0.toNat + f.offset)
      ((f.buf.drop f.offset).take k)
    let f' := f.advanced s.cfg.l1d.busWidth .write f.op0.toNat 8 l1d.port.bus
    exec (.call r) s = .next (s.afterVisit
      (if f.offset + k = 8 then (((s.focalCtx.withL1d l1d).setSp (f.op0 + 8)).setPc f.op1).done
       else (s.focalCtx.withL1d l1d).retrying f'))

/-- R143: one visit of a Return, fresh or a retry, whose next window hits; the last window commits SP, and the PC becomes
the popped value. -/
def Obligations.ReturnWindow : Prop :=
  ∀ (s : State) (f : InFlight), s.Alone → s.cfg.wellFormed = true → s.Brings .ret f →
    popError s.focalEnv s.focalCtx f.op0 1 = none → f.offset < 8 →
    s.focalCtx.l1d.ReadHit s.cfg.l1d (f.op0.toNat - 8 + f.offset) →
    let l1d := s.focalCtx.l1d.afterRead s.cfg.l1d (f.op0.toNat - 8 + f.offset)
    let f' := f.advanced s.cfg.l1d.busWidth .read (f.op0.toNat - 8) 8 l1d.port.bus
    exec .ret s = .next (s.afterVisit
      (if f'.offset = 8 then (((s.focalCtx.withL1d l1d).setSp (f.op0 - 8)).setPc (be8 (f'.buf.take 8))).done
       else (s.focalCtx.withL1d l1d).retrying f'))

/-- What the Load phases of the transfers bring to Execute (R121, R123 to R126, R139 to R143): the address or the SP, the
target, and for a transfer that writes its bytes, big-endian, the registers of a mask ascending. -/
def Obligations.TransferOperands : Prop :=
  ∀ (s : State) (a d r : Reg) (off : BitVec 17) (mask : BitVec 16) (f : InFlight), s.focalCtx.isRetrying = false →
    let ea := (s.reg a + off.setWidth 64).toNat
    let base := if s.focalCtx.interrupted then 0 else s.focalCtx.ps.toNat
    (s.Brings (.load a off d) f → f.physical = base + ea ∧ f.offset = 0) ∧
    (s.Brings (.store a off d) f → f.physical = base + ea ∧ f.offset = 0 ∧ f.buf = bytes8 (s.reg d)) ∧
    (s.Brings (.clear a off) f ∨ s.Brings (.flush a off) f → f.physical = base + ea ∧ f.offset = 0) ∧
    (s.Brings (.push mask) f → f.op0 = s.focalCtx.sp ∧ f.offset = 0 ∧
      f.buf = ((List.range 16).filter (mask.getLsbD ·)).flatMap (fun i => bytes8 (s.reg (BitVec.ofNat 5 (16 + i))))) ∧
    (s.Brings (.pop mask) f → f.op0 = s.focalCtx.sp ∧ f.offset = 0) ∧
    (s.Brings (.call r) f → f.op0 = s.focalCtx.sp ∧ f.offset = 0 ∧ f.op1 = s.reg r ∧
      f.buf = bytes8 (s.focalCtx.pc + 4)) ∧
    (s.Brings .ret f → f.op0 = s.focalCtx.sp ∧ f.offset = 0)

/-- R114, R122, R153: a Memory-family access outside the program region or Memory raises `ProgramAccessError` in normal mode
and aborts in interrupt mode; no request is issued. -/
def Obligations.DataAccessTraps : Prop :=
  ∀ (s : State) (a : Reg) (off : BitVec 17) (d : Reg) (p n : Nat) (i : Instr), s.Alone → s.focalCtx.Ready →
    p = (if s.focalCtx.interrupted then 0 else s.focalCtx.ps.toNat) + (s.reg a + off.setWidth 64).toNat →
    ((i = .load a off d ∨ i = .store a off d) ∧ n = 8 ∨ (i = .clear a off ∨ i = .flush a off) ∧ n = 1) →
    (s.cfg.memorySize < p + n ∨ s.focalCtx.interrupted = false ∧ s.focalCtx.pl.toNat < p + n) →
    exec i s = if s.focalCtx.interrupted then .fault .doubleInterrupt else .next (s.afterVisit (s.focalCtx.trapped 0x04))

/-- R140 to R143, R153: the stack checks of Push, Pop, Call and Return, in integers; R154: registers, SP and memory stay. -/
def Obligations.StackTraps : Prop :=
  ∀ (s : State) (mask : BitVec 16) (r : Reg), s.Alone → s.focalCtx.Ready →
    let sp := s.focalCtx.sp.toNat
    let trap (v : BitVec 8) : Host.Outcome State Fault Refusal :=
      if s.focalCtx.interrupted then .fault .doubleInterrupt else .next (s.afterVisit (s.focalCtx.trapped v))
    let n := maskCount mask
    (0 < n → s.focalCtx.sl.toNat ≤ sp + 8 * (n - 1) → exec (.push mask) s = trap 0x0C) ∧
    (0 < n → sp + 8 * (n - 1) < s.focalCtx.sl.toNat → s.cfg.memorySize < sp + 8 * n →
      exec (.push mask) s = trap 0x04) ∧
    (s.focalCtx.sl.toNat ≤ sp → exec (.call r) s = trap 0x0C) ∧
    (sp < s.focalCtx.sl.toNat → s.cfg.memorySize < sp + 8 → exec (.call r) s = trap 0x04) ∧
    (0 < n → sp < s.focalCtx.ss.toNat + 8 * n → exec (.pop mask) s = trap 0x10) ∧
    (0 < n → s.focalCtx.ss.toNat + 8 * n ≤ sp → s.cfg.memorySize < sp → exec (.pop mask) s = trap 0x04) ∧
    (sp < s.focalCtx.ss.toNat + 8 → exec .ret s = trap 0x10) ∧
    (s.focalCtx.ss.toNat + 8 ≤ sp → s.cfg.memorySize < sp → exec .ret s = trap 0x04)

/-! ## System instructions -/

/-- R144, R111: Halt in interrupt mode sets `halted` and advances the PC. R151, R159: Uninterrupt in interrupt mode returns to
normal mode at the PC in IPC and restores nothing else. -/
def Obligations.PrivilegedResults : Prop :=
  ∀ (s : State), s.Alone → s.focalCtx.Ready → s.focalCtx.interrupted = true →
    exec .halt s = .next { s.afterVisit s.focalCtx.completed with halted := true } ∧
    exec .uninterrupt s
      = .next (s.afterVisit { (s.focalCtx.hwWrite 7 s.focalCtx.ipc) with interrupted := false }.done)

/-- R144, R151, R160, R153: Halt and Uninterrupt in normal mode raise `UnsupportedOperationError`; the machine goes on in
normal mode with the PC at the instruction. -/
def Obligations.PrivilegedTraps : Prop :=
  ∀ (s : State), s.Alone → s.focalCtx.Ready → s.focalCtx.interrupted = false →
    exec .halt s = .next (s.afterVisit (s.focalCtx.trapped 0x18)) ∧
    exec .uninterrupt s = .next (s.afterVisit (s.focalCtx.trapped 0x18))

/-- R145: Noop only advances the PC. R140, R141: so do a Push and a Pop of an empty mask. R146: Sleep also puts the Context to
sleep, unless a Signal is posted and not taken. -/
def Obligations.NoopSleepResults : Prop :=
  ∀ (s : State), s.Alone → s.focalCtx.Ready →
    exec .noop s = .next (s.afterVisit s.focalCtx.completed) ∧
    exec (.push 0) s = .next (s.afterVisit s.focalCtx.completed) ∧
    exec (.pop 0) s = .next (s.afterVisit s.focalCtx.completed) ∧
    exec .sleep s = .next (s.afterVisit
      (if s.focalCtx.signalled then s.focalCtx else { s.focalCtx with asleep := true }).completed)

/-- R147, R161: a Context that signals itself is awake with a Signal posted. -/
def Obligations.SignalSelf : Prop :=
  ∀ (s : State) (r : Reg), s.Alone → s.focalCtx.Ready → (s.reg r).toNat = s.focal →
    exec (.signal r) s = .next (s.afterVisit { s.focalCtx with asleep := false, signalled := true }.completed)

/-- R147, R161, R182: a Signal to a sleeping Context `j` of Core `k` that can take it: the target wakes at once, and its own
stages of this clock and the next see it. -/
def Obligations.SignalContext : Prop :=
  ∀ (s : State) (r : Reg) (k : Nat) (j : Fin 8), s.Alone → s.focalCtx.Ready → k < s.coreCount →
    ¬(k = 0 ∧ j = s.focal) → (s.reg r).toNat = 8 * k + j →
    (s.ctx k j).interrupted = false → (s.ctx k j).pending = none → (s.ctx k j).fetchIssued = false →
    (s.ctx k j).isRetrying = false →
    exec (.signal r) s
      = .next ((s.setCtx k j ((s.ctx k j).woken (s.core k).next j)).afterVisit s.focalCtx.completed)

/-- R147, R161, R172: a Signal to an idle Device starts it reading its control block. No Device clock falls into the two
last clocks of the visit. -/
def Obligations.SignalDevice : Prop :=
  ∀ (s : State) (r : Reg) (d : Nat) (x : Device) (cfg : DeviceConfig), s.Alone → s.focalCtx.Ready →
    (s.reg r).toNat = 8 * s.coreCount + d → s.devices[d]? = some x → s.cfg.devices[d]? = some cfg →
    (s.cycle + 4) % s.cfg.divDev ≠ 0 → (s.cycle + 5) % s.cfg.divDev ≠ 0 →
    exec (.signal r) s
      = .next { s.afterVisit s.focalCtx.completed with
                  devices := s.devices.set d { x with work := .readingBlock [] } }

/-- R161, R12: a Signal to an id that names no Context and no Device aborts. -/
def Obligations.SignalNobody : Prop :=
  ∀ (s : State) (r : Reg), s.Alone → s.focalCtx.Ready → 8 * s.coreCount + s.devices.length ≤ (s.reg r).toNat →
    exec (.signal r) s = .fault .unknownSignalTarget

/-- R148, R162, R163, R189: an uncontended Lock acquires both levels of the lock and retires in the same round; a Lock while
already holding the lock changes nothing but the PC. -/
def Obligations.LockResult : Prop :=
  ∀ (s : State), s.Alone → s.focalCtx.Ready →
    (s.focalCtx.requiresLock = false →
      let t := s.afterVisit { s.focalCtx with requiresLock := true, acquiredLock := true }.completed
      exec .lock s
        = .next { t with core0 := { t.core0 with holder := some s.focal, coreAcquired := true }, pholder := some 0 }) ∧
    (s.focalCtx.requiresLock = true → s.focalCtx.acquiredLock = true →
      exec .lock s = .next (s.afterVisit s.focalCtx.completed))

/-- R148, R104: while the lock is not granted, the Retire stage of a Lock leaves it in flight for a retry and the PC as it
is. -/
def Obligations.LockWaits : Prop :=
  ∀ (e : Env) (c : Context) (f : InFlight), c.instruction = some f → f.instr = .lock → f.success = true →
    c.pending = none → c.acquiredLock = false →
    retireStage e c = .ok { ctx := { c with isRetrying := true }, effect := .none, done := false }

/-- R149, R162, R163: Unlock gives up both levels of a lock that is held; without the lock it changes nothing but the PC. -/
def Obligations.UnlockResult : Prop :=
  ∀ (s : State), s.Alone → s.focalCtx.Ready →
    (s.focalCtx.requiresLock = true →
      let t := s.afterVisit { s.focalCtx with requiresLock := false, acquiredLock := false }.completed
      exec .unlock s
        = .next { t with core0 := { t.core0 with holder := none, coreAcquired := false }, pholder := none }) ∧
    (s.focalCtx.requiresLock = false → exec .unlock s = .next (s.afterVisit s.focalCtx.completed))

/-- R150, R156, R158: taking an interrupt in normal mode. IPC is the PC to resume at (its own for a synthesized Interrupt, the
next for an explicit one), IV the value, the mode interrupt mode, the PC at the vector; no other register changes. In
interrupt mode it is a fatal double interrupt. -/
def Obligations.InterruptResult : Prop :=
  ∀ (s : State) (v : BitVec 8), s.Alone → s.focalCtx.Ready →
    (s.focalCtx.interrupted = false →
      let resume := if s.focalCtx.latchMark then s.focalCtx.pc else s.focalCtx.pc + 4
      let saved := (s.focalCtx.hwWrite 11 resume).hwWrite 12 (v.setWidth 64)
      exec (.interrupt v) s
        = .next (s.afterVisit ({ saved with interrupted := true }.hwWrite 7 (s.focalCtx.ivt + v.setWidth 64)).done)) ∧
    (s.focalCtx.interrupted = true → exec (.interrupt v) s = .fault .doubleInterrupt)

/-! ## Encoding -/

/-- R93: decoding the word of an instruction gives the instruction back, every operand at every value. -/
def Obligations.DecodeEncode : Prop := ∀ i : Instr, decode (encode i) = .ok i

/-- R93: every word that decodes is the word of the instruction it decodes to: no bit of it is ignored. -/
def Obligations.EncodeDecode : Prop := ∀ (w : InstrWord) (i : Instr), decode w = .ok i → encode i = w

/-- The worked words of sections 41 to 47 of the spec, one or two of every family. -/
def Obligations.DecodeWords : Prop :=
  decode 0x800000B0 = .ok (.loadc 5 16) ∧ decode 0x58000110 = .ok (.jnz .backward 8 16) ∧
  decode 0x60000111 = .ok (.jle .forward 8 17) ∧ decode 0x20040011 = .ok (.load 0 256 17) ∧
  decode 0x38040000 = .ok (.flush 0 256) ∧ decode 0x18007BBF = .ok (.add 29 30 31) ∧
  decode 0x04000003 = .ok (.push 3) ∧ decode 0x06000003 = .ok (.pop 3) ∧ decode 0x02000014 = .ok (.call 20) ∧
  decode 0x03000000 = .ok .ret ∧ decode 0x01300010 = .ok (.signal 16) ∧ decode 0x01600018 = .ok (.interrupt 24)

/-- R91, R92: the words that are refused are exactly these: those with no family, the reserved ALU and Control codes, and
those with a must-be-zero bit set. -/
def Obligations.UnrecognizedWords : Prop :=
  ∀ w : InstrWord,
    let n := w.toNat
    let bits (hi lo : Nat) := n / 2 ^ lo % 2 ^ (hi + 1 - lo)
    (∃ r, decode w = .error r) ↔
      n < 2 ^ 24 ∨ (2 ^ 27 ≤ n ∧ n < 2 ^ 28) ∨
      (2 ^ 29 ≤ n ∧ n < 2 ^ 30 ∧ 2 ≤ bits 28 27 ∧ bits 4 0 ≠ 0) ∨
      (2 ^ 28 ≤ n ∧ n < 2 ^ 29 ∧
        (bits 27 24 ∈ [6, 7, 13, 14, 15] ∨ bits 23 15 ≠ 0 ∨ (bits 27 24 = 0 ∧ bits 14 10 ≠ 0))) ∨
      (2 ^ 26 ≤ n ∧ n < 2 ^ 27 ∧ bits 24 16 ≠ 0) ∨
      (2 ^ 25 ≤ n ∧ n < 2 ^ 26 ∧ (bits 23 5 ≠ 0 ∨ (bits 24 24 = 1 ∧ bits 4 0 ≠ 0))) ∨
      (2 ^ 24 ≤ n ∧ n < 2 ^ 25 ∧
        (8 ≤ bits 23 20 ∨ bits 19 8 ≠ 0 ∨ (bits 23 20 = 3 ∧ bits 7 5 ≠ 0) ∨
          (bits 23 20 ∈ [0, 1, 2, 4, 5, 7] ∧ bits 7 0 ≠ 0)))

/-! ## The step -/

/-- A STEP RUNS THE DECODED INSTRUCTION: when the two clocks of Fetch and LoadInstruction, and the next clock up to the
focal Context's Decode stage, leave an instruction for it to drive, the step is `exec` of that instruction there. -/
def Obligations.StepRunsDecoded : Prop :=
  ∀ (s s1 s2 : State) (i : Instr), s.cfg.wellFormed = true → startRound s = .ok s1 → s1.halted = false →
    clockBeforeDecode s1 = .ok s2 → (s2.ctx 0 s2.focal).decoded = .run i → step s = exec i s2

/-- A step is eight Processor clocks of R110, whatever every Context of every Core does in them. That a step is one round of
eight clocks is the model's DESIGN CHOICE (log entry 2), not a rule of the spec. -/
def Obligations.StepIsEightClocks : Prop :=
  ∀ s : State, s.cfg.wellFormed = true → step s = toOutcome (clocks 8 s)

/-- R98, R100, R101: with nothing else at work, a Context whose fetch hits its L1I runs the instruction whose four bytes,
big-endian, stand at the fetch address; the instruction starts alone and ready. -/
def Obligations.FetchRunsInstruction : Prop :=
  ∀ (s : State) (w : InstrWord) (i : Instr),
    let j := s.core0.next
    let c := s.ctx 0 j
    let a := fetchAddress c
    s.cfg.wellFormed = true → s.Calm j → s.LocksSettled j → c.l1d.AtRest → c.l1d.port.idle = true →
    c.l1i.port.idle = true → c.asleep = false → c.isRetrying = false → c.instruction = none → c.fetchIssued = false →
    c.pending = none → (c.signalled = true → c.interrupted = true) → fetchOk (s.env 0 j) c a = true →
    c.l1i.ReadHit s.cfg.l1i a → c.l1i.hitBytes s.cfg.l1i a 4 = bytesOfWord w → decode w = .ok i →
    let fetched : Context := { c with l1i := c.l1i.afterRead s.cfg.l1i a, fetchAddr := BitVec.ofNat 64 a,
                                      opcode := some { word := w, synthesized := false } }
    let t := (s.setCtx 0 j fetched).ticks 2
    step s = exec i t ∧ t.Alone ∧ t.focal = j ∧ t.focalCtx.Ready

/-- R99: a Context whose fetch address is misaligned or outside the program region or Memory raises `ProgramAccessError` in
its Fetch stage, and issues nothing; in interrupt mode that aborts. -/
def Obligations.FetchTraps : Prop :=
  ∀ (e : Env) (c : Context), c.asleep = false → c.isRetrying = false → c.instruction = none → c.fetchIssued = false →
    c.pending = none → (c.signalled = true → c.interrupted = true) →
    let a := (if c.interrupted then 0 else c.ps.toNat) + c.pc.toNat
    (a % 4 ≠ 0 ∨ e.cfg.memorySize < a + 4 ∨ (c.interrupted = false ∧ c.pl.toNat < a + 4)) →
    fetchStage e c = if c.interrupted then .error .doubleInterrupt else .ok { c with pending := some 0x04 }

/-- R100, R155, R156, R190: TAKING AN INTERRUPT. With nothing else at work, a Context in normal mode with an Error pending,
or with a Signal posted and no Error pending, enters the handler in one round: IPC is its PC, IV the value, the PC the
vector; what was pending or posted is taken; nothing else changes. -/
def Obligations.InterruptTaken : Prop :=
  ∀ (s : State) (v : BitVec 8),
    let j := s.core0.next
    let c := s.ctx 0 j
    s.cfg.wellFormed = true → s.Calm j → s.LocksSettled j → c.l1d.AtRest → c.l1d.port.idle = true →
    c.asleep = false → c.isRetrying = false → c.instruction = none → c.fetchIssued = false → c.interrupted = false →
    (c.pending = some v ∨ (c.pending = none ∧ c.signalled = true ∧ v = 0)) →
    let taken : Context := if c.pending.isSome then { c with pending := none } else { c with signalled := false }
    let saved := { (taken.hwWrite 11 c.pc).hwWrite 12 (v.setWidth 64) with interrupted := true }
    step s = .next ((s.setCtx 0 j (saved.hwWrite 7 (c.ivt + v.setWidth 64)).done).ticks 8)

/-- R111: a halted machine stays as it is; R9: a machine whose configuration is not well formed is refused. `wellFormed` holds
the checks of R9 and, beside them, the bounds of log entry 7 (DEDUCED): at least one Core, a `TagBits` that is a width,
64-bit addresses for Memory and the control blocks, dividers above 0. -/
def Obligations.HaltedAndIllFormed : Prop :=
  (∀ s : State, s.halted = true → processorClock s = .ok s) ∧
  (∀ s : State, s.halted = true → s.cfg.wellFormed = true → step s = .next s) ∧
  ∀ s : State, s.cfg.wellFormed = false → step s = .refused .illFormedConfiguration

/-- R176: after construction, the host's image and its `Signal(0)`, the first round enters boot code: Context 0 of Core 0 is
in interrupt mode with PC, IPC and IV 0, every other Context sleeps, and Memory holds the bytes of the image that lie in it
(that the host's write leaves the others out is the model's choice, log entry 12). -/
def Obligations.Boot : Prop :=
  ∀ (a : Nat) (image : List Byte),
    let s := (State.construct Config.reference).hostWrite a image
    let booted : Context := { Context.reset Config.reference with asleep := false, interrupted := true }
    ∃ s0, State.boot Config.reference a image = .ok s0 ∧
      step s0 = .next ((s.setCtx 0 0 booted).ticks 8) ∧ s.memory.cells = writeLanes [] a (readBus (image.take (65536 - a)))

/-! ## Whole-machine rules -/

/-- R13: what reading a register returns; every register is readable in both modes, and R0 to R3 keep no value. -/
def Obligations.RegisterReads : Prop :=
  ∀ (e : Env) (c : Context) (i j : Reg) (v : Word) (b : Bool),
    c.read e 0 = 0 ∧ c.read e 1 = 1 ∧ c.read e 2 = BitVec.ofNat 64 e.coreId ∧ c.read e 3 = BitVec.ofNat 64 e.ctxId ∧
    (4 ≤ i.toNat → (c.hwWrite i v).read e i = v) ∧ (i ≠ j → (c.hwWrite j v).read e i = c.read e i) ∧
    (i.toNat < 4 → c.hwWrite i v = c) ∧ { c with interrupted := b }.read e i = c.read e i

/-- R15: when an architectural register write succeeds, and what it does when it fails. -/
def Obligations.RegisterWrites : Prop :=
  ∀ (c : Context) (i : Reg) (v : Word), c.pending = none →
    (16 ≤ i.toNat ∨ (4 ≤ i.toNat ∧ c.interrupted = true) → c.archWrite i v = .ok (c.hwWrite i v)) ∧
    (i.toNat < 16 → c.interrupted = false →
      ∃ c', c.archWrite i v = .ok c' ∧ c'.regs = c.regs ∧ c'.pending = some 0x08 ∧
        c'.instruction = c.instruction.map InFlight.failed) ∧
    (i.toNat < 4 → c.interrupted = true → c.archWrite i v = .error .doubleInterrupt)

/-- R15, R16, R160: NORMAL MODE CANNOT CHANGE CONTROL STATE. Whatever every Context does in a clock, a Context in normal
mode before and after it keeps IVT, PS, PL, SS, SL, IPC, IV and K0 to K2. -/
def Obligations.NormalModeIsolation : Prop :=
  ∀ (s t : State) (k : Nat) (j : Fin 8) (r : Reg), processorClock s = .ok t → k < s.coreCount →
    (s.ctx k j).interrupted = false → (t.ctx k j).interrupted = false →
    r ∈ [4#5, 5#5, 6#5, 8#5, 9#5, 11#5, 12#5, 13#5, 14#5, 15#5] →
    (t.ctx k j).read (t.env k j) r = (s.ctx k j).read (s.env k j) r

/-- R160: THE MODE CHANGES ONLY AT AN INTERRUPT'S RETIRE AND AT UNINTERRUPT'S RETIRE, whatever else the machine does. -/
def Obligations.ModeChanges : Prop :=
  ∀ (s t : State) (k : Nat) (j : Fin 8), processorClock s = .ok t → k < s.coreCount →
    (s.ctx k j).interrupted ≠ (t.ctx k j).interrupted →
    s.atStage k .retire = j ∧ ∃ f, (s.ctx k j).instruction = some f ∧ f.success = true ∧
      ((∃ v, f.instr = .interrupt v ∧ (t.ctx k j).interrupted = true) ∨
        (f.instr = .uninterrupt ∧ (t.ctx k j).interrupted = false))

/-- R153, R154: an Error is precise. The phase of any instruction that raises one changes no register and no cache, asks
nothing of the Processor, happens in normal mode only, and takes the instruction's success. -/
def Obligations.ErrorsPrecise : Prop :=
  ∀ (i : Instr) (p : Phase) (e : Env) (c : Context) (f : InFlight) (out : PhaseOut) (v : BitVec 8),
    runPhase i p e c f = .ok out → c.pending = none → out.ctx.pending = some v →
    out.ctx.regs = c.regs ∧ out.ctx.l1d = c.l1d ∧ out.ctx.l1i = c.l1i ∧ out.effect = .none ∧ out.done = false ∧
    c.interrupted = false ∧ out.ctx.interrupted = false ∧ out.ctx.instruction = c.instruction.map InFlight.failed

/-- R19, R122: in normal mode a Memory-family instruction sends its L1D no request outside the program region or Memory. -/
def Obligations.AccessBounds : Prop :=
  ∀ (i : Instr) (n : Nat) (e : Env) (c : Context) (f : InFlight) (out : PhaseOut),
    ((∃ a off d, i = .load a off d ∨ i = .store a off d) ∧ n = 8 ∨
      (∃ a off, i = .clear a off ∨ i = .flush a off) ∧ n = 1) →
    c.interrupted = false → e.cfg.memorySize ≤ 2 ^ 64 → f.op1 = c.ps → f.offset < n →
    c.l1d.port.busy = false → runPhase i .execute e c f = .ok out → out.ctx.l1d.port.busy = true →
    let a := out.ctx.l1d.port.addr.toNat
    c.ps.toNat ≤ a ∧ a < c.pl.toNat ∧ a < e.cfg.memorySize

/-- R48, R49: MEMORY CHANGES ONLY BY A WRITE REQUEST ON ITS PORT. A byte that a clock changes is a valid byte of the Bus of
a Write request that Memory resolves in that clock, at the Bus position its address has in the window. -/
def Obligations.MemoryFrame : Prop :=
  ∀ (s t : State) (a : Nat), s.memory.wf = true → processorClock s = .ok t → t.memory.byte a ≠ s.memory.byte a →
    s.memory.port.busy = true ∧ s.memory.port.op = .write ∧ s.cycle % s.cfg.divMem = 0 ∧
    ∃ k l, s.memory.port.bus[k]? = some l ∧ l.valid = true ∧ l.data = t.memory.byte a ∧
      a = windowBase s.cfg.memoryBusWidth s.memory.port.addr.toNat + k

/-- R50, R51, R58, R59, R72: a cache holds the bytes written into it at their addresses, each dirty when it was dirty, was
not held valid, or changed, or when `DirtyOnUnchangedWrite` is set; every other address keeps its byte and its dirty bit, but
for those of a clean line that the write repurposed, which it no longer holds. -/
def Obligations.CacheWriteBytes : Prop :=
  ∀ (g : CacheConfig) (always : Bool) (c : Cache) (p : Nat) (bytes : List Byte), g.wellFormed = true → c.Shaped g →
    p % g.busWidth + bytes.length ≤ g.busWidth →
    let c' := c.afterWrite g always p bytes
    (∀ k, k < bytes.length → c'.byteAt g (p + k) = bytes[k]? ∧
      c'.dirtyAt g (p + k) = (c.dirtyAt g (p + k) || decide (c.byteAt g (p + k) ≠ bytes[k]?) || always)) ∧
    (0 < bytes.length → ∀ a, ¬(p ≤ a ∧ a < p + bytes.length) →
      (c'.byteAt g a = c.byteAt g a ∧ c'.dirtyAt g a = c.dirtyAt g a) ∨
      (indexOf g a = indexOf g p ∧ tagOf g a ≠ tagOf g p ∧ c'.byteAt g a = none ∧ c'.dirtyAt g a = false))

/-- R66: a register and its 8 bytes, the most significant first, determine each other. -/
def Obligations.BigEndianBytes : Prop :=
  (∀ v : Word, (bytes8 v).length = 8 ∧ be8 (bytes8 v) = v ∧ (bytes8 v)[0]? = some (v.extractLsb' 56 8)) ∧
  ∀ l : List Byte, l.length = 8 → bytes8 (be8 l) = l

/-- R52, R53, R55 to R57: how a read miss begins and ends. A Read that misses fails and keeps the lines; with an idle lower
Store and nothing outstanding the cache asks it for the line, else for nothing. When that fetch completes, the cache frees the
lower Store and, in the same clock, serves the Read from the line it installs, its own dirty bytes kept; a fetch that failed
installs nothing, and the Read fails and asks again. Until its own lower request completes a cache consumes nothing. -/
def Obligations.ReadMiss : Prop :=
  ∀ (g : CacheConfig) (always : Bool) (c : Cache) (lower : Port),
    (c.lp = .idle ∨ lower.completed = false → c.background g lower = .ok (c, lower)) ∧
    (c.port.busy = true → c.port.op = .read → ¬ c.ReadHit g c.port.addr.toNat →
      let la := lineAddr g c.port.addr.toNat
      (c.lp = .idle → lower.idle = true →
        ∃ c', c.clock g always lower = .ok (c', lower.taken .read la lower.bus) ∧ c.Fails c' (.fetch la)) ∧
      (c.lp = .idle ∨ lower.completed = false → ¬(c.lp = .idle ∧ lower.idle = true) →
        ∃ c', c.clock g always lower = .ok (c', lower) ∧ c.Fails c' c.lp) ∧
      (c.lp = .fetch la → lower.completed = true → lower.successful = false →
        ∃ c', c.clock g always lower = .ok (c', lower.taken .read la lower.bus) ∧ c.Fails c' (.fetch la))) ∧
    (g.wellFormed = true → c.Shaped g → c.port.busy = true → c.port.op = .read →
      let a := c.port.addr.toNat
      let ln := c.lineOf g a
      c.lp = .fetch (lineAddr g a) → lower.completed = true → lower.successful = true → lower.bus.length = g.lineWidth →
      (ln.tag = tagOf g a ∨ ln.isDirty = false) →
      ∃ c', c.clock g always lower = .ok (c', lower.freed) ∧ c'.lp = .idle ∧ c'.fill = c.fill ∧
        c'.port.busy = false ∧ c'.port.free = c.port.free ∧ c'.port.successful = true ∧
        c'.port.bus.length = g.busWidth ∧
        ∀ k l own x, c'.port.bus[k]? = some l → ln.lanes[windowOffset g a + k]? = some own →
          lower.bus[windowOffset g a + k]? = some x →
          l = { data := if ln.tag = tagOf g a ∧ own.dirty then own.data else x.data, valid := true, dirty := false })

/-- R54: `Install`. A line with the tag keeps its dirty bytes and takes the others; a clean victim is overwritten; a dirty
victim has its dirty bytes, and only those, written back while the fetched line waits in the fill buffer. R60: a Write that
misses on a dirty victim fails, keeps every line, and asks for the write-back of the victim's dirty bytes. R58: while that
write-back is outstanding a Write to the line fails and changes nothing. R53: when its lower request completes, the cache
frees the lower Store; a fetch that succeeded installs its line, one that failed installs nothing; a write-back that succeeded
clears exactly the dirty bits of its mask and installs the line in the fill buffer, if it was for one; a write-back that failed
clears nothing and drops the fill buffer. -/
def Obligations.InstallRules : Prop :=
  (∀ (g : CacheConfig) (c : Cache) (lower : Port) (la : Nat) (fetched : List Byte), g.wellFormed = true → c.Shaped g →
    la % g.lineWidth = 0 → fetched.length = g.lineWidth → lower.idle = true →
    let ln := c.lineOf g la
    (ln.tag = tagOf g la → ∃ c', c.install g lower la fetched = .ok (c', lower) ∧ c'.lp = c.lp ∧ c'.fill = c.fill ∧
      ∀ k l b, ln.lanes[k]? = some l → fetched[k]? = some b →
        c'.byteAt g (la + k) = some (if l.dirty then l.data else b)) ∧
    (ln.tag ≠ tagOf g la → ln.isDirty = false →
      ∃ c', c.install g lower la fetched = .ok (c', lower) ∧ c'.lp = c.lp ∧ c'.fill = c.fill ∧
        ∀ k, k < g.lineWidth → c'.byteAt g (la + k) = fetched[k]?) ∧
    (ln.tag ≠ tagOf g la → ln.isDirty = true →
      ∃ lower', c.install g lower la fetched = .ok ({ c with
          fill := some (la, fetched), lp := .writeBack (addrOfLine g ln.tag (indexOf g la)) ln.dirtyMask true }, lower') ∧
        lower'.busy = true ∧ lower'.op = .write ∧
        lower'.addr = BitVec.ofNat 64 (addrOfLine g ln.tag (indexOf g la)) ∧
        lower'.bus.map Lane.valid = ln.lanes.map Lane.dirty ∧ lower'.bus.map Lane.data = ln.lanes.map Lane.data)) ∧
  (∀ (g : CacheConfig) (always : Bool) (c : Cache) (lower : Port), g.wellFormed = true → c.Shaped g →
    c.port.busy = true → c.port.op = .write →
    let a := c.port.addr.toNat
    let ln := c.lineOf g a
    let va := addrOfLine g ln.tag (indexOf g a)
    (ln.tag ≠ tagOf g a → ln.isDirty = true → c.lp = .idle → lower.idle = true →
      ∃ c' bus, c.clock g always lower = .ok (c', lower.taken .write va bus) ∧
        c.Fails c' (.writeBack va ln.dirtyMask false) ∧ CarriesLine bus ln ln.dirtyMask) ∧
    (ln.tag ≠ tagOf g a → ln.isDirty = true → (c.lp = .idle ∨ lower.completed = false) →
      ¬(c.lp = .idle ∧ lower.idle = true) → ∃ c', c.clock g always lower = .ok (c', lower) ∧ c.Fails c' c.lp) ∧
    (∀ v mask withFill, c.lp = .writeBack v mask withFill → indexOf g v = indexOf g a → lower.completed = false →
      ∃ c', c.clock g always lower = .ok (c', lower) ∧ c.Fails c' c.lp)) ∧
  ∀ (g : CacheConfig) (c : Cache) (lower : Port), g.wellFormed = true → c.Shaped g → lower.completed = true →
    (∀ la, c.lp = .fetch la →
      let ln := c.lineOf g la
      let va := addrOfLine g ln.tag (indexOf g la)
      (lower.successful = false → c.background g lower = .ok ({ c with lp := .idle }, lower.freed)) ∧
      (lower.successful = true → la % g.lineWidth = 0 → lower.bus.length = g.lineWidth →
        (ln.tag = tagOf g la ∨ ln.isDirty = false →
          ∃ c', c.background g lower = .ok (c', lower.freed) ∧ c'.lp = .idle ∧ c'.fill = c.fill ∧ c'.port = c.port ∧
            ∀ k own x, ln.lanes[k]? = some own → lower.bus[k]? = some x →
              c'.byteAt g (la + k) = some (if ln.tag = tagOf g la ∧ own.dirty then own.data else x.data)) ∧
        (ln.tag ≠ tagOf g la → ln.isDirty = true →
          ∃ bus, c.background g lower = .ok ({ c with
              fill := some (la, lower.bus.map Lane.data), lp := .writeBack va ln.dirtyMask true }, lower.taken .write va bus) ∧
            CarriesLine bus ln ln.dirtyMask))) ∧
    ∀ va mask withFill, c.lp = .writeBack va mask withFill →
      (lower.successful = false → c.background g lower = .ok ({ c with lp := .idle, fill := none }, lower.freed)) ∧
      (lower.successful = true → mask.length = g.lineWidth → (withFill = false ∨ c.fill = none) →
        ∃ c', c.background g lower = .ok (c', lower.freed) ∧ c'.lp = .idle ∧ c'.fill = c.fill ∧ c'.port = c.port ∧
          ∀ a, c'.byteAt g a = c.byteAt g a ∧
            c'.dirtyAt g a
              = (c.dirtyAt g a && !(decide (indexOf g a = indexOf g va) && mask.getD (a % g.lineWidth) false))) ∧
      (∀ la fetched, lower.successful = true → withFill = true → c.fill = some (la, fetched) →
        la % g.lineWidth = 0 → fetched.length = g.lineWidth → indexOf g la = indexOf g va →
        (c.lineOf g la).tag ≠ tagOf g la → mask = (c.lineOf g la).dirtyMask →
        ∃ c', c.background g lower = .ok (c', lower.freed) ∧ c'.lp = .idle ∧ c'.fill = none ∧ c'.port = c.port ∧
          (∀ k, k < g.lineWidth → c'.byteAt g (la + k) = fetched[k]? ∧ c'.dirtyAt g (la + k) = false) ∧
          ∀ a, indexOf g a ≠ indexOf g la → c'.byteAt g a = c.byteAt g a ∧ c'.dirtyAt g a = c.dirtyAt g a)

/-! ## Invariants -/

/-- Memory keeps its canonical form: addresses rising, no 0 listed (the model's form of R39; log entry 8). -/
def Obligations.MemoryCanonical : Prop :=
  ∀ s t : State, s.memory.wf = true → step s = .next t → t.memory.wf = true

/-- R36: no port is ever busy and free. -/
def Obligations.PortsStayLegal : Prop := ∀ s t : State, s.PortsLegal → step s = .next t → t.PortsLegal

/-- R37: in every cache, a dirty byte is valid. -/
def Obligations.DirtyStaysValid : Prop :=
  ∀ s t : State, s.EveryCache Cache.DirtyValid → step s = .next t → t.EveryCache Cache.DirtyValid

/-- R63: the L1 instruction caches take only reads, hold no dirty byte and write nothing back. -/
def Obligations.FetchCachesReadOnly : Prop :=
  ∀ s t : State, s.EveryContext Context.FetchOnly → step s = .next t → t.EveryContext Context.FetchOnly

/-- R30: a Context that retries has an instruction in flight. -/
def Obligations.RetryHasInstruction : Prop :=
  ∀ s t : State, s.EveryContext Context.RetryHasInstruction → step s = .next t →
    t.EveryContext Context.RetryHasInstruction

/-- R165: the two-level lock stays consistent, and at most one Context of the whole Processor holds it. -/
def Obligations.LockExclusion : Prop :=
  ∀ s t : State, s.LocksConsistent → step s = .next t → t.LocksConsistent ∧ t.LockExclusive

/-- R174: what construction leaves, for every configuration with a Core; and the invariants hold at reset. That Memory reads 0
after construction of a configuration other than the reference one (R175) is the model's DESIGN CHOICE (log entry 8); so are
the canonical form of Memory and the fields of log entries 3, 5 and 6 that a port or a Device at reset holds. -/
def Obligations.ResetState : Prop :=
  (∀ (cfg : Config) (k : Nat) (j : Fin 8) (r : Reg) (a : Nat), 1 ≤ cfg.coreCount → k < cfg.coreCount →
    let s := State.construct cfg
    let c := s.ctx k j
    (4 ≤ r.toNat → c.read (s.env k j) r = 0) ∧ c.asleep = true ∧ c.interrupted = false ∧ c.signalled = false ∧
    c.pending = none ∧ c.requiresLock = false ∧ c.acquiredLock = false ∧ c.fetchIssued = false ∧ c.fetchAddr = 0 ∧
    c.opcode = none ∧ c.instruction = none ∧ c.isRetrying = false ∧ c.l1i = Cache.reset cfg.l1i ∧
    c.l1d = Cache.reset cfg.l1d ∧ (s.core k).l2 = Cache.reset cfg.l2 ∧ (s.core k).next = 0 ∧ (s.core k).holder = none ∧
    (s.core k).coreAcquired = false ∧ s.coreCount = cfg.coreCount ∧ s.l3 = Cache.reset cfg.l3 ∧ s.memory.byte a = 0 ∧
    s.pholder = none ∧ s.halted = false ∧ s.cycle = 0) ∧
  State.reset = State.construct Config.reference ∧ State.reset.memory.wf = true ∧ State.reset.PortsLegal ∧
  State.reset.EveryCache Cache.DirtyValid ∧ State.reset.EveryContext Context.FetchOnly ∧
  State.reset.EveryContext Context.RetryHasInstruction ∧ State.reset.LocksConsistent
end

