-- ==== Sys2Proof/Laws/State.lean ====
section
/-! SUPPORT. One lemma per field per update of the state's records, and the laws of the accessors. -/

namespace Sys2Proof.Machine

/-! ## Cores and Contexts -/

@[simp] theorem State.core_zero (s : State) : s.core 0 = s.core0 := rfl
@[simp] theorem State.setCore_zero (s : State) (c : Core) : s.setCore 0 c = { s with core0 := c } := rfl
@[simp] theorem State.core_succ (s : State) (k : Nat) : s.core (k + 1) = s.upper.getD k (Core.reset s.cfg) := rfl
@[simp] theorem State.setCore_succ (s : State) (k : Nat) (c : Core) :
    s.setCore (k + 1) c = { s with upper := s.upper.set k c } := rfl

theorem State.ctx_zero (s : State) (j : Fin 8) : s.ctx 0 j = s.core0.ctx j := rfl
theorem State.setCtx_zero (s : State) (j : Fin 8) (x : Context) :
    s.setCtx 0 j x = { s with core0 := s.core0.setCtx j x } := rfl

@[simp] theorem Core.ctx_setCtx_same (c : Core) (j : Fin 8) (x : Context) : (c.setCtx j x).ctx j = x := by
  simp [Core.ctx, Core.setCtx]

@[simp] theorem Core.ctx_setCtx_ne (c : Core) {i j : Fin 8} (x : Context) (h : i ≠ j) :
    (c.setCtx j x).ctx i = c.ctx i := by
  have : (j : Nat) ≠ (i : Nat) := fun e => h (Fin.ext e.symm)
  simp [Core.ctx, Core.setCtx, Vector.getElem_set_ne, this]

theorem Core.ctx_setCtx (c : Core) (i j : Fin 8) (x : Context) :
    (c.setCtx j x).ctx i = if i = j then x else c.ctx i := by
  by_cases h : i = j
  · subst h; simp
  · simp [h]

@[simp] theorem Core.setCtx_ctx (c : Core) (j : Fin 8) : c.setCtx j (c.ctx j) = c := by
  simp [Core.ctx, Core.setCtx]

@[simp] theorem Core.setCtx_setCtx (c : Core) (j : Fin 8) (x y : Context) : (c.setCtx j x).setCtx j y = c.setCtx j y := by
  simp [Core.setCtx]

@[simp] theorem Core.setCtx_l2 (c : Core) (j : Fin 8) (x : Context) : (c.setCtx j x).l2 = c.l2 := rfl
@[simp] theorem Core.setCtx_next (c : Core) (j : Fin 8) (x : Context) : (c.setCtx j x).next = c.next := rfl
@[simp] theorem Core.setCtx_holder (c : Core) (j : Fin 8) (x : Context) : (c.setCtx j x).holder = c.holder := rfl
@[simp] theorem Core.setCtx_coreAcquired (c : Core) (j : Fin 8) (x : Context) :
    (c.setCtx j x).coreAcquired = c.coreAcquired := rfl

@[simp] theorem Core.tick_next (c : Core) : c.tick.next = c.next + 1 := rfl
@[simp] theorem Core.tick_l2 (c : Core) : c.tick.l2 = c.l2 := rfl
@[simp] theorem Core.tick_holder (c : Core) : c.tick.holder = c.holder := rfl
@[simp] theorem Core.tick_coreAcquired (c : Core) : c.tick.coreAcquired = c.coreAcquired := rfl
@[simp] theorem Core.tick_ctx (c : Core) (j : Fin 8) : c.tick.ctx j = c.ctx j := rfl
@[simp] theorem Core.ticks_next (c : Core) (n : Nat) : (c.ticks n).next = c.next + Fin.ofNat 8 n := rfl
@[simp] theorem Core.ticks_ctx (c : Core) (n : Nat) (j : Fin 8) : (c.ticks n).ctx j = c.ctx j := rfl
@[simp] theorem Core.ticks_l2 (c : Core) (n : Nat) : (c.ticks n).l2 = c.l2 := rfl
@[simp] theorem Core.ticks_holder (c : Core) (n : Nat) : (c.ticks n).holder = c.holder := rfl
@[simp] theorem Core.ticks_coreAcquired (c : Core) (n : Nat) : (c.ticks n).coreAcquired = c.coreAcquired := rfl

@[simp] theorem State.ctx_setCtx_same (s : State) (j : Fin 8) (x : Context) : (s.setCtx 0 j x).ctx 0 j = x :=
  Core.ctx_setCtx_same _ _ _

@[simp] theorem State.ctx_setCtx_ne (s : State) {i j : Fin 8} (x : Context) (h : i ≠ j) :
    (s.setCtx 0 j x).ctx 0 i = s.ctx 0 i :=
  Core.ctx_setCtx_ne _ _ h

@[simp] theorem State.setCtx_ctx (s : State) (j : Fin 8) : s.setCtx 0 j (s.ctx 0 j) = s := by
  simp [State.setCtx_zero, State.ctx_zero]

@[simp] theorem State.setCtx_setCtx (s : State) (j : Fin 8) (x y : Context) :
    (s.setCtx 0 j x).setCtx 0 j y = s.setCtx 0 j y := by
  simp [State.setCtx_zero]

@[simp] theorem State.setCtx_cfg (s : State) (j : Fin 8) (x : Context) : (s.setCtx 0 j x).cfg = s.cfg := rfl
@[simp] theorem State.setCtx_upper (s : State) (j : Fin 8) (x : Context) : (s.setCtx 0 j x).upper = s.upper := rfl
@[simp] theorem State.setCtx_core0 (s : State) (j : Fin 8) (x : Context) :
    (s.setCtx 0 j x).core0 = s.core0.setCtx j x := rfl
@[simp] theorem State.setCtx_l3 (s : State) (j : Fin 8) (x : Context) : (s.setCtx 0 j x).l3 = s.l3 := rfl
@[simp] theorem State.setCtx_memory (s : State) (j : Fin 8) (x : Context) : (s.setCtx 0 j x).memory = s.memory := rfl
@[simp] theorem State.setCtx_devices (s : State) (j : Fin 8) (x : Context) : (s.setCtx 0 j x).devices = s.devices := rfl
@[simp] theorem State.setCtx_pholder (s : State) (j : Fin 8) (x : Context) : (s.setCtx 0 j x).pholder = s.pholder := rfl
@[simp] theorem State.setCtx_halted (s : State) (j : Fin 8) (x : Context) : (s.setCtx 0 j x).halted = s.halted := rfl
@[simp] theorem State.setCtx_cycle (s : State) (j : Fin 8) (x : Context) : (s.setCtx 0 j x).cycle = s.cycle := rfl
@[simp] theorem State.setCtx_env (s : State) (j k : Fin 8) (x : Context) : (s.setCtx 0 j x).env 0 k = s.env 0 k := rfl

/-! ## The clock's end -/

@[simp] theorem State.ticks_cfg (s : State) (n : Nat) : (s.ticks n).cfg = s.cfg := rfl
@[simp] theorem State.ticks_core0 (s : State) (n : Nat) : (s.ticks n).core0 = s.core0.ticks n := rfl
@[simp] theorem State.ticks_upper (s : State) (n : Nat) : (s.ticks n).upper = s.upper.map (Core.ticks · n) := rfl
@[simp] theorem State.ticks_l3 (s : State) (n : Nat) : (s.ticks n).l3 = s.l3 := rfl
@[simp] theorem State.ticks_memory (s : State) (n : Nat) : (s.ticks n).memory = s.memory := rfl
@[simp] theorem State.ticks_devices (s : State) (n : Nat) : (s.ticks n).devices = s.devices := rfl
@[simp] theorem State.ticks_pholder (s : State) (n : Nat) : (s.ticks n).pholder = s.pholder := rfl
@[simp] theorem State.ticks_halted (s : State) (n : Nat) : (s.ticks n).halted = s.halted := rfl
@[simp] theorem State.ticks_cycle (s : State) (n : Nat) : (s.ticks n).cycle = s.cycle + n := rfl
@[simp] theorem State.ticks_ctx (s : State) (n : Nat) (j : Fin 8) : (s.ticks n).ctx 0 j = s.ctx 0 j := rfl
@[simp] theorem State.ticks_env (s : State) (n : Nat) (j : Fin 8) : (s.ticks n).env 0 j = s.env 0 j := rfl

theorem Core.ticks_ticks (c : Core) (m n : Nat) : (c.ticks m).ticks n = c.ticks (m + n) := by
  have h : c.next + Fin.ofNat 8 m + Fin.ofNat 8 n = c.next + Fin.ofNat 8 (m + n) := by
    apply Fin.ext
    simp only [Fin.val_add, Fin.ofNat, Nat.add_mod_mod, Nat.mod_add_mod]
    omega
  simp only [Core.ticks, h]

theorem State.ticks_ticks (s : State) (m n : Nat) : (s.ticks m).ticks n = s.ticks (m + n) := by
  simp [State.ticks, Core.ticks_ticks, Function.comp_def, add_assoc]

theorem State.setCtx_ticks (s : State) (n : Nat) (j : Fin 8) (x : Context) :
    (s.ticks n).setCtx 0 j x = (s.setCtx 0 j x).ticks n := rfl

/-! ## The port of Core 0's L2 -/

@[simp] theorem State.withL2Port_cfg (s : State) (p : Port) : (s.withL2Port p).cfg = s.cfg := rfl
@[simp] theorem State.withL2Port_ctx (s : State) (p : Port) (j : Fin 8) : (s.withL2Port p).ctx 0 j = s.ctx 0 j := rfl
@[simp] theorem State.withL2Port_env (s : State) (p : Port) (j : Fin 8) : (s.withL2Port p).env 0 j = s.env 0 j := rfl
@[simp] theorem State.withL2Port_upper (s : State) (p : Port) : (s.withL2Port p).upper = s.upper := rfl
@[simp] theorem State.withL2Port_devices (s : State) (p : Port) : (s.withL2Port p).devices = s.devices := rfl
@[simp] theorem State.withL2Port_pholder (s : State) (p : Port) : (s.withL2Port p).pholder = s.pholder := rfl
@[simp] theorem State.withL2Port_holder (s : State) (p : Port) : (s.withL2Port p).core0.holder = s.core0.holder := rfl
@[simp] theorem State.withL2Port_coreAcquired (s : State) (p : Port) :
    (s.withL2Port p).core0.coreAcquired = s.core0.coreAcquired := rfl
@[simp] theorem State.withL2Port_port (s : State) (p : Port) : (s.withL2Port p).core0.l2.port = p := rfl
@[simp] theorem State.withL2Port_self (s : State) : s.withL2Port s.core0.l2.port = s := rfl

theorem State.withL2Port_self_of {s : State} {p : Port} (h : p = s.core0.l2.port) : s.withL2Port p = s := by rw [h]; rfl

theorem State.withL2Port_setCtx (s : State) (p : Port) (j : Fin 8) (x : Context) :
    (s.withL2Port p).setCtx 0 j x = (s.setCtx 0 j x).withL2Port p := rfl

theorem State.withL2Port_ticks (s : State) (p : Port) (n : Nat) :
    (s.withL2Port p).ticks n = (s.ticks n).withL2Port p := rfl

/-! ## Registers (R13, R15, R16) -/

theorem storedIndex_of_lt {i : Reg} (h : i.toNat < 4) : storedIndex i = none := by
  simp [storedIndex]; omega

theorem storedIndex_of_le {i : Reg} (h : 4 ≤ i.toNat) : ∃ k, storedIndex i = some k ∧ (k : Nat) = i.toNat - 4 := by
  refine ⟨⟨i.toNat - 4, by have := i.isLt; omega⟩, ?_, rfl⟩
  simp [storedIndex, h]

theorem storedIndex_inj {i j : Reg} {k : Fin 28} (hi : storedIndex i = some k) (hj : storedIndex j = some k) : i = j := by
  unfold storedIndex at hi hj
  split at hi <;> split at hj <;> simp_all
  apply BitVec.eq_of_toNat_eq
  have := congrArg Fin.val (hi.trans hj.symm)
  simp at this
  omega

/-- Reading a register after a write of the hardware's own (R13, R16). -/
theorem Context.read_hwWrite (e : Env) (c : Context) (i j : Reg) (v : Word) :
    (c.hwWrite j v).read e i = if i = j ∧ 4 ≤ j.toNat then v else c.read e i := by
  unfold Context.hwWrite
  cases hj : storedIndex j with
  | none =>
    have : ¬ 4 ≤ j.toNat := fun h => by obtain ⟨k, hk, _⟩ := storedIndex_of_le h; simp [hk] at hj
    simp [this]
  | some kj =>
    have h4 : 4 ≤ j.toNat := by
      by_contra h
      simp [storedIndex_of_lt (by omega : j.toNat < 4)] at hj
    by_cases hij : i = j
    · subst hij; simp [Context.read, hj, h4]
    · simp only [hij, false_and, if_false, Context.read]
      cases hi : storedIndex i with
      | none => rfl
      | some ki =>
        have : (kj : Nat) ≠ (ki : Nat) := fun h => hij (storedIndex_inj hi (by rw [hj]; exact congrArg some (Fin.ext h)))
        simp [Vector.getElem_set_ne, this]

@[simp] theorem Context.hwWrite_interrupted (c : Context) (i : Reg) (v : Word) :
    (c.hwWrite i v).interrupted = c.interrupted := by unfold Context.hwWrite; split <;> rfl
@[simp] theorem Context.hwWrite_asleep (c : Context) (i : Reg) (v : Word) :
    (c.hwWrite i v).asleep = c.asleep := by unfold Context.hwWrite; split <;> rfl
@[simp] theorem Context.hwWrite_signalled (c : Context) (i : Reg) (v : Word) :
    (c.hwWrite i v).signalled = c.signalled := by unfold Context.hwWrite; split <;> rfl
@[simp] theorem Context.hwWrite_pending (c : Context) (i : Reg) (v : Word) :
    (c.hwWrite i v).pending = c.pending := by unfold Context.hwWrite; split <;> rfl
@[simp] theorem Context.hwWrite_requiresLock (c : Context) (i : Reg) (v : Word) :
    (c.hwWrite i v).requiresLock = c.requiresLock := by unfold Context.hwWrite; split <;> rfl
@[simp] theorem Context.hwWrite_acquiredLock (c : Context) (i : Reg) (v : Word) :
    (c.hwWrite i v).acquiredLock = c.acquiredLock := by unfold Context.hwWrite; split <;> rfl
@[simp] theorem Context.hwWrite_opcode (c : Context) (i : Reg) (v : Word) :
    (c.hwWrite i v).opcode = c.opcode := by unfold Context.hwWrite; split <;> rfl
@[simp] theorem Context.hwWrite_instruction (c : Context) (i : Reg) (v : Word) :
    (c.hwWrite i v).instruction = c.instruction := by unfold Context.hwWrite; split <;> rfl
@[simp] theorem Context.hwWrite_isRetrying (c : Context) (i : Reg) (v : Word) :
    (c.hwWrite i v).isRetrying = c.isRetrying := by unfold Context.hwWrite; split <;> rfl
@[simp] theorem Context.hwWrite_l1i (c : Context) (i : Reg) (v : Word) :
    (c.hwWrite i v).l1i = c.l1i := by unfold Context.hwWrite; split <;> rfl
@[simp] theorem Context.hwWrite_l1d (c : Context) (i : Reg) (v : Word) :
    (c.hwWrite i v).l1d = c.l1d := by unfold Context.hwWrite; split <;> rfl
@[simp] theorem Context.hwWrite_fetchIssued (c : Context) (i : Reg) (v : Word) :
    (c.hwWrite i v).fetchIssued = c.fetchIssued := by unfold Context.hwWrite; split <;> rfl
@[simp] theorem Context.hwWrite_fetchAddr (c : Context) (i : Reg) (v : Word) :
    (c.hwWrite i v).fetchAddr = c.fetchAddr := by unfold Context.hwWrite; split <;> rfl

/-- The stored registers after a write: only they change, so two Contexts that agree on them agree on the write. -/
theorem Context.hwWrite_eq (c : Context) (i : Reg) (v : Word) :
    c.hwWrite i v = { c with regs := (c.hwWrite i v).regs } := by unfold Context.hwWrite; split <;> rfl

theorem Context.setPc_eq (c : Context) (v : Word) : c.setPc v = { c with regs := c.regs.set 3 v } := rfl
theorem Context.setSp_eq (c : Context) (v : Word) : c.setSp v = { c with regs := c.regs.set 6 v } := rfl

theorem Context.setPc_pc (c : Context) (v : Word) : (c.setPc v).pc = v := by
  simp [Context.pc, Context.setPc_eq]

end Sys2Proof.Machine
end

