-- ==== Sys2Proof/Laws/Calm.lean ====
section
/-! SUPPORT. What the clock does in a calm machine: the caches, polls, Devices and Contexts at rest change nothing, so a
clock is one stage of the one Context that is awake. -/

namespace Sys2Proof.Machine

/-! ## Parts at rest -/

theorem Cache.clock_atRest (g : CacheConfig) (always : Bool) {c : Cache} (lower : Port) (h : c.AtRest) :
    Cache.clock g always c lower = .ok (c, lower) := by
  have hb : Cache.background g c lower = .ok (c, lower) := by
    unfold Cache.background
    split
    · simp [h.noLower]
    · rfl
  simp [Cache.clock, hb, Except.bind, h.notBusy]

theorem Context.takeable_irrelevant_of_quiet (e : Env) {c : Context} (h : c.Quiet) : fetchStage e c = .ok c := by
  simp [fetchStage, h.asleep]

theorem runStage_quiet (st : Stage) (e : Env) {c : Context} (h : c.Quiet) : runStage st e c = .ok (.just c) := by
  cases st <;>
    simp [runStage, fetchStage, loadInstructionStage, decodeStage, loadDataStage, phaseStage, storeStage, retireStage,
      justly, Except.map, h.asleep, h.noOpcode, h.noInstruction]

theorem clockStage_quiet {s : State} (st : Stage) (h : (s.ctx 0 (s.atStage 0 st)).Quiet) :
    clockStage 0 s st = .ok s := by
  simp [clockStage, runStage_quiet st _ h, Except.bind, State.apply, PhaseOut.just]

theorem Core.clockL1_atRest (cfg : Config) {c : Core} {i : Fin 8} (hi : (c.ctx i).l1i.AtRest)
    (hd : (c.ctx i).l1d.AtRest) : Core.clockL1 cfg c i = .ok c := by
  simp [Core.clockL1, Cache.clock_atRest _ _ _ hi, Cache.clock_atRest _ _ _ hd, Except.bind, Except.map]
  have : ({ c.ctx i with l1i := (c.ctx i).l1i, l1d := (c.ctx i).l1d } : Context) = c.ctx i := rfl
  rw [Core.setCtx_ctx]

theorem foldlM_clockL1_atRest (cfg : Config) (c : Core) (l : List (Fin 8))
    (h : ∀ i ∈ l, (c.ctx i).l1i.AtRest ∧ (c.ctx i).l1d.AtRest) : l.foldlM (Core.clockL1 cfg) c = .ok c := by
  induction l with
  | nil => rfl
  | cons i l ih =>
    rw [List.foldlM_cons, Core.clockL1_atRest cfg (h i (by simp)).1 (h i (by simp)).2]
    exact ih fun k hk => h k (by simp [hk])

theorem allCtx_split (j : Fin 8) : ∃ l1 l2, allCtx = l1 ++ j :: l2 ∧ j ∉ l1 ∧ j ∉ l2 := by
  fin_cases j
  · exact ⟨[], [1, 2, 3, 4, 5, 6, 7], by decide, by decide, by decide⟩
  · exact ⟨[0], [2, 3, 4, 5, 6, 7], by decide, by decide, by decide⟩
  · exact ⟨[0, 1], [3, 4, 5, 6, 7], by decide, by decide, by decide⟩
  · exact ⟨[0, 1, 2], [4, 5, 6, 7], by decide, by decide, by decide⟩
  · exact ⟨[0, 1, 2, 3], [5, 6, 7], by decide, by decide, by decide⟩
  · exact ⟨[0, 1, 2, 3, 4], [6, 7], by decide, by decide, by decide⟩
  · exact ⟨[0, 1, 2, 3, 4, 5], [7], by decide, by decide, by decide⟩
  · exact ⟨[0, 1, 2, 3, 4, 5, 6], [], by decide, by decide, by decide⟩

/-- The L1 clocks of a Core where only Context j's L1D has work, and leaves the L2's port as `p`. -/
theorem clockL1s_one (cfg : Config) (c : Core) (j : Fin 8) (l1d : Cache) {p : Port}
    (h : ∀ i, i ≠ j → (c.ctx i).l1i.AtRest ∧ (c.ctx i).l1d.AtRest) (hi : (c.ctx j).l1i.AtRest)
    (hd : Cache.clock cfg.l1d cfg.dirtyOnUnchangedWrite (c.ctx j).l1d c.l2.port = .ok (l1d, p)) :
    allCtx.foldlM (Core.clockL1 cfg) c
      = .ok { c.setCtx j { c.ctx j with l1d := l1d } with l2 := { c.l2 with port := p } } := by
  obtain ⟨l1, l2, hl, h1, h2⟩ := allCtx_split j
  have step : Core.clockL1 cfg c j
      = .ok { c.setCtx j { c.ctx j with l1d := l1d } with l2 := { c.l2 with port := p } } := by
    simp [Core.clockL1, Cache.clock_atRest _ _ _ hi, hd, Except.bind, Except.map]
  rw [hl, List.foldlM_append, foldlM_clockL1_atRest cfg c l1 fun i hi' => h i (fun e => h1 (e ▸ hi'))]
  simp only [bind, Except.bind, List.foldlM_cons, step]
  apply foldlM_clockL1_atRest
  intro i hi'
  have hne : i ≠ j := fun e => h2 (e ▸ hi')
  show ((c.setCtx j { c.ctx j with l1d := l1d }).ctx i).l1i.AtRest ∧
    ((c.setCtx j { c.ctx j with l1d := l1d }).ctx i).l1d.AtRest
  simpa [hne] using h i hne

/-! ## The lock polls -/

theorem Core.requesters_eq_nil {c : Core} (h : ∀ j, (c.ctx j).requiresLock = false) : c.requesters = [] := by
  simp [Core.requesters, h]

theorem Core.lockPoll_quiet (table : List (List Nat × Nat)) {c : Core} (h : c.Quiet) : c.lockPoll table = c := by
  have hr : c.requesters = [] := Core.requesters_eq_nil fun j => (h.ctxs j).noLock
  simp [Core.lockPoll, Core.releaseLock, h.noHolder, Core.grantLock, hr]

theorem State.coreRequires_of_ctx {s : State} {j : Fin 8} (h : (s.ctx 0 j).requiresLock = true) :
    s.coreRequires 0 = true := by
  have : j ∈ s.core0.requesters := by
    simp only [Core.requesters, List.mem_filter]
    exact ⟨by fin_cases j <;> decide, h⟩
  cases hr : s.core0.requesters with
  | nil => simp [hr] at this
  | cons x l => simp [State.coreRequires, hr]

theorem getD_of_lt {α : Type} {l : List α} {k : Nat} (d : α) (h : k < l.length) : l.getD k d = l[k] := by
  simp [List.getD, h]

theorem State.lockRequesters_eq_nil {s : State} (h0 : ∀ j, (s.ctx 0 j).requiresLock = false)
    (hu : ∀ c ∈ s.upper, ∀ j, (c.ctx j).requiresLock = false) : s.lockRequesters = [] := by
  simp only [State.lockRequesters, List.filter_eq_nil_iff, List.mem_range, State.coreCount]
  intro k hk
  cases k with
  | zero => simp [State.coreRequires, Core.requesters_eq_nil (c := s.core0) h0]
  | succ k =>
    have hk' : k < s.upper.length := by omega
    simp only [State.coreRequires, State.core_succ, getD_of_lt _ hk']
    rw [Core.requesters_eq_nil (hu _ (List.getElem_mem hk'))]
    simp

/-- The polls change nothing in a calm machine whose lock is settled. -/
theorem State.lockPoll_settled {s : State} {j : Fin 8} (ho : ∀ i, i ≠ j → (s.ctx 0 i).requiresLock = false)
    (hu : ∀ c ∈ s.upper, c.Quiet) (hl : s.LocksSettled j) : s.lockPoll = s := by
  rcases hl with ⟨hr, hp, _⟩ | ⟨hr, hp, _, _⟩
  · have hn : s.lockRequesters = [] := by
      apply State.lockRequesters_eq_nil
      · intro i
        by_cases hi : i = j
        · exact hi ▸ hr
        · exact ho i hi
      · exact fun c hc i => ((hu c hc).ctxs i).noLock
    simp [State.lockPoll, State.releaseSystemLock, hp, State.grantSystemLock, hn]
  · simp [State.lockPoll, State.releaseSystemLock, hp, State.coreRequires_of_ctx hr, State.grantSystemLock]

theorem Core.lockPoll_settled {s : State} {j : Fin 8} (table : List (List Nat × Nat))
    (ho : ∀ i, i ≠ j → (s.ctx 0 i).requiresLock = false) (hl : s.LocksSettled j) : s.core0.lockPoll table = s.core0 := by
  rcases hl with ⟨hr, _, hh⟩ | ⟨hr, _, ha, hh⟩
  · have hn : s.core0.requesters = [] := by
      apply Core.requesters_eq_nil
      intro i
      by_cases hi : i = j
      · exact hi ▸ hr
      · exact ho i hi
    simp [Core.lockPoll, Core.releaseLock, hh, Core.grantLock, hn]
  · have hr' : (s.core0.ctx j).requiresLock = true := hr
    simp [Core.lockPoll, Core.releaseLock, hh, hr', ha, Core.grantLock]

/-! ## The stages of Core 0 -/

theorem foldlM_clockStage_quiet (s : State) (l : List Stage)
    (h : ∀ st ∈ l, (s.ctx 0 (s.atStage 0 st)).Quiet) : l.foldlM (clockStage 0) s = .ok s := by
  induction l with
  | nil => rfl
  | cons st l ih =>
    rw [List.foldlM_cons, clockStage_quiet st (h st (by simp))]
    exact ih fun x hx => h x (by simp [hx])

theorem Stage.number_inj {a b : Stage} (h : a.number = b.number) : a = b := by
  cases a <;> cases b <;> first | rfl | (exact absurd h (by decide))

theorem State.atStage_inj {s : State} {a b : Stage} (h : s.atStage 0 a = s.atStage 0 b) : a = b :=
  Stage.number_inj (sub_right_injective (G := Fin 8) h)

/-! ## The rest of the machine -/

theorem clockCore_quiet (s : State) (k : Nat) (hk : k < s.upper.length) (h : (s.upper[k]).Quiet) :
    clockCore s (k + 1) = .ok (s.setCore (k + 1) (s.upper[k]).tick) := by
  have hcore : s.core (k + 1) = s.upper[k] := by simp [hk]
  have hset : s.setCore (k + 1) (s.upper[k]) = s := by simp
  have hl2 : clockL2 (k + 1) s = .ok s := by
    unfold clockL2
    split
    · rw [hcore, Cache.clock_atRest _ _ _ h.l2]
      show Except.ok { s.setCore (k + 1) (s.upper[k]) with l3 := s.l3 } = Except.ok s
      rw [hset]
    · rfl
  have hl1 : clockL1s (k + 1) s = .ok s := by
    unfold clockL1s
    rw [hcore, foldlM_clockL1_atRest]
    · simp [Except.map]
    · exact fun i _ => ⟨(h.ctxs i).l1i, (h.ctxs i).l1d⟩
  have hstage : ∀ st, clockStage (k + 1) s st = .ok s := by
    intro st
    have hq : (s.ctx (k + 1) (s.atStage (k + 1) st)).Quiet := by
      simp only [State.ctx, hcore]; exact h.ctxs _
    have : s.setCtx (k + 1) (s.atStage (k + 1) st) (s.ctx (k + 1) (s.atStage (k + 1) st)) = s := by
      simp only [State.setCtx, State.ctx, Core.setCtx_ctx, hcore, hset]
    simp [clockStage, runStage_quiet st _ hq, Except.bind, State.apply, PhaseOut.just, this]
  have hfold : ∀ l : List Stage, l.foldlM (clockStage (k + 1)) s = .ok s := by
    intro l
    induction l with
    | nil => rfl
    | cons st l ih => rw [List.foldlM_cons, hstage]; exact ih
  simp only [clockCore, coreBeforeDecode, coreAfterDecode, hl2, hl1, bind, Except.bind, hcore,
    Core.lockPoll_quiet _ h, hset, hfold, hstage, Except.map]

theorem foldlM_clockCore_quiet (n : Nat) : ∀ s : State, n ≤ s.upper.length → (∀ c ∈ s.upper, c.Quiet) →
    ((List.range n).map (· + 1)).foldlM clockCore s
      = .ok { s with upper := (s.upper.take n).map Core.tick ++ s.upper.drop n } := by
  induction n with
  | zero => intro s _ _; simp [pure, Except.pure]
  | succ n ih =>
    intro s hn h
    rw [List.range_succ, List.map_append, List.foldlM_append, ih s (by omega) h]
    have hlt : n < s.upper.length := by omega
    have hlen : ((s.upper.take n).map Core.tick).length = n := by simp; omega
    have hget : ((s.upper.take n).map Core.tick ++ s.upper.drop n)[n]'(by simp; omega) = s.upper[n] := by
      rw [List.getElem_append_right (by omega)]
      simp only [hlen, List.getElem_drop]
      congr 1
      omega
    simp only [bind, Except.bind, List.map_cons, List.map_nil, List.foldlM_cons, List.foldlM_nil]
    rw [clockCore_quiet _ n (by simp; omega) (by simp only [hget]; exact h _ (List.getElem_mem hlt))]
    simp only [pure, Except.pure, State.setCore_succ, hget]
    congr 2
    rw [List.set_append_right _ _ (by omega), hlen, Nat.sub_self, List.drop_eq_getElem_cons hlt,
      List.set_cons_zero, List.take_add_one, List.getElem?_eq_getElem hlt, List.map_append, List.append_assoc]
    rfl

theorem clockUpper_quiet (s : State) (h : ∀ c ∈ s.upper, c.Quiet) :
    clockUpper s = .ok { s with upper := s.upper.map Core.tick } := by
  rw [clockUpper, foldlM_clockCore_quiet _ s (le_refl _) h]
  simp

theorem Device.clock_quiet (cfg : Config) (d : DeviceConfig) (idx : Nat) {x : Device} (mem : Port) (h : x.Quiet) :
    x.clock cfg d idx mem = .ok (x, mem, none) := by
  simp [Device.clock, h.notBusy, Device.consume, h.noRequest, h.idle, DeviceWork.settle, Device.issue,
    DeviceWork.nextRequest, bind, Except.bind]
  cases x
  simp only [Device.mk.injEq, true_and, and_true]
  exact ⟨h.idle.symm, h.noRequest.symm⟩

theorem clockDevice_quiet (s : State) (d : Nat) (h : ∀ x ∈ s.devices, x.Quiet) : clockDevice s d = .ok s := by
  unfold clockDevice
  split
  · rename_i x cfg hx hc
    have hm : x ∈ s.devices := List.mem_of_getElem? hx
    obtain ⟨hlt, hget⟩ := List.getElem?_eq_some_iff.mp hx
    have hset : s.devices.set d x = s.devices := by rw [← hget]; exact List.set_getElem_self hlt
    simp [Device.clock_quiet _ _ _ _ (h x hm), Except.bind, hset]
  · rfl

theorem clockDevices_quiet (s : State) (h : ∀ x ∈ s.devices, x.Quiet) : clockDevices s = .ok s := by
  unfold clockDevices
  split
  · generalize List.range s.devices.length = l
    induction l with
    | nil => rfl
    | cons d l ih => rw [List.foldlM_cons, clockDevice_quiet s d h]; exact ih
  · rfl

theorem clockMemory_quiet (s : State) (h : s.memory.port.busy = false) : clockMemory s = .ok s := by
  unfold clockMemory
  split
  · simp [Memory.clock, h, Except.map]
  · rfl

theorem clockL3_quiet (s : State) (h : s.l3.AtRest) : clockL3 s = .ok s := by
  unfold clockL3
  split
  · simp [Cache.clock_atRest _ _ _ h, Except.map]
  · rfl

theorem clockL2_quiet (s : State) (h : s.core0.l2.AtRest ∨ s.cycle % s.cfg.divL2 ≠ 0) : clockL2 0 s = .ok s := by
  unfold clockL2
  split
  · rename_i hc
    simp [Cache.clock_atRest _ _ _ (h.resolve_right (absurd hc)), Except.map]
  · rfl

/-! ## A clock, cut before its stages -/

/-- `Processor.Clock()` up to the first stage of Core 0: Memory, L3, the polls, the caches of Core 0 (R106, R110). -/
def preStages (s : State) : Except Fault State := do
  let s ← clockMemory s
  let s ← clockL3 s
  let s ← clockL2 0 s.lockPoll
  let s ← clockL1s 0 s
  .ok (s.setCore 0 ((s.core 0).lockPoll s.cfg.lockElect))

/-- The clock after the last stage of Core 0 (R106, R110). -/
def postStages (s : State) : Except Fault State := do
  let s ← clockUpper { s with core0 := s.core0.tick }
  let s ← clockDevices s
  .ok s.tick

/-- The eight stages of a Core's clock, in order (R106). -/
def allStages : List Stage := stagesBeforeDecode ++ .decodeInstruction :: stagesAfterDecode

theorem clockBeforeDecode_eq (s : State) :
    clockBeforeDecode s = (preStages s).bind (stagesBeforeDecode.foldlM (clockStage 0)) := by
  simp only [clockBeforeDecode, preStages, coreBeforeDecode, bind, Except.bind]
  cases clockMemory s with
  | error f => rfl
  | ok s1 =>
    dsimp only
    cases clockL3 s1 with
    | error f => rfl
    | ok s2 =>
      dsimp only
      cases clockL2 0 s2.lockPoll with
      | error f => rfl
      | ok s3 =>
        dsimp only
        cases clockL1s 0 s3 <;> rfl

theorem clockAfterDecode_eq (s : State) :
    clockAfterDecode s = (stagesAfterDecode.foldlM (clockStage 0) s).bind postStages := by
  simp only [clockAfterDecode, coreAfterDecode, bind, Except.map, State.core_zero, State.setCore_zero]
  cases stagesAfterDecode.foldlM (clockStage 0) s <;> rfl

/-- A clock is what comes before the stages, the eight stages, and what comes after (R106, R110). -/
theorem processorClock_eq {s : State} (h : s.halted = false) :
    processorClock s = ((preStages s).bind (allStages.foldlM (clockStage 0))).bind postStages := by
  simp only [processorClock, h, Bool.false_eq_true, if_false, clockBeforeDecode_eq, clockAfterDecode_eq, allStages,
    List.foldlM_append, List.foldlM_cons, bind]
  cases preStages s with
  | error f => rfl
  | ok s1 =>
    simp only [Except.bind]
    cases stagesBeforeDecode.foldlM (clockStage 0) s1 with
    | error f => rfl
    | ok s2 =>
      dsimp only
      cases clockStage 0 s2 .decodeInstruction <;> rfl

/-- What comes after the stages, with quiet upper Cores and Devices, only ticks. -/
theorem postStages_quiet {s : State} (hu : ∀ c ∈ s.upper, c.Quiet) (hdev : ∀ x ∈ s.devices, x.Quiet) :
    postStages s = .ok (s.ticks 1) := by
  unfold postStages
  rw [clockUpper_quiet { s with core0 := s.core0.tick } hu]
  simp only [bind, Except.bind]
  rw [clockDevices_quiet { s with core0 := s.core0.tick, upper := s.upper.map Core.tick } hdev]
  rfl

/-- The eight stages when only the one at `st` does anything. -/
theorem foldlM_allStages {s s2 : State} (st : Stage) (hs : clockStage 0 s st = .ok s2)
    (hb : ∀ x, x ≠ st → clockStage 0 s x = .ok s) (ha : ∀ x, x ≠ st → clockStage 0 s2 x = .ok s2) :
    allStages.foldlM (clockStage 0) s = .ok s2 := by
  have idle : ∀ (t : State) (l : List Stage), (∀ x ∈ l, clockStage 0 t x = .ok t) →
      l.foldlM (clockStage 0) t = .ok t := by
    intro t l hl
    induction l with
    | nil => rfl
    | cons x l ih =>
      rw [List.foldlM_cons, hl x (by simp)]
      exact ih fun y hy => hl y (by simp [hy])
  have hsplit : ∃ l1 l2, allStages = l1 ++ st :: l2 ∧ st ∉ l1 ∧ st ∉ l2 := by
    cases st
    · exact ⟨[.retire, .store, .format, .execute, .loadData, .decodeInstruction, .loadInstruction], [], by decide,
        by decide, by decide⟩
    · exact ⟨[.retire, .store, .format, .execute, .loadData, .decodeInstruction], [.fetch], by decide, by decide,
        by decide⟩
    · exact ⟨[.retire, .store, .format, .execute, .loadData], [.loadInstruction, .fetch], by decide, by decide,
        by decide⟩
    · exact ⟨[.retire, .store, .format, .execute], [.decodeInstruction, .loadInstruction, .fetch], by decide,
        by decide, by decide⟩
    · exact ⟨[.retire, .store, .format], [.loadData, .decodeInstruction, .loadInstruction, .fetch], by decide,
        by decide, by decide⟩
    · exact ⟨[.retire, .store], [.execute, .loadData, .decodeInstruction, .loadInstruction, .fetch], by decide,
        by decide, by decide⟩
    · exact ⟨[.retire], [.format, .execute, .loadData, .decodeInstruction, .loadInstruction, .fetch], by decide,
        by decide, by decide⟩
    · exact ⟨[], [.store, .format, .execute, .loadData, .decodeInstruction, .loadInstruction, .fetch], by decide,
        by decide, by decide⟩
  obtain ⟨l1, l2, hl, h1, h2⟩ := hsplit
  rw [hl, List.foldlM_append, idle s l1 fun x hx => hb x fun e => h1 (e ▸ hx)]
  simp only [bind, Except.bind, List.foldlM_cons, hs]
  exact idle s2 l2 fun x hx => ha x fun e => h2 (e ▸ hx)

/-- A clock from its parts: what comes before the stages, and the one stage that does anything. -/
theorem processorClock_parts {s s1 s2 : State} (hrun : s.halted = false) (hpre : preStages s = .ok s1) (st : Stage)
    (hs : clockStage 0 s1 st = .ok s2) (hb : ∀ x, x ≠ st → clockStage 0 s1 x = .ok s1)
    (ha : ∀ x, x ≠ st → clockStage 0 s2 x = .ok s2) (hu : ∀ c ∈ s2.upper, c.Quiet)
    (hdev : ∀ x ∈ s2.devices, x.Quiet) : processorClock s = .ok (s2.ticks 1) := by
  rw [processorClock_eq hrun, hpre]
  simp only [Except.bind, foldlM_allStages st hs hb ha]
  exact postStages_quiet hu hdev

/-! ## A clock of a calm machine -/

/-- A Context whose caches are at rest and that does not ask for the lock, awake or not. -/
structure Context.Settled (c : Context) : Prop where
  noLock : c.requiresLock = false
  l1i : c.l1i.AtRest
  l1d : c.l1d.AtRest

theorem Context.Quiet.settled {c : Context} (h : c.Quiet) : c.Settled := ⟨h.noLock, h.l1i, h.l1d⟩

/-- As `Calm`, but the other Contexts of Core 0 may be awake, and the L2 may hold a request in a clock that is not its own. -/
structure State.Still (s : State) (j : Fin 8) : Prop where
  others : ∀ i, i ≠ j → (s.ctx 0 i).Settled
  l1i : (s.ctx 0 j).l1i.AtRest
  l2 : s.core0.l2.AtRest ∨ s.cycle % s.cfg.divL2 ≠ 0
  l3 : s.l3.AtRest
  memory : s.memory.port.busy = false
  upper : ∀ c ∈ s.upper, c.Quiet

theorem State.Calm.still {s : State} {j : Fin 8} (h : s.Calm j) : s.Still j :=
  ⟨fun i hi => (h.others i hi).settled, h.l1i, .inl h.l2, h.l3, h.memory, h.upper⟩

/-- The polls of a clock (R162, R163): the Processor's, then Core 0's. -/
def State.polled (s : State) : State :=
  s.lockPoll.setCore 0 (s.lockPoll.core0.lockPoll s.lockPoll.cfg.lockElect)

theorem State.lockPoll_fields (s : State) : s.lockPoll.cfg = s.cfg ∧ s.lockPoll.core0.l2 = s.core0.l2 ∧
    (∀ i, s.lockPoll.core0.ctx i = s.core0.ctx i) ∧ s.lockPoll.l3 = s.l3 ∧ s.lockPoll.cycle = s.cycle ∧
    s.lockPoll.memory = s.memory := by
  have acq : ∀ (t : State) (k : Nat) (b : Bool), (t.setAcquired k b).cfg = t.cfg ∧
      (t.setAcquired k b).core0.l2 = t.core0.l2 ∧ (∀ i, (t.setAcquired k b).core0.ctx i = t.core0.ctx i) ∧
      (t.setAcquired k b).l3 = t.l3 ∧ (t.setAcquired k b).cycle = t.cycle ∧ (t.setAcquired k b).memory = t.memory := by
    intro t k b
    cases k <;> exact ⟨rfl, rfl, fun _ => rfl, rfl, rfl, rfl⟩
  have rel : s.releaseSystemLock.cfg = s.cfg ∧ s.releaseSystemLock.core0.l2 = s.core0.l2 ∧
      (∀ i, s.releaseSystemLock.core0.ctx i = s.core0.ctx i) ∧ s.releaseSystemLock.l3 = s.l3 ∧
      s.releaseSystemLock.cycle = s.cycle ∧ s.releaseSystemLock.memory = s.memory := by
    unfold State.releaseSystemLock
    split
    · split
      · exact ⟨rfl, rfl, fun _ => rfl, rfl, rfl, rfl⟩
      · exact acq s _ false
    · exact ⟨rfl, rfl, fun _ => rfl, rfl, rfl, rfl⟩
  unfold State.lockPoll State.grantSystemLock
  split
  · obtain ⟨a1, a2, a3, a4, a5, a6⟩ := acq s.releaseSystemLock _ true
    obtain ⟨b1, b2, b3, b4, b5, b6⟩ := rel
    exact ⟨a1.trans b1, a2.trans b2, fun i => (a3 i).trans (b3 i), a4.trans b4, a5.trans b5, a6.trans b6⟩
  · exact rel

/-- What comes before the stages when every cache is at rest: the polls only. -/
theorem preStages_polled {s : State} {j : Fin 8} (h : s.Still j) (hd : (s.ctx 0 j).l1d.AtRest) :
    preStages s = .ok s.polled := by
  obtain ⟨f1, f2, f3, f4, f5, f6⟩ := State.lockPoll_fields s
  have hl2 : clockL2 0 s.lockPoll = .ok s.lockPoll := clockL2_quiet _ (by rw [f1, f2, f5]; exact h.l2)
  have hl1 : clockL1s 0 s.lockPoll = .ok s.lockPoll := by
    unfold clockL1s
    rw [State.core_zero, foldlM_clockL1_atRest]
    · rfl
    · intro i _
      rw [f3]
      by_cases hi : i = j
      · subst hi; exact ⟨h.l1i, hd⟩
      · exact ⟨(h.others i hi).l1i, (h.others i hi).l1d⟩
  simp only [preStages, clockMemory_quiet s h.memory, clockL3_quiet s h.l3, hl2, hl1, bind, Except.bind]
  rfl

/-- What comes before the stages when the lock is settled: the awake Context's L1D resolves its request, and may send the
L2 one. -/
theorem preStages_settled {s : State} {j : Fin 8} (h : s.Still j) (hl : s.LocksSettled j) {l1d : Cache} {p : Port}
    (hd : Cache.clock s.cfg.l1d s.cfg.dirtyOnUnchangedWrite (s.ctx 0 j).l1d s.core0.l2.port = .ok (l1d, p)) :
    preStages s = .ok ((s.setCtx 0 j { s.ctx 0 j with l1d := l1d }).withL2Port p) := by
  have hl1 : clockL1s 0 s = .ok ((s.setCtx 0 j { s.ctx 0 j with l1d := l1d }).withL2Port p) := by
    unfold clockL1s
    rw [State.core_zero, clockL1s_one s.cfg s.core0 j l1d (fun i hi => ⟨(h.others i hi).l1i, (h.others i hi).l1d⟩)
      h.l1i hd]
    rfl
  have hl' : ((s.setCtx 0 j { s.ctx 0 j with l1d := l1d }).withL2Port p).LocksSettled j := by
    simpa [State.LocksSettled] using hl
  have ho' : ∀ i, i ≠ j →
      (((s.setCtx 0 j { s.ctx 0 j with l1d := l1d }).withL2Port p).ctx 0 i).requiresLock = false := by
    intro i hi
    rw [State.withL2Port_ctx, State.ctx_setCtx_ne _ _ hi]
    exact (h.others i hi).noLock
  have hp := Core.lockPoll_settled s.cfg.lockElect ho' hl'
  simp only [preStages, clockMemory_quiet s h.memory, clockL3_quiet s h.l3, bind, Except.bind,
    State.lockPoll_settled (fun i hi => (h.others i hi).noLock) h.upper hl, clockL2_quiet s h.l2, hl1]
  rw [State.core_zero, State.withL2Port_cfg, State.setCtx_cfg, hp]
  rfl

/-- `clockBeforeDecode` of a calm machine whose awake Context is at Decode changes nothing. -/
theorem clockBeforeDecode_calm {s : State} (h : s.Calm s.focal) (hl : s.LocksSettled s.focal)
    (hd : (s.ctx 0 s.focal).l1d.AtRest) : clockBeforeDecode s = .ok s := by
  rw [clockBeforeDecode_eq, preStages_settled h.still hl (Cache.clock_atRest _ _ _ hd)]
  have : (s.setCtx 0 s.focal { s.ctx 0 s.focal with l1d := (s.ctx 0 s.focal).l1d }).withL2Port s.core0.l2.port = s := by
    show (s.setCtx 0 s.focal (s.ctx 0 s.focal)).withL2Port s.core0.l2.port = s
    rw [State.setCtx_ctx, State.withL2Port_self]
  rw [this]
  apply foldlM_clockStage_quiet
  intro st hst
  apply h.others
  intro he
  have := State.atStage_inj he
  subst this
  simp [stagesBeforeDecode] at hst

/-- `clockAfterDecode` of a machine whose other Contexts are quiet, the awake one at Decode, only ticks. -/
theorem clockAfterDecode_calm {s : State} (ho : ∀ i, i ≠ s.focal → (s.ctx 0 i).Quiet)
    (hu : ∀ c ∈ s.upper, c.Quiet) (hdev : ∀ x ∈ s.devices, x.Quiet) : clockAfterDecode s = .ok (s.ticks 1) := by
  rw [clockAfterDecode_eq, foldlM_clockStage_quiet]
  · exact postStages_quiet hu hdev
  · intro st hst
    apply ho
    intro he
    have := State.atStage_inj he
    subst this
    simp [stagesAfterDecode] at hst

/-- ONE CLOCK OF A STILL MACHINE whose other Contexts are quiet: the awake Context's L1D resolves its request and leaves the
L2's port as `p`, the Context runs the stage it is at, and the clock ends. The effect it asks for wakes nobody. -/
theorem processorClock_still {s s2 : State} {j : Fin 8} (hrun : s.halted = false) (h : s.Still j)
    (hq : ∀ i, i ≠ j → (s.ctx 0 i).Quiet) (hl : s.LocksSettled j) (st : Stage) (hst : s.atStage 0 st = j) {l1d : Cache}
    {p : Port} (hd : Cache.clock s.cfg.l1d s.cfg.dirtyOnUnchangedWrite (s.ctx 0 j).l1d s.core0.l2.port = .ok (l1d, p))
    {r : PhaseOut} (hr : runStage st (s.env 0 j) { s.ctx 0 j with l1d := l1d } = .ok r)
    (he : ((s.setCtx 0 j r.ctx).withL2Port p).apply r.effect = .ok s2) (hnext : s2.core0.next = s.core0.next)
    (ho : ∀ i, i ≠ j → (s2.ctx 0 i).Quiet) (hu : ∀ c ∈ s2.upper, c.Quiet) (hdev : ∀ x ∈ s2.devices, x.Quiet) :
    processorClock s = .ok (s2.ticks 1) := by
  refine processorClock_parts hrun (preStages_settled h hl hd) st ?_ ?_ ?_ hu hdev
  · have hst' : ((s.setCtx 0 j { s.ctx 0 j with l1d := l1d }).withL2Port p).atStage 0 st = j := hst
    have hset : ((s.setCtx 0 j { s.ctx 0 j with l1d := l1d }).withL2Port p).setCtx 0 j r.ctx
        = (s.setCtx 0 j r.ctx).withL2Port p := by rw [State.withL2Port_setCtx, State.setCtx_setCtx]
    simp only [clockStage, hst', State.withL2Port_ctx, State.ctx_setCtx_same, State.withL2Port_env, State.setCtx_env, hr,
      Except.bind, hset]
    exact he
  · intro x hx
    apply clockStage_quiet
    have hne : s.atStage 0 x ≠ j := fun e => hx (State.atStage_inj (e.trans hst.symm))
    exact (State.ctx_setCtx_ne s _ hne).symm ▸ hq _ hne
  · intro x hx
    apply clockStage_quiet
    apply ho
    intro e
    apply hx
    apply State.atStage_inj (s := s)
    have : s2.atStage 0 x = s.atStage 0 x := by simp [State.atStage, hnext]
    exact (this ▸ e).trans hst.symm

end Sys2Proof.Machine
end

