-- ==== Sys2Proof/Laws/Visit.lean ====
section
/-! SUPPORT. The visit of an instruction in a machine where the focal Context is alone: five clocks, one phase each. -/

namespace Sys2Proof.Machine

/-- A calm machine stays calm, and its lock settled, when the awake Context changes and clocks go by. -/
theorem State.Calm.moved {s : State} {j : Fin 8} (h : s.Calm j) {c : Context} (n : Nat) (hi : c.l1i.AtRest) :
    ((s.setCtx 0 j c).ticks n).Calm j where
  running := h.running
  others i hne := by
    rw [State.ticks_ctx, State.ctx_setCtx_ne _ _ hne]
    exact h.others i hne
  l1i := by rw [State.ticks_ctx, State.ctx_setCtx_same]; exact hi
  l2 := h.l2
  l3 := h.l3
  memory := h.memory
  upper c hc := by
    simp only [State.ticks_upper, State.setCtx_upper, List.mem_map] at hc
    obtain ⟨c', hc', rfl⟩ := hc
    exact ⟨(h.upper c' hc').ctxs, (h.upper c' hc').l2, (h.upper c' hc').noHolder⟩
  devices := h.devices

theorem State.LocksSettled.moved {s : State} {j : Fin 8} (h : s.LocksSettled j) {c : Context} (n : Nat)
    (hc : c.requiresLock = (s.ctx 0 j).requiresLock) : ((s.setCtx 0 j c).ticks n).LocksSettled j := by
  simpa [State.LocksSettled, hc] using h

/-- The state after the Processor has seen an effect that wakes nobody. -/
def State.withEffect (s : State) : Effect → State
  | .halt => { s with halted := true }
  | _ => s

theorem State.withEffect_ticks (s : State) (e : Effect) (n : Nat) : (s.withEffect e).ticks n = (s.ticks n).withEffect e := by
  cases e <;> rfl

/-- One clock of a calm machine in which the awake Context has become `c`, the L2's port `p0`, and `n` clocks have gone by.
The L2 is at rest, or its clock is not due. -/
theorem clock_moved_port {s : State} {j : Fin 8} (h : s.Calm j) (hl : s.LocksSettled j) {c : Context} (n : Nat)
    (hi : c.l1i.AtRest) (hq : c.requiresLock = (s.ctx 0 j).requiresLock) (st : Stage)
    (hst : s.core0.next + Fin.ofNat 8 n - st.number = j) {p0 p : Port}
    (h2 : p0 = s.core0.l2.port ∨ (s.cycle + n) % s.cfg.divL2 ≠ 0) {l1d : Cache}
    (hd : Cache.clock s.cfg.l1d s.cfg.dirtyOnUnchangedWrite c.l1d p0 = .ok (l1d, p))
    {r : PhaseOut} (hr : runStage st (s.env 0 j) { c with l1d := l1d } = .ok r) (he : ∀ id, r.effect ≠ .signal id) :
    processorClock (((s.setCtx 0 j c).ticks n).withL2Port p0)
      = .ok ((((s.setCtx 0 j r.ctx).ticks (n + 1)).withL2Port p).withEffect r.effect) := by
  have hm := h.moved (c := c) n hi
  have hctx : (((s.setCtx 0 j c).ticks n).withL2Port p0).ctx 0 j = c := by
    rw [State.withL2Port_ctx, State.ticks_ctx, State.ctx_setCtx_same]
  have hstill : (((s.setCtx 0 j c).ticks n).withL2Port p0).Still j :=
    { others := fun i hne => (hm.others i hne).settled, l1i := hm.l1i, l3 := hm.l3, memory := hm.memory, upper := hm.upper,
      l2 := h2.imp (fun e => by subst e; exact h.l2) id }
  have happ : ((((((s.setCtx 0 j c).ticks n).withL2Port p0).setCtx 0 j r.ctx).withL2Port p).apply r.effect)
      = .ok ((((s.setCtx 0 j r.ctx).ticks n).withL2Port p).withEffect r.effect) := by
    have hset : ((((s.setCtx 0 j c).ticks n).withL2Port p0).setCtx 0 j r.ctx).withL2Port p
        = ((s.setCtx 0 j r.ctx).ticks n).withL2Port p := by
      rw [State.withL2Port_setCtx, State.setCtx_ticks, State.setCtx_setCtx]
      rfl
    rw [hset]
    cases hre : r.effect with
    | none => rfl
    | signal id => exact absurd hre (he id)
    | halt => rfl
  have hothers : ∀ i, i ≠ j → (((((s.setCtx 0 j r.ctx).ticks n).withL2Port p).withEffect r.effect).ctx 0 i).Quiet := by
    intro i hne
    have : ((((s.setCtx 0 j r.ctx).ticks n).withL2Port p).withEffect r.effect).ctx 0 i = (s.setCtx 0 j r.ctx).ctx 0 i := by
      cases r.effect <;> rfl
    rw [this, State.ctx_setCtx_ne _ _ hne]
    exact h.others i hne
  have hlocks : (((s.setCtx 0 j c).ticks n).withL2Port p0).LocksSettled j := hl.moved n hq
  have hrun : (((s.setCtx 0 j c).ticks n).withL2Port p0).halted = false := hm.running
  have key := processorClock_still hrun hstill hm.others hlocks st hst (l1d := l1d) (r := r) (p := p)
    (by rw [hctx]; exact hd) (by rw [hctx]; exact hr) happ (by cases r.effect <;> rfl) hothers
    (by have := hm.upper; cases r.effect <;> exact this) (by have := hm.devices; cases r.effect <;> exact this)
  rw [key, State.withEffect_ticks, State.withL2Port_ticks, State.ticks_ticks]

/-- One clock of a calm machine in which the awake Context has become `c` and `n` clocks have gone by. -/
theorem clock_moved {s : State} {j : Fin 8} (h : s.Calm j) (hl : s.LocksSettled j) {c : Context} (n : Nat)
    (hi : c.l1i.AtRest) (hq : c.requiresLock = (s.ctx 0 j).requiresLock) (st : Stage)
    (hst : s.core0.next + Fin.ofNat 8 n - st.number = j) {l1d : Cache}
    (hd : Cache.clock s.cfg.l1d s.cfg.dirtyOnUnchangedWrite c.l1d s.core0.l2.port = .ok (l1d, s.core0.l2.port))
    {r : PhaseOut} (hr : runStage st (s.env 0 j) { c with l1d := l1d } = .ok r) (he : ∀ id, r.effect ≠ .signal id) :
    processorClock ((s.setCtx 0 j c).ticks n)
      = .ok (((s.setCtx 0 j r.ctx).ticks (n + 1)).withEffect r.effect) :=
  clock_moved_port h hl n hi hq st hst (.inl rfl) hd hr he

/-- A clock of a calm machine whose one stage with work is fatal. -/
theorem clock_moved_error {s : State} {j : Fin 8} (h : s.Calm j) (hl : s.LocksSettled j) {c : Context} (n : Nat)
    (hi : c.l1i.AtRest) (hq : c.requiresLock = (s.ctx 0 j).requiresLock) (st : Stage)
    (hst : s.core0.next + Fin.ofNat 8 n - st.number = j) (hd : c.l1d.AtRest) {x : Fault}
    (hr : runStage st (s.env 0 j) c = .error x) : processorClock ((s.setCtx 0 j c).ticks n) = .error x := by
  have hm := h.moved (c := c) n hi
  have hctx : ((s.setCtx 0 j c).ticks n).ctx 0 j = c := by rw [State.ticks_ctx, State.ctx_setCtx_same]
  have hpre : preStages ((s.setCtx 0 j c).ticks n) = .ok ((s.setCtx 0 j c).ticks n) := by
    rw [preStages_settled hm.still (hl.moved n hq) (l1d := c.l1d)
      (by rw [hctx]; exact Cache.clock_atRest _ _ _ hd)]
    have : ({ ((s.setCtx 0 j c).ticks n).ctx 0 j with l1d := c.l1d } : Context) = ((s.setCtx 0 j c).ticks n).ctx 0 j := by
      rw [hctx]
    rw [this, State.setCtx_ctx, State.withL2Port_self_of rfl]
  have hfold : ∀ l : List Stage, st ∈ l → l.foldlM (clockStage 0) ((s.setCtx 0 j c).ticks n) = .error x := by
    intro l
    induction l with
    | nil => simp
    | cons y l ih =>
      intro hmem
      rw [List.foldlM_cons]
      by_cases hy : y = st
      · subst hy
        have hat : ((s.setCtx 0 j c).ticks n).atStage 0 y = j := hst
        have : clockStage 0 ((s.setCtx 0 j c).ticks n) y = .error x := by
          simp only [clockStage, hat, hctx]
          have : ((s.setCtx 0 j c).ticks n).env 0 j = s.env 0 j := rfl
          rw [this, hr]
          rfl
        rw [this]
        rfl
      · have hq : (((s.setCtx 0 j c).ticks n).ctx 0 (((s.setCtx 0 j c).ticks n).atStage 0 y)).Quiet := by
          apply hm.others
          intro e
          exact hy (State.atStage_inj (s := (s.setCtx 0 j c).ticks n) (e.trans hst.symm))
        rw [clockStage_quiet y hq]
        exact ih (by simpa [Ne.symm hy] using hmem)
  rw [processorClock_eq hm.running, hpre]
  simp only [Except.bind]
  rw [hfold allStages (by cases st <;> decide)]

@[simp] theorem Context.enter_requiresLock (c : Context) (i : Instr) : (c.enter i).requiresLock = c.requiresLock := by
  unfold Context.enter; split <;> rfl
@[simp] theorem Context.enter_l1i (c : Context) (i : Instr) : (c.enter i).l1i = c.l1i := by
  unfold Context.enter; split <;> rfl
@[simp] theorem Context.enter_l1d (c : Context) (i : Instr) : (c.enter i).l1d = c.l1d := by
  unfold Context.enter; split <;> rfl

/-- What two successive forms of the awake Context share, so that the next clock is calm too. -/
structure Context.Keeps (c c' : Context) : Prop where
  l1i : c'.l1i = c.l1i
  lock : c'.requiresLock = c.requiresLock

/-- The focal Context is at `st` when `n` clocks have gone by since its Decode stage. -/
theorem State.focal_stage (s : State) (n : Nat) (st : Stage)
    (h : Fin.ofNat 8 n - st.number = (0 : Fin 8) - Stage.number .decodeInstruction) :
    s.core0.next + Fin.ofNat 8 n - st.number = s.focal := by
  rw [add_sub_assoc, h]
  simp [State.focal, State.atStage, sub_eq_add_neg]

/-- THE FIRST THREE CLOCKS OF A VISIT ALONE: Load and Execute. -/
theorem finishRound_to_format {s : State} (h : s.Alone) (i : Instr) {c1 c2 : Context}
    (hload : loadDataStage s.focalEnv (s.focalCtx.enter i) = .ok (.just c1))
    (hexec : phaseStage .execute s.focalEnv c1 = .ok (.just c2))
    (h1 : s.focalCtx.Keeps c1) (d1 : c1.l1d.AtRest) :
    finishRound (s.enter i) = clocks 3 ((s.setCtx 0 s.focal c2).ticks 3) := by
  have hi : s.focalCtx.l1i.AtRest := h.calm.l1i
  have nosig : ∀ (c : Context) (id : Word), (PhaseOut.just c).effect ≠ .signal id := by
    intro c id; simp [PhaseOut.just]
  have k0 : clockAfterDecode (s.enter i) = .ok ((s.setCtx 0 s.focal (s.focalCtx.enter i)).ticks 1) := by
    apply clockAfterDecode_calm
    · intro k hk
      exact ((h.calm.moved (c := s.focalCtx.enter i) 0 (by simpa using hi)).others k hk)
    · exact h.calm.upper
    · exact h.calm.devices
  have k1 := clock_moved h.calm h.locks (c := s.focalCtx.enter i) 1 (by simpa using hi) (by simp [State.focalCtx])
    .loadData (s.focal_stage 1 .loadData (by decide)) (l1d := (s.focalCtx.enter i).l1d) (r := .just c1)
    (Cache.clock_atRest _ _ _ (by simpa [State.focalCtx] using h.l1d)) (by exact hload) (nosig c1)
  have k2 := clock_moved h.calm h.locks (c := c1) 2 (h1.l1i ▸ hi) h1.lock
    .execute (s.focal_stage 2 .execute (by decide)) (l1d := c1.l1d) (r := .just c2) (Cache.clock_atRest _ _ _ d1)
    (by exact hexec) (nosig c2)
  simp only [PhaseOut.just, State.withEffect] at k1 k2
  simp only [finishRound, k0, Except.bind, clocks, k1, k2]

/-- THE FIRST FOUR CLOCKS OF A VISIT ALONE: Load, Execute and Format one after another, the L1D resolving between Execute
and Format the request Execute issued. -/
theorem finishRound_to_store {s : State} (h : s.Alone) (i : Instr) {c1 c2 c3 : Context} {l1d : Cache}
    (hload : loadDataStage s.focalEnv (s.focalCtx.enter i) = .ok (.just c1))
    (hexec : phaseStage .execute s.focalEnv c1 = .ok (.just c2))
    (hclock : Cache.clock s.cfg.l1d s.cfg.dirtyOnUnchangedWrite c2.l1d s.core0.l2.port = .ok (l1d, s.core0.l2.port))
    (hformat : phaseStage .format s.focalEnv { c2 with l1d := l1d } = .ok (.just c3))
    (h1 : s.focalCtx.Keeps c1) (h2 : s.focalCtx.Keeps c2) (d1 : c1.l1d.AtRest) :
    finishRound (s.enter i) = clocks 2 ((s.setCtx 0 s.focal c3).ticks 4) := by
  have k3 := clock_moved h.calm h.locks (c := c2) 3 (h2.l1i ▸ h.calm.l1i) h2.lock
    .format (s.focal_stage 3 .format (by decide)) (l1d := l1d) (r := .just c3) hclock hformat (by simp [PhaseOut.just])
  simp only [PhaseOut.just, State.withEffect] at k3
  rw [finishRound_to_format h i hload hexec h1 d1]
  simp only [clocks, Except.bind, k3]

/-- THE VISIT OF AN INSTRUCTION ALONE: its phases one after another, the L1D resolving between Execute and Format the
request Execute issued. -/
theorem visit_alone {s : State} (h : s.Alone) (i : Instr) {c1 c2 c3 : Context} {l1d : Cache} {r4 r5 : PhaseOut}
    (hload : loadDataStage s.focalEnv (s.focalCtx.enter i) = .ok (.just c1))
    (hexec : phaseStage .execute s.focalEnv c1 = .ok (.just c2))
    (hclock : Cache.clock s.cfg.l1d s.cfg.dirtyOnUnchangedWrite c2.l1d s.core0.l2.port = .ok (l1d, s.core0.l2.port))
    (hformat : phaseStage .format s.focalEnv { c2 with l1d := l1d } = .ok (.just c3))
    (hstore : storeStage s.focalEnv c3 = .ok r4)
    (hretire : retireStage s.focalEnv r4.ctx = .ok r5)
    (h1 : s.focalCtx.Keeps c1) (h2 : s.focalCtx.Keeps c2) (h3 : s.focalCtx.Keeps c3) (h4 : s.focalCtx.Keeps r4.ctx)
    (d1 : c1.l1d.AtRest) (d3 : c3.l1d.AtRest) (d4 : r4.ctx.l1d.AtRest)
    (e4 : r4.effect = .none) (e5 : ∀ id, r5.effect ≠ .signal id) :
    visit i s = .next ((s.afterVisit r5.ctx).withEffect r5.effect) := by
  have hi : s.focalCtx.l1i.AtRest := h.calm.l1i
  have k4 := clock_moved h.calm h.locks (c := c3) 4 (h3.l1i ▸ hi) h3.lock
    .store (s.focal_stage 4 .store (by decide)) (l1d := c3.l1d) (r := r4) (Cache.clock_atRest _ _ _ d3)
    (by exact hstore) (by simp [e4])
  have k5 := clock_moved h.calm h.locks (c := r4.ctx) 5 (h4.l1i ▸ hi) h4.lock
    .retire (s.focal_stage 5 .retire (by decide)) (l1d := r4.ctx.l1d) (r := r5) (Cache.clock_atRest _ _ _ d4)
    (by exact hretire) e5
  simp only [State.withEffect, e4] at k4
  simp only [visit, finishRound_to_store h i hload hexec hclock hformat h1 h2 d1, Except.bind, clocks, k4, k5, toOutcome]
  rfl

/-- THE VISIT OF AN INSTRUCTION ALONE WHOSE REQUEST THE L1D FAILS, sending the L2 a request of its own: the L2's port is `p`
from then on, and its clock does not come before the visit ends. -/
theorem visit_sends {s : State} (h : s.Alone) (i : Instr) {c1 c2 c3 c4 c5 : Context} {l1d : Cache} {p : Port}
    (hload : loadDataStage s.focalEnv (s.focalCtx.enter i) = .ok (.just c1))
    (hexec : phaseStage .execute s.focalEnv c1 = .ok (.just c2))
    (hclock : Cache.clock s.cfg.l1d s.cfg.dirtyOnUnchangedWrite c2.l1d s.core0.l2.port = .ok (l1d, p))
    (hformat : phaseStage .format s.focalEnv { c2 with l1d := l1d } = .ok (.just c3))
    (hstore : storeStage s.focalEnv c3 = .ok (.just c4)) (hretire : retireStage s.focalEnv c4 = .ok (.just c5))
    (h1 : s.focalCtx.Keeps c1) (h2 : s.focalCtx.Keeps c2) (h3 : s.focalCtx.Keeps c3) (h4 : s.focalCtx.Keeps c4)
    (d1 : c1.l1d.AtRest)
    (d3 : Cache.clock s.cfg.l1d s.cfg.dirtyOnUnchangedWrite c3.l1d p = .ok (c3.l1d, p))
    (d4 : Cache.clock s.cfg.l1d s.cfg.dirtyOnUnchangedWrite c4.l1d p = .ok (c4.l1d, p))
    (n4 : (s.cycle + 4) % s.cfg.divL2 ≠ 0) (n5 : (s.cycle + 5) % s.cfg.divL2 ≠ 0) :
    visit i s = .next ((s.afterVisit c5).withL2Port p) := by
  have hi : s.focalCtx.l1i.AtRest := h.calm.l1i
  have k3 := clock_moved_port h.calm h.locks (c := c2) 3 (h2.l1i ▸ hi) h2.lock
    .format (s.focal_stage 3 .format (by decide)) (.inl rfl) (l1d := l1d) (r := .just c3) hclock hformat
    (by simp [PhaseOut.just])
  have k4 := clock_moved_port h.calm h.locks (c := c3) 4 (h3.l1i ▸ hi) h3.lock
    .store (s.focal_stage 4 .store (by decide)) (.inr n4) (l1d := c3.l1d) (r := .just c4) d3 (by exact hstore)
    (by simp [PhaseOut.just])
  have k5 := clock_moved_port h.calm h.locks (c := c4) 5 (h4.l1i ▸ hi) h4.lock
    .retire (s.focal_stage 5 .retire (by decide)) (.inr n5) (l1d := c4.l1d) (r := .just c5) d4 (by exact hretire)
    (by simp [PhaseOut.just])
  simp only [PhaseOut.just, State.withEffect] at k3 k4 k5
  have k3' : processorClock ((s.setCtx 0 s.focal c2).ticks 3) = _ := k3
  simp only [visit, finishRound_to_format h i hload hexec h1 d1, Except.bind, clocks, k3', k4, k5, toOutcome]
  rfl

/-- THE VISIT OF AN INSTRUCTION ALONE WHOSE EXECUTE PHASE IS FATAL. -/
theorem visit_fault_execute {s : State} (h : s.Alone) (i : Instr) {c1 : Context} {x : Fault}
    (hload : loadDataStage s.focalEnv (s.focalCtx.enter i) = .ok (.just c1))
    (hexec : phaseStage .execute s.focalEnv c1 = .error x)
    (h1 : s.focalCtx.Keeps c1) (d1 : c1.l1d.AtRest) : visit i s = .fault x := by
  have hi : s.focalCtx.l1i.AtRest := h.calm.l1i
  have k0 : clockAfterDecode (s.enter i) = .ok ((s.setCtx 0 s.focal (s.focalCtx.enter i)).ticks 1) := by
    apply clockAfterDecode_calm
    · intro k hk
      exact ((h.calm.moved (c := s.focalCtx.enter i) 0 (by simpa using hi)).others k hk)
    · exact h.calm.upper
    · exact h.calm.devices
  have k1 := clock_moved h.calm h.locks (c := s.focalCtx.enter i) 1 (by simpa using hi) (by simp [State.focalCtx])
    .loadData (s.focal_stage 1 .loadData (by decide)) (l1d := (s.focalCtx.enter i).l1d) (r := .just c1)
    (Cache.clock_atRest _ _ _ (by simpa [State.focalCtx] using h.l1d)) (by exact hload) (by simp [PhaseOut.just])
  have k2 := clock_moved_error h.calm h.locks (c := c1) 2 (h1.l1i ▸ hi) h1.lock
    .execute (s.focal_stage 2 .execute (by decide)) d1 (by exact hexec)
  simp only [PhaseOut.just, State.withEffect] at k1
  simp only [visit, finishRound, k0, Except.bind, clocks, k1, k2, toOutcome]

/-- THE VISIT OF AN INSTRUCTION ALONE WHOSE STORE PHASE IS FATAL. -/
theorem visit_fault_store {s : State} (h : s.Alone) (i : Instr) {c1 c2 c3 : Context} {l1d : Cache} {x : Fault}
    (hload : loadDataStage s.focalEnv (s.focalCtx.enter i) = .ok (.just c1))
    (hexec : phaseStage .execute s.focalEnv c1 = .ok (.just c2))
    (hclock : Cache.clock s.cfg.l1d s.cfg.dirtyOnUnchangedWrite c2.l1d s.core0.l2.port = .ok (l1d, s.core0.l2.port))
    (hformat : phaseStage .format s.focalEnv { c2 with l1d := l1d } = .ok (.just c3))
    (hstore : storeStage s.focalEnv c3 = .error x)
    (h1 : s.focalCtx.Keeps c1) (h2 : s.focalCtx.Keeps c2) (h3 : s.focalCtx.Keeps c3)
    (d1 : c1.l1d.AtRest) (d3 : c3.l1d.AtRest) : visit i s = .fault x := by
  have hi : s.focalCtx.l1i.AtRest := h.calm.l1i
  have k4 := clock_moved_error h.calm h.locks (c := c3) 4 (h3.l1i ▸ hi) h3.lock
    .store (s.focal_stage 4 .store (by decide)) d3 (by exact hstore)
  simp only [visit, finishRound_to_store h i hload hexec hclock hformat h1 h2 d1, Except.bind, clocks, k4, toOutcome]

/-- THE VISIT OF AN INSTRUCTION ALONE WHOSE RETIRE PHASE IS FATAL. -/
theorem visit_fault_retire {s : State} (h : s.Alone) (i : Instr) {c1 c2 c3 c4 : Context} {l1d : Cache} {x : Fault}
    (hload : loadDataStage s.focalEnv (s.focalCtx.enter i) = .ok (.just c1))
    (hexec : phaseStage .execute s.focalEnv c1 = .ok (.just c2))
    (hclock : Cache.clock s.cfg.l1d s.cfg.dirtyOnUnchangedWrite c2.l1d s.core0.l2.port = .ok (l1d, s.core0.l2.port))
    (hformat : phaseStage .format s.focalEnv { c2 with l1d := l1d } = .ok (.just c3))
    (hstore : storeStage s.focalEnv c3 = .ok (.just c4))
    (hretire : retireStage s.focalEnv c4 = .error x)
    (h1 : s.focalCtx.Keeps c1) (h2 : s.focalCtx.Keeps c2) (h3 : s.focalCtx.Keeps c3) (h4 : s.focalCtx.Keeps c4)
    (d1 : c1.l1d.AtRest) (d3 : c3.l1d.AtRest) (d4 : c4.l1d.AtRest) : visit i s = .fault x := by
  have hi : s.focalCtx.l1i.AtRest := h.calm.l1i
  have k4 := clock_moved h.calm h.locks (c := c3) 4 (h3.l1i ▸ hi) h3.lock
    .store (s.focal_stage 4 .store (by decide)) (l1d := c3.l1d) (r := .just c4) (Cache.clock_atRest _ _ _ d3)
    (by exact hstore) (by simp [PhaseOut.just])
  have k5 := clock_moved_error h.calm h.locks (c := c4) 5 (h4.l1i ▸ hi) h4.lock
    .retire (s.focal_stage 5 .retire (by decide)) d4 (by exact hretire)
  simp only [PhaseOut.just, State.withEffect] at k4
  simp only [visit, finishRound_to_store h i hload hexec hclock hformat h1 h2 d1, Except.bind, clocks, k4, k5, toOutcome]

end Sys2Proof.Machine
end

