-- ==== Sys2Proof/Laws/Simple.lean ====
section
/-! SUPPORT. Visits of instructions that use no memory, in a machine where the focal Context is alone: one lemma for the
visit that completes and one for each place where it raises an Error. -/

namespace Sys2Proof.Machine

/-! ## A Context that holds an instruction -/

theorem Context.enter_ready {c : Context} (h : c.Ready) (i : Instr) :
    c.enter i = c.holding (InFlight.fresh i c.latchMark) := by
  unfold Context.enter
  rw [h.notRetrying]
  rfl

@[simp] theorem Context.holding_put (c : Context) (f g : InFlight) : (c.holding f).put g = c.holding g := rfl
@[simp] theorem Context.holding_instruction (c : Context) (f : InFlight) : (c.holding f).instruction = some f := rfl
@[simp] theorem Context.holding_leave (c : Context) (f : InFlight) : (c.holding f).leave = c.done := rfl
@[simp] theorem Context.holding_pending (c : Context) (f : InFlight) : (c.holding f).pending = c.pending := rfl
@[simp] theorem Context.holding_interrupted (c : Context) (f : InFlight) :
    (c.holding f).interrupted = c.interrupted := rfl
@[simp] theorem Context.holding_signalled (c : Context) (f : InFlight) : (c.holding f).signalled = c.signalled := rfl
@[simp] theorem Context.holding_asleep (c : Context) (f : InFlight) : (c.holding f).asleep = c.asleep := rfl
@[simp] theorem Context.holding_requiresLock (c : Context) (f : InFlight) :
    (c.holding f).requiresLock = c.requiresLock := rfl
@[simp] theorem Context.holding_acquiredLock (c : Context) (f : InFlight) :
    (c.holding f).acquiredLock = c.acquiredLock := rfl
@[simp] theorem Context.holding_isRetrying (c : Context) (f : InFlight) :
    (c.holding f).isRetrying = c.isRetrying := rfl
@[simp] theorem Context.holding_l1i (c : Context) (f : InFlight) : (c.holding f).l1i = c.l1i := rfl
@[simp] theorem Context.holding_l1d (c : Context) (f : InFlight) : (c.holding f).l1d = c.l1d := rfl
@[simp] theorem Context.holding_regs (c : Context) (f : InFlight) : (c.holding f).regs = c.regs := rfl
@[simp] theorem Context.holding_pc (c : Context) (f : InFlight) : (c.holding f).pc = c.pc := rfl
@[simp] theorem Context.holding_sp (c : Context) (f : InFlight) : (c.holding f).sp = c.sp := rfl
@[simp] theorem Context.holding_ps (c : Context) (f : InFlight) : (c.holding f).ps = c.ps := rfl
@[simp] theorem Context.holding_pl (c : Context) (f : InFlight) : (c.holding f).pl = c.pl := rfl
@[simp] theorem Context.holding_ss (c : Context) (f : InFlight) : (c.holding f).ss = c.ss := rfl
@[simp] theorem Context.holding_sl (c : Context) (f : InFlight) : (c.holding f).sl = c.sl := rfl
@[simp] theorem Context.holding_read (e : Env) (c : Context) (f : InFlight) (i : Reg) :
    (c.holding f).read e i = c.read e i := rfl
@[simp] theorem Context.holding_mayWrite (c : Context) (f : InFlight) (i : Reg) :
    (c.holding f).mayWrite i = c.mayWrite i := rfl

@[simp] theorem Context.withL1d_regs (c : Context) (l : Cache) : (c.withL1d l).regs = c.regs := rfl
@[simp] theorem Context.withL1d_interrupted (c : Context) (l : Cache) : (c.withL1d l).interrupted = c.interrupted := rfl
@[simp] theorem Context.withL1d_asleep (c : Context) (l : Cache) : (c.withL1d l).asleep = c.asleep := rfl
@[simp] theorem Context.withL1d_signalled (c : Context) (l : Cache) : (c.withL1d l).signalled = c.signalled := rfl
@[simp] theorem Context.withL1d_pending (c : Context) (l : Cache) : (c.withL1d l).pending = c.pending := rfl
@[simp] theorem Context.withL1d_requiresLock (c : Context) (l : Cache) : (c.withL1d l).requiresLock = c.requiresLock := rfl
@[simp] theorem Context.withL1d_acquiredLock (c : Context) (l : Cache) : (c.withL1d l).acquiredLock = c.acquiredLock := rfl
@[simp] theorem Context.withL1d_fetchIssued (c : Context) (l : Cache) : (c.withL1d l).fetchIssued = c.fetchIssued := rfl
@[simp] theorem Context.withL1d_fetchAddr (c : Context) (l : Cache) : (c.withL1d l).fetchAddr = c.fetchAddr := rfl
@[simp] theorem Context.withL1d_opcode (c : Context) (l : Cache) : (c.withL1d l).opcode = c.opcode := rfl
@[simp] theorem Context.withL1d_instruction (c : Context) (l : Cache) : (c.withL1d l).instruction = c.instruction := rfl
@[simp] theorem Context.withL1d_isRetrying (c : Context) (l : Cache) : (c.withL1d l).isRetrying = c.isRetrying := rfl
@[simp] theorem Context.withL1d_l1i (c : Context) (l : Cache) : (c.withL1d l).l1i = c.l1i := rfl
@[simp] theorem Context.withL1d_l1d (c : Context) (l : Cache) : (c.withL1d l).l1d = l := rfl
@[simp] theorem Context.withL1d_pc (c : Context) (l : Cache) : (c.withL1d l).pc = c.pc := rfl
@[simp] theorem Context.withL1d_sp (c : Context) (l : Cache) : (c.withL1d l).sp = c.sp := rfl
@[simp] theorem Context.withL1d_ps (c : Context) (l : Cache) : (c.withL1d l).ps = c.ps := rfl
@[simp] theorem Context.withL1d_pl (c : Context) (l : Cache) : (c.withL1d l).pl = c.pl := rfl
@[simp] theorem Context.withL1d_ss (c : Context) (l : Cache) : (c.withL1d l).ss = c.ss := rfl
@[simp] theorem Context.withL1d_sl (c : Context) (l : Cache) : (c.withL1d l).sl = c.sl := rfl
@[simp] theorem Context.withL1d_read (e : Env) (c : Context) (l : Cache) (i : Reg) :
    (c.withL1d l).read e i = c.read e i := rfl
@[simp] theorem Context.withL1d_mayWrite (c : Context) (l : Cache) (i : Reg) :
    (c.withL1d l).mayWrite i = c.mayWrite i := rfl

theorem Context.holding_hwWrite (c : Context) (f : InFlight) (i : Reg) (v : Word) :
    (c.holding f).hwWrite i v = (c.hwWrite i v).holding f := by
  unfold Context.hwWrite; split <;> rfl

theorem Context.done_hwWrite (c : Context) (i : Reg) (v : Word) : (c.hwWrite i v).done = c.done.hwWrite i v := by
  unfold Context.hwWrite; split <;> rfl

theorem Context.holding_advancePc (c : Context) (f : InFlight) : (c.holding f).advancePc = c.advancePc.holding f := rfl

theorem Context.holding_setPc (c : Context) (f : InFlight) (v : Word) : (c.holding f).setPc v = (c.setPc v).holding f :=
  rfl

theorem Context.holding_setSp (c : Context) (f : InFlight) (v : Word) : (c.holding f).setSp v = (c.setSp v).holding f :=
  rfl

@[simp] theorem Context.advancePc_leave (c : Context) : c.advancePc.leave = c.leave.advancePc := rfl

@[simp] theorem Context.done_advancePc (c : Context) : c.advancePc.done = c.completed := rfl
@[simp] theorem Context.holding_holding (c : Context) (f g : InFlight) : (c.holding f).holding g = c.holding g := rfl

/-- Raising the first Error outside an interrupt (R153). -/
theorem Context.raise_holding {c : Context} (hp : c.pending = none) (hn : c.interrupted = false) (f : InFlight)
    (v : BitVec 8) :
    (c.holding f).raise v = .ok ({ c with pending := some v }.holding f.failed) := by
  simp [Context.raise, hp, hn]
  rfl

/-- A second Error, or one in an interrupt, is fatal (R153). -/
theorem Context.raise_fatal {c : Context} (h : c.pending.isSome = true ∨ c.interrupted = true) (v : BitVec 8) :
    c.raise v = .error .doubleInterrupt := by
  simp [Context.raise, h]

/-! ## The visit that completes -/

/-- What the register part of an instruction leaves alone: the caches, the wish for the lock, and that no Error is pending. -/
structure Context.RegisterChange (c c' : Context) : Prop where
  l1i : c'.l1i = c.l1i
  l1d : c'.l1d = c.l1d
  lock : c'.requiresLock = c.requiresLock
  noPending : c'.pending = none

theorem Context.RegisterChange.refl {c : Context} (h : c.pending = none) : c.RegisterChange c := ⟨rfl, rfl, rfl, h⟩

theorem Context.RegisterChange.hwWrite {c : Context} (h : c.pending = none) (i : Reg) (v : Word) :
    c.RegisterChange (c.hwWrite i v) := ⟨by simp, by simp, by simp, by simp [h]⟩

/-- THE VISIT OF AN INSTRUCTION THAT USES NO MEMORY AND COMPLETES. -/
theorem visit_simple {s : State} (h : s.Alone) (hr : s.focalCtx.Ready) (i : Instr) {f1 f2 f3 : InFlight}
    {c' : Context} {r5 : PhaseOut}
    (hload : runPhase i .load s.focalEnv (s.focalCtx.holding (.fresh i s.focalCtx.latchMark))
      (.fresh i s.focalCtx.latchMark) = .ok (.just (s.focalCtx.holding f1)))
    (hexec : runPhase i .execute s.focalEnv (s.focalCtx.holding f1) f1 = .ok (.just (s.focalCtx.holding f2)))
    (hformat : runPhase i .format s.focalEnv (s.focalCtx.holding f2) f2 = .ok (.just (s.focalCtx.holding f2)))
    (hstore : runPhase i .store s.focalEnv (s.focalCtx.holding f2) f2 = .ok (.just (c'.holding f3)))
    (hretire : runPhase i .retire s.focalEnv (c'.holding f3) f3 = .ok r5)
    (i1 : f1.instr = i) (i2 : f2.instr = i) (i3 : f3.instr = i) (ok2 : f2.success = true) (ok3 : f3.success = true)
    (hc : s.focalCtx.RegisterChange c') (hdone : r5.done = true) (he : ∀ id, r5.effect ≠ .signal id) :
    exec i s = .next ((s.afterVisit r5.ctx.leave).withEffect r5.effect) := by
  have hv : exec i s = visit i s := by cases i <;> rfl
  have hd : s.focalCtx.l1d.AtRest := h.l1d
  rw [hv]
  have hsettle : settleRetire r5 = { r5 with ctx := r5.ctx.leave } := by simp [settleRetire, hdone]
  have key := visit_alone h i (c1 := s.focalCtx.holding f1) (c2 := s.focalCtx.holding f2)
    (c3 := s.focalCtx.holding f2) (l1d := s.focalCtx.l1d) (r4 := .just (c'.holding f3)) (r5 := settleRetire r5)
    (by rw [Context.enter_ready hr]
        simp only [loadDataStage, Context.holding_isRetrying, hr.notRetrying, phaseStage]
        exact hload)
    (by simp only [phaseStage, Context.holding_instruction, i1]; exact hexec)
    (Cache.clock_atRest _ _ _ hd)
    (by show phaseStage .format s.focalEnv (s.focalCtx.holding f2) = _
        simp only [phaseStage, Context.holding_instruction, i2]; exact hformat)
    (by simp only [storeStage, Context.holding_instruction, i2, ok2]; exact hstore)
    (by simp [retireStage, PhaseOut.just, i3, ok3, hc.noPending, hretire, Except.map])
    ⟨rfl, rfl⟩ ⟨rfl, rfl⟩ ⟨rfl, rfl⟩ ⟨hc.l1i, hc.lock⟩ hd hd (show c'.l1d.AtRest by rw [hc.l1d]; exact hd) rfl
    (by rw [hsettle]; exact he)
  rw [key, hsettle]

/-- The same, for an instruction whose Retire advances the PC (R96). -/
theorem visit_completes {s : State} (h : s.Alone) (hr : s.focalCtx.Ready) (i : Instr) {f1 f2 f3 : InFlight}
    {c' : Context}
    (hload : runPhase i .load s.focalEnv (s.focalCtx.holding (.fresh i s.focalCtx.latchMark))
      (.fresh i s.focalCtx.latchMark) = .ok (.just (s.focalCtx.holding f1)))
    (hexec : runPhase i .execute s.focalEnv (s.focalCtx.holding f1) f1 = .ok (.just (s.focalCtx.holding f2)))
    (hformat : runPhase i .format s.focalEnv (s.focalCtx.holding f2) f2 = .ok (.just (s.focalCtx.holding f2)))
    (hstore : runPhase i .store s.focalEnv (s.focalCtx.holding f2) f2 = .ok (.just (c'.holding f3)))
    (hretire : runPhase i .retire s.focalEnv (c'.holding f3) f3 = retireAdvance (c'.holding f3))
    (i1 : f1.instr = i) (i2 : f2.instr = i) (i3 : f3.instr = i) (ok2 : f2.success = true) (ok3 : f3.success = true)
    (hc : s.focalCtx.RegisterChange c') : exec i s = .next (s.afterVisit c'.completed) :=
  visit_simple h hr i hload hexec hformat hstore hretire i1 i2 i3 ok2 ok3 hc rfl (by simp [PhaseOut.retired])

/-- THE VISIT OF AN INSTRUCTION THAT RAISES AN ERROR IN ITS EXECUTE PHASE: it is discarded, the Error pending. -/
theorem visit_trap_execute {s : State} (h : s.Alone) (hr : s.focalCtx.Ready) (i : Instr) {f1 f2 f3 : InFlight}
    {v : BitVec 8}
    (hload : runPhase i .load s.focalEnv (s.focalCtx.holding (.fresh i s.focalCtx.latchMark))
      (.fresh i s.focalCtx.latchMark) = .ok (.just (s.focalCtx.holding f1)))
    (hexec : runPhase i .execute s.focalEnv (s.focalCtx.holding f1) f1
      = .ok (.just ({ s.focalCtx with pending := some v }.holding f2)))
    (hformat : runPhase i .format s.focalEnv ({ s.focalCtx with pending := some v }.holding f2) f2
      = .ok (.just ({ s.focalCtx with pending := some v }.holding f3)))
    (i1 : f1.instr = i) (i2 : f2.instr = i) (no3 : f3.success = false) :
    exec i s = .next (s.afterVisit (s.focalCtx.trapped v)) := by
  have hv : exec i s = visit i s := by cases i <;> rfl
  have hd : s.focalCtx.l1d.AtRest := h.l1d
  rw [hv]
  exact visit_alone h i (c1 := s.focalCtx.holding f1) (c2 := { s.focalCtx with pending := some v }.holding f2)
    (c3 := { s.focalCtx with pending := some v }.holding f3) (l1d := s.focalCtx.l1d)
    (r4 := .just ({ s.focalCtx with pending := some v }.holding f3)) (r5 := .just (s.focalCtx.trapped v))
    (by rw [Context.enter_ready hr]
        simp only [loadDataStage, Context.holding_isRetrying, hr.notRetrying, phaseStage]
        exact hload)
    (by simp only [phaseStage, Context.holding_instruction, i1]; exact hexec)
    (Cache.clock_atRest _ _ _ hd)
    (by show phaseStage .format s.focalEnv ({ s.focalCtx with pending := some v }.holding f2) = _
        simp only [phaseStage, Context.holding_instruction, i2]; exact hformat)
    (by simp [storeStage, no3])
    (by simp [retireStage, PhaseOut.just, no3, Except.map, settleRetire]; rfl)
    ⟨rfl, rfl⟩ ⟨rfl, rfl⟩ ⟨rfl, rfl⟩ ⟨rfl, rfl⟩ hd hd (by exact hd) rfl (by simp [PhaseOut.just])

/-- THE VISIT OF AN INSTRUCTION THAT RAISES AN ERROR IN ITS STORE PHASE: it is discarded, the Error pending. -/
theorem visit_trap_store {s : State} (h : s.Alone) (hr : s.focalCtx.Ready) (i : Instr) {f1 f2 : InFlight}
    {v : BitVec 8}
    (hload : runPhase i .load s.focalEnv (s.focalCtx.holding (.fresh i s.focalCtx.latchMark))
      (.fresh i s.focalCtx.latchMark) = .ok (.just (s.focalCtx.holding f1)))
    (hexec : runPhase i .execute s.focalEnv (s.focalCtx.holding f1) f1 = .ok (.just (s.focalCtx.holding f2)))
    (hformat : runPhase i .format s.focalEnv (s.focalCtx.holding f2) f2 = .ok (.just (s.focalCtx.holding f2)))
    (hstore : runPhase i .store s.focalEnv (s.focalCtx.holding f2) f2
      = .ok (.just ({ s.focalCtx with pending := some v }.holding f2.failed)))
    (i1 : f1.instr = i) (i2 : f2.instr = i) (ok2 : f2.success = true) :
    exec i s = .next (s.afterVisit (s.focalCtx.trapped v)) := by
  have hv : exec i s = visit i s := by cases i <;> rfl
  have hd : s.focalCtx.l1d.AtRest := h.l1d
  rw [hv]
  exact visit_alone h i (c1 := s.focalCtx.holding f1) (c2 := s.focalCtx.holding f2)
    (c3 := s.focalCtx.holding f2) (l1d := s.focalCtx.l1d)
    (r4 := .just ({ s.focalCtx with pending := some v }.holding f2.failed)) (r5 := .just (s.focalCtx.trapped v))
    (by rw [Context.enter_ready hr]
        simp only [loadDataStage, Context.holding_isRetrying, hr.notRetrying, phaseStage]
        exact hload)
    (by simp only [phaseStage, Context.holding_instruction, i1]; exact hexec)
    (Cache.clock_atRest _ _ _ hd)
    (by show phaseStage .format s.focalEnv (s.focalCtx.holding f2) = _
        simp only [phaseStage, Context.holding_instruction, i2]; exact hformat)
    (by simp only [storeStage, Context.holding_instruction, i2, ok2]; exact hstore)
    (by simp [retireStage, PhaseOut.just, InFlight.failed, Except.map, settleRetire]; rfl)
    ⟨rfl, rfl⟩ ⟨rfl, rfl⟩ ⟨rfl, rfl⟩ ⟨rfl, rfl⟩ hd hd (by exact hd) rfl (by simp [PhaseOut.just])

/-! ## The visit that is fatal -/

/-- THE VISIT OF AN INSTRUCTION WHOSE EXECUTE PHASE IS FATAL. -/
theorem visit_fatal_execute {s : State} (h : s.Alone) (hr : s.focalCtx.Ready) (i : Instr) {f1 : InFlight} {x : Fault}
    (hload : runPhase i .load s.focalEnv (s.focalCtx.holding (.fresh i s.focalCtx.latchMark))
      (.fresh i s.focalCtx.latchMark) = .ok (.just (s.focalCtx.holding f1)))
    (hexec : runPhase i .execute s.focalEnv (s.focalCtx.holding f1) f1 = .error x) (i1 : f1.instr = i) :
    exec i s = .fault x := by
  have hv : exec i s = visit i s := by cases i <;> rfl
  rw [hv]
  exact visit_fault_execute h i (c1 := s.focalCtx.holding f1)
    (by rw [Context.enter_ready hr]
        simp only [loadDataStage, Context.holding_isRetrying, hr.notRetrying, phaseStage]
        exact hload)
    (by simp only [phaseStage, Context.holding_instruction, i1]; exact hexec) ⟨rfl, rfl⟩ h.l1d

/-- THE VISIT OF AN INSTRUCTION WHOSE STORE PHASE IS FATAL. -/
theorem visit_fatal_store {s : State} (h : s.Alone) (hr : s.focalCtx.Ready) (i : Instr) {f1 f2 : InFlight} {x : Fault}
    (hload : runPhase i .load s.focalEnv (s.focalCtx.holding (.fresh i s.focalCtx.latchMark))
      (.fresh i s.focalCtx.latchMark) = .ok (.just (s.focalCtx.holding f1)))
    (hexec : runPhase i .execute s.focalEnv (s.focalCtx.holding f1) f1 = .ok (.just (s.focalCtx.holding f2)))
    (hformat : runPhase i .format s.focalEnv (s.focalCtx.holding f2) f2 = .ok (.just (s.focalCtx.holding f2)))
    (hstore : runPhase i .store s.focalEnv (s.focalCtx.holding f2) f2 = .error x)
    (i1 : f1.instr = i) (i2 : f2.instr = i) (ok2 : f2.success = true) : exec i s = .fault x := by
  have hv : exec i s = visit i s := by cases i <;> rfl
  rw [hv]
  exact visit_fault_store h i (c1 := s.focalCtx.holding f1) (c2 := s.focalCtx.holding f2)
    (c3 := s.focalCtx.holding f2) (l1d := s.focalCtx.l1d)
    (by rw [Context.enter_ready hr]
        simp only [loadDataStage, Context.holding_isRetrying, hr.notRetrying, phaseStage]
        exact hload)
    (by simp only [phaseStage, Context.holding_instruction, i1]; exact hexec)
    (Cache.clock_atRest _ _ _ h.l1d)
    (by show phaseStage .format s.focalEnv (s.focalCtx.holding f2) = _
        simp only [phaseStage, Context.holding_instruction, i2]; exact hformat)
    (by simp only [storeStage, Context.holding_instruction, i2, ok2]; exact hstore)
    ⟨rfl, rfl⟩ ⟨rfl, rfl⟩ ⟨rfl, rfl⟩ h.l1d h.l1d

/-- THE VISIT OF AN INSTRUCTION WHOSE RETIRE PHASE IS FATAL. -/
theorem visit_fatal_retire {s : State} (h : s.Alone) (hr : s.focalCtx.Ready) (i : Instr) {f1 f2 : InFlight} {x : Fault}
    (hload : runPhase i .load s.focalEnv (s.focalCtx.holding (.fresh i s.focalCtx.latchMark))
      (.fresh i s.focalCtx.latchMark) = .ok (.just (s.focalCtx.holding f1)))
    (hexec : runPhase i .execute s.focalEnv (s.focalCtx.holding f1) f1 = .ok (.just (s.focalCtx.holding f2)))
    (hformat : runPhase i .format s.focalEnv (s.focalCtx.holding f2) f2 = .ok (.just (s.focalCtx.holding f2)))
    (hstore : runPhase i .store s.focalEnv (s.focalCtx.holding f2) f2 = .ok (.just (s.focalCtx.holding f2)))
    (hretire : runPhase i .retire s.focalEnv (s.focalCtx.holding f2) f2 = .error x)
    (i1 : f1.instr = i) (i2 : f2.instr = i) (ok2 : f2.success = true) : exec i s = .fault x := by
  have hv : exec i s = visit i s := by cases i <;> rfl
  rw [hv]
  exact visit_fault_retire h i (c1 := s.focalCtx.holding f1) (c2 := s.focalCtx.holding f2)
    (c3 := s.focalCtx.holding f2) (c4 := s.focalCtx.holding f2) (l1d := s.focalCtx.l1d)
    (by rw [Context.enter_ready hr]
        simp only [loadDataStage, Context.holding_isRetrying, hr.notRetrying, phaseStage]
        exact hload)
    (by simp only [phaseStage, Context.holding_instruction, i1]; exact hexec)
    (Cache.clock_atRest _ _ _ h.l1d)
    (by show phaseStage .format s.focalEnv (s.focalCtx.holding f2) = _
        simp only [phaseStage, Context.holding_instruction, i2]; exact hformat)
    (by simp only [storeStage, Context.holding_instruction, i2, ok2]; exact hstore)
    (by simp [retireStage, i2, ok2, hr.noPending, hretire, Except.map])
    ⟨rfl, rfl⟩ ⟨rfl, rfl⟩ ⟨rfl, rfl⟩ ⟨rfl, rfl⟩ h.l1d h.l1d h.l1d

end Sys2Proof.Machine
end

