-- ==== Sys2Proof/Laws/Geometry.lean ====
section
/-! SUPPORT. Cache geometry (R8, R9, R46, R50): a window lies inside its line, and a hit reads as many bytes as it asks
for. -/

namespace Sys2Proof.Machine

theorem isPowerOfTwo_eq {n : Nat} (h : isPowerOfTwo n = true) : n = 2 ^ Nat.log2 n := by simpa [isPowerOfTwo] using h

theorem CacheConfig.wellFormed_widths {g : CacheConfig} (h : g.wellFormed = true) :
    0 < g.busWidth ∧ 0 < g.lineWidth ∧ g.busWidth ∣ g.lineWidth ∧ g.lineWidth = 2 ^ g.offsetBits ∧
    g.size / g.lineWidth = 2 ^ indexBits g := by
  simp only [CacheConfig.wellFormed, CacheConfig.sizesArePowers, CacheConfig.busDividesLine,
    CacheConfig.offsetMatchesLine, Bool.and_eq_true, beq_iff_eq] at h
  obtain ⟨⟨⟨⟨⟨⟨hl, hb⟩, _⟩, hc⟩, ho⟩, hd⟩, _⟩ := h
  have hb' := isPowerOfTwo_eq hb
  have hl' := isPowerOfTwo_eq hl
  refine ⟨by rw [hb']; positivity, by rw [hl']; positivity, Nat.dvd_of_mod_eq_zero hd, ho, ?_⟩
  have hc' := isPowerOfTwo_eq hc
  have hi : indexBits g = Nat.log2 (g.size / g.lineWidth) := if_pos hc'.symm
  rw [hi]
  exact hc'

/-- A window lies inside one line (R50). -/
theorem CacheConfig.window_fits {g : CacheConfig} (h : g.wellFormed = true) (a : Nat) :
    windowOffset g a + g.busWidth ≤ g.lineWidth := by
  obtain ⟨hb, hl, ⟨k, hk⟩, _, _⟩ := CacheConfig.wellFormed_widths h
  have hbase : a - a % g.busWidth = g.busWidth * (a / g.busWidth) := by
    have := Nat.div_add_mod a g.busWidth
    omega
  simp only [windowOffset, windowBase]
  rw [hbase, hk, Nat.mul_mod_mul_left]
  have hk0 : 0 < k := by
    rcases Nat.eq_zero_or_pos k with h0 | h0
    · subst h0; omega
    · exact h0
  have hlt := Nat.mod_lt (a / g.busWidth) hk0
  calc g.busWidth * (a / g.busWidth % k) + g.busWidth = g.busWidth * (a / g.busWidth % k + 1) := by ring
    _ ≤ g.busWidth * k := Nat.mul_le_mul_left _ hlt

/-- The line address of the line that holds `a` is the address of `a` with its offset cut off (R50). -/
theorem addrOfLine_eq_lineAddr {g : CacheConfig} (h : g.wellFormed = true) (a : Nat) :
    addrOfLine g (tagOf g a) (indexOf g a) = lineAddr g a := by
  obtain ⟨_, _, _, ho, _⟩ := CacheConfig.wellFormed_widths h
  simp only [addrOfLine, tagOf, indexOf, lineAddr, ho]
  have h1 : a / 2 ^ (g.offsetBits + indexBits g) = a / 2 ^ g.offsetBits / 2 ^ indexBits g := by
    rw [pow_add, Nat.div_div_eq_div_mul]
  have h2 := Nat.div_add_mod (a / 2 ^ g.offsetBits) (2 ^ indexBits g)
  have h3 := Nat.div_add_mod a (2 ^ g.offsetBits)
  rw [h1, pow_add]
  calc a / 2 ^ g.offsetBits / 2 ^ indexBits g * (2 ^ g.offsetBits * 2 ^ indexBits g)
        + a / 2 ^ g.offsetBits % 2 ^ indexBits g * 2 ^ g.offsetBits
      = 2 ^ g.offsetBits * (2 ^ indexBits g * (a / 2 ^ g.offsetBits / 2 ^ indexBits g)
        + a / 2 ^ g.offsetBits % 2 ^ indexBits g) := by ring
    _ = a - a % 2 ^ g.offsetBits := by rw [h2]; omega

/-- Positions of a line have the index of the line's address (R50). -/
theorem indexOf_lineAddr {g : CacheConfig} (h : g.wellFormed = true) (a : Nat) :
    indexOf g (lineAddr g a) = indexOf g a := by
  obtain ⟨_, _, _, ho, _⟩ := CacheConfig.wellFormed_widths h
  simp only [indexOf, lineAddr, ho]
  congr 1
  have h3 := Nat.div_add_mod a (2 ^ g.offsetBits)
  have : a - a % 2 ^ g.offsetBits = 2 ^ g.offsetBits * (a / 2 ^ g.offsetBits) := by omega
  rw [this, Nat.mul_div_cancel_left _ (by positivity)]

/-- Every line a cache may hold an address in has the line width. -/
theorem Cache.Shaped.lineOf_lanes {g : CacheConfig} {c : Cache} (h : c.Shaped g) (a : Nat) :
    (c.lineOf g a).lanes.length = g.lineWidth := by
  simp only [Cache.lineOf, Cache.line, List.getD]
  rcases lt_or_ge (indexOf g a) c.lines.length with hi | hi
  · rw [List.getElem?_eq_getElem hi]
    exact h.lanes _ (List.getElem_mem hi)
  · rw [List.getElem?_eq_none hi]
    simp [Line.reset]

/-- A hit reads as many bytes as it asks for inside its window (R56). -/
theorem Cache.hitBytes_length {g : CacheConfig} (h : g.wellFormed = true) {c : Cache} (hc : c.Shaped g) {a n : Nat}
    (hn : a % g.busWidth + n ≤ g.busWidth) : (c.hitBytes g a n).length = n := by
  have hw := CacheConfig.window_fits h a
  have hl := hc.lineOf_lanes a
  simp [Cache.hitBytes, Cache.windowOf, Line.window, hl]
  omega

theorem Config.wellFormed_l1d {cfg : Config} (h : cfg.wellFormed = true) : cfg.l1d.wellFormed = true := by
  simp [Config.wellFormed] at h
  tauto

theorem Config.wellFormed_l1i {cfg : Config} (h : cfg.wellFormed = true) : cfg.l1i.wellFormed = true := by
  simp [Config.wellFormed] at h
  tauto

theorem Config.wellFormed_memorySize {cfg : Config} (h : cfg.wellFormed = true) : cfg.memorySize ≤ 2 ^ 64 := by
  simp [Config.wellFormed, Config.memoryAddressable] at h
  omega

end Sys2Proof.Machine
end

