-- ==== Sys2Proof/Laws/Access.lean ====
section
/-! SUPPORT. The data access engine (R113) in a machine where the focal Context is alone: the request, the clock in which
the L1D serves it, its result, and the visit that moves one window. -/

namespace Sys2Proof.Machine

/-! ## The protocol of one request -/

/-- An idle port takes a request (R41, R44). -/
theorem Port.request_idle {p : Port} (h : p.idle = true) (op : StoreOp) (a : Nat) (bus : Option (List Lane)) :
    p.request op a bus
      = .ok { p with busy := true, free := false, op := op, addr := BitVec.ofNat 64 a, bus := bus.getD p.bus } := by
  simp [Port.request, h]

/-- All a request can do (R41, R44): it answers only from an idle port, and makes it busy with the request. -/
theorem Port.request_ok {p q : Port} {op : StoreOp} {a : Nat} {bus : Option (List Lane)}
    (h : p.request op a bus = .ok q) : p.idle = true ∧
      q = { p with busy := true, free := false, op := op, addr := BitVec.ofNat 64 a, bus := bus.getD p.bus } := by
  unfold Port.request at h
  split at h
  · exact ⟨by assumption, by injection h with h; exact h.symm⟩
  · cases h

/-- All a `Free` can do (R43, R44): it answers only for a completed-unconsumed port, and makes it idle. -/
theorem Port.release_ok {p q : Port} (h : p.release = .ok q) : p.completed = true ∧ q = { p with free := true } := by
  unfold Port.release at h
  split at h
  · exact ⟨by assumption, by injection h with h; exact h.symm⟩
  · cases h

/-- A cache that has taken a request. -/
def Cache.requested (c : Cache) (op : StoreOp) (a : Nat) (bus : Option (List Lane)) : Cache :=
  { c with port := { c.port with busy := true, free := false, op := op, addr := BitVec.ofNat 64 a,
                                 bus := bus.getD c.port.bus } }

/-- A cache whose request has been served and not yet freed. -/
def Cache.held (c : Cache) : Cache := { c with port := { c.port with free := false } }

theorem Cache.background_idle (g : CacheConfig) {c : Cache} (lower : Port) (h : c.lp = .idle) :
    c.background g lower = .ok (c, lower) := by
  unfold Cache.background
  split
  · simp [h]
  · rfl

theorem toNat_ofNat_of_lt {a : Nat} (h : a < 2 ^ 64) : (BitVec.ofNat 64 a).toNat = a := by
  rw [BitVec.toNat_ofNat, Nat.mod_eq_of_lt h]

/-- The clock of a cache with a request and no lower request outstanding is the attempt (R52). -/
theorem Cache.clock_requested (g : CacheConfig) (always : Bool) {c : Cache} (lower : Port) (hc : c.lp = .idle)
    (op : StoreOp) (a : Nat) (bus : Option (List Lane)) {ok : Bool} {c' : Cache} {lower' : Port}
    (h : (c.requested op a bus).attempt g always lower = .ok (ok, c', lower')) :
    (c.requested op a bus).clock g always lower = .ok ({ c' with port := c'.port.resolve ok }, lower') := by
  have hb : (c.requested op a bus).background g lower = .ok (c.requested op a bus, lower) :=
    Cache.background_idle g lower hc
  have hbusy : (c.requested op a bus).port.busy = true := rfl
  simp only [Cache.clock, hb, Except.bind, hbusy, if_true, h, Except.map]

theorem Cache.requested_addr (c : Cache) (op : StoreOp) {a : Nat} (bus : Option (List Lane)) (ha : a < 2 ^ 64) :
    (c.requested op a bus).port.addr.toNat = a := toNat_ofNat_of_lt ha

/-- The clock of a cache whose Read request hits (R52, R56). -/
theorem Cache.clock_read_hit (g : CacheConfig) (always : Bool) {c : Cache} (lower : Port) (hc : c.lp = .idle) {a : Nat}
    (ha : a < 2 ^ 64) (hit : c.ReadHit g a) :
    (c.requested .read a none).clock g always lower = .ok ((c.afterRead g a).held, lower) := by
  refine Cache.clock_requested g always lower hc _ _ _ (ok := true) (c' := { c.requested .read a none with
    port := { (c.requested .read a none).port with bus := readBus ((c.windowOf g a).map Lane.data) } }) ?_
  show Cache.attemptRead g _ lower (c.requested .read a none).port.addr.toNat = _
  rw [Cache.requested_addr c .read none ha]
  exact if_pos hit

/-- The clock of a cache whose Write request is taken at once (R58, R59). -/
theorem Cache.clock_write_ready (g : CacheConfig) (always : Bool) {c : Cache} (lower : Port) (hc : c.lp = .idle)
    {a : Nat} (ha : a < 2 ^ 64) (hw : c.WriteReady g a) (bytes : List Byte) :
    (c.requested .write a (some (writeBus g.busWidth (a % g.busWidth) bytes))).clock g always lower
      = .ok ((c.afterWrite g always a bytes).held, lower) := by
  refine Cache.clock_requested g always lower hc _ _ _ (ok := true) (c' := Cache.setLine
    (c.requested .write a (some (writeBus g.busWidth (a % g.busWidth) bytes))) (indexOf g a) ((c.writeBase g a).write
      always (windowOffset g a) (writeBus g.busWidth (a % g.busWidth) bytes))) ?_
  show Cache.attemptWrite g always _ lower (c.requested .write a _).port.addr.toNat = _
  rw [Cache.requested_addr c .write _ ha]
  have h1 : ¬((c.lineOf g a).tag ≠ tagOf g a ∧ (c.lineOf g a).isDirty = true) := by
    rintro ⟨h1, h2⟩
    rcases hw with h | h
    · exact h1 h
    · exact absurd (h.symm.trans h2) (by decide)
  have h2 : ∀ j, (c.requested .write a (some (writeBus g.busWidth (a % g.busWidth) bytes))).writeBackOutstanding g j
      = false := by
    intro j
    have hl : (c.requested .write a (some (writeBus g.busWidth (a % g.busWidth) bytes))).lp = .idle := hc
    simp [Cache.writeBackOutstanding, hl]
  exact (if_neg h1).trans (if_neg (by simp [h2]))

/-- The clock of a cache with a Clear request (R61). -/
theorem Cache.clock_clear (g : CacheConfig) (always : Bool) {c : Cache} (lower : Port) (hc : c.lp = .idle) {a : Nat}
    (ha : a < 2 ^ 64) :
    (c.requested .clear a none).clock g always lower = .ok ((c.afterClear g a).held, lower) := by
  by_cases h : (c.lineOf g a).tag = tagOf g a
  · have hk := Cache.clock_requested g always lower hc .clear a none (ok := true)
      (c' := (c.requested .clear a none).setLine (indexOf g a) (c.clearedLine g a)) (by
        show Cache.attemptClear g _ lower (c.requested .clear a none).port.addr.toNat = _
        rw [Cache.requested_addr c .clear none ha]
        exact if_pos h)
    rw [hk]
    simp only [Cache.afterClear, h, if_true]
    rfl
  · have hk := Cache.clock_requested g always lower hc .clear a none (ok := true) (c' := c.requested .clear a none) (by
        show Cache.attemptClear g _ lower (c.requested .clear a none).port.addr.toNat = _
        rw [Cache.requested_addr c .clear none ha]
        exact if_neg h)
    rw [hk]
    simp only [Cache.afterClear, h, if_false]
    rfl

/-- The clock of a cache whose Flush request finds its window clean (R62). -/
theorem Cache.clock_flush_clean (g : CacheConfig) (always : Bool) {c : Cache} (lower : Port) (hc : c.lp = .idle)
    {a : Nat} (ha : a < 2 ^ 64) (hf : c.FlushClean g a) :
    (c.requested .flush a none).clock g always lower = .ok ((c.afterFlush a).held, lower) := by
  refine Cache.clock_requested g always lower hc _ _ _ (ok := true) (c' := c.requested .flush a none) ?_
  show Cache.attemptFlush g _ lower (c.requested .flush a none).port.addr.toNat = _
  rw [Cache.requested_addr c .flush none ha]
  refine if_neg ?_
  rintro ⟨h1, h2⟩
  exact absurd ((hf h1).symm.trans h2) (by decide)

/-- A flush finds its window dirty: the line holds the tag and the mask names a byte (R62). -/
theorem Cache.flushDirty {g : CacheConfig} {c : Cache} {a : Nat} (h : ¬ c.FlushClean g a) :
    (c.lineOf g a).tag = tagOf g a ∧ (c.flushMask g a).any id = true := by
  unfold Cache.FlushClean at h
  push Not at h
  exact ⟨h.1, by simpa [Cache.flushMask] using h.2⟩

/-- A write-back goes out to an idle lower Store when none is outstanding (R55). -/
theorem Cache.requestWriteBack_idle (g : CacheConfig) {c : Cache} {lower : Port} (hc : c.lp = .idle)
    (hi : lower.idle = true) (va : Nat) (mask : List Bool) :
    c.requestWriteBack g lower va mask
      = .ok ({ c with lp := .writeBack va mask false },
          lower.taken .write va ((c.line g (indexOf g va)).writeBackBus mask)) := by
  simp [Cache.requestWriteBack, hc, hi, Port.request_idle hi, Except.map, Port.taken]

/-- A fetch goes out to an idle lower Store when none is outstanding (R55). -/
theorem Cache.requestFetch_idle {c : Cache} {lower : Port} (hc : c.lp = .idle) (hi : lower.idle = true) (la : Nat) :
    c.requestFetch lower la = .ok ({ c with lp := .fetch la }, lower.taken .read la lower.bus) := by
  simp [Cache.requestFetch, hc, hi, Port.request_idle hi, Except.map, Port.taken]

/-- Nothing goes out while a lower request is outstanding or the lower Store is not idle (R55). -/
theorem Cache.requestWriteBack_waits (g : CacheConfig) {c : Cache} {lower : Port} (h : ¬(c.lp = .idle ∧ lower.idle = true))
    (va : Nat) (mask : List Bool) : c.requestWriteBack g lower va mask = .ok (c, lower) := if_neg h

/-- Nothing goes out while a lower request is outstanding or the lower Store is not idle (R55). -/
theorem Cache.requestFetch_waits {c : Cache} {lower : Port} (h : ¬(c.lp = .idle ∧ lower.idle = true)) (la : Nat) :
    c.requestFetch lower la = .ok (c, lower) := if_neg h

/-- The clock of a cache whose Flush request finds its window dirty, above an idle lower Store (R62). -/
theorem Cache.clock_flush_dirty {g : CacheConfig} (hg : g.wellFormed = true) (always : Bool) {c : Cache} {lower : Port}
    (hc : c.lp = .idle) {a : Nat} (ha : a < 2 ^ 64) (hf : ¬ c.FlushClean g a) (hi : lower.idle = true) :
    (c.requested .flush a none).clock g always lower
      = .ok ((c.afterFlushDirty a (.writeBack (lineAddr g a) (c.flushMask g a) false)).held,
          lower.taken .write (lineAddr g a) ((c.lineOf g a).writeBackBus (c.flushMask g a))) := by
  have hl : (c.requested .flush a none).lp = .idle := hc
  have hcond : (c.lineOf g a).tag = tagOf g a ∧ (c.flushMask g a).any id = true := Cache.flushDirty hf
  have key := Cache.requestWriteBack_idle g hl hi (addrOfLine g (tagOf g a) (indexOf g a)) (c.flushMask g a)
  rw [addrOfLine_eq_lineAddr hg, indexOf_lineAddr hg] at key
  refine Cache.clock_requested g always lower hc _ _ _ (ok := false) (c' := { c.requested .flush a none with
    lp := .writeBack (lineAddr g a) (c.flushMask g a) false }) ?_
  show Cache.attemptFlush g _ lower (c.requested .flush a none).port.addr.toNat = _
  rw [Cache.requested_addr c .flush none ha]
  refine (if_pos hcond).trans ?_
  rw [addrOfLine_eq_lineAddr hg]
  exact (congrArg (Except.map _) key).trans rfl

/-- The clock of a cache whose Flush request finds its window dirty, above a lower Store that is not idle (R55, R62). -/
theorem Cache.clock_flush_waits (g : CacheConfig) (always : Bool) {c : Cache} {lower : Port} (hc : c.lp = .idle) {a : Nat}
    (ha : a < 2 ^ 64) (hf : ¬ c.FlushClean g a) (hi : lower.idle = false) :
    (c.requested .flush a none).clock g always lower = .ok ((c.afterFlushDirty a .idle).held, lower) := by
  have hcond : (c.lineOf g a).tag = tagOf g a ∧ (c.flushMask g a).any id = true := Cache.flushDirty hf
  have hk := Cache.clock_requested g always lower hc .flush a none (ok := false) (c' := c.requested .flush a none) (by
    show Cache.attemptFlush g _ lower (c.requested .flush a none).port.addr.toNat = _
    rw [Cache.requested_addr c .flush none ha]
    exact (if_pos hcond).trans (congrArg (Except.map _) (Cache.requestWriteBack_waits g (by simp [hi]) _ _)))
  rw [hk]
  simp only [Cache.afterFlushDirty, ← hc]
  rfl

/-! ## The phases of the engine -/

/-- The Write payload of the engine's next request, if it writes. -/
def InFlight.requestBus (f : InFlight) (width : Nat) (op : StoreOp) (p n : Nat) : Option (List Lane) :=
  match op with
  | .write => some (f.payload width p n)
  | _ => none

/-- The Execute phase with an idle port issues the next request (R113). -/
theorem accessExecute_idle (e : Env) (op : StoreOp) (p n : Nat) {c : Context} {f : InFlight}
    (hi : c.l1d.port.idle = true) (hf : f.issued = false) :
    accessExecute e op p n (c.holding f) f
      = .ok ((c.withL1d (c.l1d.requested op (f.nextAddr p) (f.requestBus e.cfg.l1d.busWidth op p n))).holding
          { f with issued := true, success := false }) := by
  simp only [accessExecute, hf, Context.holding_l1d, hi, Bool.not_true, Bool.or_false, Bool.false_eq_true, if_false,
    Port.request_idle hi, Except.map]
  cases op <;> rfl

/-- The Format phase with a served request consumes and frees it (R113). -/
theorem accessFormat_served (e : Env) (op : StoreOp) (p n : Nat) (c : Context) (f : InFlight) {l1d : Cache}
    (hb : l1d.port.busy = false) (hfree : l1d.port.free = true) (hs : l1d.port.successful = true) :
    accessFormat e op p n ((c.withL1d l1d.held).holding { f with issued := true, success := false })
        { f with issued := true, success := false }
      = .ok ((c.withL1d l1d).holding (f.advanced e.cfg.l1d.busWidth op p n l1d.port.bus)) := by
  have hp : { l1d.held.port with free := true } = l1d.port := by
    cases hport : l1d.port
    simp [Cache.held, hport] at *
    exact hfree
  have hr : l1d.held.port.release = .ok l1d.port := by
    rw [← hp]
    simp [Port.release, Port.completed, Cache.held, hb]
  have hs' : l1d.held.port.successful = true := hs
  have hb' : l1d.held.port.busy = false := hb
  simp only [accessFormat, Context.holding_l1d, Context.withL1d_l1d, hb', hs', hr, Except.map, Bool.not_true, Bool.or_self, Bool.false_eq_true,
    if_false, Bool.true_and, if_true, InFlight.advanced]
  by_cases h : op == .read
  · simp only [h, if_true]; rfl
  · simp only [h]; rfl

/-- The Format phase with a failed request consumes and frees it; the transfer stays where it was (R113). -/
theorem accessFormat_failed (e : Env) (op : StoreOp) (p n : Nat) (c : Context) (f : InFlight) {l1d : Cache}
    (hb : l1d.port.busy = false) (hfree : l1d.port.free = true) (hs : l1d.port.successful = false)
    (hf : f.issued = false) :
    accessFormat e op p n ((c.withL1d l1d.held).holding { f with issued := true, success := false })
        { f with issued := true, success := false }
      = .ok ((c.withL1d l1d).holding f.failed) := by
  have hp : { l1d.held.port with free := true } = l1d.port := by
    cases hport : l1d.port
    simp [Cache.held, hport] at *
    exact hfree
  have hr : l1d.held.port.release = .ok l1d.port := by
    rw [← hp]
    simp [Port.release, Port.completed, Cache.held, hb]
  have hs' : l1d.held.port.successful = false := hs
  have hb' : l1d.held.port.busy = false := hb
  simp only [accessFormat, Context.holding_l1d, Context.withL1d_l1d, hb', hs', hr, Except.map, Bool.not_true,
    Bool.or_self, Bool.false_eq_true, if_false, Bool.false_and]
  have hfail : f.failed = { f with issued := false, success := false } := by simp [InFlight.failed, hf]
  rw [hfail]
  rfl

/-! ## The visit that moves one window -/

theorem loadDataStage_brings {s : State} {i : Instr} {f : InFlight} (h : s.Brings i f) :
    loadDataStage s.focalEnv (s.focalCtx.enter i) = .ok (.just (s.focalCtx.holding f)) := by
  obtain ⟨hp, hi, _, ⟨hr, hl⟩ | ⟨hr, ho, hf⟩⟩ := h
  · rw [Context.enter_ready ⟨hr, hp⟩]
    simp only [loadDataStage, Context.holding_isRetrying, hr, phaseStage]
    exact hl
  · have : s.focalCtx.enter i = s.focalCtx.holding f := by
      unfold Context.enter
      rw [hr, hf]
      subst hi
      simp only [Context.put, Context.holding, ← ho]
    rw [this]
    simp [loadDataStage, hr]

/-- What the visit of a window needs of the phases of its instruction. -/
structure UsesEngine (s : State) (i : Instr) (f : InFlight) (op : StoreOp) (p n : Nat) : Prop where
  execute : runPhase i .execute s.focalEnv (s.focalCtx.holding f) f
    = justly (accessExecute s.focalEnv op p n (s.focalCtx.holding f) f)
  format : ∀ c, runPhase i .format s.focalEnv c { f with issued := true, success := false }
    = justly (accessFormat s.focalEnv op p n c { f with issued := true, success := false })

/-- The L1D serves the engine's next request at once, and is `l1d` afterwards. -/
structure Serves (s : State) (f : InFlight) (op : StoreOp) (p n : Nat) (l1d : Cache) : Prop where
  clock : (s.focalCtx.l1d.requested op (f.nextAddr p) (f.requestBus s.cfg.l1d.busWidth op p n)).clock s.cfg.l1d
    s.cfg.dirtyOnUnchangedWrite s.core0.l2.port = .ok (l1d.held, s.core0.l2.port)
  notBusy : l1d.port.busy = false
  free : l1d.port.free = true
  successful : l1d.port.successful = true
  noLower : l1d.lp = .idle

/-- THE VISIT THAT MOVES A WINDOW WHICH IS NOT THE LAST: the instruction is in flight for a retry, past that window. -/
theorem visit_window_more {s : State} (h : s.Alone) {i : Instr} {f : InFlight} (hf : s.Brings i f) {op : StoreOp}
    {p n : Nat} (hu : UsesEngine s i f op p n) {l1d : Cache} (hs : Serves s f op p n l1d)
    (more : f.offset + f.chunk s.cfg.l1d.busWidth p n ≠ n) :
    exec i s = .next (s.afterVisit
      ((s.focalCtx.withL1d l1d).retrying (f.advanced s.cfg.l1d.busWidth op p n l1d.port.bus))) := by
  obtain rfl : f.instr = i := hf.2.1
  have hv : exec f.instr s = visit f.instr s := by cases f.instr <;> rfl
  have hd : s.focalCtx.l1d.AtRest := h.l1d
  have hrest : l1d.AtRest := ⟨hs.notBusy, hs.noLower⟩
  have hnot : (f.advanced s.cfg.l1d.busWidth op p n l1d.port.bus).success = false := by
    simp [InFlight.advanced, more]
  have hp : s.focalCtx.pending = none := hf.1
  rw [hv]
  exact visit_alone h f.instr (c1 := s.focalCtx.holding f)
    (c2 := (s.focalCtx.withL1d (s.focalCtx.l1d.requested op (f.nextAddr p)
              (f.requestBus s.cfg.l1d.busWidth op p n))).holding { f with issued := true, success := false })
    (c3 := (s.focalCtx.withL1d l1d).holding (f.advanced s.cfg.l1d.busWidth op p n l1d.port.bus))
    (r4 := .just ((s.focalCtx.withL1d l1d).holding (f.advanced s.cfg.l1d.busWidth op p n l1d.port.bus)))
    (r5 := .just ((s.focalCtx.withL1d l1d).retrying (f.advanced s.cfg.l1d.busWidth op p n l1d.port.bus)))
    (loadDataStage_brings hf)
    (by simp only [phaseStage, Context.holding_instruction]
        rw [hu.execute, accessExecute_idle (c := s.focalCtx) _ _ _ _ h.l1dIdle hf.2.2.1]
        rfl)
    hs.clock
    (by show phaseStage .format s.focalEnv ((s.focalCtx.withL1d l1d.held).holding
          { f with issued := true, success := false }) = _
        simp only [phaseStage, Context.holding_instruction]
        rw [hu.format, accessFormat_served _ _ _ _ _ _ hs.notBusy hs.free hs.successful]
        rfl)
    (by simp only [storeStage, Context.holding_instruction]
        simp only [hnot, Bool.false_eq_true, if_false])
    (by have hpend : (s.focalCtx.withL1d l1d).pending.isSome = false := by simp [hp]
        simp only [retireStage, PhaseOut.just, Context.holding_instruction, hnot, Bool.false_and, Bool.false_eq_true,
          if_false, Except.map, settleRetire, Context.holding_pending, hpend, Bool.or_self]
        rfl)
    ⟨rfl, rfl⟩ ⟨rfl, rfl⟩ ⟨rfl, rfl⟩ ⟨rfl, rfl⟩ hd (by exact hrest) (by exact hrest) rfl (by simp [PhaseOut.just])

/-- The clock of a cache with no request and a lower request that has not completed changes nothing (R53). -/
theorem Cache.clock_waiting (g : CacheConfig) (always : Bool) {c : Cache} {lower : Port} (hb : c.port.busy = false)
    (hl : lower.completed = false) : c.clock g always lower = .ok (c, lower) := by
  simp [Cache.clock, Cache.background, hl, Except.bind, hb]

/-- The phases of a visit whose request the L1D fails: the instruction is in flight for a retry, where it was. -/
theorem window_fails {s : State} (h : s.Alone) {i : Instr} {f : InFlight} (hf : s.Brings i f) {op : StoreOp} {p n : Nat}
    (hu : UsesEngine s i f op p n) {l1d : Cache} (hb : l1d.port.busy = false) (hfree : l1d.port.free = true)
    (hs : l1d.port.successful = false) :
    phaseStage .execute s.focalEnv (s.focalCtx.holding f)
        = .ok (.just ((s.focalCtx.withL1d (s.focalCtx.l1d.requested op (f.nextAddr p)
            (f.requestBus s.cfg.l1d.busWidth op p n))).holding { f with issued := true, success := false })) ∧
      phaseStage .format s.focalEnv ((s.focalCtx.withL1d l1d.held).holding { f with issued := true, success := false })
        = .ok (.just ((s.focalCtx.withL1d l1d).holding f.failed)) ∧
      storeStage s.focalEnv ((s.focalCtx.withL1d l1d).holding f.failed)
        = .ok (.just ((s.focalCtx.withL1d l1d).holding f.failed)) ∧
      retireStage s.focalEnv ((s.focalCtx.withL1d l1d).holding f.failed)
        = .ok (.just ((s.focalCtx.withL1d l1d).retrying f.failed)) := by
  obtain rfl : f.instr = i := hf.2.1
  refine ⟨?_, ?_, ?_, ?_⟩
  · simp only [phaseStage, Context.holding_instruction]
    rw [hu.execute, accessExecute_idle (c := s.focalCtx) _ _ _ _ h.l1dIdle hf.2.2.1]
    rfl
  · simp only [phaseStage, Context.holding_instruction]
    rw [hu.format, accessFormat_failed _ _ _ _ _ _ hb hfree hs hf.2.2.1]
    rfl
  · simp [storeStage, InFlight.failed]
  · have hp : s.focalCtx.pending = none := hf.1
    simp only [retireStage, Context.holding_instruction, InFlight.failed, Bool.false_and, Bool.false_eq_true, if_false,
      Except.map, settleRetire, PhaseOut.just, Bool.false_or]
    rw [if_neg (by simp [Context.withL1d, hp])]
    rfl

/-- THE VISIT WHOSE REQUEST THE L1D FAILS, sending the L2 a request of its own (R55): the L2's clock does not come before the
visit ends. -/
theorem visit_window_sends {s : State} (h : s.Alone) {i : Instr} {f : InFlight} (hf : s.Brings i f) {op : StoreOp}
    {p n : Nat} (hu : UsesEngine s i f op p n) {l1d : Cache} {q : Port}
    (hclock : (s.focalCtx.l1d.requested op (f.nextAddr p) (f.requestBus s.cfg.l1d.busWidth op p n)).clock s.cfg.l1d
      s.cfg.dirtyOnUnchangedWrite s.core0.l2.port = .ok (l1d.held, q))
    (hb : l1d.port.busy = false) (hfree : l1d.port.free = true) (hs : l1d.port.successful = false)
    (hq : q.completed = false) (n4 : (s.cycle + 4) % s.cfg.divL2 ≠ 0) (n5 : (s.cycle + 5) % s.cfg.divL2 ≠ 0) :
    exec i s = .next ((s.afterVisit ((s.focalCtx.withL1d l1d).retrying f.failed)).withL2Port q) := by
  obtain ⟨he, hm, hst, hr⟩ := window_fails h hf hu hb hfree hs
  have hv : exec i s = visit i s := by cases i <;> rfl
  rw [hv]
  exact visit_sends h i (loadDataStage_brings hf) he hclock hm hst hr ⟨rfl, rfl⟩ ⟨rfl, rfl⟩ ⟨rfl, rfl⟩ ⟨rfl, rfl⟩ h.l1d
    (Cache.clock_waiting _ _ hb hq) (Cache.clock_waiting _ _ hb hq) n4 n5

/-- THE VISIT WHOSE REQUEST THE L1D FAILS WHILE IT CAN SEND NOTHING (R55). -/
theorem visit_window_waits {s : State} (h : s.Alone) {i : Instr} {f : InFlight} (hf : s.Brings i f) {op : StoreOp}
    {p n : Nat} (hu : UsesEngine s i f op p n) {l1d : Cache}
    (hclock : (s.focalCtx.l1d.requested op (f.nextAddr p) (f.requestBus s.cfg.l1d.busWidth op p n)).clock s.cfg.l1d
      s.cfg.dirtyOnUnchangedWrite s.core0.l2.port = .ok (l1d.held, s.core0.l2.port))
    (hb : l1d.port.busy = false) (hfree : l1d.port.free = true) (hs : l1d.port.successful = false) (hl : l1d.lp = .idle) :
    exec i s = .next (s.afterVisit ((s.focalCtx.withL1d l1d).retrying f.failed)) := by
  obtain ⟨he, hm, hst, hr⟩ := window_fails h hf hu hb hfree hs
  have hv : exec i s = visit i s := by cases i <;> rfl
  rw [hv]
  exact visit_alone h i (r4 := .just _) (r5 := .just _) (loadDataStage_brings hf) he hclock hm hst hr ⟨rfl, rfl⟩ ⟨rfl, rfl⟩
    ⟨rfl, rfl⟩ ⟨rfl, rfl⟩ h.l1d ⟨hb, hl⟩ ⟨hb, hl⟩ rfl (by simp [PhaseOut.just])

/-- THE VISIT THAT MOVES THE LAST WINDOW: Store and Retire run. -/
theorem visit_window_last {s : State} (h : s.Alone) {i : Instr} {f f3 : InFlight} (hf : s.Brings i f) {op : StoreOp}
    {p n : Nat} (hu : UsesEngine s i f op p n) {l1d : Cache} (hs : Serves s f op p n l1d)
    (last : f.offset + f.chunk s.cfg.l1d.busWidth p n = n) {c' : Context} {r5 : PhaseOut}
    (hstore : runPhase i .store s.focalEnv
      ((s.focalCtx.withL1d l1d).holding (f.advanced s.cfg.l1d.busWidth op p n l1d.port.bus))
      (f.advanced s.cfg.l1d.busWidth op p n l1d.port.bus) = .ok (.just (c'.holding f3)))
    (hretire : runPhase i .retire s.focalEnv (c'.holding f3) f3 = .ok r5)
    (i3 : f3.instr = i) (ok3 : f3.success = true)
    (hc : (s.focalCtx.withL1d l1d).RegisterChange c') (hdone : r5.done = true)
    (he : r5.effect = .none) : exec i s = .next (s.afterVisit r5.ctx.leave) := by
  obtain rfl : f.instr = i := hf.2.1
  have hv : exec f.instr s = visit f.instr s := by cases f.instr <;> rfl
  have hd : s.focalCtx.l1d.AtRest := h.l1d
  have hrest : l1d.AtRest := ⟨hs.notBusy, hs.noLower⟩
  have hl : c'.l1d = l1d := hc.l1d
  have hyes : (f.advanced s.cfg.l1d.busWidth op p n l1d.port.bus).success = true := by
    simp [InFlight.advanced, last]
  have hinstr : (f.advanced s.cfg.l1d.busWidth op p n l1d.port.bus).instr = f.instr := by
    simp only [InFlight.advanced]
    split <;> rfl
  have hsettle : settleRetire r5 = { r5 with ctx := r5.ctx.leave } := by simp [settleRetire, hdone]
  rw [hv]
  have key := visit_alone h f.instr (c1 := s.focalCtx.holding f)
    (c2 := (s.focalCtx.withL1d (s.focalCtx.l1d.requested op (f.nextAddr p)
              (f.requestBus s.cfg.l1d.busWidth op p n))).holding { f with issued := true, success := false })
    (c3 := (s.focalCtx.withL1d l1d).holding
      (f.advanced s.cfg.l1d.busWidth op p n l1d.port.bus)) (r4 := .just (c'.holding f3)) (r5 := settleRetire r5)
    (loadDataStage_brings hf)
    (by simp only [phaseStage, Context.holding_instruction]
        rw [hu.execute, accessExecute_idle (c := s.focalCtx) _ _ _ _ h.l1dIdle hf.2.2.1]
        rfl)
    hs.clock
    (by show phaseStage .format s.focalEnv ((s.focalCtx.withL1d l1d.held).holding
          { f with issued := true, success := false }) = _
        simp only [phaseStage, Context.holding_instruction]
        rw [hu.format, accessFormat_served _ _ _ _ _ _ hs.notBusy hs.free hs.successful]
        rfl)
    (by simp only [storeStage, Context.holding_instruction, hyes, if_true, hinstr]; exact hstore)
    (by simp [retireStage, PhaseOut.just, i3, ok3, hc.noPending, hretire, Except.map])
    ⟨rfl, rfl⟩ ⟨rfl, rfl⟩ ⟨rfl, rfl⟩ ⟨hc.l1i, hc.lock⟩ hd hrest (show c'.l1d.AtRest by rw [hl]; exact hrest) rfl
    (by rw [hsettle]; simp [he])
  rw [key, hsettle]
  simp [he, State.withEffect]

/-! ## Register lists -/

/-- A mask that names a register has a positive count. -/
theorem maskCount_pos {mask : BitVec 16} (h : mask ≠ 0) : maskCount mask ≠ 0 := by
  intro hc
  apply h
  simp only [maskCount, maskRegs, List.length_eq_zero_iff, List.filterMap_eq_nil_iff] at hc
  apply BitVec.eq_of_getLsbD_eq
  intro i hi
  have := hc i (by simpa using hi)
  simpa using this

/-- Loading registers changes only registers. -/
theorem popRegs_eq (l : List Reg) :
    ∀ (b : List Byte) (c : Context), popRegs l b c = { c with regs := (popRegs l b c).regs } := by
  induction l with
  | nil => intro b c; rfl
  | cons r l ih =>
    intro b c
    simp only [popRegs]
    rw [ih]
    simp

theorem popRegs_holding (l : List Reg) (f : InFlight) :
    ∀ (b : List Byte) (c : Context), popRegs l b (c.holding f) = (popRegs l b c).holding f := by
  induction l with
  | nil => intro b c; rfl
  | cons r l ih => intro b c; simp only [popRegs]; rw [Context.holding_hwWrite, ih]

/-! ## What the L1D serves at once -/

theorem Serves.read {s : State} (h : s.Alone) {f : InFlight} {p n : Nat} (ha : f.nextAddr p < 2 ^ 64)
    (hit : s.focalCtx.l1d.ReadHit s.cfg.l1d (f.nextAddr p)) :
    Serves s f .read p n (s.focalCtx.l1d.afterRead s.cfg.l1d (f.nextAddr p)) :=
  ⟨Cache.clock_read_hit _ _ _ h.l1d.noLower ha hit, rfl, rfl, rfl, h.l1d.noLower⟩

theorem Serves.write {s : State} (h : s.Alone) {f : InFlight} {p n : Nat} (ha : f.nextAddr p < 2 ^ 64)
    (hw : s.focalCtx.l1d.WriteReady s.cfg.l1d (f.nextAddr p)) :
    Serves s f .write p n (s.focalCtx.l1d.afterWrite s.cfg.l1d s.cfg.dirtyOnUnchangedWrite (f.nextAddr p)
      ((f.buf.drop f.offset).take (f.chunk s.cfg.l1d.busWidth p n))) :=
  ⟨Cache.clock_write_ready _ _ _ h.l1d.noLower ha hw _, rfl, rfl, rfl, h.l1d.noLower⟩

theorem Serves.clear {s : State} (h : s.Alone) {f : InFlight} {p n : Nat} (ha : f.nextAddr p < 2 ^ 64) :
    Serves s f .clear p n (s.focalCtx.l1d.afterClear s.cfg.l1d (f.nextAddr p)) :=
  ⟨Cache.clock_clear _ _ _ h.l1d.noLower ha, rfl, rfl, rfl, by
    have := h.l1d.noLower
    unfold Cache.afterClear
    split <;> exact this⟩

theorem Serves.flush {s : State} (h : s.Alone) {f : InFlight} {p n : Nat} (ha : f.nextAddr p < 2 ^ 64)
    (hf : s.focalCtx.l1d.FlushClean s.cfg.l1d (f.nextAddr p)) :
    Serves s f .flush p n (s.focalCtx.l1d.afterFlush (f.nextAddr p)) :=
  ⟨Cache.clock_flush_clean _ _ _ h.l1d.noLower ha hf, rfl, rfl, rfl, h.l1d.noLower⟩

end Sys2Proof.Machine
end

