-- ==== Sys2Proof/Laws/Ops.lean ====
section
/-! SUPPORT. What each shared operation can do, said once: the bytes of Memory and their canonical form, Memory's clock, the
register writes, raising an Error, entering an interrupt, the polls' election. -/

namespace Sys2Proof.Machine

/-! ## The canonical form of Memory's cells -/

/-- Addresses strictly rising, no 0 listed. -/
def Canonical (cells : List Host.Cell) : Prop := cells.Pairwise (fun x y => x.1 < y.1) ∧ ∀ x ∈ cells, x.2 ≠ 0

theorem Memory.wf_iff (m : Memory) : m.wf = true ↔ Canonical m.cells := by
  simp [Memory.wf, Canonical, List.all_eq_true]

theorem readCells_of_lt {cells : List Host.Cell} {a : Nat} (h : ∀ x ∈ cells, a < x.1) : readCells cells a = 0 := by
  induction cells with
  | nil => rfl
  | cons x rest ih =>
    obtain ⟨k, b⟩ := x
    have hk : a < k := h (k, b) (by simp)
    simp only [readCells, if_neg (by omega : ¬ k = a)]
    exact ih fun y hy => h y (by simp [hy])

theorem mem_writeCells {cells : List Host.Cell} {a : Nat} {v : Byte} {x : Host.Cell} (h : x ∈ writeCells cells a v) :
    x ∈ cells ∨ (x = (a, v) ∧ v ≠ 0) := by
  induction cells with
  | nil =>
    unfold writeCells at h
    split at h
    · simp at h
    · simp at h; exact .inr ⟨h, by assumption⟩
  | cons y rest ih =>
    obtain ⟨k, b⟩ := y
    unfold writeCells at h
    split at h
    · split at h
      · exact .inl h
      · rcases List.mem_cons.mp h with rfl | h
        · exact .inr ⟨rfl, by assumption⟩
        · exact .inl h
    · split at h
      · split at h
        · exact .inl (by simp [h])
        · rcases List.mem_cons.mp h with rfl | h
          · exact .inr ⟨rfl, by assumption⟩
          · exact .inl (by simp [h])
      · rcases List.mem_cons.mp h with rfl | h
        · exact .inl (by simp)
        · rcases ih h with h | h
          · exact .inl (by simp [h])
          · exact .inr h

/-- A write keeps the canonical form. -/
theorem writeCells_canonical {cells : List Host.Cell} (h : Canonical cells) (a : Nat) (v : Byte) :
    Canonical (writeCells cells a v) := by
  refine ⟨?_, ?_⟩
  · have hp := h.1
    clear h
    induction cells with
    | nil =>
      unfold writeCells
      split <;> simp
    | cons y rest ih =>
      obtain ⟨k, b⟩ := y
      have hpr := List.pairwise_cons.mp hp
      unfold writeCells
      split
      · split
        · exact hp
        · rename_i hak _
          refine List.pairwise_cons.mpr ⟨?_, hp⟩
          intro x hx
          rcases List.mem_cons.mp hx with rfl | hx
          · exact hak
          · exact lt_trans hak (hpr.1 x hx)
      · split
        · rename_i hak
          split
          · exact hpr.2
          · refine List.pairwise_cons.mpr ⟨?_, hpr.2⟩
            intro x hx
            have := hpr.1 x hx
            simp only at this ⊢
            omega
        · refine List.pairwise_cons.mpr ⟨?_, ih hpr.2⟩
          intro x hx
          rcases mem_writeCells hx with hx | ⟨rfl, _⟩
          · exact hpr.1 x hx
          · simp only
            omega
  · intro x hx
    rcases mem_writeCells hx with hx | ⟨rfl, hv⟩
    · exact h.2 x hx
    · exact hv

/-- READ AFTER WRITE: the address written reads as the byte written, every other address as before. -/
theorem readCells_writeCells {cells : List Host.Cell} (h : Canonical cells) (a b : Nat) (v : Byte) :
    readCells (writeCells cells a v) b = if b = a then v else readCells cells b := by
  have hp := h.1
  clear h
  induction cells with
  | nil =>
    unfold writeCells
    by_cases hv : v = 0
    · simp only [hv, if_true, readCells]
      split <;> rfl
    · simp only [hv, if_false, readCells]
      by_cases hb : b = a
      · simp [hb]
      · rw [if_neg (fun e => hb e.symm), if_neg hb]
  | cons y rest ih =>
    obtain ⟨k, c⟩ := y
    have hpr := List.pairwise_cons.mp hp
    have hgt : ∀ x ∈ rest, k < x.1 := hpr.1
    unfold writeCells
    by_cases hak : a < k
    · rw [if_pos hak]
      have hz : readCells ((k, c) :: rest) a = 0 := by
        apply readCells_of_lt
        intro x hx
        rcases List.mem_cons.mp hx with rfl | hx
        · exact hak
        · exact lt_trans hak (hgt x hx)
      by_cases hv : v = 0
      · rw [if_pos hv]
        by_cases hb : b = a
        · rw [if_pos hb, hb, hz, hv]
        · rw [if_neg hb]
      · rw [if_neg hv]
        by_cases hb : b = a
        · simp [readCells, hb]
        · rw [if_neg hb, readCells, if_neg (fun e => hb e.symm)]
    · rw [if_neg hak]
      by_cases hek : a = k
      · rw [if_pos hek]
        have hz : readCells rest a = 0 := readCells_of_lt fun x hx => hek ▸ hgt x hx
        by_cases hv : v = 0
        · rw [if_pos hv]
          by_cases hb : b = a
          · rw [if_pos hb, hb, hz, hv]
          · rw [if_neg hb, readCells, if_neg (fun e => hb (by omega))]
        · rw [if_neg hv]
          by_cases hb : b = a
          · simp [readCells, hb]
          · rw [if_neg hb, readCells, if_neg (fun e => hb e.symm), readCells, if_neg (fun e => hb (by omega))]
      · rw [if_neg hek]
        by_cases hbk : k = b
        · rw [readCells, if_pos hbk, if_neg (by omega), readCells, if_pos hbk]
        · rw [readCells, if_neg hbk, ih hpr.2, readCells, if_neg hbk]

/-- Writing a Bus keeps the canonical form. -/
theorem writeLanes_canonical (bus : List Lane) :
    ∀ {cells : List Host.Cell} (_ : Canonical cells) (a : Nat), Canonical (writeLanes cells a bus) := by
  induction bus with
  | nil => intro cells h a; exact h
  | cons l rest ih =>
    intro cells h a
    unfold writeLanes
    apply ih
    split
    · exact writeCells_canonical h _ _
    · exact h

/-- All a clock of Memory can do (R48): nothing without a request; else the request lies in Memory and succeeds. -/
theorem Memory.clock_ok {cfg : Config} {m m' : Memory} (h : m.clock cfg = .ok m') :
    (m.port.busy = false ∧ m' = m) ∨
    (m.port.busy = true ∧
      windowBase cfg.memoryBusWidth m.port.addr.toNat + cfg.memoryBusWidth ≤ cfg.memorySize ∧
      ((m.port.op = .read ∧
          let b := windowBase cfg.memoryBusWidth m.port.addr.toNat
          let p : Port := { m.port with bus := readBus (readBytes m.cells b cfg.memoryBusWidth) }
          m' = { m with port := p.resolve true }) ∨
        (m.port.op = .write ∧
          let b := windowBase cfg.memoryBusWidth m.port.addr.toNat
          m' = { cells := writeLanes m.cells b m.port.bus, port := m.port.resolve true }))) := by
  unfold Memory.clock at h
  split at h
  · rename_i hb
    dsimp only at h
    split at h
    · cases h
    · rename_i hr
      refine .inr ⟨hb, by omega, ?_⟩
      split at h
      · rename_i ho
        injection h with h
        exact .inl ⟨ho, h.symm⟩
      · rename_i ho
        injection h with h
        exact .inr ⟨ho, h.symm⟩
      · cases h
  · rename_i hb
    injection h with h
    exact .inl ⟨by simpa using hb, h.symm⟩

/-- Memory's clock keeps the canonical form. -/
theorem Memory.clock_wf {cfg : Config} {m m' : Memory} (h : m.clock cfg = .ok m') (hw : m.wf = true) : m'.wf = true := by
  rw [Memory.wf_iff] at hw ⊢
  rcases Memory.clock_ok h with ⟨_, hm⟩ | ⟨_, _, ⟨_, hm⟩ | ⟨_, hm⟩⟩
  · rw [hm]; exact hw
  · rw [hm]; exact hw
  · rw [hm]; exact writeLanes_canonical _ hw _

/-- The host's write of the memory image keeps the canonical form. -/
theorem State.hostWrite_wf {s : State} (a : Nat) (image : List Byte) (h : s.memory.wf = true) :
    (s.hostWrite a image).memory.wf = true := by
  unfold State.hostWrite
  split
  · rw [Memory.wf_iff] at h ⊢
    exact writeLanes_canonical _ h _
  · exact h

/-- Placing an instruction word keeps the canonical form. -/
theorem State.placeWord_wf {s : State} (w : InstrWord) (h : s.memory.wf = true) : (s.placeWord w).memory.wf = true := by
  rw [Memory.wf_iff] at h ⊢
  exact writeLanes_canonical _ h _

/-- Memory at reset is in canonical form. -/
theorem reset_memory_wf : State.reset.memory.wf = true := by decide

/-! ## Registers, Errors and interrupts -/

/-- All an `Error` can do (R153). -/
theorem Context.raise_ok {c c' : Context} {v : BitVec 8} (h : c.raise v = .ok c') :
    c.pending = none ∧ c.interrupted = false ∧
      c' = { c with pending := some v, instruction := c.instruction.map InFlight.failed } := by
  unfold Context.raise at h
  split at h
  · cases h
  · rename_i hn
    injection h with h
    simp only [Bool.or_eq_true, not_or, Bool.not_eq_true, Option.isSome_eq_false_iff, Option.isNone_iff_eq_none] at hn
    exact ⟨hn.1, hn.2, h.symm⟩

/-- All an architectural register write can do (R15). -/
theorem Context.archWrite_ok {c c' : Context} {i : Reg} {v : Word} (h : c.archWrite i v = .ok c') :
    (c.mayWrite i = true ∧ c' = c.hwWrite i v) ∨ (c.mayWrite i = false ∧ c.raise registerAccessError = .ok c') := by
  unfold Context.archWrite at h
  split at h
  · rename_i hm
    injection h with h
    exact .inl ⟨hm, h.symm⟩
  · rename_i hm
    exact .inr ⟨by simpa using hm, h⟩

/-- All an interrupt entry can do (R156). -/
theorem Context.interruptEntry_ok {c c' : Context} {v resume : Word} (h : c.interruptEntry v resume = .ok c') :
    c.interrupted = false ∧
      c' = { (c.hwWrite 11 resume).hwWrite 12 v with interrupted := true }.setPc (c.ivt + v) := by
  unfold Context.interruptEntry at h
  split at h
  · cases h
  · rename_i hn
    injection h with h
    refine ⟨by simpa using hn, ?_⟩
    rw [← h]
    congr 1
    simp [Context.ivt, Context.hwWrite, storedIndex]

/-! ## Lock election (R164) -/

/-- The election chooses a member of a non-empty set. -/
theorem lockElect_mem (table : List (List Nat × Nat)) {r : List Nat} (h : r ≠ []) : lockElect table r ∈ r := by
  have hd : r.headD 0 ∈ r := by
    cases r with
    | nil => exact absurd rfl h
    | cons x l => simp
  unfold lockElect
  split
  · split
    · rename_i hc
      simpa using hc
    · exact hd
  · exact hd

end Sys2Proof.Machine
end

