-- ==== Sys2Proof/Laws/Phase.lean ====
section
/-! SUPPORT. What the operations of the access engine, of a cache and of a Context's stages can do, said once: if one
answers, then so; and the frame of every phase of every instruction. -/

namespace Sys2Proof.Machine

/-! ## The data access engine (R113) -/

/-- All `AccessExecute` can do: nothing but take success away, or send the next window request to an idle L1D. -/
theorem accessExecute_ok {e : Env} {op : StoreOp} {p n : Nat} {c c' : Context} {f : InFlight}
    (h : accessExecute e op p n c f = .ok c') :
    c' = c.put f.failed ∨
    (f.issued = false ∧ c.l1d.port.idle = true ∧
      c' = (c.withL1d (c.l1d.requested op (f.nextAddr p) (f.requestBus e.cfg.l1d.busWidth op p n))).put
        { f with issued := true, success := false }) := by
  unfold accessExecute at h
  split at h
  · injection h with h
    exact .inl h.symm
  · rename_i hn
    simp only [Bool.or_eq_true, not_or, Bool.not_eq_true, Bool.not_eq_false'] at hn
    have hi : c.l1d.port.idle = true := by simpa using hn.2
    simp only [Port.request_idle hi, Except.map] at h
    injection h with h
    refine .inr ⟨hn.1, hi, ?_⟩
    rw [← h]
    cases op <;> rfl

/-- All `AccessFormat` can do: nothing but take success away, or consume a resolved request and free the port. -/
theorem accessFormat_ok {e : Env} {op : StoreOp} {p n : Nat} {c c' : Context} {f : InFlight}
    (h : accessFormat e op p n c f = .ok c') :
    c' = c.put f.failed ∨
    ∃ port' f', f.issued = true ∧ c.l1d.port.busy = false ∧ c.l1d.port.release = .ok port' ∧
      c' = (c.withL1d { c.l1d with port := port' }).put f' ∧ f'.issued = false ∧ f'.instr = f.instr ∧
      f'.offset = (if c.l1d.port.successful then f.offset + f.chunk e.cfg.l1d.busWidth p n else f.offset) ∧
      f'.success = (c.l1d.port.successful && f'.offset == n) := by
  unfold accessFormat at h
  split at h
  · injection h with h
    exact .inl h.symm
  · rename_i hn
    simp only [Bool.or_eq_true, not_or, Bool.not_eq_true, Bool.not_eq_false'] at hn
    dsimp only at h
    cases hr : c.l1d.port.release with
    | error x => rw [hr] at h; cases h
    | ok port' =>
      rw [hr] at h
      injection h with h
      refine .inr ⟨port', _, by simpa using hn.1, hn.2, rfl, h.symm, rfl, ?_, rfl, rfl⟩
      dsimp only
      split <;> rfl

/-! ## Lower requests of a cache (R55) -/

/-- All `RequestLower(Fetch(la))` can do. -/
theorem Cache.requestFetch_ok {c : Cache} {lower : Port} {la : Nat} {r : Cache × Port}
    (h : c.requestFetch lower la = .ok r) :
    r = (c, lower) ∨ (c.lp = .idle ∧ lower.idle = true ∧ r.1 = { c with lp := .fetch la } ∧
      lower.request .read la none = .ok r.2) := by
  unfold Cache.requestFetch at h
  split at h
  · rename_i hc
    rw [Port.request_idle hc.2] at h ⊢
    injection h with h
    subst h
    exact .inr ⟨hc.1, hc.2, rfl, rfl⟩
  · injection h with h
    exact .inl h.symm

/-- All `RequestLower(WriteBack(va, mask, false))` can do. -/
theorem Cache.requestWriteBack_ok {g : CacheConfig} {c : Cache} {lower : Port} {va : Nat} {mask : List Bool}
    {r : Cache × Port} (h : c.requestWriteBack g lower va mask = .ok r) :
    r = (c, lower) ∨ (c.lp = .idle ∧ lower.idle = true ∧ r.1 = { c with lp := .writeBack va mask false } ∧
      lower.request .write va (some ((c.line g (indexOf g va)).writeBackBus mask)) = .ok r.2) := by
  unfold Cache.requestWriteBack at h
  split at h
  · rename_i hc
    rw [Port.request_idle hc.2] at h ⊢
    injection h with h
    subst h
    exact .inr ⟨hc.1, hc.2, rfl, rfl⟩
  · injection h with h
    exact .inl h.symm

/-! ## The frame of the phases -/

/-- What no phase of any instruction changes (R95 to R105): the fetch state, the latch, the retry mark, the L1I and what the
lock polls write. -/
structure PhaseFrame (c c' : Context) : Prop where
  l1i : c'.l1i = c.l1i
  fetchIssued : c'.fetchIssued = c.fetchIssued
  fetchAddr : c'.fetchAddr = c.fetchAddr
  opcode : c'.opcode = c.opcode
  isRetrying : c'.isRetrying = c.isRetrying
  acquiredLock : c'.acquiredLock = c.acquiredLock
  signalled : c'.signalled = c.signalled
  instruction : c.instruction.isSome = true → c'.instruction.isSome = true

theorem PhaseFrame.refl (c : Context) : PhaseFrame c c := ⟨rfl, rfl, rfl, rfl, rfl, rfl, rfl, id⟩

theorem PhaseFrame.trans {a b c : Context} (h : PhaseFrame a b) (h' : PhaseFrame b c) : PhaseFrame a c :=
  ⟨h'.1.trans h.1, h'.2.trans h.2, h'.3.trans h.3, h'.4.trans h.4, h'.5.trans h.5, h'.6.trans h.6, h'.7.trans h.7,
    fun x => h'.8 (h.8 x)⟩

theorem PhaseFrame.put (c : Context) (f : InFlight) : PhaseFrame c (c.put f) :=
  ⟨rfl, rfl, rfl, rfl, rfl, rfl, rfl, fun _ => rfl⟩

theorem PhaseFrame.hwWrite (c : Context) (i : Reg) (v : Word) : PhaseFrame c (c.hwWrite i v) := by
  constructor <;> simp

theorem PhaseFrame.raise {c c' : Context} {v : BitVec 8} (h : c.raise v = .ok c') : PhaseFrame c c' := by
  obtain ⟨-, -, rfl⟩ := Context.raise_ok h
  exact ⟨rfl, rfl, rfl, rfl, rfl, rfl, rfl, fun x => by simpa using x⟩

theorem PhaseFrame.archWrite {c c' : Context} {i : Reg} {v : Word} (h : c.archWrite i v = .ok c') : PhaseFrame c c' := by
  rcases Context.archWrite_ok h with ⟨-, rfl⟩ | ⟨-, h⟩
  · exact .hwWrite ..
  · exact .raise h

theorem PhaseFrame.accessExecute {e : Env} {op : StoreOp} {p n : Nat} {c c' : Context} {f : InFlight}
    (h : accessExecute e op p n c f = .ok c') : PhaseFrame c c' := by
  rcases accessExecute_ok h with rfl | ⟨-, -, rfl⟩
  · exact .put ..
  · exact ⟨rfl, rfl, rfl, rfl, rfl, rfl, rfl, fun _ => rfl⟩

theorem PhaseFrame.checkedAccess {e : Env} {op : StoreOp} {p n : Nat} {x : Option (BitVec 8)} {c c' : Context}
    {f : InFlight} (h : checkedAccess e op p n x c f = .ok c') : PhaseFrame c c' := by
  cases x with
  | none => exact .accessExecute h
  | some v => exact .raise h

theorem PhaseFrame.accessFormat {e : Env} {op : StoreOp} {p n : Nat} {c c' : Context} {f : InFlight}
    (h : accessFormat e op p n c f = .ok c') : PhaseFrame c c' := by
  rcases accessFormat_ok h with rfl | ⟨_, _, -, -, -, rfl, -⟩
  · exact .put ..
  · exact ⟨rfl, rfl, rfl, rfl, rfl, rfl, rfl, fun _ => rfl⟩

theorem PhaseFrame.popRegs (l : List Reg) : ∀ (bytes : List Byte) (c : Context), PhaseFrame c (popRegs l bytes c) := by
  induction l with
  | nil => intro _ c; exact .refl c
  | cons r rs ih => intro bytes c; exact (PhaseFrame.hwWrite c r _).trans (ih _ _)

theorem PhaseFrame.interruptEntry {c c' : Context} {v r : Word} (h : c.interruptEntry v r = .ok c') : PhaseFrame c c' := by
  obtain ⟨-, rfl⟩ := Context.interruptEntry_ok h
  constructor <;> simp [Context.setPc]

theorem map_ok {α β : Type} {g : α → β} {r : Except Fault α} {out : β} (h : r.map g = .ok out) :
    ∃ c, r = .ok c ∧ out = g c := by
  cases r with
  | error x => cases h
  | ok c => injection h with h; exact ⟨c, rfl, h.symm⟩

theorem justly_ok {r : Except Fault Context} {out : PhaseOut} (h : justly r = .ok out) :
    ∃ c, r = .ok c ∧ out = .just c := by
  cases r with
  | error x => cases h
  | ok c => injection h with h; exact ⟨c, rfl, h.symm⟩

/-- A phase that keeps the frame where it answers. -/
structure FrameOk (c : Context) (r : Except Fault PhaseOut) : Prop where
  frame : ∀ out, r = .ok out → PhaseFrame c out.ctx

theorem FrameOk.of {c : Context} {out : PhaseOut} (h : PhaseFrame c out.ctx) : FrameOk c (.ok out) := by
  refine ⟨fun o ho => ?_⟩
  injection ho with ho
  exact ho ▸ h

theorem FrameOk.same (c : Context) : FrameOk c (.ok (.just c)) := .of (.refl c)

theorem FrameOk.put (c : Context) (f : InFlight) : FrameOk c (.ok (.just (c.put f))) := .of (.put c f)

theorem FrameOk.advance (c : Context) : FrameOk c (retireAdvance c) := .of (.hwWrite c 7 _)

theorem FrameOk.justly {c : Context} {r : Except Fault Context} (h : ∀ c', r = .ok c' → PhaseFrame c c') :
    FrameOk c (justly r) := by
  refine ⟨fun o ho => ?_⟩
  obtain ⟨c', hc, rfl⟩ := justly_ok ho
  exact h c' hc

theorem FrameOk.archWrite (c : Context) (i : Reg) (v : Word) : FrameOk c (Machine.justly (c.archWrite i v)) :=
  .justly fun _ h => .archWrite h

theorem FrameOk.raise (c : Context) (v : BitVec 8) : FrameOk c (Machine.justly (c.raise v)) := .justly fun _ h => .raise h

theorem FrameOk.access (e : Env) (op : StoreOp) (p n : Nat) (x : Option (BitVec 8)) (c : Context) (f : InFlight) :
    FrameOk c (Machine.justly (checkedAccess e op p n x c f)) := .justly fun _ h => .checkedAccess h

theorem FrameOk.format (e : Env) (op : StoreOp) (p n : Nat) (c : Context) (f : InFlight) :
    FrameOk c (Machine.justly (accessFormat e op p n c f)) := .justly fun _ h => .accessFormat h

theorem FrameOk.ite {c : Context} {b : Prop} [Decidable b] {r r' : Except Fault PhaseOut} (h : FrameOk c r)
    (h' : FrameOk c r') : FrameOk c (if b then r else r') := by
  split
  · exact h
  · exact h'

theorem jumpPhase_frame (cond : Word → Bool) (dir : Direction) (off : BitVec 22) (r : Reg) (p : Phase) (e : Env)
    (c : Context) (f : InFlight) : FrameOk c (jumpPhase cond dir off r p e c f) := by
  cases p with
  | load => exact .put ..
  | execute => exact .put ..
  | format => exact .same c
  | store => exact .same c
  | retire => exact .ite (.of (.hwWrite c 7 _)) (.advance c)

theorem aluPhase_frame (op : Word → Word → Option Word) (a b d : Reg) (p : Phase) (e : Env) (c : Context)
    (f : InFlight) : FrameOk c (aluPhase op a b d p e c f) := by
  cases p with
  | load => exact .put ..
  | execute =>
    unfold aluPhase
    dsimp only
    split
    · exact .put ..
    · exact .raise ..
  | format => exact .same c
  | store => exact .archWrite ..
  | retire => exact .advance c

theorem plainPhase_frame {store retire : Context → InFlight → Except Fault PhaseOut} (p : Phase) {c : Context}
    {f : InFlight} (hs : FrameOk c (store c f)) (hr : FrameOk c (retire c f)) :
    FrameOk c (plainPhase store retire p c f) := by
  cases p with
  | load => exact .put ..
  | execute => exact .put ..
  | format => exact .same c
  | store => exact hs
  | retire => exact hr

theorem privilegedPhase_frame {retire : Context → Except Fault PhaseOut} (p : Phase) {c : Context} {f : InFlight}
    (hr : FrameOk c (retire c)) : FrameOk c (privilegedPhase retire p c f) := by
  cases p with
  | load => exact .put ..
  | execute => exact .ite (.put ..) (.raise ..)
  | format => exact .same c
  | store => exact .same c
  | retire => exact hr

/-- Every phase of every instruction keeps the frame. -/
theorem runPhase_frame (i : Instr) (p : Phase) (e : Env) (c : Context) (f : InFlight) :
    FrameOk c (runPhase i p e c f) := by
  cases i with
  | loadc k d => cases p <;> first | exact .put .. | exact .same c | exact .archWrite .. | exact .advance c
  | jez | jnz | jle | jlz => exact jumpPhase_frame ..
  | load | store | clear | flush =>
    cases p <;>
      first | exact .put .. | exact .same c | exact .access .. | exact .format .. | exact .archWrite .. | exact .advance c
  | not a d => cases p <;> first | exact .put .. | exact .same c | exact .archWrite .. | exact .advance c
  | and | or | xor | leftshift | rightshift | add | subtract | multiply | divide | modulo =>
    dsimp only [runPhase, andPhase, orPhase, xorPhase, leftshiftPhase, rightshiftPhase, addPhase, subtractPhase,
      multiplyPhase, dividePhase, moduloPhase]
    exact aluPhase_frame ..
  | push mask =>
    cases p with
    | load => exact .put ..
    | execute => exact .ite (.put ..) (.access ..)
    | format => exact .ite (.same c) (.format ..)
    | store => exact .of (.hwWrite c 10 _)
    | retire => exact .advance c
  | pop mask =>
    cases p with
    | load => exact .put ..
    | execute => exact .ite (.put ..) (.access ..)
    | format => exact .ite (.same c) (.format ..)
    | store => exact .of ((PhaseFrame.popRegs _ _ c).trans (.hwWrite _ 10 _))
    | retire => exact .advance c
  | call r =>
    cases p with
    | load => exact .put ..
    | execute => exact .access ..
    | format => exact .format ..
    | store => exact .of (.hwWrite c 10 _)
    | retire => exact .of (.hwWrite c 7 _)
  | ret =>
    cases p with
    | load => exact .put ..
    | execute => exact .access ..
    | format => exact .format ..
    | store => exact .of ((PhaseFrame.put c _).trans (.hwWrite _ 10 _))
    | retire => exact .of (.hwWrite c 7 _)
  | halt =>
    dsimp only [runPhase, haltPhase]
    refine privilegedPhase_frame p ?_
    exact .of (.hwWrite c 7 _)
  | noop =>
    dsimp only [runPhase, noopPhase]
    refine plainPhase_frame p ?_ ?_
    · exact .same c
    · exact .advance c
  | sleep =>
    dsimp only [runPhase, sleepPhase]
    refine plainPhase_frame p ?_ ?_
    · refine .of ?_
      show PhaseFrame c (if c.signalled then c else { c with asleep := true })
      split
      · exact .refl c
      · exact ⟨rfl, rfl, rfl, rfl, rfl, rfl, rfl, id⟩
    · exact .advance c
  | signal r =>
    cases p with
    | load => exact .put ..
    | execute => exact .put ..
    | format => exact .same c
    | store => exact .of (.refl c)
    | retire => exact .advance c
  | lock =>
    dsimp only [runPhase, lockPhase]
    refine plainPhase_frame p ?_ ?_
    · exact .of ⟨rfl, rfl, rfl, rfl, rfl, rfl, rfl, id⟩
    · exact .ite (.advance c) (.same c)
  | unlock =>
    dsimp only [runPhase, unlockPhase]
    refine plainPhase_frame p ?_ ?_
    · exact .of ⟨rfl, rfl, rfl, rfl, rfl, rfl, rfl, id⟩
    · exact .advance c
  | interrupt v =>
    cases p with
    | load => exact .put ..
    | execute => exact .put ..
    | format => exact .same c
    | store => exact .same c
    | retire =>
      refine ⟨fun o ho => ?_⟩
      obtain ⟨c', hc, rfl⟩ := map_ok ho
      exact .interruptEntry hc
  | uninterrupt =>
    dsimp only [runPhase, uninterruptPhase]
    refine privilegedPhase_frame p ?_
    exact .of ((PhaseFrame.hwWrite c 7 c.ipc).trans ⟨rfl, rfl, rfl, rfl, rfl, rfl, rfl, id⟩)

end Sys2Proof.Machine
end

