-- ==== Sys2Proof/Tests/Slice0.lean ====
section
/-! SUPPORT. The model's own tests: an ill-formed term for each well-formedness check, the spec's words decoded, one visit
of each instruction with the results of spec/95_test_vectors.md and of the rules' examples (ids in the comments), and for
every statement with hypotheses a state that meets them all, at the boundaries of its clauses. -/

open Sys2Proof Sys2Proof.Machine

namespace Sys2Proof.Tests

set_option Elab.async false

/-! ## Well-formedness: each check refuses -/

/-- A cache parameter set that R9 accepts. -/
def goodCache : CacheConfig := { size := 256, lineWidth := 8, busWidth := 8, offsetBits := 3 }

theorem test_wf_reference : Config.reference.wellFormed = true := by decide
theorem test_wf_lineCount : { goodCache with size := 24 }.wellFormed = false := by decide
theorem test_wf_lineCount_exact : { goodCache with size := 260 }.wellFormed = false := by decide
theorem test_wf_lineWidth : { goodCache with size := 240, lineWidth := 15 }.sizesArePowers = false := by decide
theorem test_wf_busWidth : { goodCache with busWidth := 0 }.wellFormed = false := by decide
theorem test_wf_offsetBits : { goodCache with offsetBits := 4 }.wellFormed = false := by decide
theorem test_wf_busDividesLine : { goodCache with busWidth := 16 }.wellFormed = false := by decide
theorem test_wf_tagFits : { goodCache with size := 2 ^ 65 }.wellFormed = false := by decide
theorem test_wf_levels : { Config.reference with memoryBusWidth := 64 }.wellFormed = false := by decide
theorem test_wf_fetchWindow :
    { Config.reference with l1i := { goodCache with busWidth := 2 } }.wellFormed = false := by decide
theorem test_wf_memoryBus : { Config.reference with memorySize := 65537 }.wellFormed = false := by decide
theorem test_wf_memorySize : { Config.reference with memorySize := 2 ^ 64 + 32 }.wellFormed = false := by decide
theorem test_wf_cores : { Config.reference with coreCount := 0 }.wellFormed = false := by decide
theorem test_wf_controlBlock :
    { Config.reference with devices := [{ controlBlock := 2 ^ 64 - 31, busWidth := 8, handlers := [], writesBack := false,
                                          busySignal := .ignored }] }.wellFormed = false := by decide
theorem test_wf_dividers : { Config.reference with divL3 := 0 }.wellFormed = false := by decide

/-! ## Decoding: the words of the spec's examples -/

theorem test_decode_loadc : decode 0x800000B0 = .ok (.loadc 5 16) ∧ decode 0xFFFFFFFF = .ok (.loadc 0x3FFFFFF 31) := by
  decide
theorem test_decode_jez : decode 0x40000180 = .ok (.jez .forward 12 0) := by decide
theorem test_decode_jnz : decode 0x58000110 = .ok (.jnz .backward 8 16) := by decide
theorem test_decode_jle : decode 0x60000111 = .ok (.jle .forward 8 17) := by decide
theorem test_decode_jlz : decode 0x78000092 = .ok (.jlz .backward 4 18) := by decide
theorem test_decode_load : decode 0x20040C11 = .ok (.load 0 259 17) := by decide
theorem test_decode_store : decode 0x2FFFFC10 = .ok (.store 0 0x1FFFF 16) := by decide
theorem test_decode_clear : decode 0x30040000 = .ok (.clear 0 256) := by decide
theorem test_decode_flush : decode 0x38040000 = .ok (.flush 0 256) := by decide
theorem test_decode_not : decode 0x10000212 = .ok (.not 16 18) := by decide
theorem test_decode_and : decode 0x11004612 = .ok (.and 16 17 18) := by decide
theorem test_decode_or : decode 0x12004612 = .ok (.or 16 17 18) := by decide
theorem test_decode_xor : decode 0x13004612 = .ok (.xor 16 17 18) := by decide
theorem test_decode_leftshift : decode 0x14004612 = .ok (.leftshift 16 17 18) := by decide
theorem test_decode_rightshift : decode 0x15004612 = .ok (.rightshift 16 17 18) := by decide
/-- The source's literal bit string (95_test_vectors.md 1.1). -/
theorem test_decode_add : decode 0b00011000000000000111101110111111 = .ok (.add 29 30 31) := by decide
theorem test_decode_subtract : decode 0x19000610 = .ok (.subtract 16 1 16) := by decide
theorem test_decode_multiply : decode 0x1A004612 = .ok (.multiply 16 17 18) := by decide
theorem test_decode_divide : decode 0x1B000211 = .ok (.divide 16 0 17) := by decide
theorem test_decode_modulo : decode 0x1C004612 = .ok (.modulo 16 17 18) := by decide
theorem test_decode_push : decode 0x04000003 = .ok (.push 3) := by decide
theorem test_decode_pop : decode 0x06008001 = .ok (.pop 0x8001) := by decide
theorem test_decode_call : decode 0x02000014 = .ok (.call 20) := by decide
theorem test_decode_return : decode 0x03000000 = .ok .ret := by decide
theorem test_decode_control : decode 0x01000000 = .ok .halt ∧ decode 0x01100000 = .ok .noop ∧
    decode 0x01200000 = .ok .sleep ∧ decode 0x01300010 = .ok (.signal 16) := by decide
theorem test_decode_control2 : decode 0x01400000 = .ok .lock ∧ decode 0x01500000 = .ok .unlock ∧
    decode 0x01600018 = .ok (.interrupt 24) ∧ decode 0x01700000 = .ok .uninterrupt := by decide

/-- Every refusal of 95_test_vectors.md section 2.8, by name. -/
theorem test_decode_refusals :
    decode 0x00000000 = .error .zeroWord ∧ decode 0x08000000 = .error .noFamily ∧
    decode 0x00800000 = .error .noFamily ∧ decode 0x00000001 = .error .noFamily ∧
    decode 0x16000000 = .error .reservedAluOp ∧ decode 0x1D000000 = .error .reservedAluOp ∧
    decode 0x10008000 = .error .mustBeZero ∧ decode 0x10000400 = .error .mustBeZero ∧
    decode 0x30040001 = .error .mustBeZero ∧ decode 0x04010000 = .error .mustBeZero ∧
    decode 0x03000001 = .error .mustBeZero ∧ decode 0x02000020 = .error .mustBeZero ∧
    decode 0x01800000 = .error .reservedSubtype ∧ decode 0x01000001 = .error .mustBeZero ∧
    decode 0x01300020 = .error .mustBeZero ∧ decode 0x01400001 = .error .mustBeZero := by decide

/-- The bytes of a word in memory order (R66, R76). -/
theorem test_decode_bytes : decodeBytes [0x80, 0x00, 0x00, 0xB0] = some (.loadc 5 16) := by decide

/-! ## The bench: Context 0 of Core 0 alone, at its Decode stage -/

/-- Context 0 with the given registers, awake, in interrupt mode or not, everything else as at reset. -/
def ctx (interrupted : Bool) (regs : List (Reg × Word)) : Context :=
  regs.foldl (fun c x => c.hwWrite x.1 x.2)
    { Context.reset Config.reference with asleep := false, interrupted := interrupted }

/-- A Context whose L1D holds the bytes of the line of `a`, valid, and dirty or not. -/
def Holds (c : Context) (a : Nat) (bytes : List Byte) (dirty : Bool) : Context :=
  let g := Config.reference.l1d
  let lanes := bytes.map fun b => { data := b, valid := true, dirty := dirty : Lane }
  c.withL1d (c.l1d.setLine (indexOf g a) { tag := tagOf g a, lanes := lanes })

/-- The reset state with Context 0 at the Decode stage of Core 0. -/
def bench (c : Context) : State :=
  { State.reset with core0 := { (Core.reset Config.reference).setCtx 0 c with next := 2 } }

/-- The same with both levels of the lock held by Context 0. -/
def locked (c : Context) : State :=
  let s := bench { c with requiresLock := true, acquiredLock := true }
  { s with core0 := { s.core0 with holder := some 0, coreAcquired := true }, pholder := some 0 }

/-- The next state, where there is one. -/
def after (o : Host.Outcome State Fault Refusal) : Option State :=
  match o with
  | .next t => some t
  | _ => none

/-- The fault, where there is one. -/
def stop (o : Host.Outcome State Fault Refusal) : Option Fault :=
  match o with
  | .fault f => some f
  | _ => none

/-- Registers of Context 0 in the next state. -/
def regs (o : Host.Outcome State Fault Refusal) (rs : List Reg) : Option (List Word) :=
  (after o).map fun t => rs.map ((t.ctx 0 0).read (t.env 0 0))

/-- Context 0 in the next state. -/
def view {α : Type} (o : Host.Outcome State Fault Refusal) (f : Context → α) : Option α :=
  (after o).map fun t => f (t.ctx 0 0)

theorem next_of_after {o : Host.Outcome State Fault Refusal} (h : (after o).isSome = true) : ∃ t, o = .next t := by
  cases o with
  | next t => exact ⟨t, rfl⟩
  | fault f => cases h
  | refused r => cases h

/-- Normal mode with the program region and the stack of 95_test_vectors.md ("N", and section 2.5). -/
def user (regs : List (Reg × Word)) : Context :=
  ctx false ([(5, 0x100), (6, 0x8000), (8, 0x1000), (9, 0x1100)] ++ regs)

/-- Interrupt mode with the stack of section 2.5. -/
def kernel (regs : List (Reg × Word)) : Context := ctx true ([(8, 0x1000), (9, 0x1100)] ++ regs)

/-! ## One visit of each instruction -/

/-- L2. -/
theorem test_loadc :
    regs (exec (.loadc 0x3FFFFFF 31) (bench (kernel [(7, 0x20)]))) [31, 7] = some [0x3FFFFFF, 0x24] := by
  decide +kernel

/-- L6: the write to PC, then the advance. -/
theorem test_loadc_pc : regs (exec (.loadc 0x40 7) (bench (kernel []))) [7] = some [0x44] := by
  decide +kernel

/-- J1. -/
theorem test_jez : regs (exec (.jez .forward 12 0) (bench (kernel [(7, 0x20)]))) [7] = some [0x2C] := by
  decide +kernel

theorem test_jez_not : regs (exec (.jez .forward 12 1) (bench (kernel [(7, 0x20)]))) [7] = some [0x24] := by
  decide +kernel

/-- J2. -/
theorem test_jnz : regs (exec (.jnz .backward 8 16) (bench (kernel [(7, 0x10), (16, 3)]))) [7] = some [0x08] := by
  decide +kernel

/-- J3. -/
theorem test_jnz_not : regs (exec (.jnz .backward 8 16) (bench (kernel [(7, 0x10)]))) [7] = some [0x14] := by
  decide +kernel

/-- J4. -/
theorem test_jle :
    regs (exec (.jle .forward 8 17) (bench (kernel [(7, 0x40), (17, 0xFFFFFFFFFFFFFFFF)]))) [7] = some [0x48] := by
  decide +kernel

/-- J5. -/
theorem test_jle_not : regs (exec (.jle .forward 8 17) (bench (kernel [(7, 0x40), (17, 1)]))) [7] = some [0x44] := by
  decide +kernel

/-- J8. -/
theorem test_jlz :
    regs (exec (.jlz .backward 4 18) (bench (kernel [(7, 0x40), (18, 0x8000000000000000)]))) [7] = some [0x3C] := by
  decide +kernel

/-- J7. -/
theorem test_jlz_not : regs (exec (.jlz .backward 4 18) (bench (kernel [(7, 0x40)]))) [7] = some [0x44] := by
  decide +kernel

/-- M1, R123. -/
theorem test_load :
    regs (exec (.load 0 256 17) (bench (Holds (kernel []) 0x100 [1, 2, 3, 4, 5, 6, 7, 8] false))) [17, 7] =
    some [0x0102030405060708, 4] := by
  decide +kernel

/-- M8: P + 8 = PL. -/
theorem test_load_limit : regs (exec (.load 0 0xF8 17) (bench (Holds (ctx false [(5, 0x100), (6, 0x200)]) 0x1F8
    (List.replicate 8 0xAA) false))) [17] = some [0xAAAAAAAAAAAAAAAA] := by
  decide +kernel

/-- M4. -/
theorem test_store : view (exec (.store 0 256 16) (bench (kernel [(16, 0x0102030405060708)])))
    (fun c => ((c.l1d.lines[0]?).map Line.tag, c.l1d.byteAt Config.reference.l1d 0x100,
      c.l1d.byteAt Config.reference.l1d 0x107, (c.l1d.lines[0]?).map Line.dirtyMask)) =
    some (some 1, some 1, some 8, some (List.replicate 8 true)) := by
  decide +kernel

/-- M5b. -/
theorem test_store_region : stop (exec (.store 0 0x1FFFF 16) (bench (kernel []))) = some .doubleInterrupt := by
  decide +kernel

/-- R125, its example. -/
theorem test_clear : view (exec (.clear 0 256) (bench (Holds (kernel []) 0x100 [1, 2, 3, 4, 5, 6, 7, 8] true)))
    (fun c => (c.pc, c.l1d.lines[0]?)) =
    some (4, some { tag := 1, lanes := [1, 2, 3, 4, 5, 6, 7, 8].map fun b => { data := b, valid := false, dirty := false } }) := by
  decide +kernel

/-- M12, the second flush. -/
theorem test_flush_clean : view (exec (.flush 0 256) (bench (Holds (kernel []) 0x100 [1, 2, 3, 4, 5, 6, 7, 8] false)))
    (fun c => (c.pc, c.l1d.byteAt Config.reference.l1d 0x107, c.isRetrying)) = some (4, some 8, false) := by
  decide +kernel

/-- M12, the first flush, before the L2 has answered. -/
theorem test_flush_dirty :
    (after (exec (.flush 0 256) (bench (Holds (kernel []) 0x100 [1, 2, 3, 4, 5, 6, 7, 8] true)))).map
    (fun t => ((t.ctx 0 0).pc, (t.ctx 0 0).isRetrying, t.core0.l2.port.op, t.core0.l2.port.addr)) =
    some (0, true, .write, 0x100) := by
  decide +kernel

/-- A1. -/
theorem test_not : regs (exec (.not 16 18) (bench (kernel [(16, 0xF0F0)]))) [18] = some [0xFFFFFFFFFFFF0F0F] := by
  decide +kernel

/-- A2. -/
theorem test_and :
    regs (exec (.and 16 17 18) (bench (kernel [(16, 0xF0F0), (17, 0x0FF0), (18, 0x55)]))) [18, 7] = some [0xF0, 4] := by
  decide +kernel

/-- A3. -/
theorem test_or :
    regs (exec (.or 16 17 18) (bench (kernel [(16, 0xF0F0), (17, 0x0FF0), (18, 0x55)]))) [18, 7] =
      some [0xFFF0, 4] := by
  decide +kernel

/-- A4. -/
theorem test_xor :
    regs (exec (.xor 16 17 18) (bench (kernel [(16, 0xF0F0), (17, 0x0FF0), (18, 0x55)]))) [18, 7] =
      some [0xFF00, 4] := by
  decide +kernel

/-- A5. -/
theorem test_leftshift :
    regs (exec (.leftshift 16 17 18) (bench (kernel [(16, 1), (17, 63), (18, 0x55)]))) [18, 7] =
      some [0x8000000000000000, 4] := by
  decide +kernel

/-- A7. -/
theorem test_leftshift_all :
    regs (exec (.leftshift 16 17 18) (bench (kernel [(16, 3), (17, 0x10000000000), (18, 0x55)]))) [18, 7] =
      some [0, 4] := by
  decide +kernel

/-- A8. -/
theorem test_rightshift :
    regs (exec (.rightshift 16 17 18) (bench (kernel [(16, 0x8000000000000000), (17, 63), (18, 0x55)]))) [18, 7] =
      some [1, 4] := by
  decide +kernel

/-- A9. -/
theorem test_rightshift_all :
    regs (exec (.rightshift 16 17 18) (bench (kernel [(16, 0xFFFFFFFFFFFFFFFF), (17, 64), (18, 0x55)]))) [18, 7] =
      some [0, 4] := by
  decide +kernel

/-- A11. -/
theorem test_add_wraps :
    regs (exec (.add 16 17 18) (bench (kernel [(16, 0xFFFFFFFFFFFFFFFF), (17, 1), (18, 0x55)]))) [18, 7] =
      some [0, 4] := by
  decide +kernel

/-- A21. -/
theorem test_add_same : regs (exec (.add 16 16 16) (bench (kernel [(16, 21)]))) [16] = some [42] := by
  decide +kernel

/-- A12. -/
theorem test_subtract :
    regs (exec (.subtract 16 17 18) (bench (kernel [(16, 5), (17, 7), (18, 0x55)]))) [18, 7] =
      some [0xFFFFFFFFFFFFFFFE, 4] := by
  decide +kernel

/-- A14b. -/
theorem test_multiply :
    regs (exec (.multiply 16 17 18) (bench (kernel [(16, 0xFFFFFFFFFFFFFFFF), (17, 0xFFFFFFFFFFFFFFFF), (18, 0x55)]))) [18, 7] =
      some [1, 4] := by
  decide +kernel

/-- A14. -/
theorem test_multiply_low :
    regs (exec (.multiply 16 17 18) (bench (kernel [(16, 0x100000000), (17, 0x100000000), (18, 0x55)]))) [18, 7] =
      some [0, 4] := by
  decide +kernel

/-- A17b. -/
theorem test_divide :
    regs (exec (.divide 16 17 18) (bench (kernel [(16, 0xFFFFFFFFFFFFFFFF), (17, 1), (18, 0x55)]))) [18, 7] =
      some [0xFFFFFFFFFFFFFFFF, 4] := by
  decide +kernel

/-- A18, before the handler is entered. -/
theorem test_divide_zero : view (exec (.divide 16 17 18) (bench (user [(7, 0x10), (16, 7), (18, 0x55)])))
    (fun c => (c.pending, c.pc, c.read { cfg := .reference, coreId := 0, ctxId := 0 } 18, c.instruction)) =
    some (some 0x14, 0x10, 0x55, none) := by
  decide +kernel

/-- A19b. -/
theorem test_modulo :
    regs (exec (.modulo 16 17 18) (bench (kernel [(16, 5), (17, 0xFFFFFFFFFFFFFFFF), (18, 0x55)]))) [18, 7] =
      some [5, 4] := by
  decide +kernel

/-- R138 and R153. -/
theorem test_modulo_zero : stop (exec (.modulo 16 17 18) (bench (kernel [(16, 7)]))) = some .doubleInterrupt := by
  decide +kernel

/-- K8, the other way. -/
theorem test_push : view (exec (.push 1) (bench (kernel [(10, 0x1000), (16, 9)])))
    (fun c => (c.sp, c.pc, c.l1d.byteAt Config.reference.l1d 0x1000, c.l1d.byteAt Config.reference.l1d 0x1007)) =
    some (0x1008, 4, some 0, some 9) := by
  decide +kernel

/-- K3. -/
theorem test_push_overflow : view (exec (.push 3) (bench (user [(10, 0x10F8)]))) (fun c => (c.pending, c.sp, c.pc)) =
    some (some 0x0C, 0x10F8, 0) := by
  decide +kernel

/-- K8. -/
theorem test_pop : regs (exec (.pop 1) (bench (Holds (kernel [(10, 0x1008)]) 0x1000 (bytes8 9) false))) [16, 10, 7] =
    some [9, 0x1000, 4] := by
  decide +kernel

/-- K7. -/
theorem test_pop_underflow : view (exec (.pop 1) (bench (user [(10, 0x1004)]))) (fun c => (c.pending, c.sp, c.pc)) =
    some (some 0x10, 0x1004, 0) := by
  decide +kernel

/-- C1. -/
theorem test_call : view (exec (.call 20) (bench (kernel [(7, 0x10), (10, 0x1000), (20, 0x40)])))
    (fun c => (c.sp, c.pc, c.l1d.byteAt Config.reference.l1d 0x1007)) = some (0x1008, 0x40, some 0x14) := by
  decide +kernel

/-- C2. -/
theorem test_call_overflow :
    view (exec (.call 20) (bench (user [(7, 0x10), (10, 0x1100)]))) (fun c => (c.pending, c.sp, c.pc)) =
    some (some 0x0C, 0x1100, 0x10) := by
  decide +kernel

/-- C3. -/
theorem test_return :
    regs (exec .ret (bench (Holds (kernel [(7, 0x40), (10, 0x1008)]) 0x1000 (bytes8 0x14) false))) [10, 7] =
    some [0x1000, 0x14] := by
  decide +kernel

/-- C4. -/
theorem test_return_underflow : view (exec .ret (bench (user [(7, 0x40), (10, 0x1000)]))) (fun c => (c.pending, c.pc)) =
    some (some 0x10, 0x40) := by
  decide +kernel

/-- S1. -/
theorem test_halt :
    (after (exec .halt (bench (kernel [])))).map (fun t => (t.halted, (t.ctx 0 0).pc)) = some (true, 4) := by
  decide +kernel

/-- S2. -/
theorem test_halt_user : (after (exec .halt (bench (user [(7, 0x10)])))).map
    (fun t => (t.halted, (t.ctx 0 0).pending, (t.ctx 0 0).pc)) = some (false, some 0x18, 0x10) := by
  decide +kernel

/-- S3. -/
theorem test_noop : regs (exec .noop (bench (kernel [(7, 0x20)]))) [7] = some [0x24] := by
  decide +kernel

/-- S12. -/
theorem test_sleep :
    view (exec .sleep (bench (kernel [(7, 0x30)]))) (fun c => (c.asleep, c.pc)) = some (true, 0x34) := by
  decide +kernel

/-- R146. -/
theorem test_sleep_signalled :
    view (exec .sleep (bench { kernel [] with signalled := true })) (fun c => (c.asleep, c.pc)) = some (false, 4) := by
  decide +kernel

/-- S8. -/
theorem test_signal : (after (exec (.signal 16) (bench (kernel [(16, 1)])))).map
    (fun t => ((t.ctx 0 0).pc, (t.ctx 0 1).asleep, (t.ctx 0 1).signalled)) = some (4, false, true) := by
  decide +kernel

/-- S9. -/
theorem test_signal_nobody : stop (exec (.signal 16) (bench (kernel [(16, 8)]))) = some .unknownSignalTarget := by
  decide +kernel

/-- S10. -/
theorem test_lock :
    view (exec .lock (bench (kernel []))) (fun c => (c.requiresLock, c.acquiredLock, c.pc)) = some (true, true, 4) := by
  decide +kernel

/-- S11. -/
theorem test_unlock :
    view (exec .unlock (locked (kernel []))) (fun c => (c.requiresLock, c.acquiredLock, c.pc)) =
      some (false, false, 4) := by
  decide +kernel

/-- S4. -/
theorem test_interrupt :
    regs (exec (.interrupt 24) (bench (user [(7, 0x10)]))) [11, 12, 7] = some [0x14, 0x18, 0x18] := by
  decide +kernel

/-- S5. -/
theorem test_interrupt_double : stop (exec (.interrupt 24) (bench (kernel []))) = some .doubleInterrupt := by
  decide +kernel

/-- S6. -/
theorem test_uninterrupt :
    view (exec .uninterrupt (bench (kernel [(11, 0x14)]))) (fun c => (c.pc, c.interrupted)) = some (0x14, false) := by
  decide +kernel

/-- S7, before the handler is entered. -/
theorem test_uninterrupt_user :
    view (exec .uninterrupt (bench (user [(7, 0x10), (11, 0x40)]))) (fun c => (c.pending, c.pc, c.interrupted)) =
    some (some 0x18, 0x10, false) := by
  decide +kernel

/-! ## The step -/

/-- The first instruction after reset is the word placed where the step fetches. -/
theorem test_step : regs (step (State.reset.withFetchWord 32 0x800000B0)) [16, 7] = some [5, 4] := by decide +kernel

/-- F4: an unrecognized word. -/
theorem test_step_unrecognized :
    stop (step (State.reset.withFetchWord 32 0x16000000)) =
      some (.unrecognizedOpcode .reservedAluOp) := by decide +kernel

/-- R9: a configuration that is not well formed is refused. -/
theorem test_step_refuses :
    step { State.reset with cfg := { Config.reference with divL3 := 0 } } = .refused .illFormedConfiguration := rfl

/-- 2.10: the boot interrupt has retired after cycle 7. -/
theorem test_boot :
    (match State.boot Config.reference 0 [] with
      | .ok s => view (step s) fun c => (c.interrupted, c.ipc, c.iv, c.pc, c.asleep)
      | .error _ => none) = some (true, 0, 0, 0, false) := by decide +kernel

/-- R39: Memory ends at `MemorySize`; the bytes of the image past it are left out (log entry 12). -/
theorem test_hostWrite_end : (State.reset.hostWrite 0xFFFF [1, 2]).memory.cells = [(0xFFFF, 1)] := by decide

/-! ## Witnesses: states that meet the hypotheses of the statements -/

theorem core_at_rest : ∀ j : Fin 8, ((Core.reset Config.reference).ctx j) = Context.reset Config.reference := by
  intro j
  fin_cases j <;> rfl

theorem reset_quiet : (Context.reset Config.reference).Quiet :=
  ⟨rfl, rfl, rfl, rfl, ⟨rfl, rfl⟩, ⟨rfl, rfl⟩⟩

theorem bench_focal (c : Context) : (bench c).focal = 0 := by
  show (2 : Fin 8) - 2 = 0
  decide

theorem bench_focalCtx (c : Context) : (bench c).focalCtx = c := by
  unfold State.focalCtx
  rw [bench_focal]
  exact State.ctx_setCtx_same State.reset 0 c

theorem bench_others (c : Context) : ∀ i, i ≠ (bench c).focal → ((bench c).ctx 0 i).Quiet := by
  intro i hi
  rw [bench_focal] at hi
  have : (bench c).ctx 0 i = (Core.reset Config.reference).ctx i := Core.ctx_setCtx_ne _ c hi
  rw [this, core_at_rest]
  exact reset_quiet

/-- The bench is alone, whatever its Context, when that Context's caches are at rest and it does not ask for the lock. -/
theorem bench_alone {c : Context} (hi : c.l1i.AtRest) (hd : c.l1d.AtRest) (hp : c.l1d.port.idle = true)
    (hl : c.requiresLock = false) : (bench c).Alone where
  calm := {
    running := rfl
    others := bench_others c
    l1i := by rw [show (bench c).ctx 0 (bench c).focal = c from bench_focalCtx c]; exact hi
    l2 := ⟨rfl, rfl⟩
    l3 := ⟨rfl, rfl⟩
    memory := rfl
    upper := by intro x hx; cases hx
    devices := by intro x hx; cases hx }
  locks := .inl ⟨by rw [show (bench c).ctx 0 (bench c).focal = c from bench_focalCtx c]; exact hl, rfl, rfl⟩
  l1d := by rw [show (bench c).ctx 0 (bench c).focal = c from bench_focalCtx c]; exact hd
  l1dIdle := by rw [show (bench c).ctx 0 (bench c).focal = c from bench_focalCtx c]; exact hp

/-- So is the bench with the lock held. -/
theorem locked_alone {c : Context} (hi : c.l1i.AtRest) (hd : c.l1d.AtRest) (hp : c.l1d.port.idle = true) :
    (locked c).Alone := by
  have hc : (locked c).ctx 0 (locked c).focal = { c with requiresLock := true, acquiredLock := true } :=
    bench_focalCtx { c with requiresLock := true, acquiredLock := true }
  have hf : (locked c).focal = 0 := bench_focal { c with requiresLock := true, acquiredLock := true }
  refine ⟨⟨rfl, bench_others { c with requiresLock := true, acquiredLock := true }, ?_, ⟨rfl, rfl⟩, ⟨rfl, rfl⟩, rfl,
    fun x hx => (by cases hx), fun x hx => (by cases hx)⟩, .inr ⟨by rw [hc], rfl, rfl, by rw [hf]; rfl⟩, ?_, ?_⟩
  · rw [hc]; exact hi
  · rw [hc]; exact hd
  · rw [hc]; exact hp

/-- A bench whose Context is ready: what every fresh visit starts from. -/
def Start (s : State) : Prop := s.Alone ∧ s.focalCtx.Ready

theorem start {c : Context} (hi : c.l1i.AtRest) (hd : c.l1d.AtRest) (hp : c.l1d.port.idle = true)
    (hl : c.requiresLock = false) (hr : c.isRetrying = false) (hn : c.pending = none) : Start (bench c) := by
  refine ⟨bench_alone hi hd hp hl, ?_⟩
  rw [bench_focalCtx]
  exact ⟨hr, hn⟩

/-- Normal mode and interrupt mode, as benches. -/
def U (rs : List (Reg × Word)) : State := bench (user rs)
def K (rs : List (Reg × Word)) : State := bench (kernel rs)

theorem readHit {g : CacheConfig} {c : Cache} {a : Nat}
    (h : decide ((c.lineOf g a).tag = tagOf g a) && (c.windowOf g a).all Lane.valid) : c.ReadHit g a := by
  simpa [Cache.ReadHit] using h

theorem shaped {g : CacheConfig} {c : Cache} (h : c.lines.length = g.size / g.lineWidth)
    (hl : (c.lines.all fun ln => ln.lanes.length == g.lineWidth) = true) (hb : c.port.bus.length = g.busWidth) :
    c.Shaped g := ⟨h, by simpa using hl, hb⟩

theorem witness_LoadcResult :
    (Start (U []) ∧ (U []).focalCtx.mayWrite 16 = true) ∧ Start (K []) ∧ (K []).focalCtx.mayWrite 4 = true := by
  exact ⟨⟨start ⟨rfl, rfl⟩ ⟨rfl, rfl⟩ rfl rfl rfl rfl, by decide +kernel⟩, start ⟨rfl, rfl⟩ ⟨rfl, rfl⟩ rfl rfl rfl rfl, by decide +kernel⟩

theorem witness_BitwiseResults :
    (Start (U []) ∧ (U []).focalCtx.mayWrite 16 = true) ∧ Start (K []) ∧ (K []).focalCtx.mayWrite 4 = true := by
  exact ⟨⟨start ⟨rfl, rfl⟩ ⟨rfl, rfl⟩ rfl rfl rfl rfl, by decide +kernel⟩, start ⟨rfl, rfl⟩ ⟨rfl, rfl⟩ rfl rfl rfl rfl, by decide +kernel⟩

theorem witness_ShiftResults :
    (Start (U []) ∧ (U []).focalCtx.mayWrite 16 = true) ∧ Start (K []) ∧ (K []).focalCtx.mayWrite 4 = true := by
  exact ⟨⟨start ⟨rfl, rfl⟩ ⟨rfl, rfl⟩ rfl rfl rfl rfl, by decide +kernel⟩, start ⟨rfl, rfl⟩ ⟨rfl, rfl⟩ rfl rfl rfl rfl, by decide +kernel⟩

theorem witness_ArithmeticResults :
    (Start (U []) ∧ (U []).focalCtx.mayWrite 16 = true) ∧ Start (K []) ∧ (K []).focalCtx.mayWrite 4 = true := by
  exact ⟨⟨start ⟨rfl, rfl⟩ ⟨rfl, rfl⟩ rfl rfl rfl rfl, by decide +kernel⟩, start ⟨rfl, rfl⟩ ⟨rfl, rfl⟩ rfl rfl rfl rfl, by decide +kernel⟩

theorem witness_DivisionResults :
    Start (K [(17, 1)]) ∧ (K [(17, 1)]).focalCtx.mayWrite 31 = true ∧ (K [(17, 1)]).reg 17 ≠ 0 := by
  exact ⟨start ⟨rfl, rfl⟩ ⟨rfl, rfl⟩ rfl rfl rfl rfl, by decide +kernel, by decide +kernel⟩

theorem witness_DivisionByZero :
    (Start (U []) ∧ (U []).reg 0 = 0 ∧ (U []).focalCtx.interrupted = false) ∧
    Start (K []) ∧ (K []).reg 0 = 0 ∧ (K []).focalCtx.interrupted = true := by
  exact ⟨⟨start ⟨rfl, rfl⟩ ⟨rfl, rfl⟩ rfl rfl rfl rfl, by decide +kernel, by decide +kernel⟩, start ⟨rfl, rfl⟩ ⟨rfl, rfl⟩ rfl rfl rfl rfl, by decide +kernel, by decide +kernel⟩

theorem witness_RegisterAccessTraps :
    (Start (U [(17, 1)]) ∧ (U [(17, 1)]).focalCtx.mayWrite 15 = false ∧ (U [(17, 1)]).reg 17 ≠ 0) ∧
    Start (K [(17, 1)]) ∧ (K [(17, 1)]).focalCtx.mayWrite 3 = false ∧ (K [(17, 1)]).reg 17 ≠ 0 := by
  exact ⟨⟨start ⟨rfl, rfl⟩ ⟨rfl, rfl⟩ rfl rfl rfl rfl, by decide +kernel, by decide +kernel⟩, start ⟨rfl, rfl⟩ ⟨rfl, rfl⟩ rfl rfl rfl rfl, by decide +kernel, by decide +kernel⟩

theorem witness_JumpResults :
    Start (U []) ∧ Start (K []) := by
  exact ⟨start ⟨rfl, rfl⟩ ⟨rfl, rfl⟩ rfl rfl rfl rfl, start ⟨rfl, rfl⟩ ⟨rfl, rfl⟩ rfl rfl rfl rfl⟩

theorem witness_NoopSleepResults :
    Start (U []) ∧ Start (K []) := by
  exact ⟨start ⟨rfl, rfl⟩ ⟨rfl, rfl⟩ rfl rfl rfl rfl, start ⟨rfl, rfl⟩ ⟨rfl, rfl⟩ rfl rfl rfl rfl⟩

theorem witness_PrivilegedResults :
    Start (K []) ∧ (K []).focalCtx.interrupted = true := by
  exact ⟨start ⟨rfl, rfl⟩ ⟨rfl, rfl⟩ rfl rfl rfl rfl, by decide +kernel⟩

theorem witness_PrivilegedTraps :
    Start (U []) ∧ (U []).focalCtx.interrupted = false := by
  exact ⟨start ⟨rfl, rfl⟩ ⟨rfl, rfl⟩ rfl rfl rfl rfl, by decide +kernel⟩

theorem witness_InterruptResult :
    (Start (U []) ∧ (U []).focalCtx.interrupted = false) ∧ Start (K []) ∧ (K []).focalCtx.interrupted = true := by
  exact ⟨⟨start ⟨rfl, rfl⟩ ⟨rfl, rfl⟩ rfl rfl rfl rfl, by decide +kernel⟩, start ⟨rfl, rfl⟩ ⟨rfl, rfl⟩ rfl rfl rfl rfl, by decide +kernel⟩

theorem witness_SignalSelf :
    Start (U []) ∧ ((U []).reg 0).toNat = (U []).focal := by
  exact ⟨start ⟨rfl, rfl⟩ ⟨rfl, rfl⟩ rfl rfl rfl rfl, by decide +kernel⟩

theorem witness_SignalContext_1 :
    let s := K [(16, 1)]
    Start s ∧ 0 < s.coreCount ∧ ¬((0 : Nat) = 0 ∧ ((1 : Fin 8)) = s.focal) ∧ (s.reg 16).toNat = 8 * 0 + ((1 : Fin 8) : Nat) ∧
    (s.ctx 0 1).interrupted = false ∧ (s.ctx 0 1).pending = none ∧ (s.ctx 0 1).fetchIssued = false ∧
    (s.ctx 0 1).isRetrying = false := by
  exact ⟨start ⟨rfl, rfl⟩ ⟨rfl, rfl⟩ rfl rfl rfl rfl, by decide +kernel, by decide +kernel, by decide +kernel, by decide +kernel, by decide +kernel,
    by decide +kernel, by decide +kernel⟩

theorem witness_SignalContext_5 :
    let s := K [(16, 5)]
    Start s ∧ 0 < s.coreCount ∧ ¬((0 : Nat) = 0 ∧ ((5 : Fin 8)) = s.focal) ∧ (s.reg 16).toNat = 8 * 0 + ((5 : Fin 8) : Nat) ∧
    (s.ctx 0 5).interrupted = false ∧ (s.ctx 0 5).pending = none ∧ (s.ctx 0 5).fetchIssued = false ∧
    (s.ctx 0 5).isRetrying = false := by
  exact ⟨start ⟨rfl, rfl⟩ ⟨rfl, rfl⟩ rfl rfl rfl rfl, by decide +kernel, by decide +kernel, by decide +kernel, by decide +kernel, by decide +kernel,
    by decide +kernel, by decide +kernel⟩

theorem witness_SignalContext_6 :
    let s := K [(16, 6)]
    Start s ∧ 0 < s.coreCount ∧ ¬((0 : Nat) = 0 ∧ ((6 : Fin 8)) = s.focal) ∧ (s.reg 16).toNat = 8 * 0 + ((6 : Fin 8) : Nat) ∧
    (s.ctx 0 6).interrupted = false ∧ (s.ctx 0 6).pending = none ∧ (s.ctx 0 6).fetchIssued = false ∧
    (s.ctx 0 6).isRetrying = false := by
  exact ⟨start ⟨rfl, rfl⟩ ⟨rfl, rfl⟩ rfl rfl rfl rfl, by decide +kernel, by decide +kernel, by decide +kernel, by decide +kernel, by decide +kernel,
    by decide +kernel, by decide +kernel⟩

theorem witness_SignalNobody :
    Start (K [(16, 8)]) ∧ 8 * (K [(16, 8)]).coreCount + (K [(16, 8)]).devices.length ≤ ((K [(16, 8)]).reg 16).toNat := by
  exact ⟨start ⟨rfl, rfl⟩ ⟨rfl, rfl⟩ rfl rfl rfl rfl, by decide +kernel⟩

theorem witness_LockResult :
    (Start (K []) ∧ (K []).focalCtx.requiresLock = false) ∧
    Start (locked (kernel [])) ∧ (locked (kernel [])).focalCtx.requiresLock = true ∧
    (locked (kernel [])).focalCtx.acquiredLock = true := by
  exact ⟨⟨start ⟨rfl, rfl⟩ ⟨rfl, rfl⟩ rfl rfl rfl rfl, by decide +kernel⟩, ⟨locked_alone ⟨rfl, rfl⟩ ⟨rfl, rfl⟩ rfl, rfl, rfl⟩, rfl, rfl⟩

theorem witness_UnlockResult :
    (Start (locked (user [])) ∧ (locked (user [])).focalCtx.requiresLock = true) ∧
    Start (U []) ∧ (U []).focalCtx.requiresLock = false := by
  exact ⟨⟨⟨locked_alone ⟨rfl, rfl⟩ ⟨rfl, rfl⟩ rfl, rfl, rfl⟩, rfl⟩, start ⟨rfl, rfl⟩ ⟨rfl, rfl⟩ rfl rfl rfl rfl, by decide +kernel⟩

theorem witness_LockWaits :
    let f : InFlight := { InFlight.fresh .lock false with success := true }
    let c := (user []).holding f
    c.instruction = some f ∧ f.instr = .lock ∧ f.success = true ∧ c.pending = none ∧ c.acquiredLock = false := by
  exact ⟨rfl, rfl, rfl, rfl, rfl⟩

theorem witness_LoadResult :
    let s := bench (Holds (kernel [(16, 0xFFF8)]) 0xFFF8 [1, 2, 3, 4, 5, 6, 7, 8] false)
    let u := bench (Holds (user [(16, 0x7EF8)]) 0x7FF8 [1, 2, 3, 4, 5, 6, 7, 8] false)
    (Start s ∧ s.cfg.wellFormed = true ∧ s.focalCtx.l1d.Shaped s.cfg.l1d ∧ s.focalCtx.mayWrite 31 = true ∧
      0xFFF8 = 0 + (s.reg 16 + (0#17).setWidth 64).toNat ∧ 0xFFF8 + 8 ≤ s.cfg.memorySize ∧
      s.focalCtx.interrupted = true ∧ s.focalCtx.l1d.ReadHit s.cfg.l1d 0xFFF8) ∧
    Start u ∧ u.focalCtx.l1d.Shaped u.cfg.l1d ∧ u.focalCtx.mayWrite 16 = true ∧
      0x7FF8 = u.focalCtx.ps.toNat + (u.reg 16 + (0#17).setWidth 64).toNat ∧ 0x7FF8 + 8 ≤ u.focalCtx.pl.toNat ∧
      u.focalCtx.l1d.ReadHit u.cfg.l1d 0x7FF8 := by
  exact ⟨⟨start ⟨rfl, rfl⟩ ⟨rfl, rfl⟩ rfl rfl rfl rfl, by decide +kernel, shaped (by decide +kernel) (by decide +kernel) rfl, by decide +kernel, by decide +kernel,
    by decide +kernel, by decide +kernel, readHit (by decide +kernel)⟩, start ⟨rfl, rfl⟩ ⟨rfl, rfl⟩ rfl rfl rfl rfl, shaped (by decide +kernel) (by decide +kernel) rfl, by decide +kernel, by decide +kernel, by decide +kernel,
    readHit (by decide +kernel)⟩

theorem witness_StoreResult :
    let s := K [(16, 0xFFF8)]
    Start s ∧ s.cfg.wellFormed = true ∧ 0xFFF8 = 0 + (s.reg 16 + (0#17).setWidth 64).toNat ∧
    0xFFF8 + 8 ≤ s.cfg.memorySize ∧ s.focalCtx.interrupted = true ∧ s.focalCtx.l1d.WriteReady s.cfg.l1d 0xFFF8 := by
  exact ⟨start ⟨rfl, rfl⟩ ⟨rfl, rfl⟩ rfl rfl rfl rfl, by decide +kernel, by decide +kernel, by decide +kernel, by decide +kernel, .inr (by decide +kernel)⟩

/-- A fresh visit brings what its Load phase makes, for a bench Context. -/
theorem brings_fresh {c : Context} {i : Instr} {f : InFlight} (hp : c.pending = none) (hr : c.isRetrying = false)
    (hi : f.instr = i) (hs : f.issued = false)
    (h : runPhase i .load ((bench c).env 0 0) (c.holding (.fresh i c.latchMark)) (.fresh i c.latchMark)
      = .ok (.just (c.holding f))) : (bench c).Brings i f := by
  unfold State.Brings State.focalEnv
  rw [bench_focalCtx, bench_focal]
  exact ⟨hp, hi, hs, .inl ⟨hr, h⟩⟩

/-- A retry visit brings what stands in flight. -/
theorem brings_retry {c : Context} {i : Instr} {f : InFlight} (hp : c.pending = none) (hr : c.isRetrying = true)
    (ho : c.opcode = none) (hf : c.instruction = some f) (hi : f.instr = i) (hs : f.issued = false) :
    (bench c).Brings i f := by
  unfold State.Brings
  rw [bench_focalCtx]
  exact ⟨hp, hi, hs, .inr ⟨hr, ho, hf⟩⟩

/-- A transfer in flight. -/
def flight (i : Instr) (op0 op1 : Word) (offset : Nat) (buf : List Byte) : InFlight :=
  { InFlight.fresh i false with op0 := op0, op1 := op1, offset := offset, buf := buf }

theorem witness_LoadWindow :
    let first := Holds (kernel [(16, 0x103)]) 0x100 [1, 2, 3, 4, 5, 6, 7, 8] false
    let f (d : Reg) (base : Word) := flight (.load 16 0 d) (0x103 - base) base 5 (List.replicate 8 0)
    let last := Holds ((kernel []).retrying (f 17 0)) 0x108 [1, 2, 3, 4, 5, 6, 7, 8] false
    let trap := Holds ((user []).retrying (f 0 0x100)) 0x108 [1, 2, 3, 4, 5, 6, 7, 8] false
    let fatal := Holds ((kernel []).retrying (f 0 0)) 0x108 [1, 2, 3, 4, 5, 6, 7, 8] false
    Config.reference.wellFormed = true ∧
    -- the first window of two
    ((bench first).Alone ∧ (bench first).Brings (.load 16 0 17) (flight (.load 16 0 17) 0x103 0 0 (List.replicate 8 0)) ∧
      dataOk ((bench first).env 0 0) first 0x103 8 = true ∧ first.l1d.ReadHit Config.reference.l1d 0x103) ∧
    -- the last one: into a register that may be written, and into R0 in either mode
    ((bench last).Alone ∧ (bench last).Brings (.load 16 0 17) (f 17 0) ∧
      dataOk ((bench last).env 0 0) last (f 17 0).physical 8 = true ∧ last.l1d.ReadHit Config.reference.l1d 0x108 ∧
      last.mayWrite 17 = true) ∧
    ((bench trap).Alone ∧ (bench trap).Brings (.load 16 0 0) (f 0 0x100) ∧
      dataOk ((bench trap).env 0 0) trap (f 0 0x100).physical 8 = true ∧ trap.l1d.ReadHit Config.reference.l1d 0x108 ∧
      trap.mayWrite 0 = false ∧ trap.interrupted = false) ∧
    (bench fatal).Alone ∧ (bench fatal).Brings (.load 16 0 0) (f 0 0) ∧
      dataOk ((bench fatal).env 0 0) fatal (f 0 0).physical 8 = true ∧ fatal.l1d.ReadHit Config.reference.l1d 0x108 ∧
      fatal.mayWrite 0 = false ∧ fatal.interrupted = true := by
  exact ⟨by decide, ⟨bench_alone ⟨rfl, rfl⟩ ⟨rfl, rfl⟩ rfl rfl, brings_fresh rfl rfl rfl rfl (by decide +kernel), by decide +kernel, readHit (by decide +kernel)⟩,
    ⟨bench_alone ⟨rfl, rfl⟩ ⟨rfl, rfl⟩ rfl rfl, brings_retry rfl rfl rfl rfl rfl rfl, by decide +kernel, readHit (by decide +kernel), by decide +kernel⟩,
    ⟨bench_alone ⟨rfl, rfl⟩ ⟨rfl, rfl⟩ rfl rfl, brings_retry rfl rfl rfl rfl rfl rfl, by decide +kernel, readHit (by decide +kernel), by decide +kernel, by decide +kernel⟩,
    bench_alone ⟨rfl, rfl⟩ ⟨rfl, rfl⟩ rfl rfl, brings_retry rfl rfl rfl rfl rfl rfl, by decide +kernel, readHit (by decide +kernel), by decide +kernel, by decide +kernel⟩

theorem witness_StoreWindow :
    let f1 := flight (.store 16 0 17) 0x103 0 0 (bytes8 9)
    let f2 := flight (.store 16 0 17) 0x103 0 5 (bytes8 9)
    let first := kernel [(16, 0x103), (17, 9)]
    let last := (kernel []).retrying f2
    Config.reference.wellFormed = true ∧
    ((bench first).Alone ∧ (bench first).Brings (.store 16 0 17) f1 ∧ dataOk ((bench first).env 0 0) first f1.physical 8 = true ∧ first.l1d.WriteReady Config.reference.l1d 0x103) ∧
    (bench last).Alone ∧ (bench last).Brings (.store 16 0 17) f2 ∧ dataOk ((bench last).env 0 0) last f2.physical 8 = true ∧ last.l1d.WriteReady Config.reference.l1d 0x108 := by
  exact ⟨by decide, ⟨bench_alone ⟨rfl, rfl⟩ ⟨rfl, rfl⟩ rfl rfl, brings_fresh rfl rfl rfl rfl (by decide +kernel), by decide +kernel, .inr (by decide +kernel)⟩,
    bench_alone ⟨rfl, rfl⟩ ⟨rfl, rfl⟩ rfl rfl, brings_retry rfl rfl rfl rfl rfl rfl, by decide +kernel, .inr (by decide +kernel)⟩

theorem witness_PushWindow :
    let f1 := flight (.push 1) 0x1003 0 0 (bytes8 9)
    let f2 := flight (.push 1) 0x1003 0 5 (bytes8 9)
    let first := kernel [(10, 0x1003), (16, 9)]
    let last := (kernel []).retrying f2
    Config.reference.wellFormed = true ∧ (1#16) ≠ 0 ∧
    ((bench first).Alone ∧ (bench first).Brings (.push 1) f1 ∧ pushError ((bench first).env 0 0) first f1.op0 (maskCount 1) = none ∧ first.l1d.WriteReady Config.reference.l1d 0x1003) ∧
    (bench last).Alone ∧ (bench last).Brings (.push 1) f2 ∧ pushError ((bench last).env 0 0) last f2.op0 (maskCount 1) = none ∧ last.l1d.WriteReady Config.reference.l1d 0x1008 := by
  exact ⟨by decide, by decide, ⟨bench_alone ⟨rfl, rfl⟩ ⟨rfl, rfl⟩ rfl rfl, brings_fresh rfl rfl rfl rfl (by decide +kernel), by decide +kernel, .inr (by decide +kernel)⟩,
    bench_alone ⟨rfl, rfl⟩ ⟨rfl, rfl⟩ rfl rfl, brings_retry rfl rfl rfl rfl rfl rfl, by decide +kernel, .inr (by decide +kernel)⟩

theorem witness_PopWindow :
    let f1 := flight (.pop 1) 0x100B 0 0 (List.replicate 8 0)
    let f2 := flight (.pop 1) 0x100B 0 5 (List.replicate 8 0)
    let first := Holds (kernel [(10, 0x100B)]) 0x1000 [1, 2, 3, 4, 5, 6, 7, 8] false
    let last := Holds ((kernel []).retrying f2) 0x1008 [1, 2, 3, 4, 5, 6, 7, 8] false
    Config.reference.wellFormed = true ∧ (1#16) ≠ 0 ∧
    ((bench first).Alone ∧ (bench first).Brings (.pop 1) f1 ∧ popError ((bench first).env 0 0) first f1.op0 (maskCount 1) = none ∧ first.l1d.ReadHit Config.reference.l1d 0x1003) ∧
    (bench last).Alone ∧ (bench last).Brings (.pop 1) f2 ∧ popError ((bench last).env 0 0) last f2.op0 (maskCount 1) = none ∧ last.l1d.ReadHit Config.reference.l1d 0x1008 := by
  exact ⟨by decide, by decide, ⟨bench_alone ⟨rfl, rfl⟩ ⟨rfl, rfl⟩ rfl rfl, brings_fresh rfl rfl rfl rfl (by decide +kernel), by decide +kernel, readHit (by decide +kernel)⟩,
    bench_alone ⟨rfl, rfl⟩ ⟨rfl, rfl⟩ rfl rfl, brings_retry rfl rfl rfl rfl rfl rfl, by decide +kernel, readHit (by decide +kernel)⟩

theorem witness_CallWindow :
    let f1 := flight (.call 20) 0x10F9 0x40 0 (bytes8 0x14)
    let f2 := flight (.call 20) 0x10F9 0x40 7 (bytes8 0x14)
    let first := kernel [(7, 0x10), (10, 0x10F9), (20, 0x40), (9, 0x10FA)]
    let last := (kernel []).retrying f2
    Config.reference.wellFormed = true ∧
    ((bench first).Alone ∧ (bench first).Brings (.call 20) f1 ∧ pushError ((bench first).env 0 0) first f1.op0 1 = none ∧ first.l1d.WriteReady Config.reference.l1d 0x10F9) ∧
    (bench last).Alone ∧ (bench last).Brings (.call 20) f2 ∧ pushError ((bench last).env 0 0) last f2.op0 1 = none ∧ last.l1d.WriteReady Config.reference.l1d 0x1100 := by
  exact ⟨by decide, ⟨bench_alone ⟨rfl, rfl⟩ ⟨rfl, rfl⟩ rfl rfl, brings_fresh rfl rfl rfl rfl (by decide +kernel), by decide +kernel, .inr (by decide +kernel)⟩,
    bench_alone ⟨rfl, rfl⟩ ⟨rfl, rfl⟩ rfl rfl, brings_retry rfl rfl rfl rfl rfl rfl, by decide +kernel, .inr (by decide +kernel)⟩

theorem witness_ReturnWindow :
    let f1 := flight .ret 0x100B 0 0 (List.replicate 8 0)
    let f2 := flight .ret 0x100B 0 5 (List.replicate 8 0)
    let first := Holds (kernel [(10, 0x100B)]) 0x1000 [1, 2, 3, 4, 5, 6, 7, 8] false
    let last := Holds ((kernel []).retrying f2) 0x1008 [1, 2, 3, 4, 5, 6, 7, 8] false
    Config.reference.wellFormed = true ∧
    ((bench first).Alone ∧ (bench first).Brings .ret f1 ∧ popError ((bench first).env 0 0) first f1.op0 1 = none ∧ first.l1d.ReadHit Config.reference.l1d 0x1003) ∧
    (bench last).Alone ∧ (bench last).Brings .ret f2 ∧ popError ((bench last).env 0 0) last f2.op0 1 = none ∧ last.l1d.ReadHit Config.reference.l1d 0x1008 := by
  exact ⟨by decide, ⟨bench_alone ⟨rfl, rfl⟩ ⟨rfl, rfl⟩ rfl rfl, brings_fresh rfl rfl rfl rfl (by decide +kernel), by decide +kernel, readHit (by decide +kernel)⟩,
    bench_alone ⟨rfl, rfl⟩ ⟨rfl, rfl⟩ rfl rfl, brings_retry rfl rfl rfl rfl rfl rfl, by decide +kernel, readHit (by decide +kernel)⟩

/-- The bench with another port of the L2, one that is not busy. -/
theorem withL2Port_alone {c : Context} (h : (bench c).Alone) {p : Port} (hp : p.busy = false) :
    ((bench c).withL2Port p).Alone where
  calm := ⟨h.calm.running, h.calm.others, h.calm.l1i, ⟨hp, h.calm.l2.noLower⟩, h.calm.l3, h.calm.memory, h.calm.upper,
    h.calm.devices⟩
  locks := h.locks
  l1d := h.l1d
  l1dIdle := h.l1dIdle

theorem witness_ClearFlushResults :
    (let s := bench (Holds (kernel [(16, 0xFFFF)]) 0xFFF8 [1, 2, 3, 4, 5, 6, 7, 8] false)
     Start s ∧ s.cfg.wellFormed = true ∧ 0xFFFF = 0 + (s.reg 16 + (0#17).setWidth 64).toNat ∧
       0xFFFF + 1 ≤ s.cfg.memorySize ∧ s.focalCtx.interrupted = true ∧ s.focalCtx.l1d.FlushClean s.cfg.l1d 0xFFFF) ∧
    (let clean := { Holds (kernel [(16, 0xFFFF)]) 0xFFF8 [1, 2, 3, 4, 5, 6, 7, 8] false with
        isRetrying := true, instruction := some (flight (.flush 16 0) 0xFFFF 0 0 []) }
     (bench clean).Alone ∧ (bench clean).Brings (.flush 16 0) (flight (.flush 16 0) 0xFFFF 0 0 []) ∧
       dataOk ((bench clean).env 0 0) clean 0xFFFF 1 = true ∧ clean.l1d.FlushClean Config.reference.l1d 0xFFFF) ∧
    let c := Holds (kernel [(16, 0xFFFF)]) 0xFFF8 [1, 2, 3, 4, 5, 6, 7, 8] true
    let f := flight (.flush 16 0) 0xFFFF 0 0 []
    let s := bench c
    let w := s.withL2Port { Port.reset 8 with free := false }
    (s.Alone ∧ s.cfg.wellFormed = true ∧ s.Brings (.flush 16 0) f ∧ dataOk (s.env 0 0) c 0xFFFF 1 = true ∧ f.offset = 0 ∧
      f.physical = 0xFFFF ∧ ¬c.l1d.FlushClean Config.reference.l1d 0xFFFF ∧ s.core0.l2.port.idle = true ∧
      (s.cycle + 4) % s.cfg.divL2 ≠ 0 ∧ (s.cycle + 5) % s.cfg.divL2 ≠ 0) ∧
    w.Alone ∧ w.Brings (.flush 16 0) f ∧ w.core0.l2.port.idle = false := by
  have dirty : ∀ c : Cache, decide ((c.lineOf Config.reference.l1d 0xFFFF).tag = tagOf Config.reference.l1d 0xFFFF) &&
      (c.flushMask Config.reference.l1d 0xFFFF).any id → ¬c.FlushClean Config.reference.l1d 0xFFFF := by
    intro c h hf
    simp only [Bool.and_eq_true, decide_eq_true_eq] at h
    exact absurd ((hf h.1).symm.trans h.2) (by decide)
  have alone := bench_alone (c := Holds (kernel [(16, 0xFFFF)]) 0xFFF8 [1, 2, 3, 4, 5, 6, 7, 8] true) ⟨rfl, rfl⟩ ⟨rfl, rfl⟩
    rfl rfl
  have brings : (bench (Holds (kernel [(16, 0xFFFF)]) 0xFFF8 [1, 2, 3, 4, 5, 6, 7, 8] true)).Brings (.flush 16 0)
      (flight (.flush 16 0) 0xFFFF 0 0 []) := brings_fresh rfl rfl rfl rfl (by decide +kernel)
  exact ⟨⟨start ⟨rfl, rfl⟩ ⟨rfl, rfl⟩ rfl rfl rfl rfl, by decide +kernel, by decide +kernel, by decide +kernel,
      by decide +kernel, fun _ => by decide +kernel⟩,
    ⟨bench_alone ⟨rfl, rfl⟩ ⟨rfl, rfl⟩ rfl rfl, brings_retry rfl rfl rfl rfl rfl rfl, by decide +kernel,
      fun _ => by decide +kernel⟩,
    ⟨alone, by decide +kernel, brings, by decide +kernel, rfl, by decide +kernel, dirty _ (by decide +kernel),
      by decide +kernel, by decide +kernel, by decide +kernel⟩,
    withL2Port_alone alone rfl, brings, by decide +kernel⟩

theorem witness_TransferOperands :
    let c := kernel [(7, 0x10), (10, 0x1008), (16, 0x100), (17, 9), (20, 0x40)]
    c.isRetrying = false ∧ (bench c).Brings (.load 16 4 17) (flight (.load 16 4 17) 0x104 0 0 (List.replicate 8 0)) ∧
    (bench c).Brings (.store 16 4 17) (flight (.store 16 4 17) 0x104 0 0 (bytes8 9)) ∧
    (bench c).Brings (.clear 16 4) (flight (.clear 16 4) 0x104 0 0 []) ∧
    (bench c).Brings (.flush 16 4) (flight (.flush 16 4) 0x104 0 0 []) ∧
    (bench c).Brings (.push 3) (flight (.push 3) 0x1008 0 0 (bytes8 0x100 ++ bytes8 9)) ∧
    (bench c).Brings (.pop 1) (flight (.pop 1) 0x1008 0 0 (List.replicate 8 0)) ∧
    (bench c).Brings (.call 20) (flight (.call 20) 0x1008 0x40 0 (bytes8 0x14)) ∧
    (bench c).Brings .ret (flight .ret 0x1008 0 0 (List.replicate 8 0)) := by
  refine ⟨rfl, ?_, ?_, ?_, ?_, ?_, ?_, ?_, ?_⟩ <;> exact brings_fresh rfl rfl rfl rfl (by decide +kernel)

theorem witness_DataAccessTraps :
    let k := K [(16, 0xFFF9), (17, 0x10000)]
    let u := U [(16, 0x7EF9), (17, 0x7F00)]
    (Start k ∧ k.focalCtx.interrupted = true ∧ 0xFFF9 = 0 + (k.reg 16 + (0#17).setWidth 64).toNat ∧
      k.cfg.memorySize < 0xFFF9 + 8 ∧ 0x10000 = 0 + (k.reg 17 + (0#17).setWidth 64).toNat ∧
      k.cfg.memorySize < 0x10000 + 1) ∧
    Start u ∧ u.focalCtx.interrupted = false ∧ 0x7FF9 = u.focalCtx.ps.toNat + (u.reg 16 + (0#17).setWidth 64).toNat ∧
      u.focalCtx.pl.toNat < 0x7FF9 + 8 ∧ 0x8000 = u.focalCtx.ps.toNat + (u.reg 17 + (0#17).setWidth 64).toNat ∧
      u.focalCtx.pl.toNat < 0x8000 + 1 := by
  exact ⟨⟨start ⟨rfl, rfl⟩ ⟨rfl, rfl⟩ rfl rfl rfl rfl, by decide +kernel, by decide +kernel, by decide +kernel, by decide +kernel, by decide +kernel⟩,
    start ⟨rfl, rfl⟩ ⟨rfl, rfl⟩ rfl rfl rfl rfl, by decide +kernel, by decide +kernel, by decide +kernel, by decide +kernel, by decide +kernel⟩

theorem witness_StackTraps :
    (let s := U [(10, 0x10F8)]; Start s ∧ 0 < maskCount 3 ∧ s.focalCtx.sl.toNat ≤ s.focalCtx.sp.toNat + 8 * (maskCount 3 - 1)) ∧
    (let s := U [(9, 0x20000), (10, 0xFFF1)]; Start s ∧ 0 < maskCount 3 ∧ s.focalCtx.sp.toNat + 8 * (maskCount 3 - 1) < s.focalCtx.sl.toNat ∧ s.cfg.memorySize < s.focalCtx.sp.toNat + 8 * maskCount 3) ∧
    (let s := U [(10, 0x1100)]; Start s ∧ s.focalCtx.sl.toNat ≤ s.focalCtx.sp.toNat) ∧
    (let s := U [(9, 0x10000), (10, 0xFFF9)]; Start s ∧ s.focalCtx.sp.toNat < s.focalCtx.sl.toNat ∧ s.cfg.memorySize < s.focalCtx.sp.toNat + 8) ∧
    (let s := U [(10, 0x100F)]; Start s ∧ 0 < maskCount 3 ∧ s.focalCtx.sp.toNat < s.focalCtx.ss.toNat + 8 * maskCount 3) ∧
    (let s := U [(10, 0x10001)]; Start s ∧ 0 < maskCount 3 ∧ s.focalCtx.ss.toNat + 8 * maskCount 3 ≤ s.focalCtx.sp.toNat ∧ s.cfg.memorySize < s.focalCtx.sp.toNat) ∧
    (let s := U [(10, 0x1007)]; Start s ∧ s.focalCtx.sp.toNat < s.focalCtx.ss.toNat + 8) ∧
    (let s := U [(10, 0x10001)]; Start s ∧ s.focalCtx.ss.toNat + 8 ≤ s.focalCtx.sp.toNat ∧ s.cfg.memorySize < s.focalCtx.sp.toNat) := by
  exact ⟨⟨start ⟨rfl, rfl⟩ ⟨rfl, rfl⟩ rfl rfl rfl rfl, by decide +kernel, by decide +kernel⟩,
    ⟨start ⟨rfl, rfl⟩ ⟨rfl, rfl⟩ rfl rfl rfl rfl, by decide +kernel, by decide +kernel, by decide +kernel⟩,
    ⟨start ⟨rfl, rfl⟩ ⟨rfl, rfl⟩ rfl rfl rfl rfl, by decide +kernel⟩,
    ⟨start ⟨rfl, rfl⟩ ⟨rfl, rfl⟩ rfl rfl rfl rfl, by decide +kernel, by decide +kernel⟩,
    ⟨start ⟨rfl, rfl⟩ ⟨rfl, rfl⟩ rfl rfl rfl rfl, by decide +kernel, by decide +kernel⟩,
    ⟨start ⟨rfl, rfl⟩ ⟨rfl, rfl⟩ rfl rfl rfl rfl, by decide +kernel, by decide +kernel, by decide +kernel⟩,
    ⟨start ⟨rfl, rfl⟩ ⟨rfl, rfl⟩ rfl rfl rfl rfl, by decide +kernel⟩,
    ⟨start ⟨rfl, rfl⟩ ⟨rfl, rfl⟩ rfl rfl rfl rfl, by decide +kernel, by decide +kernel⟩⟩

/-- One Device beside the machine, with no handler. -/
def device : DeviceConfig := { controlBlock := 0x2000, busWidth := 8, handlers := [], writesBack := false, busySignal := .ignored }

/-- The bench with that Device, idle. -/
def deviceBench (c : Context) : State :=
  { bench c with cfg := { Config.reference with devices := [device] }, devices := [Device.reset device] }

theorem witness_SignalDevice :
    let s := deviceBench (kernel [(16, 8)])
    Start s ∧ (s.reg 16).toNat = 8 * s.coreCount + 0 ∧ s.devices[0]? = some (Device.reset device) ∧
    s.cfg.devices[0]? = some device ∧ (s.cycle + 4) % s.cfg.divDev ≠ 0 ∧ (s.cycle + 5) % s.cfg.divDev ≠ 0 := by
  have h : Start (bench (kernel [(16, 8)])) := start ⟨rfl, rfl⟩ ⟨rfl, rfl⟩ rfl rfl rfl rfl
  refine ⟨⟨⟨⟨rfl, h.1.calm.others, h.1.calm.l1i, h.1.calm.l2, h.1.calm.l3, rfl, h.1.calm.upper, ?_⟩, h.1.locks, h.1.l1d,
    h.1.l1dIdle⟩, h.2⟩, by decide +kernel, by decide +kernel, by decide +kernel, by decide +kernel, by decide +kernel⟩
  intro d hd
  rw [List.mem_singleton.mp hd]
  exact ⟨rfl, rfl, rfl⟩

theorem witness_EncodeDecode :
    decode 0x18007BBF = .ok (.add 29 30 31) := by
  decide

/-- The reset state with `loadc 5 r16` placed. -/
def placed : State := State.reset.withFetchWord 32 0x800000B0

/-- A computation that succeeds, as a value. -/
def value (r : Except Fault State) (d : State) : State := r.toOption.getD d

theorem value_ok {r : Except Fault State} (d : State) (h : r.toOption.isSome = true) : r = .ok (value r d) := by
  cases r with
  | ok s => rfl
  | error f => cases h

theorem witness_StepRunsDecoded :
    ∃ s1 s2, placed.cfg.wellFormed = true ∧ startRound placed = .ok s1 ∧ s1.halted = false ∧
      clockBeforeDecode s1 = .ok s2 ∧ (s2.ctx 0 s2.focal).decoded = .run (.loadc 5 16) := by
  refine ⟨value (startRound placed) placed, value (clockBeforeDecode (value (startRound placed) placed)) placed, by decide,
    value_ok _ ?_, ?_, value_ok _ ?_, ?_⟩ <;> decide +kernel

theorem witness_StepIsEightClocks :
    State.reset.cfg.wellFormed = true := by
  decide

theorem placed_others : ∀ i, i ≠ 0 → (placed.ctx 0 i).Quiet := by
  intro i hi
  have : placed.ctx 0 i = (Core.reset Config.reference).ctx i := Core.ctx_setCtx_ne _ _ hi
  rw [this, core_at_rest]
  exact reset_quiet

theorem witness_FetchRunsInstruction :
    let s := placed
    let c := s.ctx 0 0
    s.core0.next = 0 ∧ s.cfg.wellFormed = true ∧ s.Calm 0 ∧ s.LocksSettled 0 ∧ c.l1d.AtRest ∧ c.l1d.port.idle = true ∧
    c.l1i.port.idle = true ∧ c.asleep = false ∧ c.isRetrying = false ∧ c.instruction = none ∧ c.fetchIssued = false ∧
    c.pending = none ∧ (c.signalled = true → c.interrupted = true) ∧ fetchOk (s.env 0 0) c (fetchAddress c) = true ∧
    c.l1i.ReadHit s.cfg.l1i (fetchAddress c) ∧
    c.l1i.hitBytes s.cfg.l1i (fetchAddress c) 4 = bytesOfWord 0x800000B0 ∧ decode 0x800000B0 = .ok (.loadc 5 16) := by
  refine ⟨rfl, by decide, ⟨rfl, placed_others, ⟨?_, ?_⟩, ⟨rfl, rfl⟩, ⟨rfl, rfl⟩, rfl, fun x hx => (by cases hx),
    fun x hx => (by cases hx)⟩, .inl ⟨?_, rfl, rfl⟩, ⟨?_, ?_⟩, ?_, ?_, ?_, ?_, ?_, ?_, ?_, ?_, ?_, readHit ?_, ?_, ?_⟩ <;>
  decide +kernel

theorem witness_FetchTraps :
    let e := (bench (user [])).env 0 0
    (∀ c ∈ [user [(7, 2)], user [(7, 0x7F00)], kernel [(7, 0x10000)]], c.asleep = false ∧ c.isRetrying = false ∧
      c.instruction = none ∧ c.fetchIssued = false ∧ c.pending = none ∧ (c.signalled = true → c.interrupted = true)) ∧
    (0x100 + 2) % 4 ≠ 0 ∧ e.cfg.memorySize < 0 + (kernel [(7, 0x10000)]).pc.toNat + 4 ∧
    (user [(7, 0x7F00)]).interrupted = false ∧
    (user []).pl.toNat < (user []).ps.toNat + (user [(7, 0x7F00)]).pc.toNat + 4 := by
  exact ⟨by decide +kernel, by decide +kernel, by decide +kernel, by decide +kernel, by decide +kernel⟩

/-- The reset state with Context 0 about to fetch. -/
def fetching (c : Context) : State := State.reset.setCtx 0 0 c

theorem fetching_calm {c : Context} (hi : c.l1i.AtRest) : (fetching c).Calm 0 := by
  refine ⟨rfl, ?_, ?_, ⟨rfl, rfl⟩, ⟨rfl, rfl⟩, rfl, fun x hx => (by cases hx), fun x hx => (by cases hx)⟩
  · intro i hi
    have : (fetching c).ctx 0 i = (Core.reset Config.reference).ctx i := Core.ctx_setCtx_ne _ c hi
    rw [this, core_at_rest]
    exact reset_quiet
  · rw [show (fetching c).ctx 0 0 = c from State.ctx_setCtx_same State.reset 0 c]
    exact hi

theorem witness_InterruptTaken :
    ∀ c ∈ [{ user [] with pending := some 0x14 }, { user [] with signalled := true }],
      let s := fetching c
      s.core0.next = 0 ∧ s.cfg.wellFormed = true ∧ s.Calm 0 ∧ s.LocksSettled 0 ∧ (s.ctx 0 0).l1d.AtRest ∧
      ((s.ctx 0 0).l1d.port.idle = true ∧ (s.ctx 0 0).asleep = false ∧ (s.ctx 0 0).isRetrying = false ∧
        (s.ctx 0 0).instruction = none ∧ (s.ctx 0 0).fetchIssued = false ∧ (s.ctx 0 0).interrupted = false ∧
        ((s.ctx 0 0).pending = some 0x14 ∨ (s.ctx 0 0).pending = none ∧ (s.ctx 0 0).signalled = true)) := by
  have h1 : ({ user [] with pending := some 0x14 } : Context).l1i.AtRest := ⟨rfl, rfl⟩
  have h2 : ({ user [] with signalled := true } : Context).l1i.AtRest := ⟨rfl, rfl⟩
  intro c hc
  rcases List.mem_cons.mp hc with rfl | hc
  · exact ⟨rfl, by decide, fetching_calm h1, .inl ⟨rfl, rfl, rfl⟩, ⟨rfl, rfl⟩, by decide +kernel⟩
  · rw [List.mem_singleton.mp hc]
    exact ⟨rfl, by decide, fetching_calm h2, .inl ⟨rfl, rfl, rfl⟩, ⟨rfl, rfl⟩, by decide +kernel⟩

theorem witness_HaltedAndIllFormed :
    ({ State.reset with halted := true } : State).halted = true ∧ State.reset.cfg.wellFormed = true ∧
    ({ State.reset with cfg := { Config.reference with divMem := 0 } } : State).cfg.wellFormed = false := by
  decide

theorem witness_RegisterReads :
    4 ≤ (4#5).toNat ∧ (4#5) ≠ 31#5 ∧ (3#5).toNat < 4 := by
  decide

theorem witness_RegisterWrites :
    (user []).pending = none ∧ (user []).interrupted = false ∧ (kernel []).pending = none ∧
    (kernel []).interrupted = true ∧ 16 ≤ (16#5).toNat ∧ 4 ≤ (4#5).toNat ∧ (15#5).toNat < 16 ∧ (3#5).toNat < 4 := by
  exact ⟨rfl, rfl, rfl, rfl, by decide +kernel, by decide +kernel, by decide +kernel, by decide +kernel⟩

theorem witness_NormalModeIsolation :
    ∃ t, processorClock (bench (user [])) = .ok t ∧ 0 < (bench (user [])).coreCount ∧
      ((bench (user [])).ctx 0 0).interrupted = false ∧ (t.ctx 0 0).interrupted = false := by
  refine ⟨value (processorClock (bench (user []))) (bench (user [])), value_ok _ ?_, ?_, ?_, ?_⟩ <;> decide +kernel

/-- The bench with an instruction that has succeeded at the Retire stage of Context 0. -/
def retiring (c : Context) (f : InFlight) : State :=
  let s := bench (c.holding { f with success := true })
  { s with core0 := { s.core0 with next := 7 } }

theorem witness_ModeChanges :
    let up := retiring (user []) (.fresh (.interrupt 24) false)
    let down := retiring (kernel []) (.fresh .uninterrupt false)
    (∃ t, processorClock up = .ok t ∧ 0 < up.coreCount ∧ (up.ctx 0 0).interrupted ≠ (t.ctx 0 0).interrupted) ∧
    ∃ t, processorClock down = .ok t ∧ 0 < down.coreCount ∧ (down.ctx 0 0).interrupted ≠ (t.ctx 0 0).interrupted := by
  refine ⟨⟨value (processorClock _) State.reset, value_ok _ ?_, ?_, ?_⟩,
    value (processorClock _) State.reset, value_ok _ ?_, ?_, ?_⟩ <;> decide +kernel

theorem witness_ErrorsPrecise :
    let f := InFlight.fresh .halt false
    let c := (user []).holding f
    ∃ out, runPhase .halt .execute ((bench c).env 0 0) c f = .ok out ∧ c.pending = none ∧
      out.ctx.pending = some 0x18 := by
  exact ⟨_, rfl, rfl, rfl⟩

theorem witness_AccessBounds :
    let f (i : Instr) := { InFlight.fresh i false with op0 := 0x7EF8, op1 := 0x100 : InFlight }
    let g (i : Instr) := { InFlight.fresh i false with op0 := 0x7EFF, op1 := 0x100 : InFlight }
    let c := user []
    let e := (bench c).env 0 0
    c.interrupted = false ∧ e.cfg.memorySize ≤ 2 ^ 64 ∧ (f (.load 16 0 17)).op1 = c.ps ∧ c.l1d.port.busy = false ∧
    ((runPhase (.load 16 0 17) .execute e c (f (.load 16 0 17))).toOption.map (·.ctx.l1d.port.busy)) = some true ∧
    ((runPhase (.store 16 0 17) .execute e c (f (.store 16 0 17))).toOption.map (·.ctx.l1d.port.busy)) = some true ∧
    ((runPhase (.clear 16 0) .execute e c (g (.clear 16 0))).toOption.map (·.ctx.l1d.port.busy)) = some true ∧
    ((runPhase (.flush 16 0) .execute e c (g (.flush 16 0))).toOption.map (·.ctx.l1d.port.busy)) = some true := by
  exact ⟨by decide +kernel, by decide +kernel, by decide +kernel, by decide +kernel, by decide +kernel, by decide +kernel, by decide +kernel, by decide +kernel⟩

/-- Memory with a Write of one byte at address 5 on its port. -/
def writing : State :=
  let p := Port.reset 32
  { State.reset with memory := { cells := [], port := { p with
      busy := true, free := false, op := .write, bus := writeBus 32 5 [7] } } }

theorem witness_MemoryFrame :
    ∃ t, writing.memory.wf = true ∧ processorClock writing = .ok t ∧ t.memory.byte 5 ≠ writing.memory.byte 5 := by
  refine ⟨value (processorClock writing) writing, ?_, value_ok _ ?_, ?_⟩ <;> decide +kernel

theorem witness_CacheWriteBytes :
    let g := Config.reference.l1d
    let dirty := (Holds (user []) 0x100 [1, 2, 3, 4, 5, 6, 7, 8] true).l1d
    g.wellFormed = true ∧ (Cache.reset g).Shaped g ∧ dirty.Shaped g ∧ 0x101 % g.busWidth + [1, 2, 3, 4, 5, 6, 7].length ≤ g.busWidth ∧
    0 < [1, 2, 3, 4, 5, 6, 7].length ∧ ¬(0x101 ≤ 0x100 ∧ 0x100 < 0x101 + 7) ∧ ¬(0x101 ≤ 0x108 ∧ 0x108 < 0x101 + 7) := by
  exact ⟨by decide, shaped (by decide +kernel) (by decide +kernel) rfl, shaped (by decide +kernel) (by decide +kernel) rfl,
    by decide +kernel, by decide +kernel, by decide +kernel, by decide +kernel⟩

/-- A Read of 0x10F as a cache's request: the last byte of its window. -/
def reading (c : Cache) : Cache := { c with port := { c.port with busy := true, free := false, op := .read, addr := 0x10F } }

/-- A Write of 0x10F as a cache's request. -/
def writing8 (c : Cache) : Cache := { c with port := { c.port with busy := true, free := false, op := .write, addr := 0x10F } }

/-- A lower port with a completed result. -/
def answered (ok : Bool) : Port := { Port.reset 8 with free := false, successful := ok }

theorem not_readHit {g : CacheConfig} {c : Cache} {a : Nat} (h : (c.windowOf g a).all Lane.valid = false) :
    ¬c.ReadHit g a := fun hit => by simp [hit.2] at h

theorem witness_ReadMiss :
    let g := Config.reference.l1d
    let c := reading (Cache.reset g)
    let fetching := { c with lp := .fetch (lineAddr g 0x10F) }
    let partly := reading { Cache.reset g with
      lp := .fetch (lineAddr g 0x10F),
      lines := (Cache.reset g).lines.set (indexOf g 0x10F)
        { tag := tagOf g 0x10F, lanes := { data := 9, valid := true, dirty := true } :: List.replicate 7 Lane.reset } }
    (c.port.busy = true ∧ c.port.op = .read ∧ c.port.addr.toNat = 0x10F ∧ ¬c.ReadHit g 0x10F ∧ c.lp = .idle) ∧
    ((Port.reset 8).idle = true ∧ (answered true).idle = false ∧ (Port.reset 8).completed = false) ∧
    (¬fetching.ReadHit g 0x10F ∧ fetching.lp = .fetch (lineAddr g fetching.port.addr.toNat) ∧
      (answered false).completed = true ∧ (answered false).successful = false) ∧
    (g.wellFormed = true ∧ fetching.Shaped g ∧ (answered true).completed = true ∧ (answered true).successful = true ∧
      (answered true).bus.length = g.lineWidth ∧ (fetching.lineOf g 0x10F).isDirty = false) ∧
    partly.Shaped g ∧ partly.lp = .fetch (lineAddr g 0x10F) ∧ ¬partly.ReadHit g 0x10F ∧
    (partly.lineOf g 0x10F).tag = tagOf g 0x10F ∧ (partly.lineOf g 0x10F).isDirty = true := by
  exact ⟨⟨rfl, rfl, by decide +kernel, not_readHit (by decide +kernel), rfl⟩,
    ⟨by decide +kernel, by decide +kernel, by decide +kernel⟩,
    ⟨not_readHit (by decide +kernel), by decide +kernel, by decide +kernel, rfl⟩,
    ⟨by decide, shaped (by decide +kernel) (by decide +kernel) rfl, by decide +kernel, rfl, by decide +kernel,
      by decide +kernel⟩,
    shaped (by decide +kernel) (by decide +kernel) rfl, rfl, not_readHit (by decide +kernel), by decide +kernel,
    by decide +kernel⟩

theorem witness_InstallRules :
    let g := Config.reference.l1d
    let clean := (Holds (user []) 0x100 [1, 2, 3, 4, 5, 6, 7, 8] false).l1d
    let dirty := (Holds (user []) 0x100 [1, 2, 3, 4, 5, 6, 7, 8] true).l1d
    let miss := writing8 (Holds (user []) 0x208 [1, 2, 3, 4, 5, 6, 7, 8] true).l1d
    let mask := (dirty.lineOf g 0x100).dirtyMask
    let flushing := { dirty with lp := .writeBack 0x100 mask false }
    let filling := { dirty with lp := .writeBack 0x100 mask true, fill := some (0x200, List.replicate 8 0xEE) }
    (g.wellFormed = true ∧ clean.Shaped g ∧ dirty.Shaped g ∧ 0x100 % g.lineWidth = 0 ∧ 0x200 % g.lineWidth = 0 ∧
      (List.replicate 8 (0xEE : Byte)).length = g.lineWidth ∧ (Port.reset 8).idle = true ∧
      (dirty.lineOf g 0x100).tag = tagOf g 0x100 ∧ (clean.lineOf g 0x200).tag ≠ tagOf g 0x200 ∧
      (clean.lineOf g 0x200).isDirty = false ∧ (dirty.lineOf g 0x200).tag ≠ tagOf g 0x200 ∧
      (dirty.lineOf g 0x200).isDirty = true) ∧
    (miss.Shaped g ∧ miss.port.busy = true ∧ miss.port.op = .write ∧ miss.port.addr.toNat = 0x10F ∧ miss.lp = .idle ∧
      (miss.lineOf g 0x10F).tag ≠ tagOf g 0x10F ∧ (miss.lineOf g 0x10F).isDirty = true ∧ (answered true).idle = false ∧
      indexOf g 0x208 = indexOf g 0x10F ∧ (Port.reset 8).completed = false) ∧
    ((answered true).completed = true ∧ (answered true).successful = true ∧ (answered false).completed = true ∧
      (answered false).successful = false ∧ (answered true).bus.length = g.lineWidth) ∧
    (flushing.Shaped g ∧ mask.length = g.lineWidth ∧ flushing.fill = none) ∧
    filling.Shaped g ∧ indexOf g 0x200 = indexOf g 0x100 ∧ (filling.lineOf g 0x200).tag ≠ tagOf g 0x200 ∧
    mask = (filling.lineOf g 0x200).dirtyMask := by
  exact ⟨⟨by decide, shaped (by decide +kernel) (by decide +kernel) rfl, shaped (by decide +kernel) (by decide +kernel) rfl,
      by decide +kernel, by decide +kernel, by decide +kernel, by decide +kernel, by decide +kernel, by decide +kernel,
      by decide +kernel, by decide +kernel, by decide +kernel⟩,
    ⟨shaped (by decide +kernel) (by decide +kernel) rfl, rfl, rfl, by decide +kernel, rfl, by decide +kernel,
      by decide +kernel, by decide +kernel, by decide +kernel, by decide +kernel⟩,
    ⟨by decide +kernel, rfl, by decide +kernel, rfl, by decide +kernel⟩,
    ⟨shaped (by decide +kernel) (by decide +kernel) rfl, by decide +kernel, rfl⟩,
    shaped (by decide +kernel) (by decide +kernel) rfl, by decide +kernel, by decide +kernel, by decide +kernel⟩

theorem bench_steps : ∃ t, step (bench (user [])) = .next t := next_of_after (by decide +kernel)

theorem bench_everyContext {p : Context → Prop} {c : Context} (hc : p c) (hr : p (Context.reset Config.reference)) :
    (bench c).EveryContext p := by
  refine ⟨fun j => ?_, fun x hx => (by cases hx)⟩
  show p (((Core.reset Config.reference).setCtx 0 c).ctx j)
  rw [Core.ctx_setCtx]
  split
  · exact hc
  · rw [core_at_rest]; exact hr

theorem bench_everyCache {p : Cache → Prop} {c : Context} (hi : p c.l1i) (hd : p c.l1d)
    (h1i : p (Cache.reset Config.reference.l1i)) (h1d : p (Cache.reset Config.reference.l1d))
    (h2 : p (Cache.reset Config.reference.l2)) (h3 : p (Cache.reset Config.reference.l3)) : (bench c).EveryCache p :=
  ⟨bench_everyContext (p := fun c => p c.l1i ∧ p c.l1d) ⟨hi, hd⟩ ⟨h1i, h1d⟩, h2, fun x hx => (by cases hx), h3⟩

theorem resetPort_legal (w : Nat) : (Port.reset w).Legal := fun h => by cases h.1

theorem resetCache_dirtyValid (g : CacheConfig) : (Cache.reset g).DirtyValid := by
  intro ln hl l hm
  rw [List.eq_of_mem_replicate hl] at hm
  rw [List.eq_of_mem_replicate hm]
  intro h
  cases h

theorem resetCache_neverWritten (g : CacheConfig) : (Cache.reset g).NeverWritten := by
  refine ⟨?_, fun _ _ _ h => by cases h⟩
  intro ln hl l hm
  rw [List.eq_of_mem_replicate hl] at hm
  rw [List.eq_of_mem_replicate hm]
  rfl

theorem witness_MemoryCanonical :
    (bench (user [])).memory.wf = true ∧ ∃ t, step (bench (user [])) = .next t := by
  exact ⟨by decide +kernel, bench_steps⟩

theorem witness_PortsStayLegal :
    (bench (user [])).PortsLegal ∧ ∃ t, step (bench (user [])) = .next t := by
  exact ⟨⟨bench_everyCache (p := fun c => c.port.Legal) (resetPort_legal _) (resetPort_legal _) (resetPort_legal _)
    (resetPort_legal _) (resetPort_legal _) (resetPort_legal _), resetPort_legal _, fun x hx => (by cases hx)⟩, bench_steps⟩

theorem witness_DirtyStaysValid :
    (bench (user [])).EveryCache Cache.DirtyValid ∧ ∃ t, step (bench (user [])) = .next t := by
  exact ⟨bench_everyCache (resetCache_dirtyValid _) (resetCache_dirtyValid _) (resetCache_dirtyValid _)
    (resetCache_dirtyValid _) (resetCache_dirtyValid _) (resetCache_dirtyValid _), bench_steps⟩

theorem witness_FetchCachesReadOnly :
    (bench (user [])).EveryContext Context.FetchOnly ∧ ∃ t, step (bench (user [])) = .next t := by
  exact ⟨bench_everyContext ⟨resetCache_neverWritten _, fun h => (by cases h)⟩
    ⟨resetCache_neverWritten _, fun h => (by cases h)⟩, bench_steps⟩

theorem witness_RetryHasInstruction :
    (bench (user [])).EveryContext Context.RetryHasInstruction ∧ ∃ t, step (bench (user [])) = .next t := by
  exact ⟨bench_everyContext (fun h => (by cases h)) (fun h => (by cases h)), bench_steps⟩

theorem witness_LockExclusion :
    (locked (user [])).LocksConsistent ∧ ∃ t, step (locked (user [])) = .next t := by
  refine ⟨⟨?_, ?_⟩, next_of_after (by decide +kernel)⟩
  · intro k hk
    have hk0 : k = 0 := by
      have : (locked (user [])).coreCount = 1 := rfl
      omega
    subst hk0
    exact ⟨by decide +kernel, fun _ => rfl⟩
  · intro k hk
    have hk0 : k = 0 := by
      have : (locked (user [])).coreCount = 1 := rfl
      omega
    subst hk0
    exact ⟨fun _ => rfl, fun _ => rfl⟩

theorem witness_ResetState :
    1 ≤ Config.reference.coreCount ∧ 0 < Config.reference.coreCount ∧ 4 ≤ (4#5).toNat := by
  decide

end Sys2Proof.Tests
end

section
/-! SUPPORT. A Processor clock as a schedule of agents: which part of the machine acts, in which order (R106, R110). An
invariant of `step` is then one case per agent. -/

namespace Sys2Proof.Machine

/-! ## Computations that may be fatal -/

/-- A computation in two parts answers only when both do. -/
theorem bind_ok {α β : Type} {g : α → Except Fault β} {r : Except Fault α} {b : β} (h : r.bind g = .ok b) :
    ∃ a, r = .ok a ∧ g a = .ok b := by
  cases r with
  | error x => cases h
  | ok a => exact ⟨a, rfl, h⟩

/-! ## Core k, for every k -/

@[simp] theorem State.setCore_cfg (s : State) (k : Nat) (c : Core) : (s.setCore k c).cfg = s.cfg := by cases k <;> rfl
@[simp] theorem State.setCore_l3 (s : State) (k : Nat) (c : Core) : (s.setCore k c).l3 = s.l3 := by cases k <;> rfl
@[simp] theorem State.setCore_memory (s : State) (k : Nat) (c : Core) : (s.setCore k c).memory = s.memory := by
  cases k <;> rfl
@[simp] theorem State.setCore_devices (s : State) (k : Nat) (c : Core) : (s.setCore k c).devices = s.devices := by
  cases k <;> rfl
@[simp] theorem State.setCore_cycle (s : State) (k : Nat) (c : Core) : (s.setCore k c).cycle = s.cycle := by
  cases k <;> rfl
@[simp] theorem State.setCore_upper_length (s : State) (k : Nat) (c : Core) :
    (s.setCore k c).upper.length = s.upper.length := by cases k <;> simp

theorem State.core_setCore {s : State} {k : Nat} (hk : k < s.coreCount) (k' : Nat) (c : Core) :
    (s.setCore k c).core k' = if k' = k then c else s.core k' := by
  cases k with
  | zero => cases k' <;> simp
  | succ k =>
    have hk : k < s.upper.length := by simp only [State.coreCount] at hk; omega
    cases k' with
    | zero => simp
    | succ k' =>
      by_cases h : k' = k
      · subst h; simp [hk]
      · have : k ≠ k' := fun e => h e.symm
        simp [h, List.getElem?_set_ne this]

@[simp] theorem State.setCore_core (s : State) (k : Nat) : s.setCore k (s.core k) = s := by
  cases k with
  | zero => rfl
  | succ k =>
    rcases lt_or_ge k s.upper.length with h | h
    · simp [h]
    · simp [List.set_eq_of_length_le h]

@[simp] theorem State.setCore_setCore (s : State) (k : Nat) (c d : Core) :
    (s.setCore k c).setCore k d = s.setCore k d := by cases k <;> simp

/-- A Context after a change of one Context. -/
theorem State.ctx_setCtx {s : State} {k : Nat} (hk : k < s.coreCount) (j : Fin 8) (x : Context) (k' : Nat) (j' : Fin 8) :
    (s.setCtx k j x).ctx k' j' = if k' = k ∧ j' = j then x else s.ctx k' j' := by
  simp only [State.ctx, State.setCtx, State.core_setCore hk]
  by_cases h : k' = k
  · subst h; simp [Core.ctx_setCtx]
  · simp [h]

/-! ## What no agent changes before the end of a clock -/

/-- The parameters, the number of Cores and of Devices, and the cycle. -/
structure State.SameShape (s t : State) : Prop where
  cfg : t.cfg = s.cfg
  upper : t.upper.length = s.upper.length
  devices : t.devices.length = s.devices.length
  cycle : t.cycle = s.cycle

theorem State.SameShape.refl (s : State) : s.SameShape s := ⟨rfl, rfl, rfl, rfl⟩

theorem State.SameShape.trans {s t u : State} (h : s.SameShape t) (h' : t.SameShape u) : s.SameShape u :=
  ⟨h'.1.trans h.1, h'.2.trans h.2, h'.3.trans h.3, h'.4.trans h.4⟩

theorem State.SameShape.coreCount {s t : State} (h : s.SameShape t) : t.coreCount = s.coreCount := by
  simp [State.coreCount, h.upper]

theorem State.SameShape.setCore (s : State) (k : Nat) (c : Core) : s.SameShape (s.setCore k c) := by
  constructor <;> simp

theorem State.SameShape.setCtx (s : State) (k : Nat) (j : Fin 8) (x : Context) : s.SameShape (s.setCtx k j x) :=
  .setCore ..

/-! ## Signals and the halt (R144, R161) -/

/-- What a Signal or the halt can change of a Core: one Context is signalled. -/
def Core.Notified (c d : Core) : Prop := d = c ∨ ∃ j, d = c.setCtx j (c.ctx j).signal

/-- What a Signal or the halt can change of the machine: one Context is signalled, one Device starts or queues its work, or
the machine halts. -/
structure State.Notified (s t : State) : Prop where
  shape : s.SameShape t
  core : ∀ k, (s.core k).Notified (t.core k)
  l3 : t.l3 = s.l3
  memory : t.memory = s.memory
  devicePort : ∀ x ∈ t.devices, ∃ y ∈ s.devices, x.port = y.port

/-- A Signal leaves a Device's port alone (R172). -/
theorem Device.signal_port {d : DeviceConfig} {x y : Device} (h : x.signal d = .ok y) : y.port = x.port := by
  unfold Device.signal at h
  split at h
  · injection h with h; rw [← h]
  · split at h
    · injection h with h; rw [← h]
    · injection h with h; rw [← h]
    · cases h

/-- All a Signal can do (R161). -/
theorem State.signal_notified {s t : State} {id : Nat} (h : s.signal id = .ok t) : s.Notified t := by
  unfold State.signal at h
  split at h
  · rename_i hid
    injection h with h
    subst h
    have hk : id / 8 < s.coreCount := Nat.div_lt_of_lt_mul hid
    rw [State.setCtx]
    refine ⟨.setCore .., fun k => ?_, by simp, by simp, fun x hx => ⟨x, by simpa using hx, rfl⟩⟩
    rw [State.core_setCore hk]
    split
    · rename_i e; subst e; exact .inr ⟨_, rfl⟩
    · exact .inl rfl
  · split at h
    · rename_i x d hx hd
      obtain ⟨y, hy, h⟩ := bind_ok h
      injection h with h
      subst h
      refine ⟨⟨rfl, rfl, by simp, rfl⟩, fun k => .inl (by cases k <;> rfl), rfl, rfl, fun z hz => ?_⟩
      rcases List.mem_or_eq_of_mem_set hz with hz | rfl
      · exact ⟨z, hz, rfl⟩
      · exact ⟨x, List.mem_of_getElem? hx, Device.signal_port hy⟩
    · cases h

/-- All the Processor does with what a stage asks (R144, R161). -/
theorem State.apply_notified {s t : State} {e : Effect} (h : s.apply e = .ok t) : s.Notified t := by
  cases e with
  | none =>
    injection h with h
    subst h
    exact ⟨.refl s, fun k => .inl rfl, rfl, rfl, fun x hx => ⟨x, hx, rfl⟩⟩
  | signal id => exact State.signal_notified h
  | halt =>
    injection h with h
    subst h
    exact ⟨⟨rfl, rfl, rfl, rfl⟩, fun k => .inl (by cases k <;> rfl), rfl, rfl, fun x hx => ⟨x, hx, rfl⟩⟩

/-! ## What one part of the machine can do in its clock -/

/-- All Memory can do in its place of a clock (R110). -/
theorem clockMemory_ok {s t : State} (h : clockMemory s = .ok t) :
    t = s ∨ ∃ m, s.memory.clock s.cfg = .ok m ∧ t = { s with memory := m } := by
  unfold clockMemory at h
  split at h
  · exact .inr (map_ok h)
  · injection h with h; exact .inl h.symm

/-- All the L3 can do in its place of a clock (R110). -/
theorem clockL3_ok {s t : State} (h : clockL3 s = .ok t) :
    t = s ∨ ∃ l3 port, s.l3.clock s.cfg.l3 s.cfg.dirtyOnUnchangedWrite s.memory.port = .ok (l3, port) ∧
      t = { s with l3 := l3, memory := { s.memory with port := port } } := by
  unfold clockL3 at h
  split at h
  · obtain ⟨⟨l3, port⟩, hc, rfl⟩ := map_ok h; exact .inr ⟨l3, port, hc, rfl⟩
  · injection h with h; exact .inl h.symm

/-- All the L2 of Core k can do in its place of a clock (R106). -/
theorem clockL2_ok {s t : State} {k : Nat} (h : clockL2 k s = .ok t) :
    t = s ∨ ∃ l2 port, (s.core k).l2.clock s.cfg.l2 s.cfg.dirtyOnUnchangedWrite s.l3.port = .ok (l2, port) ∧
      t = { s.setCore k { s.core k with l2 := l2 } with l3 := { s.l3 with port := port } } := by
  unfold clockL2 at h
  split at h
  · obtain ⟨⟨l2, port⟩, hc, rfl⟩ := map_ok h; exact .inr ⟨l2, port, hc, rfl⟩
  · injection h with h; exact .inl h.symm

/-- All the L1 caches of Context j can do in their place of a clock (R106). -/
theorem Core.clockL1_ok {cfg : Config} {c d : Core} {j : Fin 8} (h : c.clockL1 cfg j = .ok d) :
    ∃ l1i p1 l1d p2, (c.ctx j).l1i.clock cfg.l1i cfg.dirtyOnUnchangedWrite c.l2.port = .ok (l1i, p1) ∧
      (c.ctx j).l1d.clock cfg.l1d cfg.dirtyOnUnchangedWrite p1 = .ok (l1d, p2) ∧
      d = { c.setCtx j { c.ctx j with l1i := l1i, l1d := l1d } with l2 := { c.l2 with port := p2 } } := by
  obtain ⟨⟨l1i, p1⟩, hi, h⟩ := bind_ok h
  obtain ⟨⟨l1d, p2⟩, hd, rfl⟩ := map_ok h
  exact ⟨l1i, p1, l1d, p2, hi, hd, rfl⟩

/-- All a stage of Core k can do (R106, R161): its Context answers, and the Processor sees what it asks. -/
theorem clockStage_ok {s t : State} {k : Nat} {st : Stage} (h : clockStage k s st = .ok t) :
    ∃ r, runStage st (s.env k (s.atStage k st)) (s.ctx k (s.atStage k st)) = .ok r ∧
      (s.setCtx k (s.atStage k st) r.ctx).Notified t := by
  obtain ⟨r, hr, h⟩ := bind_ok h
  exact ⟨r, hr, State.apply_notified h⟩

/-- All the clock of a Device can do with its Signal (R170, R172). -/
theorem clockDevice_ok {s t : State} {d : Nat} (h : clockDevice s d = .ok t) :
    t = s ∨ ∃ x cfg x' port done, s.devices[d]? = some x ∧
      x.clock s.cfg cfg d s.memory.port = .ok (x', port, done) ∧
      State.Notified { s with devices := s.devices.set d x', memory := { s.memory with port := port } } t := by
  unfold clockDevice at h
  split at h
  · rename_i x cfg hx hcfg
    obtain ⟨⟨x', port, done⟩, hc, h⟩ := bind_ok h
    refine .inr ⟨x, cfg, x', port, done, hx, hc, ?_⟩
    cases done with
    | none => exact State.apply_notified (e := .none) h
    | some id => exact State.signal_notified h
  · injection h with h; exact .inl h.symm

/-- What the Processor's poll can change of the machine: which Core holds the system lock (R162). -/
structure State.Polled (s t : State) : Prop where
  shape : s.SameShape t
  core : ∀ k, ∃ b, t.core k = { s.core k with coreAcquired := b }
  l3 : t.l3 = s.l3
  memory : t.memory = s.memory
  devices : t.devices = s.devices

theorem State.Polled.refl (s : State) : s.Polled s := ⟨.refl s, fun _ => ⟨_, rfl⟩, rfl, rfl, rfl⟩

theorem State.Polled.trans {s t u : State} (h : s.Polled t) (h' : t.Polled u) : s.Polled u := by
  refine ⟨h.shape.trans h'.shape, fun k => ?_, h'.l3.trans h.l3, h'.memory.trans h.memory, h'.devices.trans h.devices⟩
  obtain ⟨b, hb⟩ := h.core k
  obtain ⟨b', hb'⟩ := h'.core k
  exact ⟨b', by rw [hb', hb]⟩

theorem State.Polled.setAcquired (s : State) (k : Nat) (b : Bool) (p : Option Nat) :
    s.Polled { s.setAcquired k b with pholder := p } := by
  have hcore : ∀ k', State.core { s.setAcquired k b with pholder := p } k' = (s.setAcquired k b).core k' := by
    intro k'; cases k' <;> rfl
  refine ⟨⟨?_, ?_, ?_, ?_⟩, fun k' => ?_, ?_, ?_, ?_⟩
  case refine_5 =>
    rw [hcore, State.setAcquired]
    rcases lt_or_ge k s.coreCount with hk | hk
    · rw [State.core_setCore hk]
      split
      · rename_i e; subst e; exact ⟨b, rfl⟩
      · exact ⟨_, rfl⟩
    · cases k with
      | zero => simp [State.coreCount] at hk
      | succ k =>
        have hk : s.upper.length ≤ k := by simp only [State.coreCount] at hk; omega
        refine ⟨(s.core k').coreAcquired, ?_⟩
        rw [State.setCore_succ, List.set_eq_of_length_le hk]
  all_goals simp [State.setAcquired]

/-- All the Processor's poll can do (R162). -/
theorem State.lockPoll_polled (s : State) : s.Polled s.lockPoll := by
  have release : s.Polled s.releaseSystemLock := by
    unfold State.releaseSystemLock
    split
    · split
      · exact .refl s
      · exact .setAcquired ..
    · exact .refl s
  refine release.trans ?_
  unfold State.lockPoll State.grantSystemLock
  split
  · exact .setAcquired ..
  · exact .refl _

/-- What a Core's poll can change of the Core: which Context has acquired the lock (R163). -/
structure Core.Polled (c d : Core) : Prop where
  ctx : ∀ j, ∃ b, d.ctx j = { c.ctx j with acquiredLock := b }
  l2 : d.l2 = c.l2

theorem Core.Polled.refl (c : Core) : c.Polled c := ⟨fun _ => ⟨_, rfl⟩, rfl⟩

theorem Core.Polled.trans {c d e : Core} (h : c.Polled d) (h' : d.Polled e) : c.Polled e := by
  refine ⟨fun j => ?_, h'.l2.trans h.l2⟩
  obtain ⟨b, hb⟩ := h.ctx j
  obtain ⟨b', hb'⟩ := h'.ctx j
  exact ⟨b', by rw [hb', hb]⟩

theorem Core.Polled.setAcquired (c : Core) (i : Fin 8) (b : Bool) (p : Option (Fin 8)) :
    c.Polled { c.setCtx i { c.ctx i with acquiredLock := b } with holder := p } := by
  refine ⟨fun j => ?_, rfl⟩
  show ∃ b', (c.setCtx i { c.ctx i with acquiredLock := b }).ctx j = _
  rw [Core.ctx_setCtx]
  split
  · rename_i e; subst e; exact ⟨b, rfl⟩
  · exact ⟨_, rfl⟩

/-- All a Core's poll can do (R163). -/
theorem Core.lockPoll_polled (table : List (List Nat × Nat)) (c : Core) : c.Polled (c.lockPoll table) := by
  have release : c.Polled c.releaseLock := by
    unfold Core.releaseLock
    split
    · split
      · exact .setAcquired ..
      · exact .refl c
    · exact .refl c
  refine release.trans ?_
  unfold Core.lockPoll Core.grantLock
  split
  · exact .setAcquired ..
  · exact .refl _

/-! ## The agents of a clock -/

/-- A part of the machine that acts in a Processor clock (R106, R110). -/
inductive Agent where
  | memory
  | l3
  | poll
  | l2 (k : Nat)
  | l1 (k : Nat) (j : Fin 8)
  | corePoll (k : Nat)
  | stage (k : Nat) (st : Stage)
  | coreTick (k : Nat)
  | device (d : Nat)

/-- What an agent does when its place in the clock comes. -/
def Agent.act : Agent → State → Except Fault State
  | .memory, s => clockMemory s
  | .l3, s => clockL3 s
  | .poll, s => .ok s.lockPoll
  | .l2 k, s => clockL2 k s
  | .l1 k j, s => ((s.core k).clockL1 s.cfg j).map (s.setCore k)
  | .corePoll k, s => .ok (s.setCore k ((s.core k).lockPoll s.cfg.lockElect))
  | .stage k st, s => clockStage k s st
  | .coreTick k, s => .ok (s.setCore k (s.core k).tick)
  | .device d, s => clockDevice s d

/-- The Core an agent belongs to. -/
def Agent.core? : Agent → Option Nat
  | .l2 k => some k
  | .l1 k _ => some k
  | .corePoll k => some k
  | .stage k _ => some k
  | .coreTick k => some k
  | _ => none

/-- An agent that belongs to a Core belongs to one of the first `n`. -/
def Agent.InRange (n : Nat) (a : Agent) : Prop := ∀ k, a.core? = some k → k < n

/-- No agent changes the shape of the machine. -/
theorem Agent.act_shape {a : Agent} {s t : State} (h : a.act s = .ok t) : s.SameShape t := by
  cases a with
  | memory =>
    rcases clockMemory_ok h with rfl | ⟨m, -, rfl⟩
    · exact .refl _
    · exact ⟨rfl, rfl, rfl, rfl⟩
  | l3 =>
    rcases clockL3_ok h with rfl | ⟨l3, port, -, rfl⟩
    · exact .refl _
    · exact ⟨rfl, rfl, rfl, rfl⟩
  | poll => injection h with h; subst h; exact s.lockPoll_polled.shape
  | l2 k =>
    rcases clockL2_ok h with rfl | ⟨l2, port, -, rfl⟩
    · exact .refl _
    · constructor <;> simp
  | l1 k j => obtain ⟨c, -, rfl⟩ := map_ok h; exact .setCore ..
  | corePoll k => injection h with h; subst h; exact .setCore ..
  | stage k st => obtain ⟨r, -, hn⟩ := clockStage_ok h; exact (State.SameShape.setCtx ..).trans hn.shape
  | coreTick k => injection h with h; subst h; exact .setCore ..
  | device d =>
    rcases clockDevice_ok h with rfl | ⟨x, cfg, x', port, done, -, -, hn⟩
    · exact .refl _
    · have hset : s.SameShape { s with devices := s.devices.set d x', memory := { s.memory with port := port } } :=
        ⟨rfl, rfl, by simp, rfl⟩
      exact hset.trans hn.shape

/-- The agents of a list act one after another. -/
def Runs (l : List Agent) (s t : State) : Prop := l.foldlM (fun s a => a.act s) s = .ok t

theorem Runs.nil (s : State) : Runs [] s s := rfl

theorem Runs.cons {a : Agent} {l : List Agent} {s t u : State} (h : a.act s = .ok t) (h' : Runs l t u) :
    Runs (a :: l) s u := by
  unfold Runs at *
  rw [List.foldlM_cons, h]
  exact h'

theorem Runs.single {a : Agent} {s t : State} (h : a.act s = .ok t) : Runs [a] s t := .cons h (.nil t)

theorem runs_cons {a : Agent} {l : List Agent} {s u : State} (h : Runs (a :: l) s u) :
    ∃ t, a.act s = .ok t ∧ Runs l t u := by
  rw [Runs, List.foldlM_cons] at h
  exact bind_ok h

theorem runs_append {l l' : List Agent} {s u : State} : Runs (l ++ l') s u ↔ ∃ t, Runs l s t ∧ Runs l' t u := by
  unfold Runs
  rw [List.foldlM_append]
  constructor
  · exact bind_ok
  · rintro ⟨t, h, h'⟩
    rw [h]
    exact h'

theorem Runs.append {l l' : List Agent} {s t u : State} (h : Runs l s t) (h' : Runs l' t u) : Runs (l ++ l') s u :=
  runs_append.2 ⟨t, h, h'⟩

/-- A relation that is reflexive and transitive, and that every agent of the list keeps, holds across the list. -/
theorem Runs.rel {R : State → State → Prop} (hrefl : ∀ s, R s s) (htrans : ∀ s t u, R s t → R t u → R s u)
    {l : List Agent} (hl : ∀ a ∈ l, ∀ s t, a.act s = .ok t → R s t) {s t : State} (h : Runs l s t) : R s t := by
  induction l generalizing s with
  | nil => injection h with h; exact h ▸ hrefl s
  | cons a l ih =>
    obtain ⟨u, ha, h⟩ := runs_cons h
    exact htrans s u t (hl a (by simp) s u ha) (ih (fun b hb => hl b (by simp [hb])) h)

theorem Runs.shape {l : List Agent} {s t : State} (h : Runs l s t) : s.SameShape t :=
  h.rel .refl (fun _ _ _ => .trans) fun _ _ _ _ => Agent.act_shape

/-! ## The schedule of a clock -/

/-- The agents of Core k in the order of `Core.Clock(c)` (R106). -/
def coreAgents (k : Nat) : List Agent :=
  .l2 k :: (allCtx.map (.l1 k) ++ .corePoll k :: (allStages.map (.stage k) ++ [.coreTick k]))

/-- The agents in the order of `Processor.Clock()` (R110), `Devices` only in a clock that is theirs. -/
def State.schedule (s : State) : List Agent :=
  .memory :: .l3 :: .poll :: ((List.range s.coreCount).flatMap coreAgents ++
    if s.cycle % s.cfg.divDev = 0 then (List.range s.devices.length).map .device else [])

theorem coreAgents_core {k : Nat} {a : Agent} (h : a ∈ coreAgents k) : a.core? = some k := by
  simp only [coreAgents, List.mem_cons, List.mem_append, List.mem_map, List.not_mem_nil, or_false] at h
  rcases h with rfl | ⟨j, -, rfl⟩ | rfl | ⟨st, -, rfl⟩ | rfl <;> rfl

theorem clockL1s_runs {k : Nat} {s t : State} (hk : k < s.coreCount) (h : clockL1s k s = .ok t) :
    Runs (allCtx.map (.l1 k)) s t := by
  have key : ∀ (l : List (Fin 8)) (c d : Core), l.foldlM (Core.clockL1 s.cfg) c = .ok d →
      Runs (l.map (.l1 k)) (s.setCore k c) (s.setCore k d) := by
    intro l
    induction l with
    | nil => intro c d h; injection h with h; subst h; exact .nil _
    | cons j l ih =>
      intro c d h
      rw [List.foldlM_cons] at h
      obtain ⟨c', hc, h⟩ := bind_ok h
      refine .cons ?_ (ih c' d h)
      simp [Agent.act, State.core_setCore hk, hc, Except.map]
  obtain ⟨d, hd, rfl⟩ := map_ok h
  simpa using key allCtx (s.core k) d hd

theorem clockStages_runs {k : Nat} {l : List Stage} {s t : State} (h : l.foldlM (clockStage k) s = .ok t) :
    Runs (l.map (.stage k)) s t := by
  induction l generalizing s with
  | nil => exact h
  | cons st l ih =>
    rw [List.foldlM_cons] at h
    obtain ⟨u, hu, h⟩ := bind_ok h
    exact .cons hu (ih h)

theorem clockCore_runs {k : Nat} {s t : State} (hk : k < s.coreCount) (h : clockCore s k = .ok t) :
    Runs (coreAgents k) s t := by
  obtain ⟨s3, hbefore, h⟩ := bind_ok h
  obtain ⟨s4, hdecode, h⟩ := bind_ok h
  obtain ⟨s5, hafter, rfl⟩ := map_ok h
  obtain ⟨s1, hl2, hbefore⟩ := bind_ok hbefore
  obtain ⟨s2, hl1, hbefore⟩ := bind_ok hbefore
  have shape : s.SameShape s1 := Agent.act_shape (a := .l2 k) hl2
  have stages : Runs (allStages.map (.stage k)) (s2.setCore k ((s2.core k).lockPoll s2.cfg.lockElect)) s5 := by
    rw [allStages, List.map_append]
    exact (clockStages_runs hbefore).append (.cons hdecode (clockStages_runs hafter))
  exact .cons hl2 ((clockL1s_runs (shape.coreCount ▸ hk) hl1).append (.cons rfl (stages.append (.single rfl))))

theorem clockCores_runs {l : List Nat} {s t : State} (hl : ∀ k ∈ l, k < s.coreCount) (h : l.foldlM clockCore s = .ok t) :
    Runs (l.flatMap coreAgents) s t := by
  induction l generalizing s with
  | nil => exact h
  | cons k l ih =>
    rw [List.foldlM_cons] at h
    obtain ⟨u, hu, h⟩ := bind_ok h
    have hk := clockCore_runs (hl k (by simp)) hu
    exact hk.append (ih (fun k' hk' => hk.shape.coreCount ▸ hl k' (by simp [hk'])) h)

theorem clockDevices_runs {s t : State} (h : clockDevices s = .ok t) :
    Runs (if s.cycle % s.cfg.divDev = 0 then (List.range s.devices.length).map .device else []) s t := by
  unfold clockDevices at h
  split at h
  · rename_i hd
    rw [Runs, if_pos hd, List.foldlM_map]
    exact h
  · rename_i hd
    rw [if_neg hd]
    exact h

/-- A CLOCK IS ITS SCHEDULE: the agents act in the order of R106 and R110, and then the cycle count moves on. -/
theorem processorClock_runs {s t : State} (hrun : s.halted = false) (h : processorClock s = .ok t) :
    ∃ u, Runs s.schedule s u ∧ t = u.tick := by
  rw [processorClock, hrun] at h
  obtain ⟨s4, hbefore, h⟩ := bind_ok h
  obtain ⟨s1, hmem, hbefore⟩ := bind_ok hbefore
  obtain ⟨s2, hl3, hbefore⟩ := bind_ok hbefore
  obtain ⟨s5, hdecode, h⟩ := bind_ok h
  obtain ⟨s6, hafter, h⟩ := bind_ok h
  obtain ⟨s7, hupper, h⟩ := bind_ok h
  obtain ⟨u, hdev, h⟩ := bind_ok h
  injection h with h
  have hcore0 : clockCore s2.lockPoll 0 = .ok s6 := by
    simp only [clockCore, hbefore, hdecode, hafter, bind, Except.bind]
  have hfirst : Runs [.memory, .l3, .poll] s s2.lockPoll := .cons hmem (.cons hl3 (.single rfl))
  have hzero := clockCore_runs (by simp [State.coreCount]) hcore0
  have hcores : Runs ((List.range s.coreCount).flatMap coreAgents) s2.lockPoll s7 := by
    have hn : s6.upper.length = s.upper.length := (hfirst.shape.trans hzero.shape).upper
    rw [State.coreCount, List.range_succ_eq_map, List.flatMap_cons]
    refine hzero.append (clockCores_runs (fun k hk => ?_) (hn ▸ hupper))
    simp only [List.mem_map, List.mem_range, Nat.succ_eq_add_one] at hk
    obtain ⟨i, hi, rfl⟩ := hk
    simp only [State.coreCount, hn]
    omega
  have hshape := hfirst.shape.trans hcores.shape
  have hdevices := clockDevices_runs hdev
  rw [hshape.cycle, hshape.cfg, hshape.devices] at hdevices
  exact ⟨u, hfirst.append (hcores.append hdevices), h.symm⟩

/-- Every agent of the schedule that belongs to a Core belongs to a Core of the machine. -/
theorem State.schedule_inRange (s : State) : ∀ a ∈ s.schedule, a.InRange s.coreCount := by
  intro a ha k hk
  simp only [State.schedule, List.mem_cons, List.mem_append, List.mem_flatMap, List.mem_range] at ha
  rcases ha with rfl | rfl | rfl | ⟨i, hi, ha⟩ | ha
  iterate 3 cases hk
  · have e : i = k := Option.some.inj ((coreAgents_core ha).symm.trans hk)
    exact e ▸ hi
  · split at ha
    · obtain ⟨d, -, rfl⟩ := List.mem_map.1 ha
      cases hk
    · cases ha

/-- AN INVARIANT OF A CLOCK: what every agent keeps, and the end of the clock, a clock keeps. -/
theorem processorClock_keeps {P : State → Prop}
    (hact : ∀ (a : Agent) (s t : State), a.InRange s.coreCount → a.act s = .ok t → P s → P t)
    (htick : ∀ s, P s → P s.tick) {s t : State} (h : processorClock s = .ok t) (hs : P s) : P t := by
  cases hrun : s.halted with
  | true =>
    rw [processorClock, hrun] at h
    injection h with h
    exact h ▸ hs
  | false =>
    obtain ⟨u, hu, rfl⟩ := processorClock_runs hrun h
    have key : ∀ (l : List Agent) (v : State), (∀ a ∈ l, a.InRange v.coreCount) → Runs l v u → P v → P u := by
      intro l
      induction l with
      | nil => intro v _ hv hp; injection hv with hv; exact hv ▸ hp
      | cons a l ih =>
        intro v hl hv hp
        obtain ⟨w, ha, hv⟩ := runs_cons hv
        refine ih w (fun b hb => ?_) hv (hact a v w (hl a (by simp)) ha hp)
        rw [(Agent.act_shape ha).coreCount]
        exact hl b (by simp [hb])
    exact htick u (key s.schedule s s.schedule_inRange hu hs)

/-! ## A step is eight clocks -/

theorem clocks_keeps {P : State → Prop} (hclock : ∀ s t, processorClock s = .ok t → P s → P t) (n : Nat) :
    ∀ {s t : State}, clocks n s = .ok t → P s → P t := by
  induction n with
  | zero => intro s t h hs; injection h with h; exact h ▸ hs
  | succ n ih =>
    intro s t h hs
    obtain ⟨u, hu, h⟩ := bind_ok h
    exact ih h (hclock s u hu hs)

theorem clocks_add (m n : Nat) (s : State) : clocks (m + n) s = (clocks m s).bind (clocks n) := by
  induction m generalizing s with
  | zero => rw [Nat.zero_add]; rfl
  | succ m ih =>
    rw [Nat.add_right_comm]
    show (processorClock s).bind (clocks (m + n)) = ((processorClock s).bind (clocks m)).bind (clocks n)
    cases processorClock s with
    | error f => rfl
    | ok u => exact ih u

/-- The Decode stage of the focal Context puts in flight what `decoded` names (R97, R101). -/
theorem clockDecode_run {s : State} {i : Instr} (h : s.focalCtx.decoded = .run i) :
    clockStage 0 s .decodeInstruction = .ok (s.enter i) := by
  have hstage : decodeStage s.focalCtx = .ok (s.focalCtx.enter i) := by
    unfold Context.decoded at h
    split at h
    · rename_i hr
      split at h
      · rename_i f hf
        injection h with h
        subst h
        have : s.focalCtx.put { f with instr := f.instr } = s.focalCtx := by
          show { s.focalCtx with instruction := some f } = s.focalCtx
          rw [← hf]
        simp [decodeStage, hr, Context.enter, hf, this]
      · cases h
    · rename_i hr
      split at h
      · cases h
      · rename_i o ho
        split at h
        · rename_i i' hd
          injection h with h
          subst h
          simp [decodeStage, hr, Context.enter, ho, hd]
        · cases h
  have : runStage .decodeInstruction (s.env 0 s.focal) (s.ctx 0 s.focal) = .ok (.just (s.focalCtx.enter i)) := by
    show justly (decodeStage s.focalCtx) = _
    rw [hstage]
    rfl
  show (runStage .decodeInstruction (s.env 0 s.focal) (s.ctx 0 s.focal)).bind _ = _
  rw [this]
  rfl

/-- With nothing to decode the Decode stage of the focal Context changes nothing (R101). -/
theorem clockDecode_nothing {s : State} (h : s.focalCtx.decoded = .nothing) :
    clockStage 0 s .decodeInstruction = .ok s := by
  have hstage : decodeStage s.focalCtx = .ok s.focalCtx := by
    unfold Context.decoded at h
    split at h
    · rename_i hr
      simp [decodeStage, hr]
    · rename_i hr
      split at h
      · rename_i ho
        simp [decodeStage, ho]
      · split at h <;> cases h
  have : runStage .decodeInstruction (s.env 0 s.focal) (s.ctx 0 s.focal) = .ok (.just s.focalCtx) := by
    show justly (decodeStage s.focalCtx) = _
    rw [hstage]
    rfl
  show (runStage .decodeInstruction (s.env 0 s.focal) (s.ctx 0 s.focal)).bind _ = _
  rw [this]
  show Except.ok (s.setCtx 0 s.focal (s.ctx 0 s.focal)) = _
  rw [State.setCtx_ctx]

theorem exec_eq_visit (i : Instr) (s : State) : exec i s = visit i s := by cases i <;> rfl

theorem toOutcome_next {r : Except Fault State} {t : State} (h : toOutcome r = .next t) : r = .ok t := by
  cases r with
  | error f => cases h
  | ok s => injection h with h; rw [h]

theorem clocks_halted {s : State} (h : s.halted = true) (n : Nat) : clocks n s = .ok s := by
  induction n with
  | zero => rfl
  | succ n ih => simp only [clocks, processorClock, h, if_true, Except.bind, ih]

/-- The clock whose first part reaches the Decode stage, and the five clocks after it. -/
theorem clocks_from_decode {s u v : State} (hrun : s.halted = false) (hbefore : clockBeforeDecode s = .ok u)
    (hdecode : clockStage 0 u .decodeInstruction = .ok v) : clocks 6 s = finishRound v := by
  show (processorClock s).bind (clocks 5) = (clockAfterDecode v).bind (clocks 5)
  simp only [processorClock, hrun, Bool.false_eq_true, if_false, bind, hbefore, hdecode, Except.bind]

/-- A STEP THAT ANSWERS IS EIGHT CLOCKS THAT ANSWER (log entry 2). -/
theorem step_clocks {s t : State} (h : step s = .next t) : clocks 8 s = .ok t := by
  unfold step at h
  split at h
  · cases h
  split at h
  · cases h
  rename_i s2 hstart
  have hcut : clocks 8 s = clocks 6 s2 := by
    rw [clocks_add 2 6, show clocks 2 s = .ok s2 from hstart]
    rfl
  rw [hcut]
  unfold stepFrom at h
  split at h
  · rename_i hh
    injection h with h
    subst h
    exact clocks_halted hh 6
  rename_i hrun
  have hrun : s2.halted = false := by simpa using hrun
  split at h
  · cases h
  rename_i s3 hbefore
  split at h
  · rename_i i hd
    rw [exec_eq_visit] at h
    rw [clocks_from_decode hrun hbefore (clockDecode_run hd)]
    exact toOutcome_next h
  · rename_i hd
    rw [clocks_from_decode hrun hbefore (clockDecode_nothing hd)]
    exact toOutcome_next h
  · cases h

/-- AN INVARIANT OF A STEP: what every agent keeps, and the end of a clock, a step keeps. -/
theorem step_keeps {P : State → Prop}
    (hact : ∀ (a : Agent) (s t : State), a.InRange s.coreCount → a.act s = .ok t → P s → P t)
    (htick : ∀ s, P s → P s.tick) {s t : State} (h : step s = .next t) (hs : P s) : P t :=
  clocks_keeps (fun _ _ => processorClock_keeps hact htick) 8 (step_clocks h) hs

end Sys2Proof.Machine
end

section
/-! SUPPORT. What an agent can do to one Context, said once: a clock of its L1 caches, a poll, a Signal, or one of its own
stages; and what each stage can do. -/

namespace Sys2Proof.Machine

/-! ## Who drives a port (R41 to R43) -/

/-- What a requester can do to a port: requests and frees, each where the protocol takes it (R41, R43, R44). -/
inductive Port.Driven (p : Port) : Port → Prop where
  | refl : p.Driven p
  | request {q q' : Port} (h : p.Driven q) {op : StoreOp} {a : Nat} {bus : Option (List Lane)}
      (hr : q.request op a bus = .ok q') : p.Driven q'
  | release {q q' : Port} (h : p.Driven q) (hr : q.release = .ok q') : p.Driven q'

theorem Port.Driven.trans {p q r : Port} (h : p.Driven q) (h' : q.Driven r) : p.Driven r := by
  induction h' with
  | refl => exact h
  | request _ hr ih => exact ih.request hr
  | release _ hr ih => exact ih.release hr

/-- The cache's requester drives its port; nothing else of the cache changes. -/
def Cache.Driven (c d : Cache) : Prop := ∃ p, c.port.Driven p ∧ d = { c with port := p }

theorem Cache.Driven.refl (c : Cache) : c.Driven c := ⟨c.port, .refl, rfl⟩

theorem Cache.Driven.trans {c d e : Cache} (h : c.Driven d) (h' : d.Driven e) : c.Driven e := by
  obtain ⟨p, hp, rfl⟩ := h
  obtain ⟨q, hq, rfl⟩ := h'
  exact ⟨q, hp.trans hq, rfl⟩

/-- The L1D keeps everything but its port, which the engine drives by one request (R113). -/
theorem accessExecute_drives {e : Env} {op : StoreOp} {p n : Nat} {c c' : Context} {f : InFlight}
    (h : accessExecute e op p n c f = .ok c') : c.l1d.Driven c'.l1d := by
  rcases accessExecute_ok h with rfl | ⟨-, hidle, rfl⟩
  · exact .refl _
  · exact ⟨_, .request .refl (Port.request_idle hidle op _ _), rfl⟩

/-- The L1D keeps everything but its port, which the engine frees (R113). -/
theorem accessFormat_drives {e : Env} {op : StoreOp} {p n : Nat} {c c' : Context} {f : InFlight}
    (h : accessFormat e op p n c f = .ok c') : c.l1d.Driven c'.l1d := by
  rcases accessFormat_ok h with rfl | ⟨port', f', -, -, hr, rfl, -⟩
  · exact .refl _
  · exact ⟨port', .release .refl hr, rfl⟩

/-! ## The control registers of a Context in normal mode (R15, R16, R160) -/

/-- IVT, PS, PL, SS, SL, IPC, IV and K0 to K2 (R14). -/
def controlRegs : List Reg := [4#5, 5#5, 6#5, 8#5, 9#5, 11#5, 12#5, 13#5, 14#5, 15#5]

theorem controlRegs_range {r : Reg} (h : r ∈ controlRegs) : r.toNat < 16 ∧ r ≠ 7 ∧ r ≠ 10 := by
  revert r
  decide

/-- The control registers read the same. -/
def Context.SameControl (c c' : Context) : Prop := ∀ e, ∀ r ∈ controlRegs, c'.read e r = c.read e r

theorem Context.SameControl.trans {a b c : Context} (h : a.SameControl b) (h' : b.SameControl c) : a.SameControl c :=
  fun e r hr => (h' e r hr).trans (h e r hr)

/-- Contexts with the same registers read the same. -/
theorem Context.SameControl.of_regs {c c' : Context} (h : c'.regs = c.regs) : c.SameControl c' := by
  intro e r _
  simp only [Context.read, h]

/-- A write to PC, SP or R16 to R31 keeps the control registers. -/
theorem Context.SameControl.hwWrite (c : Context) {i : Reg} (v : Word) (hi : 16 ≤ i.toNat ∨ i = 7 ∨ i = 10) :
    c.SameControl (c.hwWrite i v) := by
  intro e r hr
  obtain ⟨hlt, h7, h10⟩ := controlRegs_range hr
  have hne : r ≠ i := by
    rintro rfl
    rcases hi with hi | hi | hi
    · omega
    · exact h7 hi
    · exact h10 hi
  rw [Context.read_hwWrite, if_neg fun h => hne h.1]

/-- The mode stays, and in normal mode the control registers do. -/
structure Context.KeepsControl (c c' : Context) : Prop where
  mode : c'.interrupted = c.interrupted
  control : c.interrupted = false → c.SameControl c'

theorem Context.KeepsControl.of_regs {c c' : Context} (hm : c'.interrupted = c.interrupted) (h : c'.regs = c.regs) :
    c.KeepsControl c' := ⟨hm, fun _ => .of_regs h⟩

theorem Context.KeepsControl.trans {a b c : Context} (h : a.KeepsControl b) (h' : b.KeepsControl c) :
    a.KeepsControl c :=
  ⟨h'.mode.trans h.mode, fun hn => (h.control hn).trans (h'.control (h.mode.trans hn))⟩

/-! ## What a phase can do -/

/-- What every phase does but the two Retires that change the mode: the mode stays, the control registers are out of reach in
normal mode, and the L1D is driven by its protocol. -/
structure Context.PhaseStep (c c' : Context) : Prop where
  control : c.KeepsControl c'
  l1d : c.l1d.Driven c'.l1d

namespace Context.PhaseStep

theorem refl (c : Context) : c.PhaseStep c := ⟨.of_regs rfl rfl, .refl _⟩

theorem trans {a b c : Context} (h : a.PhaseStep b) (h' : b.PhaseStep c) : a.PhaseStep c :=
  ⟨h.control.trans h'.control, h.l1d.trans h'.l1d⟩

theorem put (c : Context) (f : InFlight) : c.PhaseStep (c.put f) := ⟨.of_regs rfl rfl, .refl _⟩

/-- The hardware's own writes of the phases go to PC, SP and R16 to R31 (R16). -/
theorem hwWrite (c : Context) {i : Reg} (v : Word) (hi : 16 ≤ i.toNat ∨ i = 7 ∨ i = 10) : c.PhaseStep (c.hwWrite i v) :=
  ⟨⟨by simp, fun _ => .hwWrite c v hi⟩, by simpa using Cache.Driven.refl c.l1d⟩

theorem raise {c c' : Context} {v : BitVec 8} (h : c.raise v = .ok c') : c.PhaseStep c' := by
  obtain ⟨-, -, rfl⟩ := Context.raise_ok h
  exact ⟨.of_regs rfl rfl, .refl _⟩

/-- An architectural write reaches R4 to R15 only while interrupted (R15). -/
theorem archWrite {c c' : Context} {i : Reg} {v : Word} (h : c.archWrite i v = .ok c') : c.PhaseStep c' := by
  rcases Context.archWrite_ok h with ⟨hm, rfl⟩ | ⟨-, h⟩
  · refine ⟨⟨by simp, fun hn => .hwWrite c v (.inl ?_)⟩, by simpa using Cache.Driven.refl c.l1d⟩
    simpa [Context.mayWrite, hn] using hm
  · exact raise h

theorem checkedAccess {e : Env} {op : StoreOp} {p n : Nat} {x : Option (BitVec 8)} {c c' : Context} {f : InFlight}
    (h : checkedAccess e op p n x c f = .ok c') : c.PhaseStep c' := by
  cases x with
  | none =>
    refine ⟨?_, accessExecute_drives h⟩
    rcases accessExecute_ok h with rfl | ⟨-, -, rfl⟩ <;> exact .of_regs rfl rfl
  | some v => exact raise h

theorem accessFormat {e : Env} {op : StoreOp} {p n : Nat} {c c' : Context} {f : InFlight}
    (h : accessFormat e op p n c f = .ok c') : c.PhaseStep c' := by
  refine ⟨?_, accessFormat_drives h⟩
  rcases accessFormat_ok h with rfl | ⟨_, _, -, -, -, rfl, -⟩ <;> exact .of_regs rfl rfl

theorem popRegs {l : List Reg} (hl : ∀ r ∈ l, 16 ≤ r.toNat) :
    ∀ (bytes : List Byte) (c : Context), c.PhaseStep (popRegs l bytes c) := by
  induction l with
  | nil => intro _ c; exact refl c
  | cons r rs ih =>
    intro bytes c
    exact (hwWrite c _ (.inl (hl r (by simp)))).trans (ih (fun r' h => hl r' (by simp [h])) _ _)

end Context.PhaseStep

/-- The registers of a mask are R16 to R31 (R139). -/
theorem maskRegs_ge (mask : BitVec 16) : ∀ r ∈ maskRegs mask, 16 ≤ r.toNat := by
  intro r hr
  simp only [maskRegs, List.mem_filterMap, List.mem_range] at hr
  obtain ⟨i, hi, h⟩ := hr
  split at h
  · injection h with h
    subst h
    simp only [BitVec.toNat_ofNat]
    omega
  · cases h

/-- All a phase can do to its Context, with the two phases that change the mode (R150, R151, R160). -/
inductive PhaseChange (i : Instr) (p : Phase) (c c' : Context) : Prop where
  | step (h : c.PhaseStep c')
  | entry (v : BitVec 8) (hi : i = .interrupt v) (hp : p = .retire) {w r : Word} (h : c.interruptEntry w r = .ok c')
  | back (hi : i = .uninterrupt) (hp : p = .retire) (h : c' = c.interruptReturn)

/-- A computation of a phase whose every answer is a `PhaseStep`. -/
structure Steps (c : Context) (r : Except Fault PhaseOut) : Prop where
  step : ∀ out, r = .ok out → c.PhaseStep out.ctx

namespace Steps

theorem ok {c : Context} {out : PhaseOut} (h : c.PhaseStep out.ctx) : Steps c (.ok out) := by
  refine ⟨fun o ho => ?_⟩
  injection ho with ho
  exact ho ▸ h

theorem same (c : Context) : Steps c (.ok (.just c)) := ok (.refl c)

theorem put (c : Context) (f : InFlight) : Steps c (.ok (.just (c.put f))) := ok (.put c f)

theorem advance (c : Context) : Steps c (retireAdvance c) := ok (.hwWrite c _ (.inr (.inl rfl)))

theorem setPc (c : Context) (v : Word) : Steps c (.ok (.retired (c.setPc v))) := ok (.hwWrite c v (.inr (.inl rfl)))

theorem setSp (c : Context) (v : Word) : Steps c (.ok (.just (c.setSp v))) := ok (.hwWrite c v (.inr (.inr rfl)))

theorem justly {c : Context} {r : Except Fault Context} (h : ∀ c', r = .ok c' → c.PhaseStep c') :
    Steps c (Machine.justly r) := by
  refine ⟨fun o ho => ?_⟩
  obtain ⟨c', hc, rfl⟩ := justly_ok ho
  exact h c' hc

theorem archWrite (c : Context) (i : Reg) (v : Word) : Steps c (Machine.justly (c.archWrite i v)) :=
  justly fun _ => .archWrite

theorem access (e : Env) (op : StoreOp) (p n : Nat) (x : Option (BitVec 8)) (c : Context) (f : InFlight) :
    Steps c (Machine.justly (checkedAccess e op p n x c f)) := justly fun _ => .checkedAccess

theorem format (e : Env) (op : StoreOp) (p n : Nat) (c : Context) (f : InFlight) :
    Steps c (Machine.justly (accessFormat e op p n c f)) := justly fun _ => .accessFormat

theorem ite {c : Context} {b : Prop} [Decidable b] {r r' : Except Fault PhaseOut} (h : Steps c r) (h' : Steps c r') :
    Steps c (if b then r else r') := by
  split
  · exact h
  · exact h'

/-- The five phases of an instruction, one after another (R95). -/
theorem phases {c : Context} {g : Phase → Except Fault PhaseOut} (hl : Steps c (g .load)) (he : Steps c (g .execute))
    (hf : Steps c (g .format)) (hs : Steps c (g .store)) (hr : Steps c (g .retire)) (p : Phase) : Steps c (g p) := by
  cases p with
  | load => exact hl
  | execute => exact he
  | format => exact hf
  | store => exact hs
  | retire => exact hr

theorem jump (cond : Word → Bool) (dir : Direction) (off : BitVec 22) (r : Reg) (p : Phase) (e : Env) (c : Context)
    (f : InFlight) : Steps c (jumpPhase cond dir off r p e c f) :=
  phases (g := (jumpPhase cond dir off r · e c f)) (put ..) (put ..) (same c) (same c) (ite (setPc c _) (advance c)) p

theorem aluExecute (op : Word → Word → Option Word) (a b d : Reg) (e : Env) (c : Context) (f : InFlight) :
    Steps c (aluPhase op a b d .execute e c f) := by
  unfold aluPhase
  dsimp only
  split
  · exact put ..
  · exact justly fun _ => .raise

theorem alu (op : Word → Word → Option Word) (a b d : Reg) (p : Phase) (e : Env) (c : Context) (f : InFlight) :
    Steps c (aluPhase op a b d p e c f) :=
  phases (g := (aluPhase op a b d · e c f)) (put ..) (aluExecute ..) (same c) (archWrite ..) (advance c) p

/-- The phases of an instruction before its Retire (R95). -/
theorem beforeRetire {c : Context} {g : Phase → Except Fault PhaseOut} (hl : Steps c (g .load))
    (he : Steps c (g .execute)) (hf : Steps c (g .format)) (hs : Steps c (g .store)) {p : Phase} (hp : p ≠ .retire) :
    Steps c (g p) := by
  cases p with
  | load => exact hl
  | execute => exact he
  | format => exact hf
  | store => exact hs
  | retire => exact absurd rfl hp

/-- Interrupt before its Retire (R150). -/
theorem interrupt (v : BitVec 8) {p : Phase} (e : Env) (c : Context) (f : InFlight) (hp : p ≠ .retire) :
    Steps c (interruptPhase v p e c f) :=
  beforeRetire (g := (interruptPhase v · e c f)) (put ..) (put ..) (same c) (same c) hp

/-- Uninterrupt before its Retire (R151). -/
theorem uninterrupt {p : Phase} (e : Env) (c : Context) (f : InFlight) (hp : p ≠ .retire) :
    Steps c (uninterruptPhase p e c f) :=
  beforeRetire (g := (uninterruptPhase · e c f)) (put ..) (ite (put ..) (justly fun _ => .raise)) (same c) (same c) hp

/-- Every instruction but the two that change the mode: each phase is a `PhaseStep`. -/
theorem runPhase {i : Instr} (hi : ∀ v, i ≠ .interrupt v) (hu : i ≠ .uninterrupt) (p : Phase) (e : Env) (c : Context)
    (f : InFlight) : Steps c (Machine.runPhase i p e c f) := by
  cases i with
  | loadc k d => exact phases (g := (loadcPhase k d · e c f)) (put ..) (put ..) (same c) (archWrite ..) (advance c) p
  | jez | jnz | jle | jlz => exact jump ..
  | load a off d =>
    exact phases (g := (loadPhase a off d · e c f)) (put ..) (access ..) (format ..) (archWrite ..) (advance c) p
  | store a off d =>
    exact phases (g := (storePhase a off d · e c f)) (put ..) (access ..) (format ..) (same c) (advance c) p
  | clear a off =>
    exact phases (g := (clearPhase a off · e c f)) (put ..) (access ..) (format ..) (same c) (advance c) p
  | flush a off =>
    exact phases (g := (flushPhase a off · e c f)) (put ..) (access ..) (format ..) (same c) (advance c) p
  | not a d => exact phases (g := (notPhase a d · e c f)) (put ..) (put ..) (same c) (archWrite ..) (advance c) p
  | and | or | xor | leftshift | rightshift | add | subtract | multiply | divide | modulo =>
    dsimp only [Machine.runPhase, andPhase, orPhase, xorPhase, leftshiftPhase, rightshiftPhase, addPhase, subtractPhase,
      multiplyPhase, dividePhase, moduloPhase]
    exact alu ..
  | push mask =>
    exact phases (g := (pushPhase mask · e c f)) (put ..) (ite (put ..) (access ..)) (ite (same c) (format ..))
      (setSp c _) (advance c) p
  | pop mask =>
    have store : c.PhaseStep ((popRegs (maskRegs mask) f.buf c).setSp (f.op0 - BitVec.ofNat 64 (8 * maskCount mask))) :=
      (Context.PhaseStep.popRegs (maskRegs_ge mask) _ c).trans (.hwWrite _ _ (.inr (.inr rfl)))
    exact phases (g := (popPhase mask · e c f)) (put ..) (ite (put ..) (access ..)) (ite (same c) (format ..))
      (ok store) (advance c) p
  | call r => exact phases (g := (callPhase r · e c f)) (put ..) (access ..) (format ..) (setSp c _) (setPc c _) p
  | ret =>
    have store : c.PhaseStep ((c.put { f with op1 := be8 (f.buf.take 8) }).setSp (f.op0 - 8)) :=
      (Context.PhaseStep.put c _).trans (.hwWrite _ _ (.inr (.inr rfl)))
    exact phases (g := (retPhase · e c f)) (put ..) (access ..) (format ..) (ok store) (setPc c _) p
  | halt =>
    exact phases (g := (haltPhase · e c f)) (put ..) (ite (put ..) (justly fun _ => .raise)) (same c) (same c)
      (ok (.hwWrite c _ (.inr (.inl rfl)))) p
  | noop => exact phases (g := (noopPhase · e c f)) (put ..) (put ..) (same c) (same c) (advance c) p
  | sleep =>
    have store : c.PhaseStep (if c.signalled then c else { c with asleep := true }) := by
      split
      · exact .refl c
      · exact ⟨.of_regs rfl rfl, .refl _⟩
    exact phases (g := (sleepPhase · e c f)) (put ..) (put ..) (same c) (ok store) (advance c) p
  | signal r =>
    exact phases (g := (signalPhase r · e c f)) (put ..) (put ..) (same c) (ok (.refl c)) (advance c) p
  | lock =>
    exact phases (g := (lockPhase · e c f)) (put ..) (put ..) (same c) (ok ⟨.of_regs rfl rfl, .refl _⟩)
      (ite (advance c) (same c)) p
  | unlock =>
    exact phases (g := (unlockPhase · e c f)) (put ..) (put ..) (same c) (ok ⟨.of_regs rfl rfl, .refl _⟩) (advance c) p
  | interrupt v => exact absurd rfl (hi v)
  | uninterrupt => exact absurd rfl hu

end Steps

/-- All a phase can do, for every instruction. -/
theorem runPhase_change {i : Instr} {p : Phase} {e : Env} {c : Context} {f : InFlight} {out : PhaseOut}
    (h : runPhase i p e c f = .ok out) : PhaseChange i p c out.ctx := by
  by_cases hi : ∃ v, i = .interrupt v
  · obtain ⟨v, rfl⟩ := hi
    by_cases hp : p = .retire
    · subst hp
      obtain ⟨c', hc, rfl⟩ := map_ok h
      exact .entry v rfl rfl hc
    · exact .step ((Steps.interrupt v e c f hp).step out h)
  by_cases hu : i = .uninterrupt
  · subst hu
    by_cases hp : p = .retire
    · subst hp
      injection h with h
      subst h
      exact .back rfl rfl rfl
    · exact .step ((Steps.uninterrupt e c f hp).step out h)
  · exact .step ((Steps.runPhase (fun v hv => hi ⟨v, hv⟩) hu p e c f).step out h)

end Sys2Proof.Machine
end

section
/-! SUPPORT. What each stage of a Context can do, and what each agent of a clock can do to one Context. -/

namespace Sys2Proof.Machine

/-! ## The stages of a Context (R98 to R104) -/

/-- All Fetch can do: nothing, an Error, or one read of the L1I (R98, R99). -/
theorem fetchStage_ok {e : Env} {c c' : Context} (h : fetchStage e c = .ok c') :
    c' = c ∨ c.raise programAccessError = .ok c' ∨
    ∃ a port, c.l1i.port.request .read a none = .ok port ∧
      c' = { c with l1i := { c.l1i with port := port }, fetchIssued := true, fetchAddr := BitVec.ofNat 64 a } := by
  unfold fetchStage at h
  dsimp only at h
  split at h
  · injection h with h; exact .inl h.symm
  split at h
  · injection h with h; exact .inl h.symm
  split at h
  · exact .inr (.inl h)
  split at h
  · injection h with h; exact .inl h.symm
  · obtain ⟨port, hp, rfl⟩ := map_ok h
    exact .inr (.inr ⟨_, port, hp, rfl⟩)

/-- Latching a word changes only the latch and what asked for an interrupt (R100). -/
theorem latchOpcode_eq (c : Context) (word : Option InstrWord) :
    ∃ o p b, latchOpcode c word = { c with opcode := o, pending := p, signalled := b } := by
  unfold latchOpcode
  split
  · exact ⟨_, _, _, rfl⟩
  · split
    · exact ⟨_, _, _, rfl⟩
    · split
      · exact ⟨_, _, _, rfl⟩
      · exact ⟨_, _, _, rfl⟩

/-- All LoadInstruction can do: free the L1I's port, and change the latch and what asked for an interrupt (R100). -/
theorem loadInstructionStage_ok {e : Env} {c c' : Context} (h : loadInstructionStage e c = .ok c') :
    ∃ l1i b o p g, c.l1i.Driven l1i ∧
      c' = { c with l1i := l1i, fetchIssued := b, opcode := o, pending := p, signalled := g } := by
  unfold loadInstructionStage at h
  split at h
  · injection h with h
    exact ⟨c.l1i, _, _, _, _, .refl _, h.symm⟩
  · obtain ⟨⟨d, word⟩, hd, rfl⟩ := map_ok h
    obtain ⟨o, p, g, hl⟩ := latchOpcode_eq d word
    dsimp only
    rw [hl]
    unfold consumeFetch at hd
    split at hd
    · obtain ⟨port, hp, hd⟩ := map_ok hd
      injection hd with hd
      subst hd
      exact ⟨_, _, _, _, _, ⟨port, .release .refl hp, rfl⟩, rfl⟩
    · injection hd with hd
      injection hd with hd
      subst hd
      exact ⟨_, _, _, _, _, .refl _, rfl⟩

/-- All Decode can do: nothing, or put an instruction in flight in a Context that does not retry (R101). -/
theorem decodeStage_ok {c c' : Context} (h : decodeStage c = .ok c') :
    c' = c ∨ (c.isRetrying = false ∧ ∃ i b, c' = c.inFlight i b) := by
  unfold decodeStage at h
  split at h
  · injection h with h; exact .inl h.symm
  rename_i hr
  split at h
  · injection h with h; exact .inl h.symm
  · split at h
    · injection h with h; exact .inr ⟨by simpa using hr, _, _, h.symm⟩
    · cases h

/-- All a stage can do (R98 to R104): its own work on the Context, or a phase of the instruction in flight. -/
inductive StageChange (e : Env) (c : Context) : Stage → PhaseOut → Prop where
  | same (st : Stage) : StageChange e c st (.just c)
  | fetchError {c' : Context} (h : c.raise programAccessError = .ok c') : StageChange e c .fetch (.just c')
  | fetch {l1i : Cache} (a : Word) (h : c.l1i.Driven l1i) :
      StageChange e c .fetch (.just { c with l1i := l1i, fetchIssued := true, fetchAddr := a })
  | latch {l1i : Cache} (b : Bool) (o : Option Opcode) (p : Option (BitVec 8)) (g : Bool) (h : c.l1i.Driven l1i) :
      StageChange e c .loadInstruction
        (.just { c with l1i := l1i, fetchIssued := b, opcode := o, pending := p, signalled := g })
  | decode (i : Instr) (b : Bool) (hr : c.isRetrying = false) : StageChange e c .decodeInstruction (.just (c.inFlight i b))
  | phase {st : Stage} {f : InFlight} {p : Phase} {r : PhaseOut} (hst : st ≠ .retire) (hp : p ≠ .retire)
      (h : runPhase f.instr p e c f = .ok r) : StageChange e c st r
  | retire {f : InFlight} {r : PhaseOut} (hf : c.instruction = some f)
      (h : r = .just c ∨ runPhase f.instr .retire e c f = .ok r) : StageChange e c .retire (settleRetire r)

theorem phaseStage_ok {p : Phase} {e : Env} {c : Context} {r : PhaseOut} (h : phaseStage p e c = .ok r) :
    r = .just c ∨ ∃ f, c.instruction = some f ∧ runPhase f.instr p e c f = .ok r := by
  unfold phaseStage at h
  split at h
  · injection h with h; exact .inl h.symm
  · rename_i f hf; exact .inr ⟨f, hf, h⟩

theorem runStage_change {st : Stage} {e : Env} {c : Context} {r : PhaseOut} (h : runStage st e c = .ok r) :
    StageChange e c st r := by
  have phase : ∀ (st : Stage) (p : Phase), st ≠ .retire → p ≠ .retire → phaseStage p e c = .ok r →
      StageChange e c st r := by
    intro st p hst hp h
    rcases phaseStage_ok h with rfl | ⟨f, -, h⟩
    · exact .same _
    · exact .phase hst hp h
  cases st with
  | fetch =>
    obtain ⟨c', hc, rfl⟩ := justly_ok h
    rcases fetchStage_ok hc with rfl | hraise | ⟨a, port, hp, rfl⟩
    · exact .same _
    · exact .fetchError hraise
    · exact .fetch _ ⟨port, .request .refl hp, rfl⟩
  | loadInstruction =>
    obtain ⟨c', hc, rfl⟩ := justly_ok h
    obtain ⟨l1i, b, o, p, g, hd, rfl⟩ := loadInstructionStage_ok hc
    exact .latch b o p g hd
  | decodeInstruction =>
    obtain ⟨c', hc, rfl⟩ := justly_ok h
    rcases decodeStage_ok hc with rfl | ⟨hr, i, b, rfl⟩
    · exact .same _
    · exact .decode i b hr
  | loadData =>
    change loadDataStage e c = .ok r at h
    unfold loadDataStage at h
    split at h
    · injection h with h; exact h ▸ .same _
    · exact phase _ .load (by decide) (by decide) h
  | execute => exact phase _ .execute (by decide) (by decide) h
  | format => exact phase _ .format (by decide) (by decide) h
  | store =>
    change storeStage e c = .ok r at h
    unfold storeStage at h
    split at h
    · injection h with h; exact h ▸ .same _
    · split at h
      · exact .phase (by decide) (by decide) h
      · injection h with h; exact h ▸ .same _
  | retire =>
    change retireStage e c = .ok r at h
    unfold retireStage at h
    split at h
    · injection h with h; exact h ▸ .same _
    · rename_i f hf
      obtain ⟨r', hr, rfl⟩ := map_ok h
      split at hr
      · exact .retire hf (.inr hr)
      · injection hr with hr
        exact .retire hf (.inl hr.symm)

/-- The end of Retire changes only whether the instruction is still in flight (R104). -/
theorem settleRetire_ctx (r : PhaseOut) :
    (settleRetire r).ctx = r.ctx.leave ∨ (settleRetire r).ctx = { r.ctx with isRetrying := true } := by
  unfold settleRetire
  split
  · exact .inl rfl
  · exact .inr rfl

/-! ## What an agent can do to a Context -/

/-- All an agent can do to Context j of Core k, which is `c`, in the clock of a machine `s`. -/
inductive ContextChange (a : Agent) (s : State) (k : Nat) (j : Fin 8) (c : Context) : Context → Prop where
  | same : ContextChange a s k j c c
  | caches {l1i l1d : Cache} {p p' q q' : Port}
      (hi : c.l1i.clock s.cfg.l1i s.cfg.dirtyOnUnchangedWrite p = .ok (l1i, p'))
      (hd : c.l1d.clock s.cfg.l1d s.cfg.dirtyOnUnchangedWrite q = .ok (l1d, q')) :
      ContextChange a s k j c { c with l1i := l1i, l1d := l1d }
  | polled (b : Bool) : ContextChange a s k j c { c with acquiredLock := b }
  | signalled : ContextChange a s k j c c.signal
  | stage {st : Stage} {r : PhaseOut} (ha : a = .stage k st) (hj : s.atStage k st = j)
      (h : runStage st (s.env k j) c = .ok r) : ContextChange a s k j c r.ctx
  | stageSignalled {st : Stage} {r : PhaseOut} (ha : a = .stage k st) (hj : s.atStage k st = j)
      (h : runStage st (s.env k j) c = .ok r) : ContextChange a s k j c r.ctx.signal

/-- A Signal or the halt signals a Context or leaves it alone. -/
theorem State.Notified.ctx {s t : State} (h : s.Notified t) (k : Nat) (j : Fin 8) :
    t.ctx k j = s.ctx k j ∨ t.ctx k j = (s.ctx k j).signal := by
  unfold State.ctx
  rcases h.core k with hk | ⟨i, hk⟩
  · rw [hk]; exact .inl rfl
  · rw [hk, Core.ctx_setCtx]
    split
    · rename_i e; subst e; exact .inr rfl
    · exact .inl rfl

/-- WHAT AN AGENT DOES TO A CONTEXT (R98 to R110, R161 to R163). -/
theorem Agent.act_ctx {a : Agent} {s t : State} (hr : a.InRange s.coreCount) (h : a.act s = .ok t) (k : Nat) (j : Fin 8) :
    ContextChange a s k j (s.ctx k j) (t.ctx k j) := by
  have of_core : t.core k = s.core k → ContextChange a s k j (s.ctx k j) (t.ctx k j) := by
    intro e
    simp only [State.ctx, e]
    exact .same
  cases a with
  | memory =>
    rcases clockMemory_ok h with rfl | ⟨m, -, rfl⟩
    · exact .same
    · exact of_core (by cases k <;> rfl)
  | l3 =>
    rcases clockL3_ok h with rfl | ⟨l3, port, -, rfl⟩
    · exact .same
    · exact of_core (by cases k <;> rfl)
  | poll =>
    injection h with h
    subst h
    obtain ⟨b, hb⟩ := s.lockPoll_polled.core k
    simp only [State.ctx, hb]
    exact .same
  | l2 i =>
    rcases clockL2_ok h with rfl | ⟨l2, port, -, rfl⟩
    · exact .same
    · have hcore : ∀ (u : State) (x : Cache), State.core { u with l3 := x } k = u.core k := by
        intro u x; cases k <;> rfl
      simp only [State.ctx, hcore, State.core_setCore (hr _ rfl)]
      split
      · rename_i e; subst e; exact .same
      · exact .same
  | l1 i m =>
    obtain ⟨d, hc, rfl⟩ := map_ok h
    obtain ⟨l1i, p1, l1d, p2, hi, hd, rfl⟩ := Core.clockL1_ok hc
    simp only [State.ctx, State.core_setCore (hr _ rfl)]
    split
    · rename_i e
      subst e
      show ContextChange _ _ _ _ _ (((s.core k).setCtx m _).ctx j)
      rw [Core.ctx_setCtx]
      split
      · rename_i e; subst e; exact .caches hi hd
      · exact .same
    · exact .same
  | corePoll i =>
    injection h with h
    subst h
    simp only [State.ctx, State.core_setCore (hr _ rfl)]
    split
    · rename_i e
      subst e
      obtain ⟨b, hb⟩ := ((s.core k).lockPoll_polled s.cfg.lockElect).ctx j
      rw [hb]
      exact .polled b
    · exact .same
  | stage i st =>
    obtain ⟨r, hrun, hn⟩ := clockStage_ok h
    have hctx := hn.ctx k j
    rw [State.ctx_setCtx (hr _ rfl)] at hctx
    split at hctx
    · rename_i e
      obtain ⟨rfl, rfl⟩ := e
      rcases hctx with hctx | hctx
      · rw [hctx]; exact .stage rfl rfl hrun
      · rw [hctx]; exact .stageSignalled rfl rfl hrun
    · rcases hctx with hctx | hctx
      · rw [hctx]; exact .same
      · rw [hctx]; exact .signalled
  | coreTick i =>
    injection h with h
    subst h
    simp only [State.ctx, State.core_setCore (hr _ rfl)]
    split
    · rename_i e; subst e; exact .same
    · exact .same
  | device d =>
    rcases clockDevice_ok h with rfl | ⟨x, cfg, x', port, done, -, -, hn⟩
    · exact .same
    · have hctx := hn.ctx k j
      have hcore : State.ctx { s with devices := s.devices.set d x', memory := { s.memory with port := port } } k j
          = s.ctx k j := by cases k <;> rfl
      rw [hcore] at hctx
      rcases hctx with hctx | hctx
      · rw [hctx]; exact .same
      · rw [hctx]; exact .signalled

/-! ## Invariants of the Contexts -/

theorem State.everyContext_iff {s : State} {p : Context → Prop} :
    s.EveryContext p ↔ ∀ k < s.coreCount, ∀ j, p (s.ctx k j) := by
  constructor
  · rintro ⟨h0, hu⟩ k hk j
    cases k with
    | zero => exact h0 j
    | succ k =>
      have hk : k < s.upper.length := by simp only [State.coreCount] at hk; omega
      simp only [State.ctx, State.core_succ, getD_of_lt _ hk]
      exact hu _ (List.getElem_mem hk) j
  · intro h
    refine ⟨fun j => h 0 (by simp [State.coreCount]) j, fun c hc j => ?_⟩
    obtain ⟨k, hk, rfl⟩ := List.getElem_of_mem hc
    have := h (k + 1) (by simp only [State.coreCount]; omega) j
    simpa only [State.ctx, State.core_succ, getD_of_lt _ hk] using this

theorem State.tick_ctx (s : State) (k : Nat) (j : Fin 8) : s.tick.ctx k j = s.ctx k j := by cases k <;> rfl

/-- AN INVARIANT OF EVERY CONTEXT: what every change of a Context keeps, a step keeps. -/
theorem step_keeps_everyContext {p : Context → Prop}
    (hp : ∀ {a : Agent} {s : State} {k : Nat} {j : Fin 8} {c c' : Context}, ContextChange a s k j c c' → p c → p c')
    {s t : State} (h : step s = .next t) (hs : s.EveryContext p) : t.EveryContext p := by
  refine step_keeps (P := fun s => s.EveryContext p) (fun a s t hr ha hs => ?_) (fun s hs => ?_) h hs
  · rw [State.everyContext_iff] at hs ⊢
    intro k hk j
    rw [(Agent.act_shape ha).coreCount] at hk
    exact hp (Agent.act_ctx hr ha k j) (hs k hk j)
  · rw [State.everyContext_iff] at hs ⊢
    intro k hk j
    rw [State.tick_ctx]
    exact hs k hk j

end Sys2Proof.Machine
end

section
/-! Obligation O58: a Context that retries has an instruction in flight. -/

namespace Sys2Proof.Machine

/-- A stage keeps it (R30, R104): Decode leaves a retrying Context alone, no phase loses the instruction, and Retire marks a
retry only while it is in flight. -/
theorem StageChange.retryHasInstruction {st : Stage} {e : Env} {c : Context} {r : PhaseOut}
    (h : StageChange e c st r) (hc : c.RetryHasInstruction) : r.ctx.RetryHasInstruction := by
  cases h with
  | same => exact hc
  | fetchError h =>
    obtain ⟨-, -, rfl⟩ := Context.raise_ok h
    exact fun hr => by simpa [PhaseOut.just] using hc hr
  | fetch => exact hc
  | latch => exact hc
  | decode => exact fun _ => rfl
  | phase _ _ h =>
    have frame := (runPhase_frame ..).frame r h
    exact fun hr => frame.instruction (hc (frame.isRetrying ▸ hr))
  | @retire f r hf h =>
    have held : r.ctx.instruction.isSome = true := by
      rcases h with rfl | h
      · simp [PhaseOut.just, hf]
      · exact ((runPhase_frame ..).frame r h).instruction (by simp [hf])
    rcases settleRetire_ctx r with hs | hs
    · rw [hs]; exact fun hr => by cases hr
    · rw [hs]; exact fun _ => held

/-- Every change of a Context keeps it. -/
theorem ContextChange.retryHasInstruction {a : Agent} {s : State} {k : Nat} {j : Fin 8} {c c' : Context}
    (h : ContextChange a s k j c c') (hc : c.RetryHasInstruction) : c'.RetryHasInstruction := by
  cases h with
  | same => exact hc
  | caches => exact hc
  | polled => exact hc
  | signalled => exact hc
  | stage _ _ h => exact (runStage_change h).retryHasInstruction hc
  | stageSignalled _ _ h => exact (runStage_change h).retryHasInstruction hc

/-- Settles O58: the retry mark is an invariant of every Context, kept by every change of one. -/
theorem retryHasInstruction : Obligations.RetryHasInstruction := by
  intro s t hs h
  exact step_keeps_everyContext ContextChange.retryHasInstruction h hs

end Sys2Proof.Machine
end

section
/-! Obligation O45: in normal mode the control registers are out of reach. The Retire stage of a Core, where the mode may
change, comes once in a clock; everything before and after it keeps the mode. -/

namespace Sys2Proof.Machine

/-- What a Retire that may change the mode still does: a Context that stays in normal mode keeps its control registers. -/
def Context.KeepsControlInNormal (c c' : Context) : Prop :=
  c.interrupted = false → c'.interrupted = false → c.SameControl c'

theorem Context.KeepsControl.inNormal {c c' : Context} (h : c.KeepsControl c') : c.KeepsControlInNormal c' :=
  fun hn _ => h.control hn

/-- A phase before Retire keeps the mode and, in normal mode, the control registers. -/
theorem PhaseChange.keepsControl {i : Instr} {p : Phase} {c c' : Context} (h : PhaseChange i p c c')
    (hp : p ≠ .retire) : c.KeepsControl c' := by
  cases h with
  | step h => exact h.control
  | entry _ _ h => exact absurd h hp
  | back _ h => exact absurd h hp

/-- A phase of a Context that stays in normal mode keeps the control registers: an interrupt entry leaves the mode, and
Uninterrupt's return writes only PC. -/
theorem PhaseChange.keepsControlInNormal {i : Instr} {p : Phase} {c c' : Context} (h : PhaseChange i p c c') :
    c.KeepsControlInNormal c' := by
  cases h with
  | step h => exact h.control.inNormal
  | entry _ _ _ h =>
    obtain ⟨-, rfl⟩ := Context.interruptEntry_ok h
    intro _ hn
    simp [Context.setPc] at hn
  | back _ _ h =>
    subst h
    exact fun _ _ => Context.SameControl.trans (.hwWrite c c.ipc (.inr (.inl rfl))) (.of_regs rfl)

/-- A stage other than Retire keeps the mode and, in normal mode, the control registers. -/
theorem StageChange.keepsControl {st : Stage} {e : Env} {c : Context} {r : PhaseOut} (h : StageChange e c st r)
    (hst : st ≠ .retire) : c.KeepsControl r.ctx := by
  cases h with
  | same => exact .of_regs rfl rfl
  | fetchError h => exact (Context.PhaseStep.raise h).control
  | fetch => exact .of_regs rfl rfl
  | latch => exact .of_regs rfl rfl
  | decode => exact .of_regs rfl rfl
  | phase _ hp h => exact (runPhase_change h).keepsControl hp
  | retire => exact absurd rfl hst

/-- Every stage of a Context that stays in normal mode keeps the control registers. -/
theorem StageChange.keepsControlInNormal {st : Stage} {e : Env} {c : Context} {r : PhaseOut} (h : StageChange e c st r) :
    c.KeepsControlInNormal r.ctx := by
  by_cases hst : st = .retire
  · subst hst
    cases h with
    | same => exact fun _ _ => .of_regs rfl
    | phase hst => exact absurd rfl hst
    | @retire f r hf h =>
      have before : c.KeepsControlInNormal r.ctx := by
        rcases h with rfl | h
        · exact fun _ _ => .of_regs rfl
        · exact (runPhase_change h).keepsControlInNormal
      rcases settleRetire_ctx r with hs | hs
      · rw [hs]; exact fun hn hn' => (before hn hn').trans (.of_regs rfl)
      · rw [hs]; exact fun hn hn' => (before hn hn').trans (.of_regs rfl)
  · exact (h.keepsControl hst).inNormal

/-- Every agent but a Core's Retire stage keeps the mode of its Contexts and, in normal mode, their control registers. -/
theorem ContextChange.keepsControl {a : Agent} {s : State} {k : Nat} {j : Fin 8} {c c' : Context}
    (h : ContextChange a s k j c c') (ha : a ≠ .stage k .retire) : c.KeepsControl c' := by
  have notRetire : ∀ {st : Stage}, a = .stage k st → st ≠ .retire := fun e hst => ha (hst ▸ e)
  cases h with
  | same => exact .of_regs rfl rfl
  | caches => exact .of_regs rfl rfl
  | polled => exact .of_regs rfl rfl
  | signalled => exact .of_regs rfl rfl
  | stage ha _ h => exact (runStage_change h).keepsControl (notRetire ha)
  | stageSignalled ha _ h => exact ((runStage_change h).keepsControl (notRetire ha)).trans (.of_regs rfl rfl)

/-- Every agent keeps the control registers of a Context that stays in normal mode. -/
theorem ContextChange.keepsControlInNormal {a : Agent} {s : State} {k : Nat} {j : Fin 8} {c c' : Context}
    (h : ContextChange a s k j c c') : c.KeepsControlInNormal c' := by
  cases h with
  | same => exact fun _ _ => .of_regs rfl
  | caches => exact fun _ _ => .of_regs rfl
  | polled => exact fun _ _ => .of_regs rfl
  | signalled => exact fun _ _ => .of_regs rfl
  | stage _ _ h => exact (runStage_change h).keepsControlInNormal
  | stageSignalled _ _ h =>
    exact fun hn hn' => ((runStage_change h).keepsControlInNormal hn hn').trans (.of_regs rfl)

/-! ## Where the Retire stage of a Core stands in the schedule -/

/-- A list of agents without the Retire stage of Core k keeps the mode and the control registers of its Contexts. -/
theorem Runs.keepsControl {l : List Agent} {s t : State} (h : Runs l s t) {k : Nat} (hk : .stage k .retire ∉ l)
    (hl : ∀ a ∈ l, a.InRange s.coreCount) (j : Fin 8) : (s.ctx k j).KeepsControl (t.ctx k j) := by
  induction l generalizing s with
  | nil => injection h with h; subst h; exact .of_regs rfl rfl
  | cons a l ih =>
    obtain ⟨u, ha, h⟩ := runs_cons h
    have hne : a ≠ .stage k .retire := fun e => hk (e ▸ List.mem_cons_self)
    refine ((Agent.act_ctx (hl a (by simp)) ha k j).keepsControl hne).trans (ih h ?_ ?_)
    · exact fun hm => hk (List.mem_cons_of_mem a hm)
    · rw [(Agent.act_shape ha).coreCount]
      exact fun b hb => hl b (List.mem_cons_of_mem a hb)

/-- The Retire stage is the first of the stages of a Core, and comes once (R106). -/
theorem coreAgents_split (k : Nat) : ∃ l l', coreAgents k = l ++ .stage k .retire :: l' ∧
    .stage k .retire ∉ l ∧ .stage k .retire ∉ l' := by
  refine ⟨.l2 k :: (allCtx.map (.l1 k) ++ [.corePoll k]), allStages.tail.map (.stage k) ++ [.coreTick k], ?_, ?_, ?_⟩
  · simp [coreAgents, allStages, stagesBeforeDecode]
  · simp
  · simp [allStages, stagesBeforeDecode, stagesAfterDecode]

/-- The Retire stage of a Core comes exactly once in a clock (R106, R110). -/
theorem State.schedule_split {s : State} {k : Nat} (hk : k < s.coreCount) :
    ∃ l l', s.schedule = l ++ .stage k .retire :: l' ∧ .stage k .retire ∉ l ∧ .stage k .retire ∉ l' := by
  obtain ⟨c, c', hc, hcn, hcn'⟩ := coreAgents_split k
  have hrange : List.range s.coreCount = List.range k ++ k :: (List.range (s.coreCount - k - 1)).map (k + 1 + ·) := by
    have : s.coreCount = k + 1 + (s.coreCount - k - 1) := by omega
    conv_lhs => rw [this, List.range_add, List.range_succ]
    simp
  have other : ∀ (l : List Nat), k ∉ l → .stage k .retire ∉ l.flatMap coreAgents := by
    intro l hl hm
    obtain ⟨i, hi, hm⟩ := List.mem_flatMap.1 hm
    have := coreAgents_core hm
    injection this with e
    exact hl (e ▸ hi)
  refine ⟨[.memory, .l3, .poll] ++ ((List.range k).flatMap coreAgents ++ c),
    c' ++ (((List.range (s.coreCount - k - 1)).map (k + 1 + ·)).flatMap coreAgents ++
      if s.cycle % s.cfg.divDev = 0 then (List.range s.devices.length).map .device else []), ?_, ?_, ?_⟩
  · simp only [State.schedule, hrange, List.flatMap_append, List.flatMap_cons, hc]
    simp
  · have := other (List.range k) (by simp)
    simp [this, hcn]
  · have := other ((List.range (s.coreCount - k - 1)).map (k + 1 + ·)) (by simp; omega)
    simp only [List.mem_append, hcn', this, false_or]
    split <;> simp

/-- A clock keeps the control registers of a Context in normal mode before and after it. -/
theorem processorClock_keepsControlInNormal {s t : State} {k : Nat} (h : processorClock s = .ok t)
    (hk : k < s.coreCount) (j : Fin 8) : (s.ctx k j).KeepsControlInNormal (t.ctx k j) := by
  cases hrun : s.halted with
  | true =>
    rw [processorClock, hrun] at h
    injection h with h
    subst h
    exact fun _ _ => .of_regs rfl
  | false =>
    obtain ⟨u, hu, rfl⟩ := processorClock_runs hrun h
    obtain ⟨l, l', hl, hn, hn'⟩ := State.schedule_split hk
    have hrange := s.schedule_inRange
    rw [hl] at hu hrange
    obtain ⟨s1, h1, h2⟩ := runs_append.1 hu
    obtain ⟨s2, hretire, h3⟩ := runs_cons h2
    have shape1 := h1.shape.coreCount
    have shape2 := (Agent.act_shape hretire).coreCount
    have before : (s.ctx k j).KeepsControl (s1.ctx k j) :=
      h1.keepsControl hn (fun a ha => hrange a (List.mem_append_left _ ha)) j
    have retire : (s1.ctx k j).KeepsControlInNormal (s2.ctx k j) :=
      (Agent.act_ctx (shape1 ▸ hrange _ (by simp)) hretire k j).keepsControlInNormal
    have after : (s2.ctx k j).KeepsControl (u.ctx k j) :=
      h3.keepsControl hn' (fun a ha => by rw [shape2, shape1]; exact hrange a (by simp [ha])) j
    rw [State.tick_ctx]
    intro hs hu
    have hs1 : (s1.ctx k j).interrupted = false := before.mode.trans hs
    have hs2 : (s2.ctx k j).interrupted = false := after.mode.symm.trans hu
    exact ((before.control hs).trans (retire hs1 hs2)).trans (after.control hs2)

/-- Settles O45: the agents before the Core's Retire stage, that stage, and the agents after it, one after another. -/
theorem normalModeIsolation : Obligations.NormalModeIsolation := by
  intro s t k j r h hk hs ht hr
  exact processorClock_keepsControlInNormal h hk j hs ht (s.env k j) r hr

end Sys2Proof.Machine
end

section
/-! SUPPORT. What each agent of a clock can do to a cache, to Memory and to a Device's port: a requester drives the port by
the Store protocol, or the owner clocks. -/

namespace Sys2Proof.Machine

/-! ## A cache's own work -/

/-- A byte position is valid where it is dirty (R37). -/
def Lane.DirtyValid (l : Lane) : Prop := l.dirty = true → l.valid = true

/-- Every dirty byte of a line is valid (R37). -/
def Line.DirtyValid (ln : Line) : Prop := ∀ l ∈ ln.lanes, l.DirtyValid

/-- What the work of a cache can do, before its request is resolved: of its port it changes only the Bus, it drives its lower
Store's port by the protocol, and its dirty bytes stay valid (R37, R52 to R62). -/
structure Cache.Works (c : Cache) (lower : Port) (c' : Cache) (lower' : Port) : Prop where
  port : ∃ bus, c'.port = { c.port with bus := bus }
  lower : lower.Driven lower'
  dirty : c.DirtyValid → c'.DirtyValid

theorem Cache.Works.refl (c : Cache) (lower : Port) : c.Works lower c lower := ⟨⟨_, rfl⟩, .refl, id⟩

theorem Cache.Works.trans {c d e : Cache} {p q r : Port} (h : c.Works p d q) (h' : d.Works q e r) : c.Works p e r := by
  obtain ⟨b, hb⟩ := h.port
  obtain ⟨b', hb'⟩ := h'.port
  exact ⟨⟨b', by rw [hb', hb]⟩, h.lower.trans h'.lower, fun x => h'.dirty (h.dirty x)⟩

/-- Only the miss-handling state changes, and the lower Store's port. -/
theorem Cache.Works.requests {c : Cache} {lower lower' : Port} (h : lower.Driven lower') (lp : LowerRequest)
    (fill : Option (Nat × List Byte)) : c.Works lower { c with lp := lp, fill := fill } lower' := ⟨⟨_, rfl⟩, h, id⟩

/-- Only one line changes. -/
theorem Cache.Works.setLine {c : Cache} {lower : Port} (j : Nat) {ln : Line} (h : c.DirtyValid → ln.DirtyValid) :
    c.Works lower (c.setLine j ln) lower := by
  refine ⟨⟨_, rfl⟩, .refl, fun hc ln' hm => ?_⟩
  rcases List.mem_or_eq_of_mem_set hm with hm | rfl
  · exact hc _ hm
  · exact h hc

/-! ## Dirty bytes of a line -/

theorem Cache.DirtyValid.line {c : Cache} (h : c.DirtyValid) (g : CacheConfig) (j : Nat) : (c.line g j).DirtyValid := by
  unfold Cache.line
  rcases lt_or_ge j c.lines.length with hj | hj
  · rw [getD_of_lt _ hj]
    exact h _ (List.getElem_mem hj)
  · rw [List.getD_eq_default _ _ hj]
    intro l hl hd
    rw [List.eq_of_mem_replicate hl] at hd
    cases hd

/-- Lanes made position by position from two lists are valid where dirty, when each made lane is. -/
theorem dirtyValid_zipWith {α : Type} {g : Lane → α → Lane} {xs : List Lane} {ys : List α}
    (h : ∀ l ∈ xs, ∀ y, (g l y).DirtyValid) : ∀ l ∈ List.zipWith g xs ys, l.DirtyValid := by
  intro l hl
  rw [← List.map_uncurry_zip_eq_zipWith] at hl
  obtain ⟨⟨x, y⟩, hxy, rfl⟩ := List.mem_map.1 hl
  exact h x (List.of_mem_zip hxy).1 y

/-- A fetched line has no dirty byte (R54). -/
theorem dirtyValid_readBus (bytes : List Byte) : ∀ l ∈ readBus bytes, l.DirtyValid := by
  intro l hl hd
  obtain ⟨b, -, rfl⟩ := List.mem_map.1 hl
  cases hd

/-- A line keeps its dirty bytes valid when the bytes written over it have theirs. -/
theorem dirtyValid_overwrite {xs ys : List Lane} (w : Nat) (hx : ∀ l ∈ xs, l.DirtyValid)
    (hy : ∀ l ∈ ys, l.DirtyValid) : ∀ l ∈ overwrite xs w ys, l.DirtyValid := by
  intro l hl
  simp only [overwrite, List.mem_append] at hl
  rcases hl with (hl | hl) | hl
  · exact hx l (List.mem_of_mem_take hl)
  · exact hy l hl
  · exact hx l (List.mem_of_mem_drop hl)

/-- A cleared byte is not dirty (R61). -/
theorem dirtyValid_cleared (xs : List Lane) : ∀ l ∈ xs.map Lane.cleared, l.DirtyValid := by
  intro l hl hd
  obtain ⟨x, -, rfl⟩ := List.mem_map.1 hl
  cases hd

/-- A filled byte is valid (R54). -/
theorem Lane.DirtyValid.fill (l : Lane) (b : Byte) : (l.fill b).DirtyValid := fun _ => rfl

/-- A written byte is valid, the others stay as they are (R58). -/
theorem Lane.DirtyValid.written {l : Lane} (h : l.DirtyValid) (always : Bool) (b : Lane) :
    (Lane.written always l b).DirtyValid := by
  unfold Lane.written
  split
  · exact fun _ => rfl
  · exact h

/-- Clearing a dirty bit keeps the valid bit (R53). -/
theorem Lane.DirtyValid.cleaned {l : Lane} (h : l.DirtyValid) (m : Bool) : (l.cleaned m).DirtyValid := by
  unfold Lane.cleaned
  split
  · exact fun hd => by cases hd
  · exact h

theorem Line.DirtyValid.write {ln : Line} (h : ln.DirtyValid) (always : Bool) (w : Nat) (bus : List Lane) :
    (ln.write always w bus).DirtyValid :=
  dirtyValid_overwrite w h (dirtyValid_zipWith fun l hl b =>
    Lane.DirtyValid.written (h l (List.mem_of_mem_drop (List.mem_of_mem_take hl))) always b)

/-! ## The parts of a cache's clock (R52 to R62) -/

theorem Cache.install_works {g : CacheConfig} {c c' : Cache} {lower lower' : Port} {la : Nat} {fetched : List Byte}
    (h : c.install g lower la fetched = .ok (c', lower')) : c.Works lower c' lower' := by
  unfold Cache.install at h
  dsimp only at h
  split at h
  · obtain ⟨rfl, rfl⟩ := Prod.mk.inj (Except.ok.inj h)
    exact .setLine _ fun hd => dirtyValid_zipWith fun l _ b => .fill l b
  split at h
  · obtain ⟨rfl, rfl⟩ := Prod.mk.inj (Except.ok.inj h)
    exact .setLine _ fun _ => dirtyValid_readBus fetched
  · obtain ⟨p, hp, h⟩ := map_ok h
    obtain ⟨rfl, rfl⟩ := Prod.mk.inj h
    exact .requests (.request .refl hp) _ _

theorem Cache.requestFetch_works {c : Cache} {lower : Port} {la : Nat} {r : Cache × Port}
    (h : c.requestFetch lower la = .ok r) : c.Works lower r.1 r.2 := by
  rcases Cache.requestFetch_ok h with rfl | ⟨-, -, hc, hp⟩
  · exact .refl ..
  · rw [hc]; exact .requests (.request .refl hp) _ c.fill

theorem Cache.requestWriteBack_works {g : CacheConfig} {c : Cache} {lower : Port} {va : Nat} {mask : List Bool}
    {r : Cache × Port} (h : c.requestWriteBack g lower va mask = .ok r) : c.Works lower r.1 r.2 := by
  rcases Cache.requestWriteBack_ok h with rfl | ⟨-, -, hc, hp⟩
  · exact .refl ..
  · rw [hc]; exact .requests (.request .refl hp) _ c.fill

theorem Cache.cleanLine_works (g : CacheConfig) (c : Cache) (lower : Port) (va : Nat) (mask : List Bool) :
    c.Works lower (c.cleanLine g va mask) lower :=
  .setLine _ fun hc => dirtyValid_zipWith fun l hl m => (hc.line g _ l hl).cleaned m

/-- The background work (R53). -/
theorem Cache.background_works {g : CacheConfig} {c c' : Cache} {lower lower' : Port}
    (h : c.background g lower = .ok (c', lower')) : c.Works lower c' lower' := by
  unfold Cache.background at h
  split at h
  · split at h
    · obtain ⟨rfl, rfl⟩ := Prod.mk.inj (Except.ok.inj h)
      exact .refl ..
    · obtain ⟨p, hp, h⟩ := bind_ok h
      dsimp only at h
      have freed : c.Works lower { c with lp := .idle } p := .requests (.release .refl hp) .idle c.fill
      split at h
      · exact freed.trans (Cache.install_works h)
      · obtain ⟨rfl, rfl⟩ := Prod.mk.inj (Except.ok.inj h)
        exact freed
    · rename_i va mask withFill hlp
      obtain ⟨p, hp, h⟩ := bind_ok h
      dsimp only at h
      have freed : c.Works lower { c with lp := .idle } p := .requests (.release .refl hp) .idle c.fill
      have cleaned := freed.trans (Cache.cleanLine_works g { c with lp := .idle } p va mask)
      split at h
      · split at h
        · split at h
          · exact (cleaned.trans (.requests .refl _ none)).trans (Cache.install_works h)
          · obtain ⟨rfl, rfl⟩ := Prod.mk.inj (Except.ok.inj h)
            exact cleaned
        · obtain ⟨rfl, rfl⟩ := Prod.mk.inj (Except.ok.inj h)
          exact cleaned
      · obtain ⟨rfl, rfl⟩ := Prod.mk.inj (Except.ok.inj h)
        exact freed.trans (.requests .refl _ none)
  · obtain ⟨rfl, rfl⟩ := Prod.mk.inj (Except.ok.inj h)
    exact .refl ..

theorem Cache.attemptRead_works {g : CacheConfig} {c : Cache} {lower : Port} {a : Nat} {r : Bool × Cache × Port}
    (h : c.attemptRead g lower a = .ok r) : c.Works lower r.2.1 r.2.2 := by
  unfold Cache.attemptRead at h
  dsimp only at h
  split at h
  · injection h with h
    subst h
    exact ⟨⟨_, rfl⟩, .refl, id⟩
  · obtain ⟨x, hx, rfl⟩ := map_ok h
    exact Cache.requestFetch_works hx

theorem Cache.attemptWrite_works {g : CacheConfig} {always : Bool} {c : Cache} {lower : Port} {a : Nat}
    {r : Bool × Cache × Port} (h : c.attemptWrite g always lower a = .ok r) : c.Works lower r.2.1 r.2.2 := by
  unfold Cache.attemptWrite at h
  dsimp only at h
  split at h
  · obtain ⟨x, hx, rfl⟩ := map_ok h
    exact Cache.requestWriteBack_works hx
  split at h
  · injection h with h
    subst h
    exact .refl ..
  · injection h with h
    subst h
    refine .setLine _ fun hc => Line.DirtyValid.write ?_ always _ _
    split
    · exact hc.line g _
    · exact dirtyValid_cleared _

theorem Cache.attemptClear_works {g : CacheConfig} {c : Cache} {lower : Port} {a : Nat} {r : Bool × Cache × Port}
    (h : c.attemptClear g lower a = .ok r) : c.Works lower r.2.1 r.2.2 := by
  unfold Cache.attemptClear at h
  dsimp only at h
  split at h
  · injection h with h
    subst h
    exact .setLine _ fun hc => dirtyValid_overwrite _ (hc.line g _) (dirtyValid_cleared _)
  · injection h with h
    subst h
    exact .refl ..

theorem Cache.attemptFlush_works {g : CacheConfig} {c : Cache} {lower : Port} {a : Nat} {r : Bool × Cache × Port}
    (h : c.attemptFlush g lower a = .ok r) : c.Works lower r.2.1 r.2.2 := by
  unfold Cache.attemptFlush at h
  dsimp only at h
  split at h
  · obtain ⟨x, hx, rfl⟩ := map_ok h
    exact Cache.requestWriteBack_works hx
  · injection h with h
    subst h
    exact .refl ..

theorem Cache.attempt_works {g : CacheConfig} {always : Bool} {c : Cache} {lower : Port} {r : Bool × Cache × Port}
    (h : c.attempt g always lower = .ok r) : c.Works lower r.2.1 r.2.2 := by
  unfold Cache.attempt at h
  split at h
  · exact Cache.attemptRead_works h
  · exact Cache.attemptWrite_works h
  · exact Cache.attemptClear_works h
  · exact Cache.attemptFlush_works h

/-- All a clock of a cache can do (R52): its work, and then the result of its request. -/
theorem Cache.clock_works {g : CacheConfig} {always : Bool} {c c' : Cache} {lower lower' : Port}
    (h : c.clock g always lower = .ok (c', lower')) :
    ∃ d, c.Works lower d lower' ∧ (c' = d ∨ ∃ ok, c' = { d with port := d.port.resolve ok }) := by
  obtain ⟨⟨c1, lower1⟩, hb, h⟩ := bind_ok h
  have background := Cache.background_works hb
  dsimp only at h
  split at h
  · obtain ⟨⟨ok, c2, lower2⟩, ha, h⟩ := map_ok h
    obtain ⟨rfl, rfl⟩ := Prod.mk.inj h
    exact ⟨c2, background.trans (Cache.attempt_works ha), .inr ⟨ok, rfl⟩⟩
  · obtain ⟨rfl, rfl⟩ := Prod.mk.inj (Except.ok.inj h)
    exact ⟨c1, background, .inl rfl⟩

/-- A clock of a cache drives the port of its lower Store by the protocol (R53, R55). -/
theorem Cache.clock_drives {g : CacheConfig} {always : Bool} {c c' : Cache} {lower lower' : Port}
    (h : c.clock g always lower = .ok (c', lower')) : lower.Driven lower' := by
  obtain ⟨d, hw, -⟩ := Cache.clock_works h
  exact hw.lower

/-! ## A Device's clock (R170) -/

theorem Device.consume_drives {cfg : Config} {d : DeviceConfig} {x x' : Device} {mem mem' : Port}
    (h : x.consume cfg d mem = .ok (x', mem')) : mem.Driven mem' ∧ x'.port = x.port := by
  unfold Device.consume at h
  split at h
  · split at h
    · obtain ⟨rfl, rfl⟩ := Prod.mk.inj (Except.ok.inj h)
      exact ⟨.refl, rfl⟩
    · dsimp only at h
      split at h
      all_goals
        obtain ⟨work, -, h⟩ := bind_ok h
        obtain ⟨p, hp, h⟩ := bind_ok h
        obtain ⟨rfl, rfl⟩ := Prod.mk.inj (Except.ok.inj h)
        exact ⟨.release .refl hp, rfl⟩
  · obtain ⟨rfl, rfl⟩ := Prod.mk.inj (Except.ok.inj h)
    exact ⟨.refl, rfl⟩

theorem Device.issue_drives {cfg : Config} {d : DeviceConfig} {idx : Nat} {x x' : Device} {mem mem' : Port}
    (h : x.issue cfg d idx mem = .ok (x', mem')) : mem.Driven mem' ∧ x'.port = x.port := by
  unfold Device.issue at h
  split at h
  · obtain ⟨rfl, rfl⟩ := Prod.mk.inj (Except.ok.inj h)
    exact ⟨.refl, rfl⟩
  split at h
  · obtain ⟨rfl, rfl⟩ := Prod.mk.inj (Except.ok.inj h)
    exact ⟨.refl, rfl⟩
  dsimp only at h
  split at h
  all_goals
    obtain ⟨p, hp, h⟩ := map_ok h
    obtain ⟨rfl, rfl⟩ := Prod.mk.inj h
    exact ⟨.request .refl hp, rfl⟩

/-- A clock of a Device drives Memory's port by the protocol and leaves the Device's own alone. -/
theorem Device.clock_drives {cfg : Config} {d : DeviceConfig} {idx : Nat} {x x' : Device} {mem mem' : Port}
    {done : Option (BitVec 32)} (h : x.clock cfg d idx mem = .ok (x', mem', done)) :
    mem.Driven mem' ∧ x'.port = x.port := by
  unfold Device.clock at h
  split at h
  · cases h
  obtain ⟨⟨x1, mem1⟩, hc, h⟩ := bind_ok h
  dsimp only at h
  obtain ⟨⟨x3, mem2⟩, hi, h⟩ := bind_ok h
  injection h with h
  injection h with hx h
  injection h with hm hd
  subst hx hm
  obtain ⟨drives1, port1⟩ := Device.consume_drives hc
  obtain ⟨drives2, port2⟩ := Device.issue_drives hi
  refine ⟨drives1.trans drives2, port2.trans (Eq.trans ?_ port1)⟩
  split <;> rfl

/-! ## What an agent can do to a cache -/

/-- All an agent can do to a cache: its requester drives its port, or it clocks. -/
inductive CacheChange (c c' : Cache) : Prop where
  | driven (h : c.Driven c')
  | clock {g : CacheConfig} {always : Bool} {p p' : Port} (h : c.clock g always p = .ok (c', p'))

theorem CacheChange.refl (c : Cache) : CacheChange c c := .driven (.refl c)

/-- A phase leaves the L1I alone and drives the L1D by the protocol. -/
theorem PhaseChange.l1d {i : Instr} {p : Phase} {c c' : Context} (h : PhaseChange i p c c') : c.l1d.Driven c'.l1d := by
  cases h with
  | step h => exact h.l1d
  | entry _ _ _ h =>
    obtain ⟨-, rfl⟩ := Context.interruptEntry_ok h
    simpa [Context.setPc] using Cache.Driven.refl c.l1d
  | back _ _ h =>
    subst h
    exact .refl _

/-- A stage drives the L1 caches of its Context by the protocol. -/
theorem StageChange.caches {st : Stage} {e : Env} {c : Context} {r : PhaseOut} (h : StageChange e c st r) :
    c.l1i.Driven r.ctx.l1i ∧ c.l1d.Driven r.ctx.l1d := by
  have ofPhase : ∀ {i : Instr} {p : Phase} {f : InFlight} {r : PhaseOut}, runPhase i p e c f = .ok r →
      c.l1i.Driven r.ctx.l1i ∧ c.l1d.Driven r.ctx.l1d := by
    intro i p f r h
    rw [((runPhase_frame ..).frame r h).l1i]
    exact ⟨.refl _, (runPhase_change h).l1d⟩
  cases h with
  | same => exact ⟨.refl _, .refl _⟩
  | fetchError h =>
    obtain ⟨-, -, rfl⟩ := Context.raise_ok h
    exact ⟨.refl _, .refl _⟩
  | fetch _ h => exact ⟨h, .refl _⟩
  | latch _ _ _ _ h => exact ⟨h, .refl _⟩
  | decode => exact ⟨.refl _, .refl _⟩
  | phase _ _ h => exact ofPhase h
  | @retire f r hf h =>
    have before : c.l1i.Driven r.ctx.l1i ∧ c.l1d.Driven r.ctx.l1d := by
      rcases h with rfl | h
      · exact ⟨.refl _, .refl _⟩
      · exact ofPhase h
    rcases settleRetire_ctx r with hs | hs
    · rw [hs]; exact before
    · rw [hs]; exact before

/-- What an agent does to the L1 caches of a Context. -/
theorem ContextChange.caches_change {a : Agent} {s : State} {k : Nat} {j : Fin 8} {c c' : Context}
    (h : ContextChange a s k j c c') : CacheChange c.l1i c'.l1i ∧ CacheChange c.l1d c'.l1d := by
  cases h with
  | same => exact ⟨.refl _, .refl _⟩
  | caches hi hd => exact ⟨.clock hi, .clock hd⟩
  | polled => exact ⟨.refl _, .refl _⟩
  | signalled => exact ⟨.refl _, .refl _⟩
  | stage _ _ h | stageSignalled _ _ h =>
    obtain ⟨hi, hd⟩ := (runStage_change h).caches
    exact ⟨.driven hi, .driven hd⟩

theorem Core.Notified.l2 {c d : Core} (h : c.Notified d) : d.l2 = c.l2 := by
  rcases h with rfl | ⟨j, rfl⟩ <;> rfl

/-- What an agent does to the L2 of a Core (R106). -/
theorem Agent.act_l2 {a : Agent} {s t : State} (hr : a.InRange s.coreCount) (h : a.act s = .ok t) (k : Nat) :
    CacheChange (s.core k).l2 (t.core k).l2 := by
  have of_core : t.core k = s.core k → CacheChange (s.core k).l2 (t.core k).l2 := fun e => e ▸ .refl _
  have of_setCore : ∀ (i : Nat) (c : Core) (u : State), i < s.coreCount → u.core k = (s.setCore i c).core k →
      CacheChange (s.core i).l2 c.l2 → CacheChange (s.core k).l2 (u.core k).l2 := by
    intro i c u hi hu hc
    rw [hu, State.core_setCore hi]
    split
    · rename_i e; subst e; exact hc
    · exact .refl _
  cases a with
  | memory =>
    rcases clockMemory_ok h with rfl | ⟨m, -, rfl⟩
    · exact .refl _
    · exact of_core (by cases k <;> rfl)
  | l3 =>
    rcases clockL3_ok h with rfl | ⟨l3, port, -, rfl⟩
    · exact .refl _
    · exact of_core (by cases k <;> rfl)
  | poll =>
    injection h with h
    subst h
    obtain ⟨b, hb⟩ := s.lockPoll_polled.core k
    rw [hb]
    exact .refl _
  | l2 i =>
    rcases clockL2_ok h with rfl | ⟨l2, port, hc, rfl⟩
    · exact .refl _
    · exact of_setCore i _ _ (hr i rfl) (by cases k <;> rfl) (.clock hc)
  | l1 i m =>
    obtain ⟨d, hc, rfl⟩ := map_ok h
    obtain ⟨l1i, p1, l1d, p2, hi, hd, rfl⟩ := Core.clockL1_ok hc
    exact of_setCore i _ _ (hr i rfl) rfl (.driven ⟨p2, (Cache.clock_drives hi).trans (Cache.clock_drives hd), rfl⟩)
  | corePoll i =>
    injection h with h
    subst h
    refine of_setCore i _ _ (hr i rfl) rfl ?_
    rw [((s.core i).lockPoll_polled s.cfg.lockElect).l2]
    exact .refl _
  | stage i st =>
    obtain ⟨r, hrun, hn⟩ := clockStage_ok h
    rw [(hn.core k).l2]
    exact of_setCore i _ (s.setCtx i (s.atStage i st) r.ctx) (hr i rfl) rfl (.refl _)
  | coreTick i =>
    injection h with h
    subst h
    exact of_setCore i _ _ (hr i rfl) rfl (.refl _)
  | device d =>
    rcases clockDevice_ok h with rfl | ⟨x, cfg, x', port, done, -, -, hn⟩
    · exact .refl _
    · rw [(hn.core k).l2]
      have : State.core { s with devices := s.devices.set d x', memory := { s.memory with port := port } } k = s.core k := by
        cases k <;> rfl
      rw [this]
      exact .refl _

/-- What an agent does to the L3 (R110). -/
theorem Agent.act_l3 {a : Agent} {s t : State} (h : a.act s = .ok t) : CacheChange s.l3 t.l3 := by
  cases a with
  | memory => rcases clockMemory_ok h with rfl | ⟨m, -, rfl⟩ <;> exact .refl _
  | l3 =>
    rcases clockL3_ok h with rfl | ⟨l3, port, hc, rfl⟩
    · exact .refl _
    · exact .clock hc
  | poll => injection h with h; subst h; rw [s.lockPoll_polled.l3]; exact .refl _
  | l2 i =>
    rcases clockL2_ok h with rfl | ⟨l2, port, hc, rfl⟩
    · exact .refl _
    · exact .driven ⟨port, Cache.clock_drives hc, rfl⟩
  | l1 i m => obtain ⟨d, -, rfl⟩ := map_ok h; simpa using CacheChange.refl s.l3
  | corePoll i => injection h with h; subst h; simpa using CacheChange.refl s.l3
  | stage i st =>
    obtain ⟨r, -, hn⟩ := clockStage_ok h
    rw [hn.l3]
    simpa [State.setCtx] using CacheChange.refl s.l3
  | coreTick i => injection h with h; subst h; simpa using CacheChange.refl s.l3
  | device d =>
    rcases clockDevice_ok h with rfl | ⟨x, cfg, x', port, done, -, -, hn⟩
    · exact .refl _
    · rw [hn.l3]; exact .refl _

/-! ## What an agent can do to Memory and to the Devices' ports -/

/-- All an agent can do to Memory: a requester drives its port, or Memory clocks (R48). -/
inductive MemoryChange (m m' : Memory) : Prop where
  | driven {p : Port} (h : m.port.Driven p) (hm : m' = { m with port := p })
  | clock {cfg : Config} (h : m.clock cfg = .ok m')

theorem MemoryChange.refl (m : Memory) : MemoryChange m m := .driven .refl rfl

/-- What an agent does to Memory (R110, R170). -/
theorem Agent.act_memory {a : Agent} {s t : State} (h : a.act s = .ok t) : MemoryChange s.memory t.memory := by
  cases a with
  | memory =>
    rcases clockMemory_ok h with rfl | ⟨m, hc, rfl⟩
    · exact .refl _
    · exact .clock hc
  | l3 =>
    rcases clockL3_ok h with rfl | ⟨l3, port, hc, rfl⟩
    · exact .refl _
    · exact .driven (Cache.clock_drives hc) rfl
  | poll => injection h with h; subst h; rw [s.lockPoll_polled.memory]; exact .refl _
  | l2 i =>
    rcases clockL2_ok h with rfl | ⟨l2, port, -, rfl⟩
    · exact .refl _
    · simpa using MemoryChange.refl s.memory
  | l1 i m => obtain ⟨d, -, rfl⟩ := map_ok h; simpa using MemoryChange.refl s.memory
  | corePoll i => injection h with h; subst h; simpa using MemoryChange.refl s.memory
  | stage i st =>
    obtain ⟨r, -, hn⟩ := clockStage_ok h
    rw [hn.memory]
    simpa [State.setCtx] using MemoryChange.refl s.memory
  | coreTick i => injection h with h; subst h; simpa using MemoryChange.refl s.memory
  | device d =>
    rcases clockDevice_ok h with rfl | ⟨x, cfg, x', port, done, -, hc, hn⟩
    · exact .refl _
    · rw [hn.memory]; exact .driven (Device.clock_drives hc).1 rfl

/-- No agent changes the port of a Device. -/
theorem Agent.act_devicePort {a : Agent} {s t : State} (h : a.act s = .ok t) :
    ∀ x ∈ t.devices, ∃ y ∈ s.devices, x.port = y.port := by
  have same : t.devices = s.devices → ∀ x ∈ t.devices, ∃ y ∈ s.devices, x.port = y.port :=
    fun e x hx => ⟨x, e ▸ hx, rfl⟩
  cases a with
  | memory => exact same (by rcases clockMemory_ok h with rfl | ⟨m, -, rfl⟩ <;> rfl)
  | l3 => exact same (by rcases clockL3_ok h with rfl | ⟨l3, port, -, rfl⟩ <;> rfl)
  | poll => injection h with h; subst h; exact same s.lockPoll_polled.devices
  | l2 i => exact same (by rcases clockL2_ok h with rfl | ⟨l2, port, -, rfl⟩ <;> simp)
  | l1 i m => obtain ⟨d, -, rfl⟩ := map_ok h; exact same (by simp)
  | corePoll i => injection h with h; subst h; exact same (by simp)
  | stage i st =>
    obtain ⟨r, -, hn⟩ := clockStage_ok h
    simpa [State.setCtx] using hn.devicePort
  | coreTick i => injection h with h; subst h; exact same (by simp)
  | device d =>
    rcases clockDevice_ok h with rfl | ⟨x, cfg, x', port, done, hx, hc, hn⟩
    · exact same rfl
    · intro y hy
      obtain ⟨z, hz, hyz⟩ := hn.devicePort y hy
      rcases List.mem_or_eq_of_mem_set hz with hz | rfl
      · exact ⟨z, hz, hyz⟩
      · exact ⟨x, List.mem_of_getElem? hx, hyz.trans (Device.clock_drives hc).2⟩

/-! ## Invariants of the caches -/

theorem State.everyCache_iff {s : State} {p : Cache → Prop} :
    s.EveryCache p ↔ (∀ k < s.coreCount, ∀ j, p (s.ctx k j).l1i ∧ p (s.ctx k j).l1d) ∧
      (∀ k < s.coreCount, p (s.core k).l2) ∧ p s.l3 := by
  have upper : (p s.core0.l2 ∧ ∀ c ∈ s.upper, p c.l2) ↔ ∀ k < s.coreCount, p (s.core k).l2 := by
    constructor
    · rintro ⟨h0, hu⟩ k hk
      cases k with
      | zero => exact h0
      | succ k =>
        have hk : k < s.upper.length := by simp only [State.coreCount] at hk; omega
        rw [State.core_succ, getD_of_lt _ hk]
        exact hu _ (List.getElem_mem hk)
    · intro h
      refine ⟨h 0 (by simp [State.coreCount]), fun c hc => ?_⟩
      obtain ⟨k, hk, rfl⟩ := List.getElem_of_mem hc
      have := h (k + 1) (by simp only [State.coreCount]; omega)
      rwa [State.core_succ, getD_of_lt _ hk] at this
  rw [State.EveryCache, State.everyContext_iff, ← upper]
  tauto

/-- An agent keeps of every cache what every change of a cache keeps. -/
theorem Agent.act_everyCache {p : Cache → Prop} (hp : ∀ {c c' : Cache}, CacheChange c c' → p c → p c') {a : Agent}
    {s t : State} (hr : a.InRange s.coreCount) (h : a.act s = .ok t) (hs : s.EveryCache p) : t.EveryCache p := by
  rw [State.everyCache_iff] at hs ⊢
  obtain ⟨h1, h2, h3⟩ := hs
  rw [(Agent.act_shape h).coreCount]
  refine ⟨fun k hk j => ?_, fun k hk => hp (Agent.act_l2 hr h k) (h2 k hk), hp (Agent.act_l3 h) h3⟩
  obtain ⟨hi, hd⟩ := (Agent.act_ctx hr h k j).caches_change
  exact ⟨hp hi (h1 k hk j).1, hp hd (h1 k hk j).2⟩

end Sys2Proof.Machine
end

section
/-! Obligations O54, O55 and O56: Memory's canonical form, the ports, the dirty bytes. -/

namespace Sys2Proof.Machine

/-! ## Obligation O54: Memory's canonical form -/

theorem MemoryChange.wf {m m' : Memory} (h : MemoryChange m m') (hm : m.wf = true) : m'.wf = true := by
  cases h with
  | driven _ h => subst h; exact hm
  | clock h => exact Memory.clock_wf h hm

/-- Settles O54: only Memory's own clock writes its cells, by `writeCells`, which keeps the form. -/
theorem memoryCanonical : Obligations.MemoryCanonical := by
  intro s t hs h
  exact step_keeps (P := fun s => s.memory.wf = true) (fun _ _ _ _ ha => (Agent.act_memory ha).wf) (fun _ => id) h hs

/-! ## Obligation O55: no port is busy and free -/

/-- A request makes a port busy and not free, and only a port that is not busy is freed (R41, R43). -/
theorem Port.Driven.legal {p q : Port} (h : p.Driven q) (hp : p.Legal) : q.Legal := by
  induction h with
  | refl => exact hp
  | request _ hr _ =>
    obtain ⟨-, rfl⟩ := Port.request_ok hr
    exact fun h => by cases h.2
  | release _ hr _ =>
    obtain ⟨hc, rfl⟩ := Port.release_ok hr
    intro h
    simp only [Port.completed, Bool.and_eq_true, Bool.not_eq_true'] at hc
    exact Bool.noConfusion (hc.1.symm.trans h.1)

/-- A resolved port is not busy (R42). -/
theorem Port.resolve_legal (p : Port) (ok : Bool) : (p.resolve ok).Legal := by
  intro h
  cases ok <;> cases h.1

theorem CacheChange.port_legal {c c' : Cache} (h : CacheChange c c') (hc : c.port.Legal) : c'.port.Legal := by
  cases h with
  | driven h =>
    obtain ⟨p, hp, rfl⟩ := h
    exact hp.legal hc
  | clock h =>
    obtain ⟨d, hw, rfl | ⟨ok, rfl⟩⟩ := Cache.clock_works h
    · obtain ⟨bus, hbus⟩ := hw.port
      rw [hbus]
      exact hc
    · exact Port.resolve_legal _ _

theorem MemoryChange.port_legal {m m' : Memory} (h : MemoryChange m m') (hm : m.port.Legal) : m'.port.Legal := by
  cases h with
  | driven hp h => subst h; exact hp.legal hm
  | clock h =>
    rcases Memory.clock_ok h with ⟨-, rfl⟩ | ⟨-, -, ⟨-, rfl⟩ | ⟨-, rfl⟩⟩
    · exact hm
    · exact Port.resolve_legal _ _
    · exact Port.resolve_legal _ _

/-- Settles O55: requesters drive a port by requests and frees, and its owner resolves it. -/
theorem portsStayLegal : Obligations.PortsStayLegal := by
  intro s t hs h
  refine step_keeps (P := State.PortsLegal) (fun a s t hr ha hs => ?_) (fun s hs => hs) h hs
  obtain ⟨caches, memory, devices⟩ := hs
  refine ⟨Agent.act_everyCache CacheChange.port_legal hr ha caches, (Agent.act_memory ha).port_legal memory,
    fun x hx => ?_⟩
  obtain ⟨y, hy, hxy⟩ := Agent.act_devicePort ha x hx
  rw [hxy]
  exact devices y hy

/-! ## Obligation O56: a dirty byte is valid -/

theorem CacheChange.dirtyValid {c c' : Cache} (h : CacheChange c c') (hc : c.DirtyValid) : c'.DirtyValid := by
  cases h with
  | driven h =>
    obtain ⟨p, -, rfl⟩ := h
    exact hc
  | clock h =>
    obtain ⟨d, hw, rfl | ⟨ok, rfl⟩⟩ := Cache.clock_works h
    · exact hw.dirty hc
    · exact hw.dirty hc

/-- Settles O56: a byte becomes dirty only by a write, which makes it valid, and valid bytes become invalid only clean. -/
theorem dirtyStaysValid : Obligations.DirtyStaysValid := by
  intro s t hs h
  exact step_keeps (P := fun s => s.EveryCache Cache.DirtyValid)
    (fun _ _ _ hr ha => Agent.act_everyCache CacheChange.dirtyValid hr ha) (fun _ => id) h hs

end Sys2Proof.Machine
end

section
/-! Obligations O7, O43, O44 and O48: registers, refused writes, and the bounds of a data request. -/

namespace Sys2Proof.Machine

/-! ## Obligations O43 and O44: reading and writing a register -/

/-- A write to R0 to R3 keeps nothing (R13). -/
theorem Context.hwWrite_of_lt {i : Reg} (h : i.toNat < 4) (c : Context) (v : Word) : c.hwWrite i v = c := by
  simp [Context.hwWrite, storedIndex_of_lt h]

/-- Settles O43: the synthesized registers by evaluation, the stored ones by read after write. -/
theorem registerReads : Obligations.RegisterReads := by
  intro e c i j v b
  refine ⟨rfl, rfl, rfl, rfl, fun hi => ?_, fun hne => ?_, fun hi => Context.hwWrite_of_lt hi c v, rfl⟩
  · rw [Context.read_hwWrite, if_pos ⟨rfl, hi⟩]
  · rw [Context.read_hwWrite, if_neg fun h => hne h.1]

theorem Context.mayWrite_iff (c : Context) (i : Reg) :
    c.mayWrite i = true ↔ 16 ≤ i.toNat ∨ (4 ≤ i.toNat ∧ c.interrupted = true) := by
  simp [Context.mayWrite]

theorem Context.archWrite_allowed {c : Context} {i : Reg} (h : c.mayWrite i = true) (v : Word) :
    c.archWrite i v = .ok (c.hwWrite i v) := by
  simp [Context.archWrite, h]

theorem Context.archWrite_refused {c : Context} {i : Reg} (h : c.mayWrite i = false) (v : Word) :
    c.archWrite i v = c.raise registerAccessError := by
  simp [Context.archWrite, h]

/-- The first Error outside an interrupt is recorded (R153). -/
theorem Context.raise_normal {c : Context} (hp : c.pending = none) (hn : c.interrupted = false) (v : BitVec 8) :
    c.raise v = .ok { c with pending := some v, instruction := c.instruction.map InFlight.failed } := by
  simp [Context.raise, hp, hn]

/-- Settles O44: an allowed write stores, a refused one raises, and raising is fatal in interrupt mode. -/
theorem registerWrites : Obligations.RegisterWrites := by
  intro c i v hp
  refine ⟨fun h => Context.archWrite_allowed ((c.mayWrite_iff i).2 h) v, fun hi hn => ?_, fun hi hn => ?_⟩
  · have refused : c.mayWrite i = false := by
      rw [← Bool.not_eq_true, Context.mayWrite_iff, hn]
      simp only [Bool.false_eq_true, and_false, or_false]
      omega
    rw [Context.archWrite_refused refused, Context.raise_normal hp hn]
    exact ⟨_, rfl, rfl, rfl, rfl⟩
  · have refused : c.mayWrite i = false := by
      rw [← Bool.not_eq_true, Context.mayWrite_iff]
      omega
    rw [Context.archWrite_refused refused, Context.raise_fatal (.inr hn)]

/-! ## Obligation O7: a refused destination -/

/-- The operands in their slots, as Load leaves them (R115, R127). -/
def InFlight.withOperands (f : InFlight) (x y : Word) : InFlight := { f with op0 := x, op1 := y, success := false }

/-- The result in its slot, as Execute leaves it (R115, R127). -/
def InFlight.withResult (f : InFlight) (x : Word) : InFlight := { f with op2 := x, success := true }

/-- THE VISIT OF AN INSTRUCTION WHOSE STORE PHASE WRITES A REGISTER IT MAY NOT WRITE (R15, R153, R154). -/
theorem visit_registerRefused {s : State} (h : s.Alone) (hr : s.focalCtx.Ready) {i : Instr} {d : Reg}
    (hd : s.focalCtx.mayWrite d = false) {f1 f2 : InFlight}
    (hload : runPhase i .load s.focalEnv (s.focalCtx.holding (.fresh i s.focalCtx.latchMark))
      (.fresh i s.focalCtx.latchMark) = .ok (.just (s.focalCtx.holding f1)))
    (hexec : runPhase i .execute s.focalEnv (s.focalCtx.holding f1) f1 = .ok (.just (s.focalCtx.holding f2)))
    (hformat : runPhase i .format s.focalEnv (s.focalCtx.holding f2) f2 = .ok (.just (s.focalCtx.holding f2)))
    (hstore : runPhase i .store s.focalEnv (s.focalCtx.holding f2) f2
      = justly ((s.focalCtx.holding f2).archWrite d f2.op2))
    (i1 : f1.instr = i) (i2 : f2.instr = i) (ok2 : f2.success = true) :
    exec i s = if s.focalCtx.interrupted then .fault .doubleInterrupt
      else .next (s.afterVisit (s.focalCtx.trapped 0x08)) := by
  have refused : (s.focalCtx.holding f2).mayWrite d = false := hd
  rw [Context.archWrite_refused refused] at hstore
  cases hn : s.focalCtx.interrupted with
  | true =>
    rw [Context.raise_fatal (c := s.focalCtx.holding f2) (.inr hn)] at hstore
    exact visit_fatal_store h hr i hload hexec hformat hstore i1 i2 ok2
  | false =>
    rw [Context.raise_holding hr.noPending hn] at hstore
    exact visit_trap_store h hr i hload hexec hformat hstore i1 i2 ok2

/-- An ALU instruction of two operands whose operation answers. -/
theorem alu_registerRefused {s : State} (h : s.Alone) (hr : s.focalCtx.Ready) {i : Instr}
    {op : Word → Word → Option Word} {a b d : Reg} {x : Word} (hd : s.focalCtx.mayWrite d = false)
    (hi : ∀ p e c f, runPhase i p e c f = aluPhase op a b d p e c f) (hop : op (s.reg a) (s.reg b) = some x) :
    exec i s = if s.focalCtx.interrupted then .fault .doubleInterrupt
      else .next (s.afterVisit (s.focalCtx.trapped 0x08)) := by
  refine visit_registerRefused h hr hd
    (f1 := (InFlight.fresh i s.focalCtx.latchMark).withOperands (s.reg a) (s.reg b))
    (f2 := ((InFlight.fresh i s.focalCtx.latchMark).withOperands (s.reg a) (s.reg b)).withResult x)
    ?_ ?_ ?_ ?_ rfl rfl rfl
  · rw [hi]; rfl
  · rw [hi]
    show (match op (s.reg a) (s.reg b) with
      | some r => _
      | none => _) = _
    rw [hop]
    rfl
  · rw [hi]; rfl
  · rw [hi]; rfl

/-- Settles O7: each instruction's Store phase is the one refused write. -/
theorem registerAccessTraps : Obligations.RegisterAccessTraps := by
  intro s i k a b d h hr hd hdiv hi
  have total : ∀ {i : Instr} {op : Word → Word → Word},
      (∀ p e c f, runPhase i p e c f = aluPhase (fun x y => some (op x y)) a b d p e c f) →
      exec i s = if s.focalCtx.interrupted then .fault .doubleInterrupt
        else .next (s.afterVisit (s.focalCtx.trapped 0x08)) := fun hi => alu_registerRefused h hr hd hi rfl
  simp only [List.mem_cons, List.not_mem_nil, or_false] at hi
  rcases hi with rfl | rfl | rfl | rfl | rfl | rfl | rfl | rfl | rfl | rfl | rfl | rfl
  case inl =>
    exact visit_registerRefused h hr hd
      (f1 := (InFlight.fresh (.loadc k d) s.focalCtx.latchMark).withOperands (zext k) 0)
      (f2 := ((InFlight.fresh (.loadc k d) s.focalCtx.latchMark).withOperands (zext k) 0).withResult (zext k))
      rfl rfl rfl rfl rfl rfl rfl
  case inr.inl =>
    exact visit_registerRefused h hr hd
      (f1 := (InFlight.fresh (.not a d) s.focalCtx.latchMark).withOperands (s.reg a) 0)
      (f2 := ((InFlight.fresh (.not a d) s.focalCtx.latchMark).withOperands (s.reg a) 0).withResult (aluNot (s.reg a)))
      rfl rfl rfl rfl rfl rfl rfl
  iterate 8 exact total fun _ _ _ _ => rfl
  · exact alu_registerRefused h hr hd (op := aluDivide) (fun _ _ _ _ => rfl) (if_neg (hdiv (.inl rfl)))
  · exact alu_registerRefused h hr hd (op := aluModulo) (fun _ _ _ _ => rfl) (if_neg (hdiv (.inr rfl)))

/-! ## Obligation O48: the bounds of a data request -/

/-- The Execute phase of the Memory family is the checked access of its method and length (R121 to R126). -/
theorem memoryFamily_execute {i : Instr} {n : Nat}
    (hi : (∃ a off d, i = .load a off d ∨ i = .store a off d) ∧ n = 8 ∨
      (∃ a off, i = .clear a off ∨ i = .flush a off) ∧ n = 1) :
    ∃ op, ∀ e c f, runPhase i .execute e c f
      = justly (checkedAccess e op f.physical n (dataError e c f.physical n) c f) := by
  rcases hi with ⟨⟨a, off, d, rfl | rfl⟩, rfl⟩ | ⟨⟨a, off, rfl | rfl⟩, rfl⟩
  · exact ⟨.read, fun _ _ _ => rfl⟩
  · exact ⟨.write, fun _ _ _ => rfl⟩
  · exact ⟨.clear, fun _ _ _ => rfl⟩
  · exact ⟨.flush, fun _ _ _ => rfl⟩

/-- A checked access that leaves an idle L1D's port busy passed its check and sent the request of its next window (R113,
R114). -/
theorem checkedAccess_sends {e : Env} {op : StoreOp} {p n : Nat} {x : Option (BitVec 8)} {c c' : Context} {f : InFlight}
    (h : checkedAccess e op p n x c f = .ok c') (hb : c.l1d.port.busy = false) (hb' : c'.l1d.port.busy = true) :
    x = none ∧ c'.l1d.port.addr = BitVec.ofNat 64 (f.nextAddr p) := by
  cases x with
  | some v =>
    obtain ⟨-, -, rfl⟩ := Context.raise_ok h
    exact absurd (hb.symm.trans hb') Bool.false_ne_true
  | none =>
    rcases accessExecute_ok h with rfl | ⟨-, -, rfl⟩
    · exact absurd (hb.symm.trans hb') Bool.false_ne_true
    · exact ⟨rfl, rfl⟩

/-- A transfer that passes its check in normal mode lies below PL and in Memory (R122). -/
theorem dataError_none {e : Env} {c : Context} {p n : Nat} (hn : c.interrupted = false) (h : dataError e c p n = none) :
    p + n ≤ e.cfg.memorySize ∧ p + n ≤ c.pl.toNat := by
  unfold dataError at h
  split at h
  · rename_i hok
    simpa [dataOk, hn] using hok
  · cases h

/-- Settles O48: the request's address is the physical address plus an offset below the transfer's length, and the check
bounds the whole transfer. -/
theorem accessBounds : Obligations.AccessBounds := by
  intro i n e c f out hi hn hmem hps hoff hb hrun hb'
  obtain ⟨op, hexec⟩ := memoryFamily_execute hi
  rw [hexec] at hrun
  obtain ⟨c', hc, rfl⟩ := justly_ok hrun
  obtain ⟨hcheck, haddr⟩ := checkedAccess_sends hc hb hb'
  obtain ⟨hsize, hpl⟩ := dataError_none hn hcheck
  have hphys : c.ps.toNat ≤ f.physical := by
    rw [InFlight.physical, physical, hps]
    omega
  have hlt : f.physical + f.offset < 2 ^ 64 := by omega
  have haddr' : c'.l1d.port.addr.toNat = f.physical + f.offset := by
    rw [haddr, InFlight.nextAddr, toNat_ofNat_of_lt hlt]
  show c.ps.toNat ≤ c'.l1d.port.addr.toNat ∧ c'.l1d.port.addr.toNat < c.pl.toNat ∧
    c'.l1d.port.addr.toNat < e.cfg.memorySize
  omega

end Sys2Proof.Machine
end

section
/-! SUPPORT. What the protocol and the parts of a cache's clock answer, one equation per case (R42, R43, R52 to R56). -/

namespace Sys2Proof.Machine

/-! ## The lower Store's port -/

/-- A completed port that is freed is idle (R36, R43). -/
theorem Port.freed_idle {p : Port} (h : p.completed = true) : p.freed.idle = true := by
  simp only [Port.completed, Bool.and_eq_true, Bool.not_eq_true'] at h
  simp [Port.idle, Port.freed, h.1]

/-- A completed port is freed (R43). -/
theorem Port.release_completed {p : Port} (h : p.completed = true) : p.release = .ok p.freed := if_pos h

/-! ## The background work (R53) -/

/-- Until its lower request completes a cache consumes nothing (R53). -/
theorem Cache.background_waits (g : CacheConfig) (c : Cache) {lower : Port} (h : lower.completed = false) :
    c.background g lower = .ok (c, lower) := if_neg (by simp [h])

/-- A completed fetch is freed; the line is installed if it succeeded (R53). -/
theorem Cache.background_fetch (g : CacheConfig) {c : Cache} {lower : Port} (h : lower.completed = true) {la : Nat}
    (hl : c.lp = .fetch la) :
    c.background g lower =
      if lower.successful then
        Cache.install g { c with lp := .idle } lower.freed la ((lower.bus.take g.lineWidth).map Lane.data)
      else .ok ({ c with lp := .idle }, lower.freed) := by
  simp only [Cache.background, h, if_true, hl, Port.release_completed h, Except.bind]

/-- A write-back that failed is freed; it clears no dirty bit and drops the fill buffer (R53). -/
theorem Cache.background_writeBack_failed (g : CacheConfig) {c : Cache} {lower : Port} (h : lower.completed = true)
    {va : Nat} {mask : List Bool} {withFill : Bool} (hl : c.lp = .writeBack va mask withFill)
    (hs : lower.successful = false) :
    c.background g lower = .ok ({ c with lp := .idle, fill := none }, lower.freed) := by
  simp only [Cache.background, h, if_true, hl, Port.release_completed h, Except.bind, hs, Bool.false_eq_true, if_false]

/-- A write-back that succeeded is freed and the dirty bits of its mask are cleared; with no line in the fill buffer
that is all (R53). -/
theorem Cache.background_writeBack_alone (g : CacheConfig) {c : Cache} {lower : Port} (h : lower.completed = true)
    {va : Nat} {mask : List Bool} {withFill : Bool} (hl : c.lp = .writeBack va mask withFill)
    (hs : lower.successful = true) (hf : withFill = false ∨ c.fill = none) :
    c.background g lower = .ok (Cache.cleanLine g { c with lp := .idle } va mask, lower.freed) := by
  simp only [Cache.background, h, if_true, hl, Port.release_completed h, Except.bind, hs]
  have fill : (Cache.cleanLine g { c with lp := .idle } va mask).fill = c.fill := rfl
  rcases hf with rfl | hf
  · rfl
  · rw [fill, hf]
    split <;> rfl

/-- A write-back that succeeded for a waiting line is freed, its dirty bits are cleared, and the line is installed
(R53). -/
theorem Cache.background_writeBack_fill (g : CacheConfig) {c : Cache} {lower : Port} (h : lower.completed = true)
    {va : Nat} {mask : List Bool} (hl : c.lp = .writeBack va mask true) (hs : lower.successful = true) {fa : Nat}
    {fd : List Byte} (hf : c.fill = some (fa, fd)) :
    c.background g lower
      = { Cache.cleanLine g { c with lp := .idle } va mask with fill := none }.install g lower.freed fa fd := by
  simp only [Cache.background, h, if_true, hl, Port.release_completed h, Except.bind, hs]
  have fill : (Cache.cleanLine g { c with lp := .idle } va mask).fill = c.fill := rfl
  rw [fill, hf]

end Sys2Proof.Machine
end

section
/-! SUPPORT. Which byte position of which line an address names (R50), and what a cache holds there after a line is
replaced (R51). -/

namespace Sys2Proof.Machine

/-! ## Lines and positions of addresses (R8, R50) -/

/-- Index and tag are the two parts of the line number (R50). -/
theorem index_tag_of_div {g : CacheConfig} (h : g.wellFormed = true) (a : Nat) :
    indexOf g a = a / g.lineWidth % 2 ^ indexBits g ∧ tagOf g a = a / g.lineWidth / 2 ^ indexBits g := by
  obtain ⟨-, -, -, ho, -⟩ := CacheConfig.wellFormed_widths h
  rw [indexOf, tagOf, ho, pow_add, Nat.div_div_eq_div_mul]
  exact ⟨rfl, rfl⟩

/-- Two addresses lie in one line exactly when index and tag agree (R50). -/
theorem sameLine_iff {g : CacheConfig} (h : g.wellFormed = true) {a b : Nat} :
    indexOf g a = indexOf g b ∧ tagOf g a = tagOf g b ↔ a / g.lineWidth = b / g.lineWidth := by
  obtain ⟨hia, hta⟩ := index_tag_of_div h a
  obtain ⟨hib, htb⟩ := index_tag_of_div h b
  rw [hia, hta, hib, htb]
  constructor
  · rintro ⟨hi, ht⟩
    rw [← Nat.div_add_mod (a / g.lineWidth) (2 ^ indexBits g), hi, ht, Nat.div_add_mod]
  · intro e
    rw [e]
    exact ⟨rfl, rfl⟩

/-- An address that stays inside the line of another one has its line number, and the position so many further on
(R50). -/
theorem add_inside {n x i : Nat} (h : x % n + i < n) : (x + i) / n = x / n ∧ (x + i) % n = x % n + i := by
  have hn : 0 < n := by omega
  have e : x + i = n * (x / n) + (x % n + i) := by rw [← add_assoc, Nat.div_add_mod]
  rw [e, Nat.mul_add_div hn, Nat.mul_add_mod, Nat.div_eq_of_lt h, Nat.mod_eq_of_lt h]
  exact ⟨rfl, rfl⟩

/-- The position of an address in a line that starts at a line address (R50). -/
theorem lineAddr_add {g : CacheConfig} {la k : Nat} (hla : la % g.lineWidth = 0) (hk : k < g.lineWidth) :
    (la + k) / g.lineWidth = la / g.lineWidth ∧ (la + k) % g.lineWidth = k := by
  simpa [hla] using add_inside (n := g.lineWidth) (x := la) (i := k) (by omega)

theorem lineAddr_mod (g : CacheConfig) (a : Nat) : lineAddr g a % g.lineWidth = 0 :=
  Nat.sub_mod_eq_zero_of_mod_eq (Nat.mod_mod a g.lineWidth).symm

/-- A line address lies in the line it is the address of (R50). -/
theorem tagOf_lineAddr {g : CacheConfig} (h : g.wellFormed = true) (a : Nat) : tagOf g (lineAddr g a) = tagOf g a := by
  obtain ⟨-, hl, -, -, -⟩ := CacheConfig.wellFormed_widths h
  have hdiv : a / g.lineWidth = lineAddr g a / g.lineWidth := by
    have := (lineAddr_add (lineAddr_mod g a) (Nat.mod_lt a hl)).1
    rwa [lineAddr, Nat.sub_add_cancel (Nat.mod_le a g.lineWidth)] at this
  exact ((sameLine_iff h).2 hdiv.symm).2

/-- The line of a line address is the line of the address (R50). -/
theorem Cache.lineOf_lineAddr {g : CacheConfig} (h : g.wellFormed = true) (c : Cache) (a : Nat) :
    c.lineOf g (lineAddr g a) = c.lineOf g a := by rw [Cache.lineOf, indexOf_lineAddr h, Cache.lineOf]

/-- The bytes of a window lie in one line, from the window's offset on (R50). -/
theorem window_add {g : CacheConfig} (h : g.wellFormed = true) {p k : Nat} (hk : p % g.busWidth + k < g.busWidth) :
    (p + k) / g.lineWidth = p / g.lineWidth ∧ (p + k) % g.lineWidth = windowOffset g p + (p % g.busWidth + k) := by
  have fits := CacheConfig.window_fits h p
  have hbase : windowBase g.busWidth p + p % g.busWidth = p := Nat.sub_add_cancel (Nat.mod_le p g.busWidth)
  rw [windowOffset] at fits ⊢
  obtain ⟨hp, -⟩ := add_inside (n := g.lineWidth) (x := windowBase g.busWidth p) (i := p % g.busWidth) (by omega)
  obtain ⟨hk', hm⟩ := add_inside (n := g.lineWidth) (x := windowBase g.busWidth p) (i := p % g.busWidth + k) (by omega)
  rw [← add_assoc, hbase] at hk' hm
  rw [hbase] at hp
  exact ⟨hk'.trans hp.symm, hm⟩

/-- The index in the address of a line is the line's (R50). -/
theorem indexOf_addrOfLine {g : CacheConfig} (t : Nat) {j : Nat} (hj : j < 2 ^ indexBits g) :
    indexOf g (addrOfLine g t j) = j := by
  have : addrOfLine g t j = (t * 2 ^ indexBits g + j) * 2 ^ g.offsetBits := by rw [addrOfLine, pow_add]; ring
  rw [indexOf, this, Nat.mul_div_cancel _ (by positivity), Nat.mul_comm, Nat.mul_add_mod, Nat.mod_eq_of_lt hj]

/-! ## A cache with one line replaced (R37, R51) -/

/-- Every index names a line (R8, R50). -/
theorem Cache.Shaped.indexOf_lt {g : CacheConfig} (h : g.wellFormed = true) {c : Cache} (hc : c.Shaped g) (a : Nat) :
    indexOf g a < c.lines.length := by
  obtain ⟨-, -, -, -, hn⟩ := CacheConfig.wellFormed_widths h
  rw [hc.lines, hn]
  exact Nat.mod_lt _ (by positivity)

/-- The line of an address after the line of another one was replaced. -/
theorem Cache.lineOf_setLine {g : CacheConfig} (h : g.wellFormed = true) {c : Cache} (hc : c.Shaped g) (a b : Nat)
    (ln : Line) : (c.setLine (indexOf g b) ln).lineOf g a = if indexOf g a = indexOf g b then ln else c.lineOf g a := by
  have hlt := hc.indexOf_lt h b
  simp only [Cache.lineOf, Cache.line, Cache.setLine, List.getD_eq_getElem?_getD]
  split
  · rename_i e
    rw [e, List.getElem?_set_self hlt, Option.getD_some]
  · rename_i e
    rw [List.getElem?_set_ne fun e' => e e'.symm]

/-- What a cache holds for an address is what its line holds at the position (R51). -/
theorem Cache.laneAt_of_tag {g : CacheConfig} {c : Cache} {a : Nat} (h : (c.lineOf g a).tag = tagOf g a) :
    c.laneAt g a = (c.lineOf g a).lanes[a % g.lineWidth]? := if_pos h

/-- A cache holds nothing for an address whose line has another tag (R51). -/
theorem Cache.laneAt_of_tag_ne {g : CacheConfig} {c : Cache} {a : Nat} (h : (c.lineOf g a).tag ≠ tagOf g a) :
    c.laneAt g a = none := if_neg h

/-- An address of another line keeps its byte position. -/
theorem Cache.laneAt_setLine_ne {g : CacheConfig} (h : g.wellFormed = true) {c : Cache} (hc : c.Shaped g) {a b : Nat}
    (hi : indexOf g a ≠ indexOf g b) (ln : Line) : (c.setLine (indexOf g b) ln).laneAt g a = c.laneAt g a := by
  rw [Cache.laneAt, Cache.lineOf_setLine h hc, if_neg hi]
  rfl

/-- An address of the line replaced has its byte position in the new line, if that has its tag. -/
theorem Cache.laneAt_setLine {g : CacheConfig} (h : g.wellFormed = true) {c : Cache} (hc : c.Shaped g) {a b : Nat}
    (hi : indexOf g a = indexOf g b) (ln : Line) :
    (c.setLine (indexOf g b) ln).laneAt g a = if ln.tag = tagOf g a then ln.lanes[a % g.lineWidth]? else none := by
  rw [Cache.laneAt, Cache.lineOf_setLine h hc, if_pos hi]

/-- The byte a cache holds is the data of a valid byte position (R51). -/
theorem Cache.byteAt_of_lane {g : CacheConfig} {c : Cache} {a : Nat} {l : Lane} (h : c.laneAt g a = some l) :
    c.byteAt g a = if l.valid then some l.data else none := by rw [Cache.byteAt, h]

/-- The dirty bit a cache holds is that of the byte position (R51). -/
theorem Cache.dirtyAt_of_lane {g : CacheConfig} {c : Cache} {a : Nat} {l : Lane} (h : c.laneAt g a = some l) :
    c.dirtyAt g a = l.dirty := by rw [Cache.dirtyAt, h]

/-- Without a byte position a cache holds no byte and no dirty bit (R51). -/
theorem Cache.byteAt_of_none {g : CacheConfig} {c : Cache} {a : Nat} (h : c.laneAt g a = none) :
    c.byteAt g a = none ∧ c.dirtyAt g a = false := by
  rw [Cache.byteAt, Cache.dirtyAt, h]
  exact ⟨rfl, rfl⟩

/-- Caches that hold the same byte position for an address hold the same byte and dirty bit (R51). -/
theorem Cache.byteAt_congr {g : CacheConfig} {c d : Cache} {a : Nat} (h : c.laneAt g a = d.laneAt g a) :
    c.byteAt g a = d.byteAt g a ∧ c.dirtyAt g a = d.dirtyAt g a := by
  rw [Cache.byteAt, Cache.dirtyAt, h]
  exact ⟨rfl, rfl⟩

end Sys2Proof.Machine
end

section
/-! SUPPORT. How a cache installs a line, writes one back and cleans it, and how its clock fails or serves a request
(R52 to R60): what each leaves at every address. -/

namespace Sys2Proof.Machine

/-! ## A line installed (R54) -/

/-- The line that an install leaves where it writes nothing back: the one held, filled, or the fetched one. -/
def Line.installed (ln : Line) (t : Nat) (fetched : List Byte) : Line :=
  if ln.tag = t then { ln with lanes := List.zipWith Lane.fill ln.lanes fetched }
  else { tag := t, lanes := readBus fetched }

@[simp] theorem Line.installed_tag (ln : Line) (t : Nat) (fetched : List Byte) : (ln.installed t fetched).tag = t := by
  unfold Line.installed
  split
  · assumption
  · rfl

/-- An installed line has every byte, its own where it was dirty and held the tag (R54). -/
theorem Line.installed_lane {ln : Line} {t k : Nat} {fetched : List Byte} {own : Lane} {b : Byte}
    (hk : ln.lanes[k]? = some own) (hb : fetched[k]? = some b) :
    (ln.installed t fetched).lanes[k]? = some
      { data := if ln.tag = t ∧ own.dirty = true then own.data else b, valid := true,
        dirty := decide (ln.tag = t) && own.dirty } := by
  unfold Line.installed
  split
  · rename_i h
    rw [List.getElem?_zipWith, hk, hb]
    simp [Lane.fill, h]
  · rename_i h
    rw [readBus, List.getElem?_map, hb]
    simp [h]

theorem Line.installed_length {ln : Line} {fetched : List Byte} (h : ln.lanes.length = fetched.length) (t : Nat) :
    (ln.installed t fetched).lanes.length = fetched.length := by
  unfold Line.installed
  split
  · simp [h]
  · simp [readBus]

/-- A cache with a line installed in the place of a clean line, or of the line itself. -/
def Cache.installed (g : CacheConfig) (c : Cache) (la : Nat) (fetched : List Byte) : Cache :=
  c.setLine (indexOf g la) ((c.lineOf g la).installed (tagOf g la) fetched)

/-- Install where the line holds the tag or is clean: nothing is written back (R54). -/
theorem Cache.install_ready {g : CacheConfig} {c : Cache} (lower : Port) {la : Nat} (fetched : List Byte)
    (h : (c.lineOf g la).tag = tagOf g la ∨ (c.lineOf g la).isDirty = false) :
    c.install g lower la fetched = .ok (c.installed g la fetched, lower) := by
  unfold Cache.install Cache.installed Line.installed
  by_cases ht : (c.lineOf g la).tag = tagOf g la
  · rw [if_pos ht]
    exact if_pos ht
  · rw [if_neg ht]
    have clean : (!(c.lineOf g la).isDirty) = true := by simp [h.resolve_left ht]
    exact (if_neg ht).trans (if_pos clean)

/-- Install on a dirty victim, above an idle lower Store: the victim's dirty bytes are written back and the fetched line
waits in the fill buffer (R54). -/
theorem Cache.install_dirty {g : CacheConfig} {c : Cache} {lower : Port} {la : Nat} (fetched : List Byte)
    (ht : (c.lineOf g la).tag ≠ tagOf g la) (hd : (c.lineOf g la).isDirty = true) (hi : lower.idle = true) :
    c.install g lower la fetched = .ok
      ({ c with
          fill := some (la, fetched)
          lp := .writeBack (addrOfLine g (c.lineOf g la).tag (indexOf g la)) (c.lineOf g la).dirtyMask true },
        lower.taken .write (addrOfLine g (c.lineOf g la).tag (indexOf g la))
          ((c.lineOf g la).writeBackBus (c.lineOf g la).dirtyMask)) := by
  have dirty : ¬(!(c.lineOf g la).isDirty) = true := by simp [hd]
  unfold Cache.install
  refine (if_neg ht).trans ((if_neg dirty).trans ?_)
  dsimp only
  rw [Port.request_idle hi]
  rfl

/-! ## The shape of a cache (R8, R37) -/

/-- The shape is the lines' and the Bus's. -/
theorem Cache.Shaped.of_eq {g : CacheConfig} {c d : Cache} (h : c.Shaped g) (hl : d.lines = c.lines)
    (hp : d.port = c.port) : d.Shaped g := ⟨hl ▸ h.lines, hl ▸ h.lanes, hp ▸ h.bus⟩

/-- A line of the line width keeps the shape. -/
theorem Cache.Shaped.setLine {g : CacheConfig} {c : Cache} (h : c.Shaped g) (j : Nat) {ln : Line}
    (hl : ln.lanes.length = g.lineWidth) : (c.setLine j ln).Shaped g := by
  refine ⟨(List.length_set ..).trans h.lines, fun ln' hm => ?_, h.bus⟩
  rcases List.mem_or_eq_of_mem_set hm with hm | rfl
  · exact h.lanes _ hm
  · exact hl

/-! ## What a cache holds after an install -/

/-- The line of an address after its line was installed. -/
theorem Cache.lineOf_installed {g : CacheConfig} (hg : g.wellFormed = true) {c : Cache} (hc : c.Shaped g) (la : Nat)
    (fetched : List Byte) : (c.installed g la fetched).lineOf g la = (c.lineOf g la).installed (tagOf g la) fetched :=
  (Cache.lineOf_setLine hg hc la la _).trans (if_pos rfl)

/-- After an install the cache holds the fetched bytes of the line, but for its own dirty ones (R54). -/
theorem Cache.laneAt_installed {g : CacheConfig} (hg : g.wellFormed = true) {c : Cache} (hc : c.Shaped g) {la k : Nat}
    (hla : la % g.lineWidth = 0) {fetched : List Byte} {own : Lane} {b : Byte}
    (hk : (c.lineOf g la).lanes[k]? = some own) (hb : fetched[k]? = some b) :
    (c.installed g la fetched).laneAt g (la + k) = some
      { data := if (c.lineOf g la).tag = tagOf g la ∧ own.dirty = true then own.data else b, valid := true,
        dirty := decide ((c.lineOf g la).tag = tagOf g la) && own.dirty } := by
  have hlt : k < g.lineWidth := hc.lineOf_lanes la ▸ (List.getElem?_eq_some_iff.1 hk).1
  obtain ⟨hline, hpos⟩ := lineAddr_add hla hlt
  obtain ⟨hi, ht⟩ := (sameLine_iff hg).2 hline
  rw [Cache.installed, Cache.laneAt_setLine hg hc hi, Line.installed_tag, if_pos ht.symm, hpos,
    Line.installed_lane hk hb]

/-- After an install over another line the cache holds the fetched bytes, clean (R54). -/
theorem Cache.installed_over {g : CacheConfig} (hg : g.wellFormed = true) {c : Cache} (hc : c.Shaped g) {la k : Nat}
    (hla : la % g.lineWidth = 0) {fetched : List Byte} (hlen : fetched.length = g.lineWidth)
    (ht : (c.lineOf g la).tag ≠ tagOf g la) (hk : k < g.lineWidth) :
    (c.installed g la fetched).byteAt g (la + k) = fetched[k]? ∧
    (c.installed g la fetched).dirtyAt g (la + k) = false := by
  have hwidth := hc.lineOf_lanes la
  obtain ⟨own, hown⟩ : ∃ own, (c.lineOf g la).lanes[k]? = some own := ⟨_, List.getElem?_eq_getElem (by omega)⟩
  obtain ⟨b, hb⟩ : ∃ b, fetched[k]? = some b := ⟨_, List.getElem?_eq_getElem (by omega)⟩
  have after := Cache.laneAt_installed hg hc hla hown hb
  rw [Cache.byteAt_of_lane after, Cache.dirtyAt_of_lane after, hb]
  simp [ht]

/-! ## A line written back (R53 to R55) -/

/-- A write-back carries the line's bytes at the positions of its mask (R54, R55). -/
theorem Line.writeBackBus_carries {ln : Line} {mask : List Bool} (h : mask.length = ln.lanes.length) :
    CarriesLine (ln.writeBackBus mask) ln mask := by
  constructor
  · apply List.ext_getElem <;> simp [Line.writeBackBus, h]
  · apply List.ext_getElem <;> simp [Line.writeBackBus, h]

/-- A write-back of the dirty bytes carries these. -/
theorem Line.writeBackBus_dirty (ln : Line) : CarriesLine (ln.writeBackBus ln.dirtyMask) ln ln.dirtyMask :=
  Line.writeBackBus_carries (List.length_map ..)

/-- A line all of whose dirty bytes were written back is clean (R53). -/
theorem Line.cleaned_isDirty (ln : Line) :
    Line.isDirty { ln with lanes := List.zipWith Lane.cleaned ln.lanes ln.dirtyMask } = false := by
  rw [Line.isDirty, List.any_eq_false]
  intro l hl
  rw [Line.dirtyMask, List.zipWith_map_right, List.zipWith_self] at hl
  obtain ⟨x, -, rfl⟩ := List.mem_map.1 hl
  unfold Lane.cleaned
  split
  · exact Bool.false_ne_true
  · assumption

/-- The end of a write-back keeps the shape. -/
theorem Cache.Shaped.cleanLine {g : CacheConfig} {c : Cache} (h : c.Shaped g) (va : Nat) {mask : List Bool}
    (hm : mask.length = g.lineWidth) : (c.cleanLine g va mask).Shaped g := by
  have hlen : (c.line g (indexOf g va)).lanes.length = g.lineWidth := h.lineOf_lanes va
  exact h.setLine _ (by simp [hlen, hm])

/-- The line a completed write-back was for, cleaned by its mask (R53). -/
theorem Cache.lineOf_cleanLine {g : CacheConfig} (hg : g.wellFormed = true) {c : Cache} (hc : c.Shaped g) {va la : Nat}
    (hi : indexOf g la = indexOf g va) (mask : List Bool) :
    (c.cleanLine g va mask).lineOf g la
      = { c.lineOf g la with lanes := List.zipWith Lane.cleaned (c.lineOf g la).lanes mask } := by
  rw [Cache.cleanLine, Cache.lineOf_setLine hg hc, if_pos hi, Cache.lineOf, hi]

/-- A completed write-back changes the line it was for, by the mask, and no other (R53). -/
theorem Cache.laneAt_cleanLine {g : CacheConfig} (hg : g.wellFormed = true) {c : Cache} (hc : c.Shaped g) (va : Nat)
    {mask : List Bool} (hm : mask.length = g.lineWidth) (a : Nat) :
    (c.cleanLine g va mask).laneAt g a = (c.laneAt g a).map fun l =>
      l.cleaned (decide (indexOf g a = indexOf g va) && mask.getD (a % g.lineWidth) false) := by
  by_cases hi : indexOf g a = indexOf g va
  · obtain ⟨-, hwidth, -, -, -⟩ := CacheConfig.wellFormed_widths hg
    have hlt : a % g.lineWidth < mask.length := by rw [hm]; exact Nat.mod_lt a hwidth
    have same : c.line g (indexOf g va) = c.lineOf g a := by rw [← hi, Cache.lineOf]
    rw [Cache.cleanLine, Cache.laneAt_setLine hg hc hi, Cache.laneAt, same]
    split
    · rw [List.getElem?_zipWith, List.getElem?_eq_getElem hlt, List.getD_eq_getElem _ _ hlt]
      cases (c.lineOf g a).lanes[a % g.lineWidth]? <;> simp [hi]
    · rfl
  · rw [Cache.cleanLine, Cache.laneAt_setLine_ne hg hc hi]
    simp [hi, Lane.cleaned]

/-- A completed write-back keeps every byte, and clears the dirty bits of its mask and no other (R53). -/
theorem Cache.cleanLine_bytes {g : CacheConfig} (hg : g.wellFormed = true) {c : Cache} (hc : c.Shaped g) (va : Nat)
    {mask : List Bool} (hm : mask.length = g.lineWidth) (a : Nat) :
    (c.cleanLine g va mask).byteAt g a = c.byteAt g a ∧
    (c.cleanLine g va mask).dirtyAt g a
      = (c.dirtyAt g a && !(decide (indexOf g a = indexOf g va) && mask.getD (a % g.lineWidth) false)) := by
  have after := Cache.laneAt_cleanLine hg hc va hm a
  generalize (decide (indexOf g a = indexOf g va) && mask.getD (a % g.lineWidth) false) = m at after ⊢
  cases hl : c.laneAt g a with
  | none =>
    rw [hl] at after
    obtain ⟨hb, hd⟩ := Cache.byteAt_of_none hl
    obtain ⟨hb', hd'⟩ := Cache.byteAt_of_none after
    rw [hb, hd, hb', hd']
    exact ⟨rfl, rfl⟩
  | some l =>
    rw [hl] at after
    rw [Cache.byteAt_of_lane after, Cache.dirtyAt_of_lane after, Cache.byteAt_of_lane hl, Cache.dirtyAt_of_lane hl]
    cases m <;> simp [Lane.cleaned]

/-! ## A clock that fails or serves its request (R42, R52) -/

/-- The clock of a cache whose background work touches no line, and whose attempt does not succeed and touches none. -/
theorem Cache.clock_fails {g : CacheConfig} {always : Bool} {c : Cache} {lower lower1 lower2 : Port}
    {lp1 lp2 : LowerRequest} (hbusy : c.port.busy = true)
    (hb : c.background g lower = .ok ({ c with lp := lp1 }, lower1))
    (ha : Cache.attempt g always { c with lp := lp1 } lower1 = .ok (false, { c with lp := lp2 }, lower2)) :
    ∃ c', c.clock g always lower = .ok (c', lower2) ∧ c.Fails c' lp2 := by
  refine ⟨{ c with lp := lp2, port := c.port.resolve false }, ?_, rfl, rfl, rfl, rfl, rfl, rfl⟩
  simp only [Cache.clock, hb, Except.bind, hbusy, if_true, ha, Except.map]

/-- The clock of a cache whose Read hits after the background work (R56). -/
theorem Cache.clock_serves_read {g : CacheConfig} {always : Bool} {c d : Cache} {lower lower1 : Port}
    (hb : c.background g lower = .ok (d, lower1)) (hbusy : d.port.busy = true) (hop : d.port.op = .read)
    (hit : d.ReadHit g d.port.addr.toNat) :
    c.clock g always lower = .ok
      ({ d with port := { d.port with
          bus := readBus ((d.windowOf g d.port.addr.toNat).map Lane.data), busy := false, successful := true } },
        lower1) := by
  have attempt : d.attempt g always lower1 = .ok
      (true, { d with port := { d.port with bus := readBus ((d.windowOf g d.port.addr.toNat).map Lane.data) } },
        lower1) := by
    rw [Cache.attempt, hop]
    exact if_pos hit
  simp only [Cache.clock, hb, Except.bind, hbusy, if_true, attempt, Except.map]
  rfl

/-- A Read that misses asks for its line and fails (R57). -/
theorem Cache.attempt_readMiss {g : CacheConfig} {always : Bool} {c : Cache} {lower : Port} (hop : c.port.op = .read)
    (hm : ¬ c.ReadHit g c.port.addr.toNat) :
    c.attempt g always lower
      = (c.requestFetch lower (lineAddr g c.port.addr.toNat)).map fun r => (false, r.1, r.2) := by
  rw [Cache.attempt, hop]
  exact if_neg hm

/-- A Write that misses on a dirty line asks for its write-back and fails (R60). -/
theorem Cache.attempt_writeMiss {g : CacheConfig} {always : Bool} {c : Cache} {lower : Port} (hop : c.port.op = .write)
    (ht : (c.lineOf g c.port.addr.toNat).tag ≠ tagOf g c.port.addr.toNat)
    (hd : (c.lineOf g c.port.addr.toNat).isDirty = true) :
    c.attempt g always lower
      = (c.requestWriteBack g lower
          (addrOfLine g (c.lineOf g c.port.addr.toNat).tag (indexOf g c.port.addr.toNat))
          (c.lineOf g c.port.addr.toNat).dirtyMask).map fun r => (false, r.1, r.2) := by
  rw [Cache.attempt, hop]
  exact if_pos ⟨ht, hd⟩

/-- A Write to a line whose write-back is outstanding fails and asks for nothing (R58). -/
theorem Cache.attempt_writeDuringWriteBack {g : CacheConfig} {always : Bool} {c : Cache} {lower : Port}
    (hop : c.port.op = .write) {va : Nat} {mask : List Bool} {withFill : Bool} (hl : c.lp = .writeBack va mask withFill)
    (hi : indexOf g va = indexOf g c.port.addr.toNat) : c.attempt g always lower = .ok (false, c, lower) := by
  rw [Cache.attempt, hop]
  by_cases h : (c.lineOf g c.port.addr.toNat).tag ≠ tagOf g c.port.addr.toNat ∧
      (c.lineOf g c.port.addr.toNat).isDirty = true
  · refine (if_pos h).trans ?_
    rw [Cache.requestWriteBack_waits g (by simp [hl])]
    rfl
  · have outstanding : c.writeBackOutstanding g (indexOf g c.port.addr.toNat) = true := by
      simp [Cache.writeBackOutstanding, hl, hi]
    exact (if_neg h).trans (if_pos outstanding)

/-- A cache with nothing outstanding, or nothing completed, consumes nothing (R53). -/
theorem Cache.background_nothing (g : CacheConfig) {c : Cache} {lower : Port}
    (h : c.lp = .idle ∨ lower.completed = false) : c.background g lower = .ok (c, lower) := by
  rcases h with h | h
  · exact Cache.background_idle g lower h
  · exact Cache.background_waits g c h

end Sys2Proof.Machine
end

section
/-! Obligation O57: the L1 instruction caches take only reads and are never written. -/

namespace Sys2Proof.Machine

/-! ## Clean lines (R37, R63) -/

/-- No byte of a line is dirty. -/
def Line.Clean (ln : Line) : Prop := ∀ l ∈ ln.lanes, l.dirty = false

/-- A line with no dirty byte is not dirty. -/
theorem Line.Clean.isDirty {ln : Line} (h : ln.Clean) : ln.isDirty = false := by
  rw [Line.isDirty, List.any_eq_false]
  exact fun l hl => by simp [h l hl]

/-- A fill makes no byte dirty (R54). -/
theorem Line.Clean.fill {ln : Line} (h : ln.Clean) (fetched : List Byte) :
    Line.Clean { ln with lanes := List.zipWith Lane.fill ln.lanes fetched } := by
  intro l hl
  rw [← List.map_uncurry_zip_eq_zipWith] at hl
  obtain ⟨⟨x, b⟩, hxb, rfl⟩ := List.mem_map.1 hl
  exact h x (List.of_mem_zip hxb).1

/-- A fetched line is clean (R47, R54). -/
theorem Line.clean_readBus (t : Nat) (bytes : List Byte) : Line.Clean { tag := t, lanes := readBus bytes } := by
  intro l hl
  obtain ⟨b, -, rfl⟩ := List.mem_map.1 hl
  rfl

/-! ## The clock of a cache that is only read -/

theorem Cache.NeverWritten.line {c : Cache} (h : c.NeverWritten) (g : CacheConfig) (j : Nat) : (c.line g j).Clean := by
  unfold Cache.line
  rcases lt_or_ge j c.lines.length with hj | hj
  · rw [getD_of_lt _ hj]
    exact h.1 _ (List.getElem_mem hj)
  · rw [List.getD_eq_default _ _ hj]
    intro l hl
    rw [List.eq_of_mem_replicate hl]
    rfl

theorem Cache.NeverWritten.setLine {c : Cache} (h : c.NeverWritten) (j : Nat) {ln : Line} (hl : ln.Clean) :
    (c.setLine j ln).NeverWritten := by
  refine ⟨fun ln' hm => ?_, h.2⟩
  rcases List.mem_or_eq_of_mem_set hm with hm | rfl
  · exact h.1 ln' hm
  · exact hl

/-- A cache with no dirty byte that waits for nothing, or for a fetch, is never written. -/
theorem Cache.NeverWritten.lower {c : Cache} (h : c.NeverWritten) {lp : LowerRequest}
    (hl : ∀ va mask fill, lp ≠ .writeBack va mask fill) : Cache.NeverWritten { c with lp := lp } := ⟨h.1, hl⟩

/-- No victim is dirty, so an install sends no write-back (R54). -/
theorem Cache.NeverWritten.install {g : CacheConfig} {c c' : Cache} (h : c.NeverWritten) {lower lower' : Port}
    {la : Nat} {fetched : List Byte} (hi : c.install g lower la fetched = .ok (c', lower')) : c'.NeverWritten := by
  have clean := h.line g (indexOf g la)
  unfold Cache.install at hi
  dsimp only at hi
  split at hi
  · obtain ⟨rfl, -⟩ := Prod.mk.inj (Except.ok.inj hi)
    exact h.setLine _ (clean.fill fetched)
  · rw [clean.isDirty] at hi
    obtain ⟨rfl, -⟩ := Prod.mk.inj (Except.ok.inj hi)
    exact h.setLine _ (Line.clean_readBus _ fetched)

/-- Only a fetch can be outstanding, so the background work at most installs a line (R53). -/
theorem Cache.NeverWritten.background {g : CacheConfig} {c c' : Cache} (h : c.NeverWritten) {lower lower' : Port}
    (hb : c.background g lower = .ok (c', lower')) : c'.NeverWritten := by
  cases hd : lower.completed with
  | false =>
    rw [Cache.background_waits g c hd] at hb
    obtain ⟨rfl, -⟩ := Prod.mk.inj (Except.ok.inj hb)
    exact h
  | true =>
    have freed : Cache.NeverWritten { c with lp := .idle } := h.lower fun _ _ _ => nofun
    cases hl : c.lp with
    | idle =>
      rw [Cache.background_idle g lower hl] at hb
      obtain ⟨rfl, -⟩ := Prod.mk.inj (Except.ok.inj hb)
      exact h
    | fetch la =>
      rw [Cache.background_fetch g hd hl] at hb
      split at hb
      · exact freed.install hb
      · obtain ⟨rfl, -⟩ := Prod.mk.inj (Except.ok.inj hb)
        exact freed
    | writeBack va mask fill => exact absurd hl (h.2 va mask fill)

/-- A Read sends at most a fetch (R56, R57). -/
theorem Cache.NeverWritten.attemptRead {g : CacheConfig} {c : Cache} (h : c.NeverWritten) {lower : Port} {a : Nat}
    {r : Bool × Cache × Port} (ha : c.attemptRead g lower a = .ok r) : r.2.1.NeverWritten := by
  unfold Cache.attemptRead at ha
  dsimp only at ha
  split at ha
  · obtain rfl := Except.ok.inj ha
    exact h
  · obtain ⟨x, hx, rfl⟩ := map_ok ha
    rcases Cache.requestFetch_ok hx with rfl | ⟨-, -, hc, -⟩
    · exact h
    · rw [hc]; exact h.lower fun _ _ _ => nofun

/-- A cache is never written and takes only reads (R63): what `Context.FetchOnly` says of the L1I. -/
def Cache.ReadOnly (c : Cache) : Prop := c.NeverWritten ∧ (c.port.busy = true → c.port.op = .read)

theorem Context.fetchOnly_iff (c : Context) : c.FetchOnly ↔ c.l1i.ReadOnly := Iff.rfl

/-- The clock of a cache that takes only reads leaves it so (R52). -/
theorem Cache.ReadOnly.clock {g : CacheConfig} {always : Bool} {c c' : Cache} (h : c.ReadOnly) {lower lower' : Port}
    (hc : c.clock g always lower = .ok (c', lower')) : c'.ReadOnly := by
  obtain ⟨⟨d, lower1⟩, hb, hc⟩ := bind_ok hc
  have never := h.1.background hb
  obtain ⟨bus, hport⟩ := (Cache.background_works hb).port
  have read : d.port.busy = true → d.port.op = .read := by rw [hport]; exact h.2
  dsimp only at hc
  split at hc
  · rename_i hbusy
    obtain ⟨⟨ok, e, lower2⟩, ha, hc⟩ := map_ok hc
    obtain ⟨rfl, -⟩ := Prod.mk.inj hc
    rw [Cache.attempt, read hbusy] at ha
    refine ⟨never.attemptRead ha, fun hres => ?_⟩
    cases ok <;> cases hres
  · obtain ⟨rfl, -⟩ := Prod.mk.inj (Except.ok.inj hc)
    exact ⟨never, read⟩

/-! ## What a stage asks of the L1I (R98, R100) -/

/-- What a Context's stages do to the port of their L1I: nothing, a Read, or a free. -/
inductive Port.Fetched (p : Port) : Port → Prop where
  | same : p.Fetched p
  | read {q : Port} {a : Nat} (h : p.request .read a none = .ok q) : p.Fetched q
  | freed {q : Port} (h : p.release = .ok q) : p.Fetched q

/-- LoadInstruction at most frees the L1I's port (R100). -/
theorem loadInstructionStage_l1i {e : Env} {c c' : Context} (h : loadInstructionStage e c = .ok c') :
    ∃ port, c.l1i.port.Fetched port ∧ c'.l1i = { c.l1i with port := port } := by
  unfold loadInstructionStage at h
  split at h
  · obtain rfl := Except.ok.inj h
    exact ⟨_, .same, rfl⟩
  · obtain ⟨⟨d, word⟩, hd, rfl⟩ := map_ok h
    obtain ⟨o, p, g, hl⟩ := latchOpcode_eq d word
    dsimp only
    rw [hl]
    unfold consumeFetch at hd
    split at hd
    · obtain ⟨port, hp, hd⟩ := map_ok hd
      obtain ⟨rfl, -⟩ := Prod.mk.inj hd
      exact ⟨port, .freed hp, rfl⟩
    · obtain ⟨rfl, -⟩ := Prod.mk.inj (Except.ok.inj hd)
      exact ⟨_, .same, rfl⟩

/-- Only Fetch and LoadInstruction reach the L1I (R98, R100). -/
theorem StageChange.l1i {st : Stage} {e : Env} {c : Context} {r : PhaseOut} (h : StageChange e c st r)
    (hfetch : st ≠ .fetch) (hload : st ≠ .loadInstruction) : r.ctx.l1i = c.l1i := by
  cases h with
  | same => rfl
  | fetchError => exact absurd rfl hfetch
  | fetch => exact absurd rfl hfetch
  | latch => exact absurd rfl hload
  | decode => rfl
  | phase _ _ h => exact ((runPhase_frame ..).frame r h).l1i
  | @retire f r hf h =>
    have before : r.ctx.l1i = c.l1i := by
      rcases h with rfl | h
      · rfl
      · exact ((runPhase_frame ..).frame r h).l1i
    rcases settleRetire_ctx r with hs | hs
    · rw [hs]; exact before
    · rw [hs]; exact before

/-- A stage changes of the L1I only the port, by a Read or a free. -/
theorem runStage_l1i {st : Stage} {e : Env} {c : Context} {r : PhaseOut} (h : runStage st e c = .ok r) :
    ∃ port, c.l1i.port.Fetched port ∧ r.ctx.l1i = { c.l1i with port := port } := by
  by_cases hfetch : st = .fetch
  · subst hfetch
    obtain ⟨c', hc, rfl⟩ := justly_ok h
    rcases fetchStage_ok hc with rfl | hraise | ⟨a, port, hp, rfl⟩
    · exact ⟨_, .same, rfl⟩
    · exact ⟨_, .same, (PhaseFrame.raise hraise).l1i⟩
    · exact ⟨port, .read hp, rfl⟩
  by_cases hload : st = .loadInstruction
  · subst hload
    obtain ⟨c', hc, rfl⟩ := justly_ok h
    exact loadInstructionStage_l1i hc
  · exact ⟨_, .same, (runStage_change h).l1i hfetch hload⟩

/-- A Read and a free leave a cache one that takes only reads. -/
theorem Cache.ReadOnly.fetched {c : Cache} (h : c.ReadOnly) {port : Port} (hp : c.port.Fetched port) :
    Cache.ReadOnly { c with port := port } := by
  refine ⟨h.1, ?_⟩
  cases hp with
  | same => exact h.2
  | read hr =>
    obtain ⟨-, rfl⟩ := Port.request_ok hr
    exact fun _ => rfl
  | freed hr =>
    obtain ⟨-, rfl⟩ := Port.release_ok hr
    exact h.2

/-- Every change of a Context keeps its L1I read-only (R63). -/
theorem ContextChange.fetchOnly {a : Agent} {s : State} {k : Nat} {j : Fin 8} {c c' : Context}
    (h : ContextChange a s k j c c') (hc : c.FetchOnly) : c'.FetchOnly := by
  rw [Context.fetchOnly_iff] at hc ⊢
  cases h with
  | same => exact hc
  | caches hi => exact hc.clock hi
  | polled => exact hc
  | signalled => exact hc
  | stage _ _ h | stageSignalled _ _ h =>
    obtain ⟨port, hp, hl1i⟩ := runStage_l1i h
    exact hl1i ▸ hc.fetched hp

/-- Settles O57: the stages send an L1I reads only, so it never has a dirty byte to write back; every change of a
Context keeps that. -/
theorem fetchCachesReadOnly : Obligations.FetchCachesReadOnly := by
  intro s t hs h
  exact step_keeps_everyContext ContextChange.fetchOnly h hs

end Sys2Proof.Machine
end

section
/-! Obligation O49: Memory changes only by a Write request on its port. -/

namespace Sys2Proof.Machine

/-- What writing a Bus leaves at an address: the byte it held, or the valid byte at its position in the Bus (R48). -/
theorem readCells_writeLanes (bus : List Lane) : ∀ {cells : List Host.Cell} (_ : Canonical cells) (b a : Nat),
    readCells (writeLanes cells b bus) a = readCells cells a ∨
    ∃ k l, bus[k]? = some l ∧ l.valid = true ∧ l.data = readCells (writeLanes cells b bus) a ∧ a = b + k := by
  induction bus with
  | nil => exact fun _ _ _ => .inl rfl
  | cons l rest ih =>
    intro cells h b a
    rw [writeLanes]
    cases hv : l.valid with
    | false =>
      rcases ih h (b + 1) a with hr | ⟨k, x, hx, hxv, hd, rfl⟩
      · exact .inl hr
      · exact .inr ⟨k + 1, x, hx, hxv, hd, by omega⟩
    | true =>
      rcases ih (writeCells_canonical h b l.data) (b + 1) a with hr | ⟨k, x, hx, hxv, hd, rfl⟩
      · rw [readCells_writeCells h] at hr
        by_cases hab : a = b
        · rw [if_pos hab] at hr
          exact .inr ⟨0, l, rfl, hv, hr.symm, hab⟩
        · rw [if_neg hab] at hr
          exact .inl hr
      · exact .inr ⟨k + 1, x, hx, hxv, hd, by omega⟩

/-- A byte that a clock of Memory changes is a valid byte of the Write request it resolves (R48). -/
theorem Memory.clock_byte {cfg : Config} {m m' : Memory} (hw : m.wf = true) (h : m.clock cfg = .ok m') {a : Nat}
    (ha : m'.byte a ≠ m.byte a) :
    m.port.busy = true ∧ m.port.op = .write ∧
    ∃ k l, m.port.bus[k]? = some l ∧ l.valid = true ∧ l.data = m'.byte a ∧
      a = windowBase cfg.memoryBusWidth m.port.addr.toNat + k := by
  rcases Memory.clock_ok h with ⟨-, rfl⟩ | ⟨hb, -, ⟨-, rfl⟩ | ⟨ho, rfl⟩⟩
  · exact absurd rfl ha
  · exact absurd rfl ha
  · exact ⟨hb, ho, (readCells_writeLanes _ ((Memory.wf_iff m).1 hw) _ a).resolve_left ha⟩

/-- Memory's place in a clock is Memory's clock, in a cycle that is its own (R110). -/
theorem clockMemory_changes {s t : State} (h : clockMemory s = .ok t) (hm : t.memory ≠ s.memory) :
    s.cycle % s.cfg.divMem = 0 ∧ s.memory.clock s.cfg = .ok t.memory := by
  unfold clockMemory at h
  split at h
  · rename_i hd
    obtain ⟨m, hc, rfl⟩ := map_ok h
    exact ⟨hd, hc⟩
  · obtain rfl := Except.ok.inj h
    exact absurd rfl hm

/-- No agent but Memory writes its cells (R49). -/
theorem Agent.act_cells {a : Agent} {s t : State} (h : a.act s = .ok t) (ha : a ≠ .memory) :
    t.memory.cells = s.memory.cells := by
  cases a with
  | memory => exact absurd rfl ha
  | l3 => rcases clockL3_ok h with rfl | ⟨l3, port, -, rfl⟩ <;> rfl
  | poll => obtain rfl := Except.ok.inj h; rw [s.lockPoll_polled.memory]
  | l2 k =>
    rcases clockL2_ok h with rfl | ⟨l2, port, -, rfl⟩
    · rfl
    · simp
  | l1 k j => obtain ⟨d, -, rfl⟩ := map_ok h; simp
  | corePoll k => obtain rfl := Except.ok.inj h; simp
  | stage k st =>
    obtain ⟨r, -, hn⟩ := clockStage_ok h
    rw [hn.memory]
    simp [State.setCtx]
  | coreTick k => obtain rfl := Except.ok.inj h; simp
  | device d =>
    rcases clockDevice_ok h with rfl | ⟨x, cfg, x', port, done, -, -, hn⟩
    · rfl
    · rw [hn.memory]

/-- Memory acts first in a clock and never again (R110). -/
theorem State.schedule_memory (s : State) : ∃ l, s.schedule = .memory :: l ∧ ∀ a ∈ l, a ≠ .memory := by
  refine ⟨_, rfl, ?_⟩
  rintro a ha rfl
  simp only [List.mem_cons, reduceCtorEq, false_or, List.mem_append, List.mem_flatMap] at ha
  rcases ha with ⟨k, -, ha⟩ | ha
  · cases coreAgents_core ha
  · split at ha
    · obtain ⟨d, -, hd⟩ := List.mem_map.1 ha
      cases hd
    · cases ha

/-- What a clock makes of Memory's cells, Memory's own place in it makes (R110). -/
theorem processorClock_cells {s t : State} (hrun : s.halted = false) (h : processorClock s = .ok t) :
    ∃ u, clockMemory s = .ok u ∧ t.memory.cells = u.memory.cells := by
  obtain ⟨v, hv, rfl⟩ := processorClock_runs hrun h
  obtain ⟨l, hl, hne⟩ := s.schedule_memory
  rw [hl] at hv
  obtain ⟨u, hu, hv⟩ := runs_cons hv
  refine ⟨u, hu, ?_⟩
  show v.memory.cells = u.memory.cells
  exact hv.rel (R := fun x y => y.memory.cells = x.memory.cells) (fun _ => rfl) (fun _ _ _ h h' => h'.trans h)
    fun a ha _ _ hact => Agent.act_cells hact (hne a ha)

/-- Settles O49: of the agents of a clock only Memory writes its cells, and it writes the valid bytes of the Write
request it resolves. -/
theorem memoryFrame : Obligations.MemoryFrame := by
  intro s t a hw h ha
  cases hrun : s.halted with
  | true =>
    rw [processorClock, hrun] at h
    obtain rfl := Except.ok.inj h
    exact absurd rfl ha
  | false =>
    obtain ⟨u, hu, hcells⟩ := processorClock_cells hrun h
    have hbyte : t.memory.byte a = u.memory.byte a := congrArg (readCells · a) hcells
    rw [hbyte] at ha ⊢
    obtain ⟨hdiv, hclock⟩ := clockMemory_changes hu fun e => ha (by rw [e])
    obtain ⟨hbusy, hop, hlane⟩ := Memory.clock_byte hw hclock ha
    exact ⟨hbusy, hop, hdiv, hlane⟩

end Sys2Proof.Machine
end

section
/-! Obligation O51: a register and its 8 bytes, the most significant first. -/

namespace Sys2Proof.Machine

/-- Settles O51: the bytes are the digits of the register to base 256. -/
theorem bigEndianBytes : Obligations.BigEndianBytes := by
  refine ⟨fun v => ⟨rfl, ?_, rfl⟩, fun l hl => ?_⟩
  · apply BitVec.eq_of_toNat_eq
    have := v.isLt
    simp only [be8, be, bytes8, List.foldl_cons, List.foldl_nil, BitVec.toNat_ofNat, BitVec.extractLsb'_toNat,
      Nat.shiftRight_eq_div_pow]
    omega
  · match l, hl with
    | [b0, b1, b2, b3, b4, b5, b6, b7], _ =>
      have := b0.isLt; have := b1.isLt; have := b2.isLt; have := b3.isLt
      have := b4.isLt; have := b5.isLt; have := b6.isLt; have := b7.isLt
      simp only [bytes8, List.cons.injEq, and_true]
      refine ⟨?_, ?_, ?_, ?_, ?_, ?_, ?_, ?_⟩
      all_goals
        apply BitVec.eq_of_toNat_eq
        simp only [be8, be, List.foldl_cons, List.foldl_nil, BitVec.toNat_ofNat, BitVec.extractLsb'_toNat,
          Nat.shiftRight_eq_div_pow]
        omega

end Sys2Proof.Machine
end

section
/-! Obligation O50: a cache write changes the bytes written, and their dirty bits, and no other. -/

namespace Sys2Proof.Machine

/-! ## The positions of a write (R46, R58) -/

/-- Inside the part replaced stand the new elements. -/
theorem overwrite_inside {α : Type} {xs ys : List α} {w k : Nat} (hw : w + ys.length ≤ xs.length) (hk : k < ys.length) :
    (overwrite xs w ys)[w + k]? = ys[k]? := by
  have htake : (xs.take w).length = w := List.length_take_of_le (by omega)
  rw [overwrite, List.append_assoc, List.getElem?_append_right (by omega), htake, Nat.add_sub_cancel_left,
    List.getElem?_append_left hk]

/-- Outside the part replaced the elements stay. -/
theorem overwrite_outside {α : Type} {xs ys : List α} {w i : Nat} (hw : w + ys.length ≤ xs.length)
    (hi : ¬(w ≤ i ∧ i < w + ys.length)) : (overwrite xs w ys)[i]? = xs[i]? := by
  have htake : (xs.take w).length = w := List.length_take_of_le (by omega)
  rw [overwrite, List.append_assoc]
  rcases lt_or_ge i w with h | h
  · rw [List.getElem?_append_left (by omega), List.getElem?_take_of_lt h]
  · rw [List.getElem?_append_right (by omega), htake, List.getElem?_append_right (by omega), List.getElem?_drop]
    congr 1
    omega

theorem writeBus_length {width s : Nat} {bytes : List Byte} (h : s + bytes.length ≤ width) :
    (writeBus width s bytes).length = width := by
  simp only [writeBus, readBus, List.length_append, List.length_replicate, List.length_map]
  omega

/-- The payload of a Write carries its bytes at their positions, valid (R46). -/
theorem writeBus_inside {width s k : Nat} {bytes : List Byte} {b : Byte} (hk : bytes[k]? = some b) :
    (writeBus width s bytes)[s + k]? = some { data := b, valid := true, dirty := false } := by
  have hlt := (List.getElem?_eq_some_iff.1 hk).1
  rw [writeBus, List.append_assoc, List.getElem?_append_right (by simp), List.length_replicate, Nat.add_sub_cancel_left,
    List.getElem?_append_left (by simpa [readBus] using hlt), readBus, List.getElem?_map, hk]
  rfl

/-- Every other position of the payload of a Write is not valid (R46). -/
theorem writeBus_outside {width s i : Nat} {bytes : List Byte} {l : Lane} (hi : ¬(s ≤ i ∧ i < s + bytes.length))
    (hl : (writeBus width s bytes)[i]? = some l) : l.valid = false := by
  have reset : ∀ n j : Nat, (List.replicate n Lane.reset)[j]? = some l → l.valid = false := by
    intro n j h
    rw [List.eq_of_mem_replicate (List.mem_of_getElem? h)]
    rfl
  rw [writeBus, List.append_assoc] at hl
  rcases lt_or_ge i s with h | h
  · rw [List.getElem?_append_left (by simpa using h)] at hl
    exact reset _ _ hl
  · rw [List.getElem?_append_right (by simpa using h), List.getElem?_append_right (by simp [readBus]; omega)] at hl
    exact reset _ _ hl

/-- Writing a Bus replaces the positions of its window, each by what `Lane.written` makes of it (R58). -/
theorem Line.write_lane {ln : Line} {w i : Nat} {bus : List Lane} {l b : Lane} (always : Bool)
    (hw : w + bus.length ≤ ln.lanes.length) (hl : ln.lanes[w + i]? = some l) (hb : bus[i]? = some b) :
    (ln.write always w bus).lanes[w + i]? = some (Lane.written always l b) := by
  have hi := (List.getElem?_eq_some_iff.1 hb).1
  have hlen : (List.zipWith (Lane.written always) (ln.window w bus.length) bus).length = bus.length := by
    simp only [Line.window, List.length_zipWith, List.length_take, List.length_drop]
    omega
  rw [Line.write, overwrite_inside (by omega) (by omega), List.getElem?_zipWith, Line.window,
    List.getElem?_take_of_lt hi, List.getElem?_drop, hl, hb]

/-- Writing a Bus keeps the positions outside its window (R58). -/
theorem Line.write_lane_outside {ln : Line} {w i : Nat} {bus : List Lane} (always : Bool)
    (hw : w + bus.length ≤ ln.lanes.length) (hi : ¬(w ≤ i ∧ i < w + bus.length)) :
    (ln.write always w bus).lanes[i]? = ln.lanes[i]? := by
  have hlen : (List.zipWith (Lane.written always) (ln.window w bus.length) bus).length = bus.length := by
    simp only [Line.window, List.length_zipWith, List.length_take, List.length_drop]
    omega
  exact overwrite_outside (by omega) (by omega)

/-! ## Bytes written into a line (R58) -/

section Bytes

variable {ln : Line} {width w s : Nat} {bytes : List Byte} (always : Bool) (hs : s + bytes.length ≤ width)
  (hw : w + width ≤ ln.lanes.length)

include hs hw

/-- A byte written stands at its position, dirty as R58 says. -/
theorem Line.write_byte {k : Nat} {b : Byte} {l : Lane} (hk : bytes[k]? = some b)
    (hl : ln.lanes[w + (s + k)]? = some l) :
    (ln.write always w (writeBus width s bytes)).lanes[w + (s + k)]?
      = some { data := b, valid := true, dirty := l.dirty || !l.valid || decide (l.data ≠ b) || always } := by
  rw [Line.write_lane always (by rw [writeBus_length hs]; exact hw) hl (writeBus_inside hk)]
  rfl

/-- Every other position of the line stays as it was. -/
theorem Line.write_byte_outside {i : Nat} (hi : ¬(w + s ≤ i ∧ i < w + s + bytes.length)) :
    (ln.write always w (writeBus width s bytes)).lanes[i]? = ln.lanes[i]? := by
  have hbus := writeBus_length hs
  by_cases hin : w ≤ i ∧ i < w + width
  · obtain ⟨j, rfl⟩ := Nat.exists_eq_add_of_le hin.1
    obtain ⟨b, hb⟩ : ∃ b, (writeBus width s bytes)[j]? = some b := ⟨_, List.getElem?_eq_getElem (by omega)⟩
    obtain ⟨l, hl⟩ : ∃ l, ln.lanes[w + j]? = some l := ⟨_, List.getElem?_eq_getElem (by omega)⟩
    rw [Line.write_lane always (by omega) hl hb, hl, Lane.written, writeBus_outside (by omega) hb]
    rfl
  · exact Line.write_lane_outside always (by omega) (by omega)

end Bytes

/-! ## The cache after a write (R50, R51, R58, R59) -/

section Write

variable {g : CacheConfig} (hg : g.wellFormed = true) {c : Cache} (hc : c.Shaped g) (always : Bool) {p : Nat}
  {bytes : List Byte}

/-- The line a write goes into holds the tag afterwards. -/
theorem Cache.writeBase_tag (g : CacheConfig) (c : Cache) (p : Nat) : (c.writeBase g p).tag = tagOf g p := by
  unfold Cache.writeBase
  split
  · assumption
  · rfl

/-- A write goes into the line as it is, or into one that holds no byte (R58, R59). -/
theorem Cache.writeBase_lanes (g : CacheConfig) (c : Cache) (p : Nat) :
    ((c.lineOf g p).tag = tagOf g p ∧ (c.writeBase g p).lanes = (c.lineOf g p).lanes) ∨
    ((c.lineOf g p).tag ≠ tagOf g p ∧ (c.writeBase g p).lanes = (c.lineOf g p).lanes.map Lane.cleared) := by
  unfold Cache.writeBase
  split
  · rename_i h; exact .inl ⟨h, rfl⟩
  · rename_i h; exact .inr ⟨h, rfl⟩

include hc in
theorem Cache.writeBase_length (p : Nat) : (c.writeBase g p).lanes.length = g.lineWidth := by
  rcases Cache.writeBase_lanes g c p with ⟨-, h⟩ | ⟨-, h⟩
  · rw [h, hc.lineOf_lanes]
  · rw [h, List.length_map, hc.lineOf_lanes]

include hg

/-- Before a write the line of the address holds in a position what the write finds there, or nothing. -/
theorem Cache.writeBase_found {a : Nat} (hline : a / g.lineWidth = p / g.lineWidth) {l : Lane}
    (hl : (c.writeBase g p).lanes[a % g.lineWidth]? = some l) :
    c.byteAt g a = (if l.valid then some l.data else none) ∧ c.dirtyAt g a = l.dirty := by
  obtain ⟨hi, ht⟩ := (sameLine_iff hg).2 hline
  have same : c.lineOf g a = c.lineOf g p := by rw [Cache.lineOf, hi, Cache.lineOf]
  rcases Cache.writeBase_lanes g c p with ⟨htag, hb⟩ | ⟨htag, hb⟩
  · have hlane : c.laneAt g a = some l := by
      rw [Cache.laneAt_of_tag (by rw [same, htag, ht]), same, ← hb, hl]
    exact ⟨Cache.byteAt_of_lane hlane, Cache.dirtyAt_of_lane hlane⟩
  · obtain ⟨hn, hd⟩ := Cache.byteAt_of_none (Cache.laneAt_of_tag_ne (g := g) (c := c) (a := a) (by rwa [same, ht]))
    rw [hb, List.getElem?_map, Option.map_eq_some_iff] at hl
    obtain ⟨x, -, rfl⟩ := hl
    exact ⟨hn, hd⟩

include hc

/-- What a cache holds, after a write, for an address of the line written. -/
theorem Cache.laneAt_afterWrite {a : Nat} (hline : a / g.lineWidth = p / g.lineWidth) :
    (c.afterWrite g always p bytes).laneAt g a
      = ((c.writeBase g p).write always (windowOffset g p) (writeBus g.busWidth (p % g.busWidth) bytes)).lanes[
          a % g.lineWidth]? := by
  obtain ⟨hi, ht⟩ := (sameLine_iff hg).2 hline
  exact (Cache.laneAt_setLine hg hc hi _).trans (if_pos ((Cache.writeBase_tag g c p).trans ht.symm))

/-- The bytes written, and their dirty bits. -/
theorem Cache.afterWrite_inside (hp : p % g.busWidth + bytes.length ≤ g.busWidth) {k : Nat} (hk : k < bytes.length) :
    (c.afterWrite g always p bytes).byteAt g (p + k) = bytes[k]? ∧
    (c.afterWrite g always p bytes).dirtyAt g (p + k)
      = (c.dirtyAt g (p + k) || decide (c.byteAt g (p + k) ≠ bytes[k]?) || always) := by
  have fits := CacheConfig.window_fits hg p
  have hlen := Cache.writeBase_length hc p
  obtain ⟨hline, hpos⟩ := window_add hg (p := p) (k := k) (by omega)
  obtain ⟨b, hb⟩ : ∃ b, bytes[k]? = some b := ⟨_, List.getElem?_eq_getElem hk⟩
  obtain ⟨l, hl⟩ : ∃ l, (c.writeBase g p).lanes[windowOffset g p + (p % g.busWidth + k)]? = some l :=
    ⟨_, List.getElem?_eq_getElem (by omega)⟩
  have after := Cache.laneAt_afterWrite hg hc always (bytes := bytes) hline
  rw [hpos, Line.write_byte always hp (by omega) hb hl] at after
  obtain ⟨hbyte, hdirty⟩ := Cache.writeBase_found hg hline (hpos ▸ hl)
  rw [Cache.byteAt_of_lane after, Cache.dirtyAt_of_lane after, hb, hbyte, hdirty]
  refine ⟨rfl, ?_⟩
  cases l.valid <;> simp

/-- Every other address of the line written keeps its byte and its dirty bit. -/
theorem Cache.afterWrite_sameLine (hp : p % g.busWidth + bytes.length ≤ g.busWidth) (hpos : 0 < bytes.length) {a : Nat}
    (ha : ¬(p ≤ a ∧ a < p + bytes.length)) (hline : a / g.lineWidth = p / g.lineWidth) :
    (c.afterWrite g always p bytes).byteAt g a = c.byteAt g a ∧
    (c.afterWrite g always p bytes).dirtyAt g a = c.dirtyAt g a := by
  obtain ⟨hbus, hwidth, -, -, -⟩ := CacheConfig.wellFormed_widths hg
  have fits := CacheConfig.window_fits hg p
  have hlen := Cache.writeBase_length hc p
  have hlt := Nat.mod_lt a hwidth
  obtain ⟨l, hl⟩ : ∃ l, (c.writeBase g p).lanes[a % g.lineWidth]? = some l := ⟨_, List.getElem?_eq_getElem (by omega)⟩
  have outside : ¬(windowOffset g p + p % g.busWidth ≤ a % g.lineWidth ∧
      a % g.lineWidth < windowOffset g p + p % g.busWidth + bytes.length) := by
    have hp0 := (window_add hg (p := p) (k := 0) (by omega)).2
    have hadiv := Nat.div_add_mod a g.lineWidth
    have hpdiv := Nat.div_add_mod p g.lineWidth
    rw [hline] at hadiv
    simp only [Nat.add_zero] at hp0
    omega
  have after := Cache.laneAt_afterWrite hg hc always (bytes := bytes) hline
  rw [Line.write_byte_outside always hp (by omega) outside, hl] at after
  obtain ⟨hbyte, hdirty⟩ := Cache.writeBase_found hg hline hl
  rw [Cache.byteAt_of_lane after, Cache.dirtyAt_of_lane after, hbyte, hdirty]
  exact ⟨rfl, rfl⟩

end Write

/-- Settles O50: an address of the line written is a byte written or keeps its position; one of another line keeps its
position, unless its line was repurposed. -/
theorem cacheWriteBytes : Obligations.CacheWriteBytes := by
  intro g always c p bytes hg hc hp
  refine ⟨fun k hk => Cache.afterWrite_inside hg hc always hp hk, fun hpos a ha => ?_⟩
  by_cases hi : indexOf g a = indexOf g p
  · by_cases ht : tagOf g a = tagOf g p
    · exact .inl (Cache.afterWrite_sameLine hg hc always hp hpos ha ((sameLine_iff hg).1 ⟨hi, ht⟩))
    · have after : (c.afterWrite g always p bytes).laneAt g a = none :=
        (Cache.laneAt_setLine hg hc hi _).trans (if_neg ((Cache.writeBase_tag g c p).trans_ne (Ne.symm ht)))
      exact .inr ⟨hi, ht, Cache.byteAt_of_none after⟩
  · exact .inl (Cache.byteAt_congr (Cache.laneAt_setLine_ne hg hc hi _))

end Sys2Proof.Machine
end

section
/-! Obligation O52: how a read miss begins and ends. -/

namespace Sys2Proof.Machine

/-- An installed line has every byte valid (R54). -/
theorem Line.installed_valid (ln : Line) (t : Nat) (fetched : List Byte) :
    ∀ l ∈ (ln.installed t fetched).lanes, l.valid = true := by
  intro l hl
  unfold Line.installed at hl
  split at hl
  · rw [← List.map_uncurry_zip_eq_zipWith] at hl
    obtain ⟨x, -, rfl⟩ := List.mem_map.1 hl
    rfl
  · obtain ⟨b, -, rfl⟩ := List.mem_map.1 hl
    rfl

/-- The line of an address is installed as the line of its line address is (R50). -/
theorem Cache.installed_lineAddr {g : CacheConfig} (hg : g.wellFormed = true) (c : Cache) (a : Nat)
    (fetched : List Byte) : c.installed g (lineAddr g a) fetched = c.installed g a fetched := by
  rw [Cache.installed, indexOf_lineAddr hg, tagOf_lineAddr hg, Cache.lineOf_lineAddr hg, Cache.installed]

/-- A read of an address whose line was installed hits (R56). -/
theorem Cache.installed_readHit {g : CacheConfig} (hg : g.wellFormed = true) {c : Cache} (hc : c.Shaped g) (a : Nat)
    (fetched : List Byte) : (c.installed g a fetched).ReadHit g a := by
  rw [Cache.ReadHit, Cache.windowOf, Cache.lineOf_installed hg hc]
  refine ⟨Line.installed_tag .., List.all_eq_true.2 fun l hl => ?_⟩
  exact Line.installed_valid _ _ _ l (List.mem_of_mem_drop (List.mem_of_mem_take hl))

/-- The window of an address whose line was installed: the fetched bytes, but for the line's own dirty ones (R54,
R56). -/
theorem Cache.windowOf_installed {g : CacheConfig} (hg : g.wellFormed = true) {c : Cache} (hc : c.Shaped g) {a k : Nat}
    {fetched : List Byte} {own : Lane} {b : Byte} (hk : k < g.busWidth)
    (hown : (c.lineOf g a).lanes[windowOffset g a + k]? = some own) (hb : fetched[windowOffset g a + k]? = some b) :
    ((c.installed g a fetched).windowOf g a)[k]? = some
      { data := if (c.lineOf g a).tag = tagOf g a ∧ own.dirty = true then own.data else b, valid := true,
        dirty := decide ((c.lineOf g a).tag = tagOf g a) && own.dirty } := by
  rw [Cache.windowOf, Line.window, List.getElem?_take_of_lt hk, List.getElem?_drop, Cache.lineOf_installed hg hc,
    Line.installed_lane hown hb]

/-- A window has the Bus width (R50). -/
theorem Cache.Shaped.windowOf_length {g : CacheConfig} (hg : g.wellFormed = true) {c : Cache} (hc : c.Shaped g)
    (a : Nat) : (c.windowOf g a).length = g.busWidth := by
  have fits := CacheConfig.window_fits hg a
  rw [Cache.windowOf, Line.window, List.length_take, List.length_drop, hc.lineOf_lanes]
  omega

/-- An install keeps the shape. -/
theorem Cache.Shaped.installed {g : CacheConfig} {c : Cache} (hc : c.Shaped g) (la : Nat) {fetched : List Byte}
    (hlen : fetched.length = g.lineWidth) : (c.installed g la fetched).Shaped g :=
  hc.setLine _ ((Line.installed_length ((hc.lineOf_lanes la).trans hlen.symm) _).trans hlen)

/-- A fetched line is the whole Bus of the lower Store (R64). -/
theorem fetched_eq {g : CacheConfig} {bus : List Lane} (h : bus.length = g.lineWidth) :
    (bus.take g.lineWidth).map Lane.data = bus.map Lane.data := by rw [List.take_of_length_le (le_of_eq h)]

/-- A fetch that succeeded is installed where it writes nothing back (R53, R54). -/
theorem Cache.background_installs {g : CacheConfig} {c : Cache} {lower : Port} {la : Nat}
    (h : lower.completed = true) (hl : c.lp = .fetch la) (hs : lower.successful = true)
    (hlen : lower.bus.length = g.lineWidth)
    (ready : (c.lineOf g la).tag = tagOf g la ∨ (c.lineOf g la).isDirty = false) :
    c.background g lower
      = .ok (Cache.installed g { c with lp := .idle } la (lower.bus.map Lane.data), lower.freed) := by
  rw [Cache.background_fetch g h hl, if_pos hs, fetched_eq hlen]
  exact Cache.install_ready (c := { c with lp := .idle }) _ _ ready

/-- A fetch that failed is freed and installs nothing (R53). -/
theorem Cache.background_fetch_failed (g : CacheConfig) {c : Cache} {lower : Port} {la : Nat}
    (h : lower.completed = true) (hl : c.lp = .fetch la) (hs : lower.successful = false) :
    c.background g lower = .ok ({ c with lp := .idle }, lower.freed) := by
  rw [Cache.background_fetch g h hl, if_neg (by simp [hs])]

section Miss

variable {g : CacheConfig} {always : Bool} {c : Cache} {lower : Port} (hbusy : c.port.busy = true)
  (hop : c.port.op = .read) (hm : ¬ c.ReadHit g c.port.addr.toNat)

include hbusy hop hm

/-- A read miss above an idle lower Store asks it for the line (R55, R57). -/
theorem Cache.readMiss_fetches (hl : c.lp = .idle) (hi : lower.idle = true) :
    ∃ c', c.clock g always lower = .ok (c', lower.taken .read (lineAddr g c.port.addr.toNat) lower.bus) ∧
      c.Fails c' (.fetch (lineAddr g c.port.addr.toNat)) := by
  refine Cache.clock_fails hbusy (lp1 := c.lp) (Cache.background_idle g lower hl) ?_
  rw [Cache.attempt_readMiss hop hm]
  exact congrArg (Except.map _) (Cache.requestFetch_idle hl hi _)

/-- A read miss that may not send a request waits (R55, R57). -/
theorem Cache.readMiss_waits (h : c.lp = .idle ∨ lower.completed = false) (hn : ¬(c.lp = .idle ∧ lower.idle = true)) :
    ∃ c', c.clock g always lower = .ok (c', lower) ∧ c.Fails c' c.lp := by
  refine Cache.clock_fails hbusy (lp1 := c.lp) (Cache.background_nothing g h) ?_
  rw [Cache.attempt_readMiss hop hm]
  exact congrArg (Except.map _) (Cache.requestFetch_waits hn _)

/-- A read miss whose fetch failed asks for the line again (R53, R57). -/
theorem Cache.readMiss_refetches (hl : c.lp = .fetch (lineAddr g c.port.addr.toNat)) (h : lower.completed = true)
    (hs : lower.successful = false) :
    ∃ c', c.clock g always lower = .ok (c', lower.taken .read (lineAddr g c.port.addr.toNat) lower.bus) ∧
      c.Fails c' (.fetch (lineAddr g c.port.addr.toNat)) := by
  refine Cache.clock_fails hbusy (Cache.background_fetch_failed g h hl hs) ?_
  rw [Cache.attempt_readMiss (c := { c with lp := .idle }) hop hm]
  exact congrArg (Except.map _) (Cache.requestFetch_idle (c := { c with lp := .idle }) rfl (Port.freed_idle h) _)

end Miss

/-- A read miss whose fetch completes is served in the same clock, from the line it installs (R53, R54, R56). -/
theorem Cache.readMiss_served {g : CacheConfig} (hg : g.wellFormed = true) (always : Bool) {c : Cache} (hc : c.Shaped g)
    {lower : Port} (hbusy : c.port.busy = true) (hop : c.port.op = .read)
    (hl : c.lp = .fetch (lineAddr g c.port.addr.toNat)) (h : lower.completed = true) (hs : lower.successful = true)
    (hlen : lower.bus.length = g.lineWidth)
    (ready : (c.lineOf g c.port.addr.toNat).tag = tagOf g c.port.addr.toNat ∨
      (c.lineOf g c.port.addr.toNat).isDirty = false) :
    let d := Cache.installed g { c with lp := .idle } c.port.addr.toNat (lower.bus.map Lane.data)
    c.clock g always lower = .ok
      ({ d with port := { c.port with
          bus := readBus ((d.windowOf g c.port.addr.toNat).map Lane.data), busy := false, successful := true } },
        lower.freed) := by
  have hc' : Cache.Shaped g { c with lp := .idle } := hc.of_eq rfl rfl
  have background := Cache.background_installs h hl hs hlen (by rwa [Cache.lineOf_lineAddr hg, tagOf_lineAddr hg])
  rw [Cache.installed_lineAddr hg] at background
  exact Cache.clock_serves_read background hbusy hop (Cache.installed_readHit hg hc' _ _)

/-- Settles O52: a miss fails and asks for its line where it may; the fetch that completes is installed, and the Read
hits the installed line in the same clock. -/
theorem readMiss : Obligations.ReadMiss := by
  intro g always c lower
  refine ⟨Cache.background_nothing g, fun hbusy hop hm => ⟨Cache.readMiss_fetches hbusy hop hm,
    Cache.readMiss_waits hbusy hop hm, Cache.readMiss_refetches hbusy hop hm⟩, ?_⟩
  intro hg hc hbusy hop a ln hl h hs hlen ready
  have hc' : Cache.Shaped g { c with lp := .idle } := hc.of_eq rfl rfl
  have shaped : Cache.Shaped g (Cache.installed g { c with lp := .idle } a (lower.bus.map Lane.data)) :=
    hc'.installed a ((List.length_map ..).trans hlen)
  have hwindow := shaped.windowOf_length hg a
  refine ⟨_, Cache.readMiss_served hg always hc hbusy hop hl h hs hlen ready, rfl, rfl, rfl, rfl, rfl, ?_, ?_⟩
  · simpa [readBus] using hwindow
  · intro k l own x hk hown hx
    simp only [readBus, List.getElem?_map, Option.map_eq_some_iff] at hk
    obtain ⟨b, ⟨y, hy, rfl⟩, rfl⟩ := hk
    have hlt : k < g.busWidth := hwindow ▸ (List.getElem?_eq_some_iff.1 hy).1
    have served := Cache.windowOf_installed hg hc' hlt hown
      (fetched := lower.bus.map Lane.data) (b := x.data) (by rw [List.getElem?_map, hx]; rfl)
    obtain rfl := Option.some.inj (hy.symm.trans served)
    rfl

end Sys2Proof.Machine
end

section
/-! Obligation O53: installing a line, writing a victim back, and what a completed lower request does. -/

namespace Sys2Proof.Machine

/-! ## A Write that fails (R58, R60) -/

section Write

variable {g : CacheConfig} {always : Bool} {c : Cache} {lower : Port} (hbusy : c.port.busy = true)
  (hop : c.port.op = .write)

include hbusy hop

/-- A Write to a line whose write-back is outstanding fails and changes nothing (R58). -/
theorem Cache.write_duringWriteBack {va : Nat} {mask : List Bool} {withFill : Bool}
    (hl : c.lp = .writeBack va mask withFill) (hi : indexOf g va = indexOf g c.port.addr.toNat)
    (h : lower.completed = false) :
    ∃ c', c.clock g always lower = .ok (c', lower) ∧ c.Fails c' c.lp :=
  Cache.clock_fails hbusy (lp1 := c.lp) (Cache.background_waits g c h) (Cache.attempt_writeDuringWriteBack hop hl hi)

variable (ht : (c.lineOf g c.port.addr.toNat).tag ≠ tagOf g c.port.addr.toNat)
  (hd : (c.lineOf g c.port.addr.toNat).isDirty = true)

include ht hd

/-- A Write that misses on a dirty line sends the write-back of its dirty bytes to an idle lower Store (R55, R60). -/
theorem Cache.writeMiss_writesBack (hl : c.lp = .idle) (hi : lower.idle = true) :
    let ln := c.lineOf g c.port.addr.toNat
    let va := addrOfLine g ln.tag (indexOf g c.port.addr.toNat)
    ∃ c' bus, c.clock g always lower = .ok (c', lower.taken .write va bus) ∧
      c.Fails c' (.writeBack va ln.dirtyMask false) ∧ CarriesLine bus ln ln.dirtyMask := by
  intro ln va
  have victim : c.line g (indexOf g va) = ln := by
    have hj : indexOf g va = indexOf g c.port.addr.toNat := indexOf_addrOfLine _ (Nat.mod_lt _ (by positivity))
    rw [hj]
    rfl
  have attempt := congrArg (Except.map fun r : Cache × Port => (false, r.1, r.2))
    (Cache.requestWriteBack_idle g hl hi va ln.dirtyMask)
  rw [← Cache.attempt_writeMiss (always := always) hop ht hd, victim] at attempt
  obtain ⟨c', hclock, hfails⟩ :=
    Cache.clock_fails hbusy (lp1 := c.lp) (Cache.background_idle g lower hl) attempt
  exact ⟨c', _, hclock, hfails, Line.writeBackBus_dirty ln⟩

/-- A Write that misses on a dirty line and may not send a request waits (R55, R60). -/
theorem Cache.writeMiss_waits (h : c.lp = .idle ∨ lower.completed = false) (hn : ¬(c.lp = .idle ∧ lower.idle = true)) :
    ∃ c', c.clock g always lower = .ok (c', lower) ∧ c.Fails c' c.lp := by
  refine Cache.clock_fails hbusy (lp1 := c.lp) (Cache.background_nothing g h) ?_
  rw [Cache.attempt_writeMiss hop ht hd]
  exact congrArg (Except.map _) (Cache.requestWriteBack_waits g hn _ _)

end Write

/-! ## A completed lower request (R53) -/

/-- A cache whose write-back of its line's dirty bytes has completed, its fill buffer emptied (R53). -/
def Cache.writtenBack (g : CacheConfig) (c : Cache) (va : Nat) (mask : List Bool) : Cache :=
  { Cache.cleanLine g { c with lp := .idle } va mask with fill := none }

theorem Cache.Shaped.writtenBack {g : CacheConfig} {c : Cache} (hc : c.Shaped g) (va : Nat) {mask : List Bool}
    (hm : mask.length = g.lineWidth) : (c.writtenBack g va mask).Shaped g :=
  (Cache.Shaped.cleanLine (c := { c with lp := .idle }) (hc.of_eq rfl rfl) va hm).of_eq rfl rfl

section Completed

variable {g : CacheConfig} (hg : g.wellFormed = true) {c : Cache} (hc : c.Shaped g) {lower : Port}
  (h : lower.completed = true)

include h

/-- A fetch that succeeded over a dirty victim sends the victim's write-back, and waits in the fill buffer (R53,
R54). -/
theorem Cache.background_writesBack {la : Nat} (hl : c.lp = .fetch la) (hs : lower.successful = true)
    (hlen : lower.bus.length = g.lineWidth) (ht : (c.lineOf g la).tag ≠ tagOf g la)
    (hd : (c.lineOf g la).isDirty = true) :
    let ln := c.lineOf g la
    let va := addrOfLine g ln.tag (indexOf g la)
    ∃ bus, c.background g lower = .ok ({ c with
        fill := some (la, lower.bus.map Lane.data), lp := .writeBack va ln.dirtyMask true },
      lower.taken .write va bus) ∧ CarriesLine bus ln ln.dirtyMask := by
  intro ln va
  refine ⟨_, ?_, Line.writeBackBus_dirty ln⟩
  rw [Cache.background_fetch g h hl, if_pos hs, fetched_eq hlen]
  exact Cache.install_dirty (c := { c with lp := .idle }) _ ht hd (Port.freed_idle h)

include hg hc

/-- A fetch that succeeded is installed where it writes nothing back (R53, R54). -/
theorem Cache.fetch_installed {la : Nat} (hl : c.lp = .fetch la) (hs : lower.successful = true)
    (hla : la % g.lineWidth = 0) (hlen : lower.bus.length = g.lineWidth)
    (ready : (c.lineOf g la).tag = tagOf g la ∨ (c.lineOf g la).isDirty = false) :
    let ln := c.lineOf g la
    ∃ c', c.background g lower = .ok (c', lower.freed) ∧ c'.lp = .idle ∧ c'.fill = c.fill ∧ c'.port = c.port ∧
      ∀ k own x, ln.lanes[k]? = some own → lower.bus[k]? = some x →
        c'.byteAt g (la + k) = some (if ln.tag = tagOf g la ∧ own.dirty then own.data else x.data) := by
  refine ⟨_, Cache.background_installs h hl hs hlen ready, rfl, rfl, rfl, fun k own x hown hx => ?_⟩
  have hc' : Cache.Shaped g { c with lp := .idle } := hc.of_eq rfl rfl
  exact Cache.byteAt_of_lane (Cache.laneAt_installed hg hc' hla hown (by rw [List.getElem?_map, hx]; rfl))

/-- A write-back that succeeded clears exactly the dirty bits of its mask (R53). -/
theorem Cache.writeBack_cleans {va : Nat} {mask : List Bool} {withFill : Bool} (hl : c.lp = .writeBack va mask withFill)
    (hs : lower.successful = true) (hm : mask.length = g.lineWidth) (hf : withFill = false ∨ c.fill = none) :
    ∃ c', c.background g lower = .ok (c', lower.freed) ∧ c'.lp = .idle ∧ c'.fill = c.fill ∧ c'.port = c.port ∧
      ∀ a, c'.byteAt g a = c.byteAt g a ∧
        c'.dirtyAt g a
          = (c.dirtyAt g a && !(decide (indexOf g a = indexOf g va) && mask.getD (a % g.lineWidth) false)) := by
  refine ⟨_, Cache.background_writeBack_alone g h hl hs hf, rfl, rfl, rfl, fun a => ?_⟩
  exact Cache.cleanLine_bytes hg (c := { c with lp := .idle }) (hc.of_eq rfl rfl) va hm a

/-- A write-back that succeeded for a waiting line leaves a clean victim, over which the line is installed (R53,
R54). -/
theorem Cache.writeBack_installs {va la : Nat} {fetched : List Byte}
    (hl : c.lp = .writeBack va (c.lineOf g la).dirtyMask true) (hs : lower.successful = true)
    (hf : c.fill = some (la, fetched)) (hla : la % g.lineWidth = 0) (hlen : fetched.length = g.lineWidth)
    (hi : indexOf g la = indexOf g va) (ht : (c.lineOf g la).tag ≠ tagOf g la) :
    ∃ c', c.background g lower = .ok (c', lower.freed) ∧ c'.lp = .idle ∧ c'.fill = none ∧ c'.port = c.port ∧
      (∀ k, k < g.lineWidth → c'.byteAt g (la + k) = fetched[k]? ∧ c'.dirtyAt g (la + k) = false) ∧
      ∀ a, indexOf g a ≠ indexOf g la → c'.byteAt g a = c.byteAt g a ∧ c'.dirtyAt g a = c.dirtyAt g a := by
  have hc' : Cache.Shaped g { c with lp := .idle } := hc.of_eq rfl rfl
  have shaped := hc.writtenBack va (mask := (c.lineOf g la).dirtyMask) ((List.length_map ..).trans (hc.lineOf_lanes la))
  have victim := Cache.lineOf_cleanLine hg hc' hi (c.lineOf g la).dirtyMask
  have clean : ((c.writtenBack g va (c.lineOf g la).dirtyMask).lineOf g la).isDirty = false :=
    (congrArg Line.isDirty victim).trans (Line.cleaned_isDirty _)
  have tag : ((c.writtenBack g va (c.lineOf g la).dirtyMask).lineOf g la).tag ≠ tagOf g la :=
    (congrArg Line.tag victim).trans_ne ht
  refine ⟨_, (Cache.background_writeBack_fill g h hl hs hf).trans (Cache.install_ready _ _ (.inr clean)), rfl, rfl, rfl,
    fun k hk => Cache.installed_over hg shaped hla hlen tag hk, fun a ha => Cache.byteAt_congr ?_⟩
  exact (Cache.laneAt_setLine_ne hg shaped ha _).trans (Cache.laneAt_setLine_ne hg hc' (hi ▸ ha) _)

end Completed

/-- Settles O53: a clause for each line `Install` may meet, for each Write that fails, and for each lower request that
completes. -/
theorem installRules : Obligations.InstallRules := by
  refine ⟨?install, ?write, ?completed⟩
  case install =>
    intro g c lower la fetched hg hc hla hlen hi
    refine ⟨fun ht => ?held, fun ht hd => ?clean, fun ht hd => ?dirty⟩
    case held =>
      refine ⟨_, Cache.install_ready lower fetched (.inl ht), rfl, rfl, fun k l b hl hb => ?_⟩
      rw [Cache.byteAt_of_lane (Cache.laneAt_installed hg hc hla hl hb)]
      simp [ht]
    case clean =>
      exact ⟨_, Cache.install_ready lower fetched (.inr hd), rfl, rfl,
        fun k hk => (Cache.installed_over hg hc hla hlen ht hk).1⟩
    case dirty =>
      have carries := Line.writeBackBus_dirty (c.lineOf g la)
      exact ⟨_, Cache.install_dirty fetched ht hd hi, rfl, rfl, rfl, carries.valid, carries.data⟩
  case write =>
    intro g always c lower hg hc hbusy hop
    exact ⟨Cache.writeMiss_writesBack hbusy hop, Cache.writeMiss_waits hbusy hop,
      fun _ _ _ hl hi h => Cache.write_duringWriteBack hbusy hop hl hi h⟩
  case completed =>
    intro g c lower hg hc h
    refine ⟨fun la hl => ⟨Cache.background_fetch_failed g h hl, fun hs hla hlen =>
        ⟨Cache.fetch_installed hg hc h hl hs hla hlen, Cache.background_writesBack h hl hs hlen⟩⟩,
      fun va mask withFill hl => ⟨Cache.background_writeBack_failed g h hl,
        fun hs => Cache.writeBack_cleans hg hc h hl hs, ?fill⟩⟩
    case fill =>
      rintro la fetched hs rfl hf hla hlen hi ht rfl
      exact Cache.writeBack_installs hg hc h hl hs hf hla hlen hi ht

end Sys2Proof.Machine
end

section
/-! SUPPORT. The word formats of 30_encoding.md section 3, said once for both directions of R93 and for R92: the leading
bit of a word selects its format, a word of a format is its fields, and the fields say which instruction it is. -/

namespace Sys2Proof

/-! ## The leading bit (R77) -/

/-- Bit `k` is the most significant set bit of the word (R77). -/
def Leads (w : InstrWord) (k : Nat) : Prop := 2 ^ k ≤ w.toNat ∧ w.toNat < 2 ^ (k + 1)

/-- Every word has no family bit, or one of bits 24 to 31 as its leading bit. -/
theorem leads_cases (w : InstrWord) : w.toNat < 2 ^ 24 ∨ Leads w 24 ∨ Leads w 25 ∨ Leads w 26 ∨ Leads w 27 ∨
    Leads w 28 ∨ Leads w 29 ∨ Leads w 30 ∨ Leads w 31 := by
  have := w.isLt
  simp only [Leads]
  omega

section Leading

variable {w : InstrWord} {k : Nat}

theorem Leads.ne_zero (h : Leads w k) : w ≠ 0#32 := by
  rintro rfl
  exact absurd h.1 (by simp)

theorem Leads.bit (h : Leads w k) : w.getLsbD k = true := Nat.testBit_of_two_pow_le_and_two_pow_add_one_gt h.1 h.2

theorem getLsbD_of_lt (h : w.toNat < 2 ^ k) {j : Nat} (hj : k ≤ j) : w.getLsbD j = false :=
  Nat.testBit_lt_two_pow (h.trans_le (Nat.pow_le_pow_right (by decide) hj))

theorem Leads.bit_above (h : Leads w k) {j : Nat} (hj : k + 1 ≤ j) : w.getLsbD j = false := getLsbD_of_lt h.2 hj

/-! ## The decoder, by leading bit (R77 to R84, R92) -/

theorem decode_loadc (h : Leads w 31) : decode w = .ok (.loadc (w.extractLsb' 5 26) (w.extractLsb' 0 5)) := by
  simp [decode, h.ne_zero, h.bit, -BitVec.getLsbD_eq_getElem]

theorem decode_jump (h : Leads w 30) : decode w = decodeJump w := by
  simp [decode, h.ne_zero, h.bit, h.bit_above, -BitVec.getLsbD_eq_getElem]

theorem decode_memory (h : Leads w 29) : decode w = decodeMemory w := by
  simp [decode, h.ne_zero, h.bit, h.bit_above, -BitVec.getLsbD_eq_getElem]

theorem decode_alu (h : Leads w 28) : decode w = decodeAlu w := by
  simp [decode, h.ne_zero, h.bit, h.bit_above, -BitVec.getLsbD_eq_getElem]

theorem decode_bit27 (h : Leads w 27) : decode w = .error .noFamily := by
  simp [decode, h.ne_zero, h.bit, h.bit_above, -BitVec.getLsbD_eq_getElem]

theorem decode_pushPop (h : Leads w 26) : decode w = decodePushPop w := by
  simp [decode, h.ne_zero, h.bit, h.bit_above, -BitVec.getLsbD_eq_getElem]

theorem decode_callReturn (h : Leads w 25) : decode w = decodeCallReturn w := by
  simp [decode, h.ne_zero, h.bit, h.bit_above, -BitVec.getLsbD_eq_getElem]

theorem decode_control (h : Leads w 24) : decode w = decodeControl w := by
  simp [decode, h.ne_zero, h.bit, h.bit_above, -BitVec.getLsbD_eq_getElem]

theorem decode_low (h : w.toNat < 2 ^ 24) : ∃ r, decode w = .error r := by
  by_cases hw : w = 0#32
  · exact ⟨.zeroWord, if_pos hw⟩
  · exact ⟨.noFamily, by simp [decode, hw, getLsbD_of_lt h, -BitVec.getLsbD_eq_getElem]⟩

/-- A word has one leading bit. -/
theorem Leads.iff_eq (h : Leads w k) {j : Nat} : Leads w j ↔ j = k := by
  refine ⟨fun hj => ?_, fun hj => hj ▸ h⟩
  have hlt : j < k + 1 := (Nat.pow_lt_pow_iff_right (by decide)).mp (hj.1.trans_lt h.2)
  have hgt : k < j + 1 := (Nat.pow_lt_pow_iff_right (by decide)).mp (h.1.trans_lt hj.2)
  omega

theorem Leads.not_lt (h : Leads w k) {j : Nat} (hj : j ≤ k) : ¬w.toNat < 2 ^ j :=
  Nat.not_lt.mpr ((Nat.pow_le_pow_right (by decide) hj).trans h.1)

end Leading

/-! ## Fields as numbers -/

/-- Two fields side by side, as a number. -/
theorem toNat_append_add {m n : Nat} (x : BitVec m) (y : BitVec n) : (x ++ y).toNat = x.toNat * 2 ^ n + y.toNat := by
  rw [BitVec.toNat_append, ← Nat.shiftLeft_add_eq_or_of_lt y.isLt, Nat.shiftLeft_eq]

/-- Bits `lo` to `lo + n - 1` of a word, as a number. -/
theorem toNat_field (w : InstrWord) (lo n : Nat) : (w.extractLsb' lo n).toNat = w.toNat / 2 ^ lo % 2 ^ n := by
  rw [BitVec.extractLsb'_toNat, Nat.shiftRight_eq_div_pow]

/-- A field is zero exactly when the two fields it is made of are. -/
theorem field_eq_zero_iff (w : InstrWord) (lo m n : Nat) :
    w.extractLsb' lo (m + n) = 0#(m + n) ↔ w.extractLsb' (lo + n) m = 0#m ∧ w.extractLsb' lo n = 0#n := by
  rw [← BitVec.extractLsb'_append_extractLsb'_eq_extractLsb' rfl]
  simp [← BitVec.toNat_inj, toNat_append_add, -BitVec.toNat_append]

/-! ## A word of a format is its leading bit and its fields (R78 to R84) -/

section Formats

variable {w : InstrWord}

theorem encodeLoadc_toNat (c : BitVec 26) (d : Reg) :
    (encode (.loadc c d)).toNat = 2 ^ 31 + c.toNat * 2 ^ 5 + d.toNat := by
  unfold encode
  rw [toNat_append_add, toNat_append_add, BitVec.toNat_ofNat]
  omega

theorem encodeLoadc_eq_iff {c : BitVec 26} {d : Reg} :
    encode (.loadc c d) = w ↔ Leads w 31 ∧ w.extractLsb' 5 26 = c ∧ w.extractLsb' 0 5 = d := by
  have := w.isLt; have := c.isLt; have := d.isLt
  simp only [← BitVec.toNat_inj, toNat_field, encodeLoadc_toNat, Leads]
  omega

theorem encodeJump_toNat (cc : BitVec 2) (dir : Direction) (off : BitVec 22) (r : Reg) :
    (encodeJump cc dir off r).toNat
      = 2 ^ 30 + cc.toNat * 2 ^ 28 + dir.bit.toNat * 2 ^ 27 + off.toNat * 2 ^ 5 + r.toNat := by
  unfold encodeJump
  iterate 4 rw [toNat_append_add]
  rw [BitVec.toNat_ofNat]
  omega

theorem encodeJump_eq_iff {cc : BitVec 2} {dir : Direction} {off : BitVec 22} {r : Reg} :
    encodeJump cc dir off r = w ↔ Leads w 30 ∧ w.extractLsb' 28 2 = cc ∧ w.extractLsb' 27 1 = dir.bit ∧
      w.extractLsb' 5 22 = off ∧ w.extractLsb' 0 5 = r := by
  have := w.isLt; have := cc.isLt; have := dir.bit.isLt; have := off.isLt; have := r.isLt
  simp only [← BitVec.toNat_inj, toNat_field, encodeJump_toNat, Leads]
  omega

theorem encodeMemory_toNat (sub : BitVec 2) (a : Reg) (off : BitVec 17) (d : Reg) :
    (encodeMemory sub a off d).toNat
      = 2 ^ 29 + sub.toNat * 2 ^ 27 + off.toNat * 2 ^ 10 + a.toNat * 2 ^ 5 + d.toNat := by
  unfold encodeMemory
  iterate 4 rw [toNat_append_add]
  rw [BitVec.toNat_ofNat]
  omega

theorem encodeMemory_eq_iff {sub : BitVec 2} {a : Reg} {off : BitVec 17} {d : Reg} :
    encodeMemory sub a off d = w ↔ Leads w 29 ∧ w.extractLsb' 27 2 = sub ∧ w.extractLsb' 5 5 = a ∧
      w.extractLsb' 10 17 = off ∧ w.extractLsb' 0 5 = d := by
  have := w.isLt; have := sub.isLt; have := a.isLt; have := off.isLt; have := d.isLt
  simp only [← BitVec.toNat_inj, toNat_field, encodeMemory_toNat, Leads]
  omega

theorem encodeAlu_toNat (op : BitVec 4) (a b d : Reg) :
    (encodeAlu op a b d).toNat
      = 2 ^ 28 + op.toNat * 2 ^ 24 + b.toNat * 2 ^ 10 + a.toNat * 2 ^ 5 + d.toNat := by
  unfold encodeAlu
  iterate 5 rw [toNat_append_add]
  rw [BitVec.toNat_ofNat, BitVec.toNat_ofNat]
  omega

theorem encodeAlu_eq_iff {op : BitVec 4} {a b d : Reg} :
    encodeAlu op a b d = w ↔ Leads w 28 ∧ w.extractLsb' 15 9 = 0#9 ∧ w.extractLsb' 24 4 = op ∧
      w.extractLsb' 5 5 = a ∧ w.extractLsb' 10 5 = b ∧ w.extractLsb' 0 5 = d := by
  have := w.isLt; have := op.isLt; have := a.isLt; have := b.isLt; have := d.isLt
  simp only [← BitVec.toNat_inj, toNat_field, encodeAlu_toNat, BitVec.toNat_ofNat, Leads]
  omega

theorem encodePushPop_toNat (dir : BitVec 1) (mask : BitVec 16) :
    (encodePushPop dir mask).toNat = 2 ^ 26 + dir.toNat * 2 ^ 25 + mask.toNat := by
  unfold encodePushPop
  iterate 3 rw [toNat_append_add]
  rw [BitVec.toNat_ofNat, BitVec.toNat_ofNat]
  omega

theorem encodePushPop_eq_iff {dir : BitVec 1} {mask : BitVec 16} :
    encodePushPop dir mask = w ↔ Leads w 26 ∧ w.extractLsb' 16 9 = 0#9 ∧ w.extractLsb' 25 1 = dir ∧
      w.extractLsb' 0 16 = mask := by
  have := w.isLt; have := dir.isLt; have := mask.isLt
  simp only [← BitVec.toNat_inj, toNat_field, encodePushPop_toNat, BitVec.toNat_ofNat, Leads]
  omega

theorem encodeCallReturn_toNat (f : BitVec 1) (r : Reg) :
    (encodeCallReturn f r).toNat = 2 ^ 25 + f.toNat * 2 ^ 24 + r.toNat := by
  unfold encodeCallReturn
  iterate 3 rw [toNat_append_add]
  rw [BitVec.toNat_ofNat, BitVec.toNat_ofNat]
  omega

theorem encodeCallReturn_eq_iff {f : BitVec 1} {r : Reg} :
    encodeCallReturn f r = w ↔ Leads w 25 ∧ w.extractLsb' 5 19 = 0#19 ∧ w.extractLsb' 24 1 = f ∧
      w.extractLsb' 0 5 = r := by
  have := w.isLt; have := f.isLt; have := r.isLt
  simp only [← BitVec.toNat_inj, toNat_field, encodeCallReturn_toNat, BitVec.toNat_ofNat, Leads]
  omega

theorem encodeControl_toNat (subt : BitVec 4) (pay : BitVec 8) :
    (encodeControl subt pay).toNat = 2 ^ 24 + subt.toNat * 2 ^ 20 + pay.toNat := by
  unfold encodeControl
  iterate 3 rw [toNat_append_add]
  rw [BitVec.toNat_ofNat, BitVec.toNat_ofNat]
  omega

theorem encodeControl_eq_iff {subt : BitVec 4} {pay : BitVec 8} :
    encodeControl subt pay = w ↔ Leads w 24 ∧ w.extractLsb' 8 12 = 0#12 ∧ w.extractLsb' 20 4 = subt ∧
      w.extractLsb' 0 8 = pay := by
  have := w.isLt; have := subt.isLt; have := pay.isLt
  simp only [← BitVec.toNat_inj, toNat_field, encodeControl_toNat, BitVec.toNat_ofNat, Leads]
  omega

end Formats

/-! ## The instruction the fields of a format stand for, if any (R85 to R88, R91) -/

/-- The jump of a condition code (R87). -/
def jumpOf (cc : BitVec 2) (dir : Direction) (off : BitVec 22) (r : Reg) : Instr :=
  match cc with
  | 0#2 => .jez dir off r
  | 1#2 => .jnz dir off r
  | 2#2 => .jle dir off r
  | _ => .jlz dir off r

/-- The Memory instruction of a sub-code; Clear and Flush only with D zero (R86, R91). -/
def memoryOf (sub : BitVec 2) (a : Reg) (off : BitVec 17) (d : Reg) : Option Instr :=
  match sub with
  | 0#2 => some (.load a off d)
  | 1#2 => some (.store a off d)
  | 2#2 => if d = 0#5 then some (.clear a off) else none
  | _ => if d = 0#5 then some (.flush a off) else none

/-- Push or Pop (R82). -/
def pushPopOf (dir : BitVec 1) (mask : BitVec 16) : Instr := if dir = 1#1 then .pop mask else .push mask

/-- Call, or Return only with R zero (R83, R91). -/
def callReturnOf (f : BitVec 1) (r : Reg) : Option Instr :=
  if f = 1#1 then if r = 0#5 then some .ret else none else some (.call r)

/-- `i` only with a payload that is zero (R91). -/
def bareOf (pay : BitVec 8) (i : Instr) : Option Instr := if pay = 0#8 then some i else none

/-- The Control instruction of a sub-code, only with the payload bits it does not use zero (R88, R91). -/
def controlOf (subt : BitVec 4) (pay : BitVec 8) : Option Instr :=
  match subt with
  | 0#4 => bareOf pay .halt
  | 1#4 => bareOf pay .noop
  | 2#4 => bareOf pay .sleep
  | 3#4 => if pay.extractLsb' 5 3 = 0#3 then some (.signal (pay.extractLsb' 0 5)) else none
  | 4#4 => bareOf pay .lock
  | 5#4 => bareOf pay .unlock
  | 6#4 => some (.interrupt pay)
  | 7#4 => bareOf pay .uninterrupt
  | _ => none

/-! ## The decoder of each format -/

@[simp] theorem whenZero_ok_iff {n : Nat} {bits : BitVec n} {i j : Instr} :
    whenZero bits i = .ok j ↔ bits = 0#n ∧ i = j := by
  unfold whenZero
  split
  next h => simp [h]
  next h => exact iff_of_false (by simp) fun hi => h hi.1

section Decoders

variable {w : InstrWord} {i : Instr}

theorem decodeJump_eq : decodeJump w = .ok (jumpOf (w.extractLsb' 28 2) (directionOf (w.extractLsb' 27 1))
    (w.extractLsb' 5 22) (w.extractLsb' 0 5)) := by
  unfold decodeJump jumpOf
  dsimp only
  generalize w.extractLsb' 28 2 = cc
  split <;> simp

theorem decodeMemory_ok_iff : decodeMemory w = .ok i ↔
    memoryOf (w.extractLsb' 27 2) (w.extractLsb' 5 5) (w.extractLsb' 10 17) (w.extractLsb' 0 5) = some i := by
  unfold decodeMemory memoryOf
  dsimp only
  generalize w.extractLsb' 27 2 = sub
  split <;> simp

theorem decodeAlu_ok_iff : decodeAlu w = .ok i ↔
    (w.extractLsb' 15 9 = 0#9 ∧ (w.extractLsb' 24 4 = 0#4 → w.extractLsb' 10 5 = 0#5)) ∧
      aluOf (w.extractLsb' 24 4) (w.extractLsb' 5 5) (w.extractLsb' 10 5) (w.extractLsb' 0 5) = some i := by
  unfold decodeAlu
  dsimp only
  split
  next h => simp [h]
  next j h =>
    rw [h]
    split
    next hb => exact iff_of_false (by simp) fun hi => hb.2 (hi.1.2 hb.1)
    next hb =>
      have hzero : w.extractLsb' 24 4 = 0#4 → w.extractLsb' 10 5 = 0#5 := by simpa using hb
      rw [whenZero_ok_iff, Option.some_inj, and_iff_left hzero]

theorem decodePushPop_ok_iff : decodePushPop w = .ok i ↔
    w.extractLsb' 16 9 = 0#9 ∧ pushPopOf (w.extractLsb' 25 1) (w.extractLsb' 0 16) = i := by
  unfold decodePushPop pushPopOf
  simp only [BitVec.getLsbD_eq_extractLsb', beq_iff_eq, whenZero_ok_iff]

theorem decodeCallReturn_ok_iff : decodeCallReturn w = .ok i ↔
    w.extractLsb' 5 19 = 0#19 ∧ callReturnOf (w.extractLsb' 24 1) (w.extractLsb' 0 5) = some i := by
  have hret : w.extractLsb' 0 24 = 0#24 ↔ w.extractLsb' 5 19 = 0#19 ∧ w.extractLsb' 0 5 = 0#5 :=
    field_eq_zero_iff w 0 19 5
  unfold decodeCallReturn callReturnOf
  simp only [BitVec.getLsbD_eq_extractLsb', beq_iff_eq]
  split <;> simp [hret, and_assoc]

theorem decodeControl_ok_iff : decodeControl w = .ok i ↔
    w.extractLsb' 8 12 = 0#12 ∧ controlOf (w.extractLsb' 20 4) (w.extractLsb' 0 8) = some i := by
  have hbare : w.extractLsb' 0 20 = 0#20 ↔ w.extractLsb' 8 12 = 0#12 ∧ w.extractLsb' 0 8 = 0#8 :=
    field_eq_zero_iff w 0 12 8
  have hsignal : w.extractLsb' 5 15 = 0#15 ↔ w.extractLsb' 8 12 = 0#12 ∧ w.extractLsb' 5 3 = 0#3 :=
    field_eq_zero_iff w 5 12 3
  have hpay {lo n : Nat} (h : lo + n ≤ 8) : (w.extractLsb' 0 8).extractLsb' lo n = w.extractLsb' lo n :=
    BitVec.extractLsb'_extractLsb'_of_le h
  unfold decodeControl controlOf bareOf
  generalize w.extractLsb' 20 4 = subt
  split <;> simp [hbare, hsignal, hpay, and_assoc]

end Decoders

/-! ## The encoder of each format -/

theorem eq_three {x : BitVec 2} (h0 : x ≠ 0#2) (h1 : x ≠ 1#2) (h2 : x ≠ 2#2) : x = 3#2 := by
  bv_omega

theorem encode_jumpOf (cc : BitVec 2) (dir : Direction) (off : BitVec 22) (r : Reg) :
    encode (jumpOf cc dir off r) = encodeJump cc dir off r := by
  unfold jumpOf
  split
  case h_4 h0 h1 h2 =>
    rw [eq_three h0 h1 h2]; rfl
  all_goals rfl

theorem encode_memoryOf {sub : BitVec 2} {a : Reg} {off : BitVec 17} {d : Reg} {i : Instr}
    (h : memoryOf sub a off d = some i) : encode i = encodeMemory sub a off d := by
  unfold memoryOf at h
  split at h
  case h_1 | h_2 => cases h; rfl
  case h_3 =>
    obtain ⟨rfl, h⟩ := Option.ite_none_right_eq_some.mp h
    cases h; rfl
  case h_4 h0 h1 h2 =>
    obtain ⟨rfl, h⟩ := Option.ite_none_right_eq_some.mp h
    cases h; rw [eq_three h0 h1 h2]; rfl

theorem encode_aluOf {op : BitVec 4} {a b d : Reg} {i : Instr} (h : aluOf op a b d = some i)
    (hb : op = 0#4 → b = 0#5) : encode i = encodeAlu op a b d := by
  unfold aluOf at h
  split at h
  case h_1 => cases h; rw [hb rfl]; rfl
  all_goals cases h <;> rfl

theorem encode_pushPopOf (dir : BitVec 1) (mask : BitVec 16) :
    encode (pushPopOf dir mask) = encodePushPop dir mask := by
  unfold pushPopOf
  split
  next h => rw [h]; rfl
  next h =>
    have : dir = 0#1 := by bv_omega
    rw [this]; rfl

theorem encode_callReturnOf {f : BitVec 1} {r : Reg} {i : Instr} (h : callReturnOf f r = some i) :
    encode i = encodeCallReturn f r := by
  unfold callReturnOf at h
  split at h
  next hf =>
    obtain ⟨rfl, h⟩ := Option.ite_none_right_eq_some.mp h
    cases h; rw [hf]; rfl
  next hf =>
    have : f = 0#1 := by bv_omega
    cases h; rw [this]; rfl

theorem encode_bareOf {subt : BitVec 4} {pay : BitVec 8} {i j : Instr} (hj : encode j = encodeControl subt 0)
    (h : bareOf pay j = some i) : encode i = encodeControl subt pay := by
  obtain ⟨rfl, h⟩ := Option.ite_none_right_eq_some.mp h
  cases h; exact hj

theorem encode_controlOf {subt : BitVec 4} {pay : BitVec 8} {i : Instr} (h : controlOf subt pay = some i) :
    encode i = encodeControl subt pay := by
  unfold controlOf at h
  split at h
  case h_4 =>
    obtain ⟨hz, h⟩ := Option.ite_none_right_eq_some.mp h
    cases h
    show encodeControl 3 (0#3 ++ _) = encodeControl 3 pay
    rw [← hz, BitVec.extractLsb'_append_extractLsb' (w := 3) (len := 5)]
  case h_7 => cases h; rfl
  case h_9 => cases h
  all_goals exact encode_bareOf rfl h

end Sys2Proof
end

section
/-! Obligations O32 and O33: decode and encode are inverse to each other. -/

namespace Sys2Proof

@[simp] theorem bit_directionOf (b : BitVec 1) : (directionOf b).bit = b := by
  revert b; decide

@[simp] theorem directionOf_bit (dir : Direction) : directionOf dir.bit = dir := by
  cases dir <;> rfl

/-! ## Decoding a word of each format -/

theorem decode_encodeJump (cc : BitVec 2) (dir : Direction) (off : BitVec 22) (r : Reg) :
    decode (encodeJump cc dir off r) = .ok (jumpOf cc dir off r) := by
  obtain ⟨hlead, hcc, hdir, hoff, hr⟩ := encodeJump_eq_iff.mp (Eq.refl (encodeJump cc dir off r))
  rw [decode_jump hlead, decodeJump_eq, hcc, hdir, hoff, hr, directionOf_bit]

theorem decode_encodeMemory {sub : BitVec 2} {a : Reg} {off : BitVec 17} {d : Reg} {i : Instr}
    (h : memoryOf sub a off d = some i) : decode (encodeMemory sub a off d) = .ok i := by
  obtain ⟨hlead, hsub, ha, hoff, hd⟩ := encodeMemory_eq_iff.mp (Eq.refl (encodeMemory sub a off d))
  rwa [decode_memory hlead, decodeMemory_ok_iff, hsub, ha, hoff, hd]

theorem decode_encodeAlu {op : BitVec 4} {a b d : Reg} {i : Instr} (hb : op = 0#4 → b = 0#5)
    (h : aluOf op a b d = some i) : decode (encodeAlu op a b d) = .ok i := by
  obtain ⟨hlead, hz, hop, ha, hb', hd⟩ := encodeAlu_eq_iff.mp (Eq.refl (encodeAlu op a b d))
  rw [decode_alu hlead, decodeAlu_ok_iff, hop, ha, hb', hd]
  exact ⟨⟨hz, hb⟩, h⟩

theorem decode_encodePushPop (dir : BitVec 1) (mask : BitVec 16) :
    decode (encodePushPop dir mask) = .ok (pushPopOf dir mask) := by
  obtain ⟨hlead, hz, hdir, hmask⟩ := encodePushPop_eq_iff.mp (Eq.refl (encodePushPop dir mask))
  rw [decode_pushPop hlead, decodePushPop_ok_iff, hdir, hmask]
  exact ⟨hz, rfl⟩

theorem decode_encodeCallReturn {f : BitVec 1} {r : Reg} {i : Instr} (h : callReturnOf f r = some i) :
    decode (encodeCallReturn f r) = .ok i := by
  obtain ⟨hlead, hz, hf, hr⟩ := encodeCallReturn_eq_iff.mp (Eq.refl (encodeCallReturn f r))
  rw [decode_callReturn hlead, decodeCallReturn_ok_iff, hf, hr]
  exact ⟨hz, h⟩

theorem decode_encodeControl {subt : BitVec 4} {pay : BitVec 8} {i : Instr} (h : controlOf subt pay = some i) :
    decode (encodeControl subt pay) = .ok i := by
  obtain ⟨hlead, hz, hsubt, hpay⟩ := encodeControl_eq_iff.mp (Eq.refl (encodeControl subt pay))
  rw [decode_control hlead, decodeControl_ok_iff, hsubt, hpay]
  exact ⟨hz, h⟩

theorem controlOf_signal (r : Reg) : controlOf 3 (0#3 ++ r) = some (.signal r) := by
  have hz : (0#3 ++ r).extractLsb' 5 3 = 0#3 := BitVec.extractLsb'_append_eq_left
  have hr : (0#3 ++ r).extractLsb' 0 5 = r := BitVec.extractLsb'_append_eq_right
  exact (if_pos hz).trans (congrArg (some <| Instr.signal ·) hr)

/-- Settles O32: each instruction is the one its format reads from its own fields. -/
theorem decodeEncode : Obligations.DecodeEncode := by
  intro i
  cases i with
  | loadc c d =>
    obtain ⟨hlead, hc, hd⟩ := encodeLoadc_eq_iff.mp (Eq.refl (encode (.loadc c d)))
    rw [decode_loadc hlead, hc, hd]
  | jez dir off r | jnz dir off r | jle dir off r | jlz dir off r => exact decode_encodeJump _ dir off r
  | load a off d | store a off d | clear a off | flush a off => exact decode_encodeMemory rfl
  | not a d => exact decode_encodeAlu (fun _ => rfl) rfl
  | and a b d | or a b d | xor a b d | leftshift a b d | rightshift a b d | add a b d | subtract a b d
  | multiply a b d | divide a b d | modulo a b d => exact decode_encodeAlu (fun h => absurd h (by decide)) rfl
  | push mask | pop mask => exact decode_encodePushPop _ mask
  | call r | ret => exact decode_encodeCallReturn rfl
  | signal r => exact decode_encodeControl (controlOf_signal r)
  | halt | noop | sleep | lock | unlock | interrupt v | uninterrupt => exact decode_encodeControl rfl

/-- Settles O33: whatever bit leads, the word is put together again from the fields the decoder read and the bits it
found zero. -/
theorem encodeDecode : Obligations.EncodeDecode := by
  intro w i h
  obtain hlow | hlead | hlead | hlead | hlead | hlead | hlead | hlead | hlead := leads_cases w
  · obtain ⟨r, hr⟩ := decode_low hlow
    cases hr.symm.trans h
  · obtain ⟨hz, hi⟩ := decodeControl_ok_iff.mp (decode_control hlead ▸ h)
    rw [encode_controlOf hi, encodeControl_eq_iff]
    exact ⟨hlead, hz, rfl, rfl⟩
  · obtain ⟨hz, hi⟩ := decodeCallReturn_ok_iff.mp (decode_callReturn hlead ▸ h)
    rw [encode_callReturnOf hi, encodeCallReturn_eq_iff]
    exact ⟨hlead, hz, rfl, rfl⟩
  · obtain ⟨hz, rfl⟩ := decodePushPop_ok_iff.mp (decode_pushPop hlead ▸ h)
    rw [encode_pushPopOf, encodePushPop_eq_iff]
    exact ⟨hlead, hz, rfl, rfl⟩
  · cases (decode_bit27 hlead).symm.trans h
  · obtain ⟨⟨hz, hb⟩, hi⟩ := decodeAlu_ok_iff.mp (decode_alu hlead ▸ h)
    rw [encode_aluOf hi hb, encodeAlu_eq_iff]
    exact ⟨hlead, hz, rfl, rfl, rfl, rfl⟩
  · have hi := decodeMemory_ok_iff.mp (decode_memory hlead ▸ h)
    rw [encode_memoryOf hi, encodeMemory_eq_iff]
    exact ⟨hlead, rfl, rfl, rfl, rfl⟩
  · cases decodeJump_eq.symm.trans (decode_jump hlead ▸ h)
    rw [encode_jumpOf, encodeJump_eq_iff]
    exact ⟨hlead, rfl, (bit_directionOf _).symm, rfl, rfl⟩
  · cases (decode_loadc hlead).symm.trans h
    rw [encodeLoadc_eq_iff]
    exact ⟨hlead, rfl, rfl⟩

end Sys2Proof
end

section
/-! Obligation O35: the words the decoder refuses, format by format. -/

namespace Sys2Proof

/-! ## Fields that stand for no instruction (R85, R88, R91) -/

/-- A field that is a given number. -/
theorem toNat_eq_iff {n : Nat} {x : BitVec n} (k : Nat) (hk : k < 2 ^ n) : x.toNat = k ↔ x = BitVec.ofNat n k := by
  rw [← BitVec.toNat_inj, BitVec.toNat_ofNat, Nat.mod_eq_of_lt hk]

theorem memoryOf_eq_none_iff {sub : BitVec 2} {a : Reg} {off : BitVec 17} {d : Reg} :
    memoryOf sub a off d = none ↔ 2 ≤ sub.toNat ∧ d.toNat ≠ 0 := by
  rw [ne_eq, toNat_eq_iff 0 (by decide)]
  unfold memoryOf
  split
  case h_4 h0 h1 h2 => simp [eq_three h0 h1 h2]
  all_goals simp

theorem aluOf_eq_none_iff {op : BitVec 4} {a b d : Reg} :
    aluOf op a b d = none ↔ op.toNat ∈ [6, 7, 13, 14, 15] := by
  unfold aluOf
  split
  case h_12 =>
    simp only [imp_false, ← BitVec.toNat_inj, BitVec.toNat_ofNat] at *
    simp only [List.mem_cons, List.not_mem_nil, true_iff]
    omega
  all_goals simp

theorem callReturnOf_eq_none_iff {f : BitVec 1} {r : Reg} :
    callReturnOf f r = none ↔ f.toNat = 1 ∧ r.toNat ≠ 0 := by
  rw [ne_eq, toNat_eq_iff 0 (by decide), toNat_eq_iff 1 (by decide)]
  unfold callReturnOf
  split <;> simp [*]

theorem controlOf_eq_none_iff {subt : BitVec 4} {pay : BitVec 8} :
    controlOf subt pay = none ↔ 8 ≤ subt.toNat ∨ (subt.toNat = 3 ∧ (pay.extractLsb' 5 3).toNat ≠ 0) ∨
      (subt.toNat ∈ [0, 1, 2, 4, 5, 7] ∧ pay.toNat ≠ 0) := by
  rw [ne_eq, ne_eq, toNat_eq_iff 0 (by decide), toNat_eq_iff 0 (by decide)]
  unfold controlOf bareOf
  split
  case h_9 =>
    simp only [imp_false, ← BitVec.toNat_inj, BitVec.toNat_ofNat] at *
    simp only [true_iff]
    omega
  all_goals simp

/-! ## The words the decoder of each format refuses, in numbers -/

/-- A decoder that accepts the instruction of `o`, and that only when `P`, refuses in every other case. -/
theorem refuses_iff {x : Except DecodeError Instr} {P : Prop} {o : Option Instr}
    (h : ∀ i, x = .ok i ↔ P ∧ o = some i) : (∃ r, x = .error r) ↔ ¬P ∨ o = none := by
  cases x with
  | error r =>
    refine iff_of_true ⟨r, rfl⟩ (not_or_of_imp fun hP => ?_)
    exact Option.eq_none_iff_forall_ne_some.mpr fun i ho => by cases (h i).mpr ⟨hP, ho⟩
  | ok i =>
    obtain ⟨hP, ho⟩ := (h i).mp rfl
    simp [hP, ho]

section Refusals

variable {w : InstrWord}

theorem decodeMemory_refuses_iff : (∃ r, decodeMemory w = .error r) ↔
    2 ≤ w.toNat / 2 ^ 27 % 2 ^ 2 ∧ w.toNat / 2 ^ 0 % 2 ^ 5 ≠ 0 := by
  rw [refuses_iff fun i => decodeMemory_ok_iff.trans (iff_of_eq (true_and _)).symm, memoryOf_eq_none_iff]
  simp only [toNat_field, not_true_eq_false, false_or]

theorem decodeAlu_refuses_iff : (∃ r, decodeAlu w = .error r) ↔
    w.toNat / 2 ^ 24 % 2 ^ 4 ∈ [6, 7, 13, 14, 15] ∨ w.toNat / 2 ^ 15 % 2 ^ 9 ≠ 0 ∨
      (w.toNat / 2 ^ 24 % 2 ^ 4 = 0 ∧ w.toNat / 2 ^ 10 % 2 ^ 5 ≠ 0) := by
  rw [refuses_iff fun i => decodeAlu_ok_iff, aluOf_eq_none_iff]
  simp only [← BitVec.toNat_inj, BitVec.toNat_ofNat, toNat_field]
  tauto

theorem decodePushPop_refuses_iff : (∃ r, decodePushPop w = .error r) ↔ w.toNat / 2 ^ 16 % 2 ^ 9 ≠ 0 := by
  rw [refuses_iff fun i => decodePushPop_ok_iff.trans (and_congr_right' Option.some_inj.symm)]
  simp only [← BitVec.toNat_inj, BitVec.toNat_ofNat, toNat_field, reduceCtorEq, or_false]

theorem decodeCallReturn_refuses_iff : (∃ r, decodeCallReturn w = .error r) ↔
    w.toNat / 2 ^ 5 % 2 ^ 19 ≠ 0 ∨ (w.toNat / 2 ^ 24 % 2 ^ 1 = 1 ∧ w.toNat / 2 ^ 0 % 2 ^ 5 ≠ 0) := by
  rw [refuses_iff fun i => decodeCallReturn_ok_iff, callReturnOf_eq_none_iff]
  simp only [← BitVec.toNat_inj, BitVec.toNat_ofNat, toNat_field]

theorem decodeControl_refuses_iff : (∃ r, decodeControl w = .error r) ↔
    8 ≤ w.toNat / 2 ^ 20 % 2 ^ 4 ∨ w.toNat / 2 ^ 8 % 2 ^ 12 ≠ 0 ∨
      (w.toNat / 2 ^ 20 % 2 ^ 4 = 3 ∧ w.toNat / 2 ^ 5 % 2 ^ 3 ≠ 0) ∨
      (w.toNat / 2 ^ 20 % 2 ^ 4 ∈ [0, 1, 2, 4, 5, 7] ∧ w.toNat / 2 ^ 0 % 2 ^ 8 ≠ 0) := by
  rw [refuses_iff fun i => decodeControl_ok_iff, controlOf_eq_none_iff,
    BitVec.extractLsb'_extractLsb'_of_le (by decide)]
  simp only [← BitVec.toNat_inj, BitVec.toNat_ofNat, toNat_field]
  tauto

/-- The words with no family, and those which the decoder of their format refuses (R92). -/
theorem decode_refuses_iff : (∃ r, decode w = .error r) ↔
    w.toNat < 2 ^ 24 ∨ Leads w 27 ∨ (Leads w 29 ∧ ∃ r, decodeMemory w = .error r) ∨
      (Leads w 28 ∧ ∃ r, decodeAlu w = .error r) ∨ (Leads w 26 ∧ ∃ r, decodePushPop w = .error r) ∨
      (Leads w 25 ∧ ∃ r, decodeCallReturn w = .error r) ∨ (Leads w 24 ∧ ∃ r, decodeControl w = .error r) := by
  obtain hlow | hlead | hlead | hlead | hlead | hlead | hlead | hlead | hlead := leads_cases w
  case inl => exact iff_of_true (decode_low hlow) (.inl hlow)
  all_goals simp only [hlead.iff_eq, hlead.not_lt (j := 24) (by decide)]
  · simp [decode_control hlead]
  · simp [decode_callReturn hlead]
  · simp [decode_pushPop hlead]
  · simp [decode_bit27 hlead]
  · simp [decode_alu hlead]
  · simp [decode_memory hlead]
  · simp [decode_jump hlead, decodeJump_eq]
  · simp [decode_loadc hlead]

end Refusals

/-- Settles O35: among the words with a given leading bit, the decoder of their format refuses those with a reserved
code or a must-be-zero bit set. -/
theorem unrecognizedWords : Obligations.UnrecognizedWords := by
  intro w n bits
  rw [decode_refuses_iff, decodeMemory_refuses_iff, decodeAlu_refuses_iff, decodePushPop_refuses_iff,
    decodeCallReturn_refuses_iff, decodeControl_refuses_iff]
  simp only [Leads, and_assoc]
  exact Iff.rfl

end Sys2Proof
end

section
/-! Obligations O36, O37 and O41: a step is eight clocks, and it runs the instruction that Decode yields. -/

namespace Sys2Proof.Machine

/-! ## Obligation O36: a step runs the decoded instruction -/

/-- Settles O36: the definition of the step, along the branches the hypotheses name. -/
theorem stepRunsDecoded : Obligations.StepRunsDecoded := by
  intro s s1 s2 i hwf hstart hrun hbefore hdecoded
  simp only [step, hwf, hstart, stepFrom, hrun, hbefore, hdecoded, Bool.not_true, Bool.false_eq_true, if_false]

/-! ## Obligation O37: a step is eight clocks -/

/-- An unrecognized word stops the Decode stage of the focal Context (R92, R101). -/
theorem clockDecode_unrecognized {s : State} {r : DecodeError} (h : s.focalCtx.decoded = .unrecognized r) :
    clockStage 0 s .decodeInstruction = .error (.unrecognizedOpcode r) := by
  have hstage : decodeStage s.focalCtx = .error (.unrecognizedOpcode r) := by
    unfold Context.decoded at h
    split at h
    · split at h <;> cases h
    · rename_i hr
      split at h
      · cases h
      · rename_i o ho
        split at h
        · cases h
        · rename_i r' hd
          injection h with h
          subst h
          simp [decodeStage, hr, ho, hd]
  show (justly (decodeStage s.focalCtx)).bind _ = _
  rw [hstage]
  rfl

/-- A clock whose first part is fatal is fatal. -/
theorem clocks_before_error {s : State} {f : Fault} (hrun : s.halted = false) (h : clockBeforeDecode s = .error f)
    (n : Nat) : clocks (n + 1) s = .error f := by
  show (processorClock s).bind (clocks n) = _
  simp only [processorClock, hrun, Bool.false_eq_true, if_false, bind, h, Except.bind]

/-- A clock whose Decode stage on Core 0 is fatal is fatal. -/
theorem clocks_decode_error {s u : State} {f : Fault} (hrun : s.halted = false) (hbefore : clockBeforeDecode s = .ok u)
    (h : clockStage 0 u .decodeInstruction = .error f) (n : Nat) : clocks (n + 1) s = .error f := by
  show (processorClock s).bind (clocks n) = _
  simp only [processorClock, hrun, Bool.false_eq_true, if_false, bind, hbefore, h, Except.bind]

/-- The step after its first two clocks is six clocks, whatever the focal Context's Decode stage yields (R107, R111). -/
theorem stepFrom_eq_clocks (s : State) : stepFrom s = toOutcome (clocks 6 s) := by
  unfold stepFrom
  split
  · rename_i hhalt
    rw [clocks_halted hhalt]
    rfl
  rename_i hrun
  have hrun : s.halted = false := by simpa using hrun
  split
  · rename_i f hbefore
    rw [clocks_before_error hrun hbefore]
    rfl
  rename_i u hbefore
  split
  · rename_i i hd
    rw [exec_eq_visit, clocks_from_decode hrun hbefore (clockDecode_run hd)]
    rfl
  · rename_i hd
    rw [clocks_from_decode hrun hbefore (clockDecode_nothing hd)]
  · rename_i r hd
    rw [clocks_decode_error hrun hbefore (clockDecode_unrecognized hd)]
    rfl

/-- Settles O37: two clocks start the round and six make up the rest, in every branch of the step. -/
theorem stepIsEightClocks : Obligations.StepIsEightClocks := by
  intro s hwf
  rw [clocks_add 2 6]
  simp only [step, hwf, Bool.not_true, Bool.false_eq_true, if_false, startRound]
  cases clocks 2 s with
  | error f => rfl
  | ok u => exact stepFrom_eq_clocks u

/-! ## Obligation O41: halted and ill-formed machines -/

/-- Settles O41: a halted machine's clocks change nothing, so a step does not either. -/
theorem haltedAndIllFormed : Obligations.HaltedAndIllFormed := by
  refine ⟨fun s hhalt => ?_, fun s hhalt hwf => ?_, fun s hwf => ?_⟩
  · simp only [processorClock, hhalt, if_true]
  · rw [stepIsEightClocks s hwf, clocks_halted hhalt]
    rfl
  · simp only [step, hwf, Bool.not_false, if_true]

end Sys2Proof.Machine
end

section
/-! SUPPORT. The last window of a transfer, and the visit of one window whether it is the last one or not (R97, R113). -/

namespace Sys2Proof.Machine

/-! ## The in-flight instruction past a window -/

@[simp] theorem InFlight.advanced_instr (f : InFlight) (width : Nat) (op : StoreOp) (p n : Nat) (bus : List Lane) :
    (f.advanced width op p n bus).instr = f.instr := by
  unfold InFlight.advanced
  split <;> rfl

@[simp] theorem InFlight.advanced_op0 (f : InFlight) (width : Nat) (op : StoreOp) (p n : Nat) (bus : List Lane) :
    (f.advanced width op p n bus).op0 = f.op0 := by
  unfold InFlight.advanced
  split <;> rfl

@[simp] theorem InFlight.advanced_op1 (f : InFlight) (width : Nat) (op : StoreOp) (p n : Nat) (bus : List Lane) :
    (f.advanced width op p n bus).op1 = f.op1 := by
  unfold InFlight.advanced
  split <;> rfl

/-- The transfer succeeds with its last window (R113). -/
theorem InFlight.advanced_success {f : InFlight} {width p n : Nat} (last : f.offset + f.chunk width p n = n)
    (op : StoreOp) (bus : List Lane) : (f.advanced width op p n bus).success = true := by
  simp [InFlight.advanced, last]

/-! ## Register changes -/

theorem Context.RegisterChange.setSp {c c' : Context} (h : c.RegisterChange c') (v : Word) :
    c.RegisterChange (c'.setSp v) := ⟨h.l1i, h.l1d, h.lock, h.noPending⟩

theorem Context.RegisterChange.popRegs {c : Context} (h : c.pending = none) (l : List Reg) (b : List Byte) :
    c.RegisterChange (popRegs l b c) := by
  rw [popRegs_eq]
  exact ⟨rfl, rfl, rfl, h⟩

/-! ## A window that the L1D serves -/

section Window

variable {s : State} {i : Instr} {f : InFlight} {op : StoreOp} {p n : Nat} {l1d : Cache}

theorem State.Brings.instr (hf : s.Brings i f) : f.instr = i := hf.2.1

/-- A transfer is brought to Execute only with no Error pending, and its window raises none (R97). -/
theorem State.Brings.noPending (hf : s.Brings i f) (l1d : Cache) : (s.focalCtx.withL1d l1d).pending = none := hf.1

/-- Execute sends the request of the next window and Format consumes its result (R113). -/
theorem window_serves (h : s.Alone) (hf : s.Brings i f) (hu : UsesEngine s i f op p n) (hs : Serves s f op p n l1d) :
    phaseStage .execute s.focalEnv (s.focalCtx.holding f)
        = .ok (.just ((s.focalCtx.withL1d (s.focalCtx.l1d.requested op (f.nextAddr p)
            (f.requestBus s.cfg.l1d.busWidth op p n))).holding { f with issued := true, success := false })) ∧
      phaseStage .format s.focalEnv ((s.focalCtx.withL1d l1d.held).holding { f with issued := true, success := false })
        = .ok (.just ((s.focalCtx.withL1d l1d).holding
            (f.advanced s.cfg.l1d.busWidth op p n l1d.port.bus))) := by
  obtain ⟨-, rfl, hissued, -⟩ := hf
  simp only [phaseStage, Context.holding_instruction]
  rw [hu.execute, hu.format, accessExecute_idle (c := s.focalCtx) _ _ _ _ h.l1dIdle hissued,
    accessFormat_served _ _ _ _ _ _ hs.notBusy hs.free hs.successful]
  exact ⟨rfl, rfl⟩

/-- After the last window the Store phase runs (R103, R113). -/
theorem storeStage_last (hf : s.Brings i f) {width : Nat} (last : f.offset + f.chunk width p n = n) (op : StoreOp)
    (bus : List Lane) (e : Env) (c : Context) :
    storeStage e (c.holding (f.advanced width op p n bus))
      = runPhase i .store e (c.holding (f.advanced width op p n bus)) (f.advanced width op p n bus) := by
  obtain ⟨-, rfl, -⟩ := hf
  simp only [storeStage, Context.holding_instruction, InFlight.advanced_success last, InFlight.advanced_instr, if_true]

/-- Retire discards an instruction that raised an Error (R104). -/
theorem retireStage_discards (e : Env) (c : Context) (f : InFlight) (v : BitVec 8) :
    retireStage e ({ c with pending := some v }.holding f.failed) = .ok (.just (c.trapped v)) := by
  simp only [retireStage, Context.holding_instruction, InFlight.failed, Bool.false_and, Bool.false_eq_true, if_false,
    Except.map, settleRetire, PhaseOut.just, Context.holding_pending, Option.isSome_some, Bool.or_true, if_true]
  rfl

/-- THE VISIT OF A WINDOW, the last one or not: where it is, Store and Retire run and the instruction leaves. -/
theorem exec_window (h : s.Alone) (hf : s.Brings i f) (hu : UsesEngine s i f op p n) (hs : Serves s f op p n l1d)
    {c' c'' : Context} {f3 : InFlight}
    (hstore : runPhase i .store s.focalEnv
      ((s.focalCtx.withL1d l1d).holding (f.advanced s.cfg.l1d.busWidth op p n l1d.port.bus))
      (f.advanced s.cfg.l1d.busWidth op p n l1d.port.bus) = .ok (.just (c'.holding f3)))
    (hretire : runPhase i .retire s.focalEnv (c'.holding f3) f3 = .ok (.retired (c''.holding f3)))
    (hinstr : f3.instr = f.instr) (hsuccess : f3.success = (f.advanced s.cfg.l1d.busWidth op p n l1d.port.bus).success)
    (hc : (s.focalCtx.withL1d l1d).RegisterChange c') :
    exec i s = .next (s.afterVisit
      (if f.offset + f.chunk s.cfg.l1d.busWidth p n = n then c''.done
       else (s.focalCtx.withL1d l1d).retrying (f.advanced s.cfg.l1d.busWidth op p n l1d.port.bus))) := by
  split
  · rename_i last
    exact visit_window_last h hf hu hs last hstore hretire (hinstr.trans hf.instr)
      (hsuccess.trans (InFlight.advanced_success last op _)) hc rfl rfl
  · rename_i more
    exact visit_window_more h hf hu hs more

/-- The same, for an instruction that leaves the transfer as it is in Store and advances the PC in Retire (R96). -/
theorem exec_window_advances (h : s.Alone) (hf : s.Brings i f) (hu : UsesEngine s i f op p n)
    (hs : Serves s f op p n l1d) {c' : Context}
    (hstore : runPhase i .store s.focalEnv
      ((s.focalCtx.withL1d l1d).holding (f.advanced s.cfg.l1d.busWidth op p n l1d.port.bus))
      (f.advanced s.cfg.l1d.busWidth op p n l1d.port.bus)
      = .ok (.just (c'.holding (f.advanced s.cfg.l1d.busWidth op p n l1d.port.bus))))
    (hretire : ∀ e c g, runPhase i .retire e c g = retireAdvance c) (hc : (s.focalCtx.withL1d l1d).RegisterChange c') :
    exec i s = .next (s.afterVisit
      (if f.offset + f.chunk s.cfg.l1d.busWidth p n = n then c'.completed
       else (s.focalCtx.withL1d l1d).retrying (f.advanced s.cfg.l1d.busWidth op p n l1d.port.bus))) :=
  exec_window h hf hu hs (c'' := c'.advancePc) hstore (hretire ..) (InFlight.advanced_instr ..) rfl hc

/-- THE VISIT OF THE LAST WINDOW WHOSE STORE PHASE IS FATAL. -/
theorem exec_window_fatal_store (h : s.Alone) (hf : s.Brings i f) (hu : UsesEngine s i f op p n)
    (hs : Serves s f op p n l1d) (last : f.offset + f.chunk s.cfg.l1d.busWidth p n = n) {x : Fault}
    (hstore : runPhase i .store s.focalEnv
      ((s.focalCtx.withL1d l1d).holding (f.advanced s.cfg.l1d.busWidth op p n l1d.port.bus))
      (f.advanced s.cfg.l1d.busWidth op p n l1d.port.bus) = .error x) : exec i s = .fault x := by
  obtain ⟨hexec, hformat⟩ := window_serves h hf hu hs
  rw [exec_eq_visit]
  exact visit_fault_store h i (loadDataStage_brings hf) hexec hs.clock hformat
    ((storeStage_last hf last op _ _ _).trans hstore) ⟨rfl, rfl⟩ ⟨rfl, rfl⟩ ⟨rfl, rfl⟩ h.l1d ⟨hs.notBusy, hs.noLower⟩

/-- THE VISIT OF THE LAST WINDOW WHOSE STORE PHASE RAISES AN ERROR: the window is moved, the instruction discarded. -/
theorem exec_window_trap_store (h : s.Alone) (hf : s.Brings i f) (hu : UsesEngine s i f op p n)
    (hs : Serves s f op p n l1d) (last : f.offset + f.chunk s.cfg.l1d.busWidth p n = n) {v : BitVec 8}
    (hstore : runPhase i .store s.focalEnv
      ((s.focalCtx.withL1d l1d).holding (f.advanced s.cfg.l1d.busWidth op p n l1d.port.bus))
      (f.advanced s.cfg.l1d.busWidth op p n l1d.port.bus)
      = .ok (.just ({ s.focalCtx.withL1d l1d with pending := some v }.holding
          (f.advanced s.cfg.l1d.busWidth op p n l1d.port.bus).failed))) :
    exec i s = .next (s.afterVisit ((s.focalCtx.withL1d l1d).trapped v)) := by
  obtain ⟨hexec, hformat⟩ := window_serves h hf hu hs
  rw [exec_eq_visit]
  exact visit_alone h i (r4 := .just _) (loadDataStage_brings hf) hexec hs.clock hformat
    ((storeStage_last hf last op _ _ _).trans hstore) (retireStage_discards _ _ _ _) ⟨rfl, rfl⟩ ⟨rfl, rfl⟩ ⟨rfl, rfl⟩
    ⟨rfl, rfl⟩ h.l1d ⟨hs.notBusy, hs.noLower⟩ ⟨hs.notBusy, hs.noLower⟩ rfl (by simp [PhaseOut.just])

end Window

/-! ## The checks of a transfer -/

/-- The Execute phase of a transfer that passes its check is the engine's (R114). -/
theorem checkedAccess_none (e : Env) (op : StoreOp) (p n : Nat) {x : Option (BitVec 8)} (h : x = none) (c : Context)
    (f : InFlight) : checkedAccess e op p n x c f = accessExecute e op p n c f := by rw [h]; rfl

theorem dataError_of_ok {e : Env} {c : Context} {p n : Nat} (h : dataOk e c p n = true) : dataError e c p n = none :=
  if_pos h

/-- A transfer that passes its check lies in Memory (R122). -/
theorem dataOk_memorySize {e : Env} {c : Context} {p n : Nat} (h : dataOk e c p n = true) : p + n ≤ e.cfg.memorySize := by
  simp only [dataOk, Bool.and_eq_true, decide_eq_true_eq] at h
  exact h.1

/-- A push that passes its check lies in Memory (R140, R142). -/
theorem pushError_memorySize {e : Env} {c : Context} {sp : Word} {n : Nat} (h : pushError e c sp n = none) :
    sp.toNat + 8 * n ≤ e.cfg.memorySize := by
  unfold pushError at h
  split at h
  · cases h
  split at h
  · cases h
  · omega

/-- A pop that passes its check does not go below address 0 (R141, R143). -/
theorem popError_le {e : Env} {c : Context} {sp : Word} {n : Nat} (h : popError e c sp n = none) : 8 * n ≤ sp.toNat := by
  unfold popError at h
  split at h
  · cases h
  · omega

end Sys2Proof.Machine
end

section
/-! Obligations O12 to O17: one visit of a transfer, fresh or retried, moves one window; the last one completes it. -/

namespace Sys2Proof.Machine

section Transfers

variable {s : State} {f : InFlight}

/-! ## The engine behind each transfer (R114, R123, R124, R140 to R143) -/

theorem UsesEngine.load {a : Reg} {off : BitVec 17} {d : Reg} (hok : dataOk s.focalEnv s.focalCtx f.physical 8 = true) :
    UsesEngine s (.load a off d) f .read f.physical 8 where
  execute := congrArg justly (checkedAccess_none _ _ _ _ (dataError_of_ok (c := s.focalCtx.holding f) hok) _ f)
  format _ := rfl

theorem UsesEngine.store {a : Reg} {off : BitVec 17} {d : Reg} (hok : dataOk s.focalEnv s.focalCtx f.physical 8 = true) :
    UsesEngine s (.store a off d) f .write f.physical 8 where
  execute := congrArg justly (checkedAccess_none _ _ _ _ (dataError_of_ok (c := s.focalCtx.holding f) hok) _ f)
  format _ := rfl

theorem UsesEngine.call {r : Reg} (hok : pushError s.focalEnv s.focalCtx f.op0 1 = none) :
    UsesEngine s (.call r) f .write f.op0.toNat 8 where
  execute := congrArg justly (checkedAccess_none _ _ _ _ hok _ f)
  format _ := rfl

theorem UsesEngine.ret (hok : popError s.focalEnv s.focalCtx f.op0 1 = none) :
    UsesEngine s .ret f .read (f.op0.toNat - 8) 8 where
  execute := congrArg justly (checkedAccess_none _ _ _ _ hok _ f)
  format _ := rfl

theorem UsesEngine.push {mask : BitVec 16} (hmask : mask ≠ 0)
    (hok : pushError s.focalEnv s.focalCtx f.op0 (maskCount mask) = none) :
    UsesEngine s (.push mask) f .write f.op0.toNat (8 * maskCount mask) where
  execute := (if_neg (maskCount_pos hmask)).trans (congrArg justly (checkedAccess_none _ _ _ _ hok _ f))
  format _ := if_neg (maskCount_pos hmask)

theorem UsesEngine.pop {mask : BitVec 16} (hmask : mask ≠ 0)
    (hok : popError s.focalEnv s.focalCtx f.op0 (maskCount mask) = none) :
    UsesEngine s (.pop mask) f .read (f.op0.toNat - 8 * maskCount mask) (8 * maskCount mask) where
  execute := (if_neg (maskCount_pos hmask)).trans (congrArg justly (checkedAccess_none _ _ _ _ hok _ f))
  format _ := if_neg (maskCount_pos hmask)

/-! ## The addresses of the windows are addresses -/

/-- A window of a transfer that lies in Memory has a 64-bit address (R7, R122). -/
theorem InFlight.nextAddr_lt {p n : Nat} (hwf : s.cfg.wellFormed = true) (hmem : p + n ≤ s.cfg.memorySize)
    (hoff : f.offset < n) : f.nextAddr p < 2 ^ 64 := by
  have := Config.wellFormed_memorySize hwf
  simp only [InFlight.nextAddr]
  omega

/-- A window of a transfer popped from below `f.op0` has a 64-bit address. -/
theorem InFlight.nextAddr_pop_lt {e : Env} {c : Context} {n : Nat} (hok : popError e c f.op0 n = none)
    (hoff : f.offset < 8 * n) : f.nextAddr (f.op0.toNat - 8 * n) < 2 ^ 64 := by
  have hle := popError_le hok
  have hlt := f.op0.isLt
  simp only [InFlight.nextAddr]
  omega

end Transfers

/-! ## Load and Store -/

/-- Settles O12: the window moves, and after the last one the register write of the Store phase succeeds, raises or is
fatal. -/
theorem loadWindow : Obligations.LoadWindow := by
  intro s a off d f h hwf hf hok hoff hit l1d f'
  have hu : UsesEngine s (.load a off d) f .read f.physical 8 := .load hok
  have hs : Serves s f .read f.physical 8 l1d :=
    .read h (InFlight.nextAddr_lt hwf (dataOk_memorySize hok) hoff) hit
  have hpending := hf.noPending l1d
  split
  · rename_i more
    exact visit_window_more h hf hu hs more
  rename_i last
  have last : f.offset + f.chunk s.cfg.l1d.busWidth f.physical 8 = 8 := not_not.1 last
  split
  · rename_i hmay
    have key := exec_window_advances h hf hu hs (c' := (s.focalCtx.withL1d l1d).hwWrite d (be8 (f'.buf.take 8)))
      (by show justly (((s.focalCtx.withL1d l1d).holding f').archWrite d (be8 (f'.buf.take 8))) = _
          rw [Context.archWrite_allowed (by exact hmay), Context.holding_hwWrite]
          rfl)
      (fun _ _ _ => rfl) (.hwWrite hpending _ _)
    rwa [if_pos last] at key
  rename_i hmay
  have refused : ((s.focalCtx.withL1d l1d).holding f').mayWrite d = false := by simpa using hmay
  have hstore : runPhase (.load a off d) .store s.focalEnv ((s.focalCtx.withL1d l1d).holding f') f'
      = justly (((s.focalCtx.withL1d l1d).holding f').raise registerAccessError) :=
    congrArg justly (Context.archWrite_refused refused _)
  split
  · rename_i hint
    rw [Context.raise_fatal (.inr (by exact hint))] at hstore
    exact exec_window_fatal_store h hf hu hs last hstore
  · rename_i hint
    rw [Context.raise_holding hpending (by simpa using hint)] at hstore
    exact exec_window_trap_store h hf hu hs last hstore

/-- Settles O13: the Store phase does nothing more, Retire advances the PC. -/
theorem storeWindow : Obligations.StoreWindow := by
  intro s a off d f h hwf hf hok hoff hready k l1d f'
  have hs : Serves s f .write f.physical 8 l1d :=
    .write h (InFlight.nextAddr_lt hwf (dataOk_memorySize hok) hoff) hready
  exact exec_window_advances h hf (.store hok) hs rfl (fun _ _ _ => rfl) (.refl (hf.noPending l1d))

/-! ## Push and Pop -/

/-- Settles O14: the Store phase of the last window commits SP. -/
theorem pushWindow : Obligations.PushWindow := by
  intro s mask f h hwf hmask hf hok hoff hready n k l1d f'
  have hs : Serves s f .write f.op0.toNat n l1d :=
    .write h (InFlight.nextAddr_lt hwf (pushError_memorySize hok) hoff) hready
  have hop0 : f'.op0 = f.op0 := InFlight.advanced_op0 ..
  exact exec_window_advances h hf (.push hmask hok) hs (by rw [← hop0]; rfl) (fun _ _ _ => rfl)
    (.setSp (.refl (hf.noPending l1d)) _)

/-- Settles O15: the Store phase of the last window commits the registers of the mask and SP. -/
theorem popWindow : Obligations.PopWindow := by
  intro s mask f h hwf hmask hf hok hoff hit n p l1d f'
  have hs : Serves s f .read p n l1d := .read h (InFlight.nextAddr_pop_lt hok hoff) hit
  have hop0 : f'.op0 = f.op0 := InFlight.advanced_op0 ..
  refine exec_window_advances h hf (.pop hmask hok) hs ?_ (fun _ _ _ => rfl)
    (.setSp (.popRegs (hf.noPending l1d) (maskRegs mask) f'.buf) (f.op0 - BitVec.ofNat 64 n))
  show Except.ok (PhaseOut.just ((popRegs (maskRegs mask) f'.buf ((s.focalCtx.withL1d l1d).holding f')).setSp
    (f'.op0 - BitVec.ofNat 64 n))) = _
  rw [popRegs_holding, hop0]
  rfl

/-! ## Call and Return -/

/-- Settles O16: the Store phase of the last window commits SP, Retire sets the PC to the target. -/
theorem callWindow : Obligations.CallWindow := by
  intro s r f h hwf hf hok hoff hready k l1d f'
  have hs : Serves s f .write f.op0.toNat 8 l1d :=
    .write h (InFlight.nextAddr_lt hwf (pushError_memorySize hok) hoff) hready
  have hop0 : f'.op0 = f.op0 := InFlight.advanced_op0 ..
  have hop1 : f'.op1 = f.op1 := InFlight.advanced_op1 ..
  exact exec_window h hf (.call hok) hs (c' := (s.focalCtx.withL1d l1d).setSp (f.op0 + 8)) (f3 := f')
    (c'' := ((s.focalCtx.withL1d l1d).setSp (f.op0 + 8)).setPc f.op1)
    (by rw [← hop0]; rfl) (by rw [← hop1]; rfl) (InFlight.advanced_instr ..) rfl (.setSp (.refl (hf.noPending l1d)) _)

/-- Settles O17: the Store phase of the last window commits SP and keeps the popped value, Retire sets the PC to it. -/
theorem returnWindow : Obligations.ReturnWindow := by
  intro s f h hwf hf hok hoff hit l1d f'
  have hs : Serves s f .read (f.op0.toNat - 8) 8 l1d := .read h (InFlight.nextAddr_pop_lt (n := 1) hok hoff) hit
  have hop0 : f'.op0 = f.op0 := InFlight.advanced_op0 ..
  exact exec_window h hf (.ret hok) hs (c' := (s.focalCtx.withL1d l1d).setSp (f.op0 - 8))
    (f3 := { f' with op1 := be8 (f'.buf.take 8) })
    (c'' := ((s.focalCtx.withL1d l1d).setSp (f.op0 - 8)).setPc (be8 (f'.buf.take 8)))
    (by rw [← hop0]; rfl) rfl (InFlight.advanced_instr ..) rfl (.setSp (.refl (hf.noPending l1d)) _)

end Sys2Proof.Machine
end

section
/-! Obligations O19 and O39: an access or a fetch out of bounds raises an Error and issues nothing. -/

namespace Sys2Proof.Machine

/-! ## Obligation O19: a data access out of bounds -/

/-- The Load phase of the Memory family brings the physical address, with no request outstanding (R121). -/
theorem memoryFamily_load {i : Instr} {a : Reg} {off : BitVec 17} {d : Reg}
    (hi : (i = .load a off d ∨ i = .store a off d) ∨ i = .clear a off ∨ i = .flush a off) (e : Env) (c : Context)
    (b : Bool) :
    ∃ f, runPhase i .load e (c.holding (.fresh i b)) (.fresh i b) = .ok (.just (c.holding f)) ∧ f.instr = i ∧
      f.issued = false ∧ f.physical = physical (programBase c) (effectiveAddress e c a off) := by
  rcases hi with (rfl | rfl) | rfl | rfl
  all_goals exact ⟨_, rfl, rfl, rfl, rfl⟩

/-- The Format phase of the Memory family with no request outstanding takes success away (R113). -/
theorem memoryFamily_format_idle {i : Instr} {a : Reg} {off : BitVec 17} {d : Reg}
    (hi : (i = .load a off d ∨ i = .store a off d) ∨ i = .clear a off ∨ i = .flush a off) (e : Env) (c : Context)
    {f : InFlight} (hf : f.issued = false) : runPhase i .format e c f = .ok (.just (c.put f.failed)) := by
  have idle : ∀ op p n, justly (accessFormat e op p n c f) = .ok (.just (c.put f.failed)) := by
    intro op p n
    simp only [accessFormat, hf, Bool.not_false, Bool.true_or, if_true]
    rfl
  rcases hi with (rfl | rfl) | rfl | rfl
  all_goals exact idle ..

/-- A transfer past Memory or, in normal mode, past PL fails its check (R122). -/
theorem dataError_outOfBounds {e : Env} {c : Context} {p n : Nat}
    (h : e.cfg.memorySize < p + n ∨ c.interrupted = false ∧ c.pl.toNat < p + n) :
    dataError e c p n = some programAccessError := by
  refine if_neg ?_
  simp only [dataOk, Bool.and_eq_true, Bool.or_eq_true, decide_eq_true_eq, not_and_or, not_or, not_le, Bool.not_eq_true]
  exact h

/-- THE VISIT OF A MEMORY-FAMILY INSTRUCTION WHOSE CHECK FAILS (R114, R153). -/
theorem exec_dataError {s : State} (h : s.Alone) (hr : s.focalCtx.Ready) {i : Instr} {f : InFlight} {op : StoreOp}
    {p n : Nat} {v : BitVec 8}
    (hload : runPhase i .load s.focalEnv (s.focalCtx.holding (.fresh i s.focalCtx.latchMark))
      (.fresh i s.focalCtx.latchMark) = .ok (.just (s.focalCtx.holding f)))
    (hexec : runPhase i .execute s.focalEnv (s.focalCtx.holding f) f
      = justly (checkedAccess s.focalEnv op p n (some v) (s.focalCtx.holding f) f))
    (hformat : ∀ c, runPhase i .format s.focalEnv c f.failed = .ok (.just (c.put f.failed))) (hinstr : f.instr = i) :
    exec i s = if s.focalCtx.interrupted then .fault .doubleInterrupt
      else .next (s.afterVisit (s.focalCtx.trapped v)) := by
  have hexec : runPhase i .execute s.focalEnv (s.focalCtx.holding f) f = justly ((s.focalCtx.holding f).raise v) := hexec
  cases hn : s.focalCtx.interrupted with
  | true =>
    rw [Context.raise_fatal (.inr (by exact hn))] at hexec
    exact visit_fatal_execute h hr i hload hexec hinstr
  | false =>
    rw [Context.raise_holding hr.noPending hn] at hexec
    exact visit_trap_execute h hr i hload hexec (hformat _) hinstr hinstr rfl

/-- Settles O19: Execute checks the physical address that Load brought, and the check raises. -/
theorem dataAccessTraps : Obligations.DataAccessTraps := by
  intro s a off d p n i h hr hp hi hbounds
  have hfamily := hi.imp And.left And.left
  obtain ⟨f, hload, hinstr, hissued, hphysical⟩ :=
    memoryFamily_load hfamily s.focalEnv s.focalCtx s.focalCtx.latchMark
  have hp : f.physical = p := by
    rw [hphysical, hp, physical, programBase]
    cases s.focalCtx.interrupted <;> rfl
  obtain ⟨op, hexec⟩ := memoryFamily_execute (i := i) (n := n)
    (hi.imp (And.imp_left fun h => ⟨a, off, d, h⟩) (And.imp_left fun h => ⟨a, off, h⟩))
  have hcheck : dataError s.focalEnv (s.focalCtx.holding f) f.physical n = some programAccessError :=
    dataError_outOfBounds (hp ▸ hbounds)
  exact exec_dataError h hr hload (hcheck ▸ hexec ..)
    (fun c => memoryFamily_format_idle hfamily _ c (f := f.failed) hissued) hinstr

/-! ## Obligation O39: a fetch address out of bounds -/

/-- With no Error pending and no Signal outside an interrupt there is nothing to take (R98, R100). -/
theorem Context.not_takeable {c : Context} (hp : c.pending = none) (hs : c.signalled = true → c.interrupted = true) :
    c.takeable = false := by
  cases hsig : c.signalled with
  | false => simp [Context.takeable, hp, hsig]
  | true => simp [Context.takeable, hp, hs hsig]

/-- Settles O39: Fetch's check fails, and raising is fatal in interrupt mode. -/
theorem fetchTraps : Obligations.FetchTraps := by
  intro e c hawake hretry hinstr hissued hp hs a hbounds
  have haddr : fetchAddress c = a := by
    simp only [fetchAddress, physical, programBase, a]
    cases c.interrupted <;> rfl
  have hbad : fetchOk e c (fetchAddress c) = false := by
    rw [haddr, ← Bool.not_eq_true]
    simp only [fetchOk, Bool.and_eq_true, Bool.or_eq_true, decide_eq_true_eq]
    rintro ⟨⟨haligned, hmem⟩, hpl⟩
    rcases hbounds with hbad | hbad | ⟨hn, hbad⟩
    · exact hbad haligned
    · omega
    · obtain hint | ⟨-, hpl⟩ := hpl
      · exact absurd (hint.symm.trans hn) Bool.noConfusion
      · omega
  have hraise : fetchStage e c = c.raise programAccessError := by
    simp [fetchStage, hawake, hretry, hinstr, hissued, Context.not_takeable hp hs, hbad]
  rw [hraise]
  split
  · rename_i hint
    exact Context.raise_fatal (.inr hint) _
  · rename_i hn
    rw [Context.raise_normal hp (by simpa using hn), hinstr, Option.map_none]
    simp only [programAccessError, ← hinstr]

end Sys2Proof.Machine
end

section
/-! SUPPORT. The two clocks of Fetch and LoadInstruction in a calm machine, and the step that they bring to Decode (R98,
R100, R101, R107). -/

namespace Sys2Proof.Machine

/-! ## A round from its first clock -/

theorem State.ticks_zero (s : State) : s.ticks 0 = s := by
  have hcore : ∀ c : Core, c.ticks 0 = c := fun c => by
    show { c with next := c.next + 0 } = c
    rw [add_zero]
  have hcores : (Core.ticks · 0) = id := funext hcore
  show { s with core0 := s.core0.ticks 0, upper := s.upper.map (Core.ticks · 0), cycle := s.cycle + 0 } = s
  rw [hcore, hcores, List.map_id]
  rfl

theorem State.Calm.ticks {s : State} {j : Fin 8} (h : s.Calm j) (n : Nat) : (s.ticks n).Calm j := by
  simpa only [State.setCtx_ctx] using h.moved (c := s.ctx 0 j) n h.l1i

theorem State.LocksSettled.ticks {s : State} {j : Fin 8} (h : s.LocksSettled j) (n : Nat) : (s.ticks n).LocksSettled j := h

/-- Two clocks after a Context was at Fetch it is at Decode (R106). -/
theorem State.focal_ticks_two (s : State) : (s.ticks 2).focal = s.core0.next := by
  show s.core0.next + Fin.ofNat 8 2 - Stage.number .decodeInstruction = _
  exact add_sub_cancel_right ..

section Latched

variable {s : State} {c : Context}

/-- The Context that Fetch and LoadInstruction leave at Decode is alone. -/
theorem alone_at_decode (h : s.Calm s.core0.next) (hl : s.LocksSettled s.core0.next) (hi : c.l1i.AtRest)
    (hlock : c.requiresLock = (s.ctx 0 s.core0.next).requiresLock) (hd : c.l1d.AtRest) (hidle : c.l1d.port.idle = true) :
    ((s.setCtx 0 s.core0.next c).ticks 2).Alone := by
  have hfocal : ((s.setCtx 0 s.core0.next c).ticks 2).focal = s.core0.next := State.focal_ticks_two _
  have hctx : ((s.setCtx 0 s.core0.next c).ticks 2).ctx 0 s.core0.next = c := by
    rw [State.ticks_ctx, State.ctx_setCtx_same]
  constructor
  all_goals rw [hfocal]
  · exact h.moved 2 hi
  · exact hl.moved 2 hlock
  · rw [hctx]; exact hd
  · rw [hctx]; exact hidle

/-- A step whose first two clocks leave a word in the latch of the one awake Context runs the instruction the word decodes
to; the instruction starts alone and ready (R101, R107). -/
theorem step_latched (hwf : s.cfg.wellFormed = true) (h : s.Calm s.core0.next) (hl : s.LocksSettled s.core0.next)
    (hstart : startRound s = .ok ((s.setCtx 0 s.core0.next c).ticks 2)) (hi : c.l1i.AtRest)
    (hlock : c.requiresLock = (s.ctx 0 s.core0.next).requiresLock) (hd : c.l1d.AtRest) (hidle : c.l1d.port.idle = true)
    (hr : c.Ready) {o : Opcode} (ho : c.opcode = some o) {i : Instr} (hdecode : decode o.word = .ok i) :
    step s = exec i ((s.setCtx 0 s.core0.next c).ticks 2) ∧ ((s.setCtx 0 s.core0.next c).ticks 2).Alone ∧
      ((s.setCtx 0 s.core0.next c).ticks 2).focal = s.core0.next ∧
      ((s.setCtx 0 s.core0.next c).ticks 2).focalCtx = c := by
  have halone := alone_at_decode h hl hi hlock hd hidle
  have hfocal : ((s.setCtx 0 s.core0.next c).ticks 2).focal = s.core0.next := State.focal_ticks_two _
  have hctx : ((s.setCtx 0 s.core0.next c).ticks 2).focalCtx = c := by
    rw [State.focalCtx, hfocal, State.ticks_ctx, State.ctx_setCtx_same]
  have hdecoded : ((s.setCtx 0 s.core0.next c).ticks 2).focalCtx.decoded = .run i := by
    simp only [hctx, Context.decoded, hr.notRetrying, ho, hdecode, Bool.false_eq_true, if_false]
  have hbefore := clockBeforeDecode_calm halone.calm halone.locks halone.l1d
  exact ⟨stepRunsDecoded _ _ _ _ hwf hstart h.running hbefore hdecoded, halone, hfocal, hctx⟩

end Latched

/-! ## The clock in which the L1I serves the fetch -/

section Fetched

variable {s : State} {j : Fin 8} {c : Context} {l1i : Cache}

/-- The L1 clocks of a Core where only Context j's L1I has work, and sends the L2 nothing. -/
theorem clockL1s_l1i (cfg : Config) (k : Core) (h : ∀ i, i ≠ j → (k.ctx i).l1i.AtRest ∧ (k.ctx i).l1d.AtRest)
    (hd : (k.ctx j).l1d.AtRest)
    (hi : Cache.clock cfg.l1i cfg.dirtyOnUnchangedWrite (k.ctx j).l1i k.l2.port = .ok (l1i, k.l2.port)) :
    allCtx.foldlM (Core.clockL1 cfg) k = .ok (k.setCtx j { k.ctx j with l1i := l1i }) := by
  obtain ⟨before, after, hsplit, hbefore, hafter⟩ := allCtx_split j
  have hself : Core.clockL1 cfg k j = .ok (k.setCtx j { k.ctx j with l1i := l1i }) := by
    simp only [Core.clockL1, hi, Cache.clock_atRest _ _ _ hd, Except.bind, Except.map]
    rfl
  rw [hsplit, List.foldlM_append, foldlM_clockL1_atRest cfg k before fun i hmem => h i fun e => hbefore (e ▸ hmem)]
  simp only [bind, Except.bind, List.foldlM_cons, hself]
  refine foldlM_clockL1_atRest cfg _ after fun i hmem => ?_
  have hne : i ≠ j := fun e => hafter (e ▸ hmem)
  rw [Core.ctx_setCtx_ne _ _ hne]
  exact h i hne

/-- What comes before the stages when only the awake Context's L1I has a request. -/
theorem preStages_l1i (h : s.Calm j) (hl : s.LocksSettled j) (hlock : c.requiresLock = (s.ctx 0 j).requiresLock)
    (hd : c.l1d.AtRest)
    (hi : Cache.clock s.cfg.l1i s.cfg.dirtyOnUnchangedWrite c.l1i s.core0.l2.port = .ok (l1i, s.core0.l2.port)) :
    preStages (s.setCtx 0 j c) = .ok (s.setCtx 0 j { c with l1i := l1i }) := by
  have hothers : ∀ (x : Context) i, i ≠ j → ((s.setCtx 0 j x).ctx 0 i).Quiet := by
    intro x i hne
    rw [State.ctx_setCtx_ne _ _ hne]
    exact h.others i hne
  have hlocks : ∀ x : Context, x.requiresLock = (s.ctx 0 j).requiresLock → (s.setCtx 0 j x).LocksSettled j := by
    intro x hx
    simpa [State.LocksSettled, hx] using hl
  have hl1 : clockL1s 0 (s.setCtx 0 j c) = .ok (s.setCtx 0 j { c with l1i := l1i }) := by
    have hctx : (s.setCtx 0 j c).core0.ctx j = c := Core.ctx_setCtx_same ..
    have key := clockL1s_l1i (j := j) (l1i := l1i) s.cfg (s.setCtx 0 j c).core0
      (fun i hne => ⟨(hothers c i hne).l1i, (hothers c i hne).l1d⟩) (by rw [hctx]; exact hd) (by rw [hctx]; exact hi)
    unfold clockL1s
    rw [State.core_zero, State.setCtx_cfg, key, hctx, State.setCtx_core0, Core.setCtx_setCtx]
    rfl
  simp only [preStages, clockMemory_quiet (s.setCtx 0 j c) h.memory, clockL3_quiet (s.setCtx 0 j c) h.l3, bind, Except.bind,
    State.lockPoll_settled (s := s.setCtx 0 j c) (fun i hne => (hothers c i hne).noLock) h.upper (hlocks c hlock),
    clockL2_quiet (s.setCtx 0 j c) (.inl h.l2), hl1, State.core_zero]
  rw [Core.lockPoll_settled (s := s.setCtx 0 j { c with l1i := l1i }) _ (fun i hne => (hothers _ i hne).noLock)
    (hlocks { c with l1i := l1i } hlock)]
  rfl

/-- ONE CLOCK OF A CALM MACHINE in which the awake Context's L1I resolves its request, and the Context runs its stage. -/
theorem processorClock_l1i (h : s.Calm j) (hl : s.LocksSettled j) (hlock : c.requiresLock = (s.ctx 0 j).requiresLock)
    (hd : c.l1d.AtRest)
    (hi : Cache.clock s.cfg.l1i s.cfg.dirtyOnUnchangedWrite c.l1i s.core0.l2.port = .ok (l1i, s.core0.l2.port))
    (st : Stage) (hst : s.atStage 0 st = j) {c' : Context}
    (hrun : runStage st (s.env 0 j) { c with l1i := l1i } = .ok (.just c')) :
    processorClock (s.setCtx 0 j c) = .ok ((s.setCtx 0 j c').ticks 1) := by
  have hothers : ∀ (x : Context) y, y ≠ st → clockStage 0 (s.setCtx 0 j x) y = .ok (s.setCtx 0 j x) := by
    intro x y hy
    have hne : s.atStage 0 y ≠ j := fun e => hy (State.atStage_inj (e.trans hst.symm))
    have hquiet : ((s.setCtx 0 j x).ctx 0 (s.atStage 0 y)).Quiet := by
      rw [State.ctx_setCtx_ne _ _ hne]
      exact h.others _ hne
    exact clockStage_quiet y hquiet
  refine processorClock_parts h.running (preStages_l1i h hl hlock hd hi) st ?_ (hothers _) (hothers _) h.upper h.devices
  have hat : (s.setCtx 0 j { c with l1i := l1i }).atStage 0 st = j := hst
  simp only [clockStage, hat, State.ctx_setCtx_same, State.setCtx_env, hrun, Except.bind, PhaseOut.just,
    State.setCtx_setCtx, State.apply]

end Fetched

end Sys2Proof.Machine
end

section
/-! Obligations O38 and O40: what LoadInstruction latches, the fetched word or a synthesized Interrupt, the step runs. -/

namespace Sys2Proof.Machine

/-! ## The first clock of a round -/

/-- The clock of Fetch (R98, R107): the awake Context at the cursor runs its Fetch stage and nothing else happens. -/
theorem processorClock_fetch {s : State} {c : Context} (h : s.Calm s.core0.next) (hl : s.LocksSettled s.core0.next)
    (hd : (s.ctx 0 s.core0.next).l1d.AtRest)
    (hrun : fetchStage (s.env 0 s.core0.next) (s.ctx 0 s.core0.next) = .ok c) :
    processorClock s = .ok ((s.setCtx 0 s.core0.next c).ticks 1) := by
  have key := clock_moved h hl (c := s.ctx 0 s.core0.next) 0 h.l1i rfl .fetch
    (by rw [show Fin.ofNat 8 0 = (0 : Fin 8) from rfl, show Stage.fetch.number = (0 : Fin 8) from rfl, add_zero, sub_zero])
    (Cache.clock_atRest _ _ _ hd) (r := .just c) (congrArg justly hrun) (by simp [PhaseOut.just])
  rwa [State.setCtx_ctx, State.ticks_zero] at key

/-- The Context at the cursor is at LoadInstruction one clock later (R106). -/
theorem State.loadInstruction_after_fetch (s : State) :
    s.core0.next + Fin.ofNat 8 1 - Stage.number .loadInstruction = s.core0.next := add_sub_cancel_right ..

/-! ## Obligation O38: the fetched word -/

/-- The Context with a fetch of address `a` outstanding, its L1I being `l1i` (R98). -/
def Context.fetching (c : Context) (l1i : Cache) (a : Nat) : Context :=
  { c with l1i := l1i, fetchIssued := true, fetchAddr := BitVec.ofNat 64 a }

/-- Fetch with an idle L1I and an address within bounds issues the read of its word (R98, R99). -/
theorem fetchStage_reads {e : Env} {c : Context} (hawake : c.asleep = false) (hretry : c.isRetrying = false)
    (hinstr : c.instruction = none) (hissued : c.fetchIssued = false) (htake : c.takeable = false)
    (hok : fetchOk e c (fetchAddress c) = true) (hidle : c.l1i.port.idle = true) :
    fetchStage e c = .ok (c.fetching (c.l1i.requested .read (fetchAddress c) none) (fetchAddress c)) := by
  have hfree : (c.asleep || c.isRetrying || c.instruction.isSome || c.fetchIssued) = false := by
    simp [hawake, hretry, hinstr, hissued]
  simp only [fetchStage, hfree, htake, hok, hidle, Bool.not_true, Bool.false_eq_true, if_false, Port.request_idle hidle,
    Except.map]
  rfl

/-- An address that a fetch may read is a 64-bit address (R7, R99). -/
theorem fetchOk_lt {e : Env} {c : Context} {a : Nat} (hwf : e.cfg.wellFormed = true) (h : fetchOk e c a = true) :
    a < 2 ^ 64 := by
  have hmem := Config.wellFormed_memorySize hwf
  simp only [fetchOk, Bool.and_eq_true, decide_eq_true_eq] at h
  omega

/-- The four bytes of a word in memory order are the word (R66, R76). -/
theorem be_bytesOfWord (w : InstrWord) : BitVec.ofNat 32 (be (bytesOfWord w)) = w := by
  apply BitVec.eq_of_toNat_eq
  have := w.isLt
  simp only [be, bytesOfWord, List.foldl_cons, List.foldl_nil, BitVec.toNat_ofNat, BitVec.extractLsb'_toNat,
    Nat.shiftRight_eq_div_pow]
  omega

/-- The word of a fetch that hit is the one whose bytes the L1I holds at the fetch address (R100). -/
theorem fetchedWord_hit {e : Env} {c : Context} {l1i : Cache} {a : Nat} {w : InstrWord} (ha : a < 2 ^ 64)
    (hbytes : l1i.hitBytes e.cfg.l1i a 4 = bytesOfWord w) :
    fetchedWord e (c.fetching (l1i.afterRead e.cfg.l1i a).held a) = w := by
  have haddr : (c.fetching (l1i.afterRead e.cfg.l1i a).held a).fetchAddr = BitVec.ofNat 64 a := rfl
  have hbus : (c.fetching (l1i.afterRead e.cfg.l1i a).held a).l1i.port.bus
      = readBus ((l1i.windowOf e.cfg.l1i a).map Lane.data) := rfl
  have hread : ∀ n m (l : List Lane), (((readBus (l.map Lane.data)).drop n).take m).map Lane.data
      = ((l.drop n).take m).map Lane.data := by
    intro n m l
    simp only [readBus, List.map_take, List.map_drop, List.map_map, Function.comp_def]
  simp only [fetchedWord, haddr, toNat_ofNat_of_lt ha, hbus, hread]
  rw [show (((l1i.windowOf e.cfg.l1i a).drop (a % e.cfg.l1i.busWidth)).take 4).map Lane.data = bytesOfWord w from hbytes]
  exact be_bytesOfWord w

/-- With no interrupt to take LoadInstruction latches the fetched word (R100). -/
theorem latchOpcode_fetched {c : Context} (h : c.takeable = false) (w : InstrWord) :
    latchOpcode c (some w) = { c with opcode := some { word := w, synthesized := false } } := by
  simp only [Context.takeable, Bool.or_eq_false_iff, Option.isSome_eq_false_iff, Option.isNone_iff_eq_none] at h
  obtain ⟨hpending, hsignal⟩ := h
  simp only [latchOpcode, hpending, hsignal, Bool.false_eq_true, if_false]

/-- LoadInstruction consumes a fetch that hit and latches its word (R100). -/
theorem loadInstructionStage_fetched {e : Env} {c : Context} {l1i : Cache} {a : Nat} {w : InstrWord}
    (hawake : c.asleep = false) (hretry : c.isRetrying = false) (hissued : c.fetchIssued = false)
    (htake : c.takeable = false) (ha : a < 2 ^ 64) (hbytes : l1i.hitBytes e.cfg.l1i a 4 = bytesOfWord w) :
    loadInstructionStage e (c.fetching (l1i.afterRead e.cfg.l1i a).held a)
      = .ok { c with l1i := l1i.afterRead e.cfg.l1i a, fetchAddr := BitVec.ofNat 64 a,
                     opcode := some { word := w, synthesized := false } } := by
  have hconsume : consumeFetch e (c.fetching (l1i.afterRead e.cfg.l1i a).held a)
      = .ok ({ c.fetching (l1i.afterRead e.cfg.l1i a) a with fetchIssued := false }, some w) := by
    rw [← fetchedWord_hit (c := c) ha hbytes]
    rfl
  have hawake' : (c.fetching (l1i.afterRead e.cfg.l1i a).held a).asleep = false := hawake
  have hretry' : (c.fetching (l1i.afterRead e.cfg.l1i a).held a).isRetrying = false := hretry
  simp only [loadInstructionStage, hawake', hretry', Bool.or_self, Bool.false_eq_true, if_false, hconsume, Except.map]
  rw [latchOpcode_fetched (by exact htake), ← hissued]
  rfl

/-- Settles O38: Fetch sends the read, the L1I serves it in the next clock, LoadInstruction latches the word. -/
theorem fetchRunsInstruction : Obligations.FetchRunsInstruction := by
  intro s w i j c a hwf h hl hd hdidle hidle hawake hretry hinstr hissued hp hs hok hit hbytes hdecode fetched t
  have htake : c.takeable = false := Context.not_takeable hp hs
  have ha : a < 2 ^ 64 := fetchOk_lt (e := s.env 0 j) hwf hok
  have first := processorClock_fetch h hl hd (fetchStage_reads hawake hretry hinstr hissued htake hok hidle)
  have second : processorClock ((s.setCtx 0 j (c.fetching (c.l1i.requested .read a none) a)).ticks 1) = .ok t :=
    (processorClock_l1i (h.ticks 1) (hl.ticks 1) (c := c.fetching (c.l1i.requested .read a none) a) rfl hd
      (Cache.clock_read_hit _ _ _ h.l1i.noLower ha hit) .loadInstruction s.loadInstruction_after_fetch
      (congrArg justly (loadInstructionStage_fetched (e := s.env 0 j) hawake hretry hissued htake ha hbytes))).trans
      (congrArg Except.ok (State.ticks_ticks (s.setCtx 0 j fetched) 1 1))
  have hstart : startRound s = .ok t := by
    simp only [startRound, clocks, first, Except.bind]
    rw [second]
  obtain ⟨hstep, halone, hfocal, hctx⟩ := step_latched hwf h hl (c := fetched) hstart ⟨rfl, h.l1i.noLower⟩ rfl hd hdidle
    ⟨hretry, hp⟩ rfl hdecode
  exact ⟨hstep, halone, hfocal, hctx ▸ ⟨hretry, hp⟩⟩

end Sys2Proof.Machine
end

section
/-! Obligation O40: taking a pending Error or a posted Signal is a synthesized Interrupt. -/

namespace Sys2Proof.Machine

/-! ## What LoadInstruction takes (R100) -/

/-- The Context with what is taken cleared: the Error pending, else the Signal posted (R100). -/
def Context.taken (c : Context) : Context :=
  if c.pending.isSome then { c with pending := none } else { c with signalled := false }

@[simp] theorem Context.taken_pending (c : Context) : c.taken.pending = none := by
  unfold Context.taken
  split
  · rfl
  · rename_i hnone
    simpa using hnone

@[simp] theorem Context.taken_regs (c : Context) : c.taken.regs = c.regs := by unfold Context.taken; split <;> rfl
@[simp] theorem Context.taken_interrupted (c : Context) : c.taken.interrupted = c.interrupted := by
  unfold Context.taken; split <;> rfl
@[simp] theorem Context.taken_requiresLock (c : Context) : c.taken.requiresLock = c.requiresLock := by
  unfold Context.taken; split <;> rfl
@[simp] theorem Context.taken_isRetrying (c : Context) : c.taken.isRetrying = c.isRetrying := by
  unfold Context.taken; split <;> rfl
@[simp] theorem Context.taken_l1i (c : Context) : c.taken.l1i = c.l1i := by unfold Context.taken; split <;> rfl
@[simp] theorem Context.taken_l1d (c : Context) : c.taken.l1d = c.l1d := by unfold Context.taken; split <;> rfl

/-- The Context with the synthesized Interrupt of `v` in its latch in place of what was taken (R90, R100). -/
def Context.latchedInterrupt (c : Context) (v : BitVec 8) : Context :=
  { c.taken with opcode := some { word := synthesizedWord v, synthesized := true } }

/-- Outside an interrupt the Context takes `v`: the Error pending, or 0 for a Signal with no Error pending (R100, R155). -/
def Context.Takes (c : Context) (v : BitVec 8) : Prop :=
  c.pending = some v ∨ (c.pending = none ∧ c.signalled = true ∧ v = 0)

/-- An Error pending goes first, then a Signal outside an interrupt (R100). -/
theorem latchOpcode_interrupt {c : Context} {v : BitVec 8} (hn : c.interrupted = false) (hv : c.Takes v)
    (word : Option InstrWord) : latchOpcode c word = c.latchedInterrupt v := by
  rcases hv with hp | ⟨hp, hs, rfl⟩
  · simp [latchOpcode, Context.latchedInterrupt, Context.taken, hp]
  · simp [latchOpcode, Context.latchedInterrupt, Context.taken, hp, hs, hn, interruptSignal]

theorem Context.takeable_of_interrupt {c : Context} {v : BitVec 8} (hn : c.interrupted = false) (hv : c.Takes v) :
    c.takeable = true := by
  rcases hv with hp | ⟨-, hs, -⟩
  · simp [Context.takeable, hp]
  · simp [Context.takeable, hs, hn]

/-- With an interrupt to take Fetch issues nothing (R98). -/
theorem fetchStage_takeable {c : Context} (h : c.takeable = true) (e : Env) : fetchStage e c = .ok c := by
  simp only [fetchStage, h, if_true, ite_self]

/-- With no fetch outstanding LoadInstruction latches the interrupt it takes (R100). -/
theorem loadInstructionStage_interrupt {c : Context} {v : BitVec 8} (hawake : c.asleep = false)
    (hretry : c.isRetrying = false) (hissued : c.fetchIssued = false) (hn : c.interrupted = false) (hv : c.Takes v)
    (e : Env) : loadInstructionStage e c = .ok (c.latchedInterrupt v) := by
  simp only [loadInstructionStage, consumeFetch, hawake, hretry, hissued, Bool.or_self, Bool.false_and,
    Bool.false_eq_true, if_false, Except.map, latchOpcode_interrupt hn hv]

/-! ## The visit of an Interrupt (R150, R156) -/

/-- The Context in the handler of `v`, to resume at `resume`: IPC and IV saved, interrupt mode, the PC at the vector
(R156). -/
def Context.entered (c : Context) (v resume : Word) : Context :=
  { (c.hwWrite 11 resume).hwWrite 12 v with interrupted := true }.hwWrite 7 (c.ivt + v)

/-- An interrupt entry outside an interrupt is taken (R156). -/
theorem Context.interruptEntry_normal {c : Context} (hn : c.interrupted = false) (v resume : Word) :
    c.interruptEntry v resume = .ok (c.entered v resume) := by
  have hentry : ∃ c', c.interruptEntry v resume = .ok c' := ⟨_, if_neg (by simp [hn])⟩
  obtain ⟨c', hc⟩ := hentry
  rw [hc, (Context.interruptEntry_ok hc).2]
  rfl

/-- The visit of an Interrupt in normal mode enters the handler; a synthesized one resumes at its own PC (R150). -/
theorem exec_interrupt {s : State} (h : s.Alone) (hr : s.focalCtx.Ready) (hn : s.focalCtx.interrupted = false)
    (v : BitVec 8) :
    exec (.interrupt v) s = .next (s.afterVisit (s.focalCtx.entered (zext v)
      (if s.focalCtx.latchMark then s.focalCtx.pc else s.focalCtx.pc + 4)).done) := by
  refine visit_simple h hr (.interrupt v) (c' := s.focalCtx) rfl rfl rfl rfl
    (congrArg (Except.map PhaseOut.retired) (Context.interruptEntry_normal (by exact hn) _ _))
    rfl rfl rfl rfl rfl (.refl hr.noPending) rfl (by simp [PhaseOut.retired])

/-- Settles O40: Fetch waits, LoadInstruction latches the synthesized Interrupt, and its visit enters the handler. -/
theorem interruptTaken : Obligations.InterruptTaken := by
  intro s v j c hwf h hl hd hdidle hawake hretry hinstr hissued hn hv taken saved
  have first : processorClock s = .ok ((s.setCtx 0 j c).ticks 1) :=
    processorClock_fetch h hl hd (fetchStage_takeable (c.takeable_of_interrupt hn hv) _)
  have second : processorClock ((s.setCtx 0 j c).ticks 1) = .ok ((s.setCtx 0 j (c.latchedInterrupt v)).ticks 2) :=
    clock_moved h hl (c := c) 1 h.l1i rfl .loadInstruction s.loadInstruction_after_fetch (Cache.clock_atRest _ _ _ hd)
      (r := .just (c.latchedInterrupt v))
      (congrArg justly (loadInstructionStage_interrupt (c := c) hawake hretry hissued hn hv _)) (by simp [PhaseOut.just])
  have hstart : startRound s = .ok ((s.setCtx 0 j (c.latchedInterrupt v)).ticks 2) := by
    simp only [startRound, clocks, first, second, Except.bind]
  have hready : (c.latchedInterrupt v).Ready := ⟨c.taken_isRetrying.trans hretry, c.taken_pending⟩
  obtain ⟨hstep, halone, hfocal, hctx⟩ := step_latched hwf h hl hstart (c.taken_l1i ▸ h.l1i) c.taken_requiresLock
    (c.taken_l1d ▸ hd) (c.taken_l1d ▸ hdidle) hready rfl (decodeEncode (.interrupt v))
  have hvisit := exec_interrupt halone (by rw [hctx]; exact hready) (by rw [hctx]; exact c.taken_interrupted.trans hn) v
  rw [hstep, hvisit, hctx, State.afterVisit, hfocal, State.setCtx_ticks, State.setCtx_setCtx, State.ticks_ticks]
  have hpc : c.taken.pc = c.pc := by simp only [Context.pc, Context.taken_regs]
  have hivt : c.taken.ivt = c.ivt := by simp only [Context.ivt, Context.taken_regs]
  show Host.Outcome.next ((s.setCtx 0 j (c.taken.entered (zext v) c.taken.pc).done).ticks 8) = _
  rw [hpc, Context.entered, hivt]
  rfl

end Sys2Proof.Machine
end

section
/-! Obligation O1: LoadC writes its zero-extended constant and advances the PC. -/

namespace Sys2Proof.Machine

/-- THE VISIT OF AN INSTRUCTION WHOSE STORE PHASE WRITES A REGISTER IT MAY WRITE (R15), and whose Retire phase then advances
the PC it finds, the value just written if the destination is the PC (R18). -/
theorem visit_registerWritten {s : State} (h : s.Alone) (hr : s.focalCtx.Ready) {i : Instr} {d : Reg}
    (hd : s.focalCtx.mayWrite d = true) {f1 f2 : InFlight}
    (hload : runPhase i .load s.focalEnv (s.focalCtx.holding (.fresh i s.focalCtx.latchMark))
      (.fresh i s.focalCtx.latchMark) = .ok (.just (s.focalCtx.holding f1)))
    (hexec : runPhase i .execute s.focalEnv (s.focalCtx.holding f1) f1 = .ok (.just (s.focalCtx.holding f2)))
    (hformat : runPhase i .format s.focalEnv (s.focalCtx.holding f2) f2 = .ok (.just (s.focalCtx.holding f2)))
    (hstore : runPhase i .store s.focalEnv (s.focalCtx.holding f2) f2
      = justly ((s.focalCtx.holding f2).archWrite d f2.op2))
    (hretire : ∀ c, runPhase i .retire s.focalEnv c f2 = retireAdvance c)
    (i1 : f1.instr = i) (i2 : f2.instr = i) (ok2 : f2.success = true) :
    exec i s = .next (s.afterVisit (s.focalCtx.hwWrite d f2.op2).completed) := by
  have allowed : (s.focalCtx.holding f2).mayWrite d = true := hd
  rw [Context.archWrite_allowed allowed, Context.holding_hwWrite] at hstore
  exact visit_completes h hr i hload hexec hformat hstore (hretire _) i1 i2 i2 ok2 ok2 (.hwWrite hr.noPending d f2.op2)

/-- Settles O1: Load brings the zero-extended constant, Execute passes it on as the result, Store writes it. -/
theorem loadcResult : Obligations.LoadcResult := by
  intro s k d h hr hd
  exact visit_registerWritten h hr hd
    (f1 := (InFlight.fresh (.loadc k d) s.focalCtx.latchMark).withOperands (zext k) 0)
    (f2 := ((InFlight.fresh (.loadc k d) s.focalCtx.latchMark).withOperands (zext k) 0).withResult (zext k))
    rfl rfl rfl rfl (fun _ => rfl) rfl rfl rfl

end Sys2Proof.Machine
end

section
/-! Obligation O8: a conditional jump goes to its target or advances the PC, by the sign of the register it tests. -/

namespace Sys2Proof

/-! ## The word of a jump (R79, R87) -/

/-- A word of the Jump family as its fields, each shifted to its place. -/
theorem encodeJump_eq_or (cc : BitVec 2) (dir : Direction) (off : BitVec 22) (r : Reg) :
    encodeJump cc dir off r = (1#2 ++ cc ++ 0#28) ||| ((if dir = .forward then 0#32 else 1#32) <<< 27) |||
      (off.setWidth 32 <<< 5) ||| r.setWidth 32 := by
  cases dir <;>
  · apply BitVec.eq_of_getLsbD_eq
    intro i hi
    simp only [encodeJump, BitVec.getLsbD_append, BitVec.getLsbD_or, BitVec.getLsbD_shiftLeft, BitVec.getLsbD_setWidth]
    interval_cases i <;> simp [Direction.bit]

end Sys2Proof

namespace Sys2Proof.Machine

/-! ## The conditions of the jumps (R117 to R120) -/

theorem isZero_iff {x : Word} : isZero x = true ↔ x = 0 := decide_eq_true_iff

theorem isNonZero_iff {x : Word} : isNonZero x = true ↔ x ≠ 0 := decide_eq_true_iff

theorem isNegative_iff {x : Word} : isNegative x = true ↔ x.msb = true := by
  rw [isNegative, BitVec.msb_eq_toInt]

theorem isNonPositive_iff {x : Word} : isNonPositive x = true ↔ x = 0 ∨ x.msb = true := by
  rw [← isNegative_iff, isNonPositive, isNegative, decide_eq_true_iff, decide_eq_true_iff, le_iff_eq_or_lt,
    ← BitVec.toInt_inj]
  rfl

/-! ## The visit of a jump (R116) -/

/-- What Load and Execute leave of a jump that tests `x`: its value, the target, and whether it is taken. -/
def InFlight.jumping (f : InFlight) (x target : Word) (taken : Bool) : InFlight :=
  { f with op0 := x, op1 := target, op2 := if taken then 1 else 0, success := true }

/-- Retire sets the PC to the target exactly when the jump is taken (R18, R116). -/
theorem jumpPhase_retire (cond : Word → Bool) (dir : Direction) (off : BitVec 22) (r : Reg) (e : Env) (c : Context)
    (f : InFlight) (x target : Word) (taken : Bool) :
    jumpPhase cond dir off r .retire e c (f.jumping x target taken)
      = .ok (.retired (if taken then c.setPc target else c.advancePc)) := by
  cases taken <;> rfl

/-- THE VISIT OF A JUMP: to its target when the tested value meets the condition, to the next instruction otherwise. -/
theorem exec_jump {s : State} (h : s.Alone) (hr : s.focalCtx.Ready) {i : Instr} {cond : Word → Bool} {dir : Direction}
    {off : BitVec 22} {r : Reg} (hi : ∀ p e c f, runPhase i p e c f = jumpPhase cond dir off r p e c f)
    {taken : Prop} [Decidable taken] (hcond : cond (s.reg r) = true ↔ taken) :
    exec i s = .next (s.afterVisit (if taken then s.focalCtx.done.setPc (jumpTarget s.focalCtx.pc dir off)
      else s.focalCtx.completed)) := by
  have visited := visit_simple h hr i (c' := s.focalCtx)
    (f1 := (InFlight.fresh i s.focalCtx.latchMark).withOperands (s.reg r) 0)
    (f2 := (InFlight.fresh i s.focalCtx.latchMark).jumping (s.reg r) (jumpTarget s.focalCtx.pc dir off) (cond (s.reg r)))
    (by rw [hi]; rfl) (by rw [hi]; rfl) (by rw [hi]; rfl) (by rw [hi]; rfl)
    ((hi ..).trans (jumpPhase_retire ..)) rfl rfl rfl rfl rfl (.refl hr.noPending) rfl (by simp [PhaseOut.retired])
  rw [visited]
  by_cases ht : taken
  · rw [if_pos (hcond.mpr ht), if_pos ht]; rfl
  · rw [if_neg (hcond.not.mpr ht), if_neg ht]; rfl

/-- Settles O8: the words are their fields in place, and each jump's visit is `exec_jump` at its condition. -/
theorem jumpResults : Obligations.JumpResults := by
  refine ⟨fun dir off r => ⟨encodeJump_eq_or 0 .., encodeJump_eq_or 1 .., encodeJump_eq_or 2 .., encodeJump_eq_or 3 ..,
    Laws.MatchesTable.jez .., Laws.MatchesTable.jnz .., Laws.MatchesTable.jle .., Laws.MatchesTable.jlz ..⟩,
    fun s dir off r h hr => ⟨?jez, ?jnz, ?jle, ?jlz⟩⟩
  case jez => exact exec_jump h hr (fun _ _ _ _ => rfl) isZero_iff
  case jnz => exact exec_jump h hr (fun _ _ _ _ => rfl) isNonZero_iff
  case jle => exact exec_jump h hr (fun _ _ _ _ => rfl) isNonPositive_iff
  case jlz => exact exec_jump h hr (fun _ _ _ _ => rfl) isNegative_iff

end Sys2Proof.Machine
end

section
/-! Obligation O18: what the Load phases of the transfers bring to Execute. -/

namespace Sys2Proof.Machine

theorem Context.holding_inj {c : Context} {f g : InFlight} (h : c.holding f = c.holding g) : f = g :=
  Option.some.inj (congrArg Context.instruction h)

/-- A fresh visit brings to Execute exactly what its Load phase makes (R97, R102). -/
theorem State.Brings.eq_loaded {s : State} {i : Instr} {f g : InFlight} (hf : s.Brings i f)
    (hr : s.focalCtx.isRetrying = false)
    (hload : runPhase i .load s.focalEnv (s.focalCtx.holding (.fresh i s.focalCtx.latchMark))
      (.fresh i s.focalCtx.latchMark) = .ok (.just (s.focalCtx.holding g))) : f = g := by
  obtain ⟨-, -, -, ⟨-, hload'⟩ | ⟨hr', -⟩⟩ := hf
  · exact Context.holding_inj (congrArg PhaseOut.ctx (Except.ok.inj (hload'.symm.trans hload)))
  · exact absurd (hr.symm.trans hr') Bool.false_ne_true

/-- The physical address of the Memory family, in integers: the base of the mode and the effective address (R121). -/
theorem loadAddress_physical (s : State) (a : Reg) (off : BitVec 17) (f : InFlight) :
    (loadAddress s.focalEnv s.focalCtx a off f).physical
      = (if s.focalCtx.interrupted then 0 else s.focalCtx.ps.toNat) + (s.reg a + off.setWidth 64).toNat := by
  show (programBase s.focalCtx).toNat + (s.reg a + off.setWidth 64).toNat = _
  rw [programBase]
  cases s.focalCtx.interrupted <;> rfl

/-- The bytes of a Push are those of the registers whose mask bits are set, ascending (R139, R140). -/
theorem pushBytes_eq (e : Env) (c : Context) (mask : BitVec 16) :
    pushBytes e c mask = ((List.range 16).filter (mask.getLsbD ·)).flatMap
      fun i => bytes8 (c.read e (BitVec.ofNat 5 (16 + i))) := by
  rw [pushBytes, maskRegs]
  induction List.range 16 with
  | nil => rfl
  | cons i l ih => cases hi : mask.getLsbD i <;> simp [hi, ih]

/-- Settles O18: each Load phase fills the slots of the fresh instruction by its own equation. -/
theorem transferOperands : Obligations.TransferOperands := by
  intro s a d r off mask f hr ea base
  have address := loadAddress_physical s a off
  refine ⟨fun hf => ?load, fun hf => ?store, ?clearFlush, fun hf => ?push, fun hf => ?pop, fun hf => ?call,
    fun hf => ?ret⟩
  case load =>
    obtain rfl := hf.eq_loaded hr rfl
    exact ⟨address _, rfl⟩
  case store =>
    obtain rfl := hf.eq_loaded hr rfl
    exact ⟨address (.fresh (.store a off d) s.focalCtx.latchMark), rfl, rfl⟩
  case clearFlush =>
    rintro (hf | hf)
    all_goals
      obtain rfl := hf.eq_loaded hr rfl
      exact ⟨address _, rfl⟩
  case push =>
    obtain rfl := hf.eq_loaded hr rfl
    exact ⟨rfl, rfl, pushBytes_eq s.focalEnv s.focalCtx mask⟩
  case pop =>
    obtain rfl := hf.eq_loaded hr rfl
    exact ⟨rfl, rfl⟩
  case call =>
    obtain rfl := hf.eq_loaded hr rfl
    exact ⟨rfl, rfl, rfl, rfl⟩
  case ret =>
    obtain rfl := hf.eq_loaded hr rfl
    exact ⟨rfl, rfl⟩

end Sys2Proof.Machine
end

section
/-! Obligations O9, O10 and O11: a load and a store inside one window, Clear and Flush. -/

namespace Sys2Proof.Machine

section MemoryFamily

variable {s : State} {f : InFlight}

/-! ## What a fresh visit brings -/

/-- A fresh visit of the Memory family brings an in-flight instruction to Execute (R121). -/
theorem memoryFamily_brings (hr : s.focalCtx.Ready) {i : Instr} {a : Reg} {off : BitVec 17} {d : Reg}
    (hi : (i = .load a off d ∨ i = .store a off d) ∨ i = .clear a off ∨ i = .flush a off) : ∃ f, s.Brings i f := by
  obtain ⟨f, hload, hinstr, hissued, -⟩ := memoryFamily_load hi s.focalEnv s.focalCtx s.focalCtx.latchMark
  exact ⟨f, hr.noPending, hinstr, hissued, .inl ⟨hr.notRetrying, hload⟩⟩

/-- A transfer inside Memory and, in normal mode, below PL passes its check (R122). -/
theorem dataOk_of_le {e : Env} {c : Context} {p n : Nat} (hmem : p + n ≤ e.cfg.memorySize)
    (hpl : c.interrupted = true ∨ p + n ≤ c.pl.toNat) : dataOk e c p n = true := by
  simpa [dataOk, hmem] using hpl

/-! ## A transfer inside one window -/

/-- A transfer inside one window moves all its bytes with its first request (R113). -/
theorem InFlight.chunk_oneWindow {width p n : Nat} (hoff : f.offset = 0) (hn : p % width + n ≤ width) :
    f.chunk width p n = n := by
  simp only [InFlight.chunk, InFlight.nextAddr, hoff, Nat.add_zero, Nat.sub_zero]
  omega

theorem InFlight.oneWindow_last {width p n : Nat} (hoff : f.offset = 0) (hn : p % width + n ≤ width) :
    f.offset + f.chunk width p n = n := by
  rw [InFlight.chunk_oneWindow hoff hn, hoff, Nat.zero_add]

theorem InFlight.nextAddr_first (hoff : f.offset = 0) (p : Nat) : f.nextAddr p = p := by
  rw [InFlight.nextAddr, hoff, Nat.add_zero]

/-- A read that hits inside one window fills the buffer from its start with the bytes the cache holds (R56, R113). -/
theorem InFlight.advanced_read_oneWindow {g : CacheConfig} (hg : g.wellFormed = true) {c : Cache} (hc : c.Shaped g)
    {p n : Nat} (hoff : f.offset = 0) (hn : p % g.busWidth + n ≤ g.busWidth) :
    (f.advanced g.busWidth .read p n (c.afterRead g p).port.bus).buf.take n = c.hitBytes g p n := by
  have bytes : (((c.afterRead g p).port.bus.drop (f.nextAddr p % g.busWidth)).take (f.chunk g.busWidth p n)).map
      Lane.data = c.hitBytes g p n := by
    rw [InFlight.nextAddr_first hoff, InFlight.chunk_oneWindow hoff hn]
    simp [Cache.afterRead, Port.served, readBus, Cache.hitBytes, List.map_take, List.map_drop, Function.comp_def]
  have buffer : (f.advanced g.busWidth .read p n (c.afterRead g p).port.bus).buf
      = overwrite f.buf f.offset (c.hitBytes g p n) := congrArg (overwrite f.buf f.offset) bytes
  rw [buffer, hoff, overwrite, List.take_zero, List.nil_append,
    List.take_left' (Cache.hitBytes_length hg hc hn)]

/-- The first window of a transfer inside Memory has a 64-bit address (R7, R122). -/
theorem InFlight.nextAddr_first_lt (hwf : s.cfg.wellFormed = true) {p n : Nat}
    (hok : dataOk s.focalEnv s.focalCtx p n = true) (hoff : f.offset = 0) (hn : 0 < n) : f.nextAddr p < 2 ^ 64 :=
  InFlight.nextAddr_lt hwf (dataOk_memorySize hok) (hoff ▸ hn)

/-! ## The engine behind Clear and Flush (R114, R125, R126) -/

theorem UsesEngine.clear {a : Reg} {off : BitVec 17} (hok : dataOk s.focalEnv s.focalCtx f.physical 1 = true) :
    UsesEngine s (.clear a off) f .clear f.physical 1 where
  execute := congrArg justly (checkedAccess_none _ _ _ _ (dataError_of_ok (c := s.focalCtx.holding f) hok) _ f)
  format _ := rfl

theorem UsesEngine.flush {a : Reg} {off : BitVec 17} (hok : dataOk s.focalEnv s.focalCtx f.physical 1 = true) :
    UsesEngine s (.flush a off) f .flush f.physical 1 where
  execute := congrArg justly (checkedAccess_none _ _ _ _ (dataError_of_ok (c := s.focalCtx.holding f) hok) _ f)
  format _ := rfl

/-- One byte is inside its window. -/
theorem Config.byte_inWindow {cfg : Config} (hwf : cfg.wellFormed = true) (p : Nat) :
    p % cfg.l1d.busWidth + 1 ≤ cfg.l1d.busWidth :=
  Nat.mod_lt _ (CacheConfig.wellFormed_widths (Config.wellFormed_l1d hwf)).1

end MemoryFamily

/-! ## Load and Store -/

/-- Settles O9: the one window of the load is its last, and the buffer holds the bytes of the hit. -/
theorem loadResult : Obligations.LoadResult := by
  intro s a off d p h hr hwf hshape hmay hp hmem hpl hin hit
  obtain ⟨f, hf⟩ := memoryFamily_brings hr (i := .load a off d) (.inl (.inl rfl))
  obtain ⟨operands, -⟩ := transferOperands s a d d off 0 f hr.notRetrying
  obtain ⟨hphysical, hoff⟩ := operands hf
  obtain rfl : f.physical = p := hphysical.trans hp.symm
  have hnext : f.physical + f.offset = f.physical := InFlight.nextAddr_first hoff _
  have window := loadWindow s a off d f h hwf hf (dataOk_of_le hmem hpl) (by omega) (by rwa [hnext])
  simp only [hnext] at window
  have last : (f.advanced s.cfg.l1d.busWidth .read f.physical 8
      (s.focalCtx.l1d.afterRead s.cfg.l1d f.physical).port.bus).offset = 8 := InFlight.oneWindow_last hoff hin
  rw [window, if_neg (not_not.2 last), if_pos hmay,
    InFlight.advanced_read_oneWindow (Config.wellFormed_l1d hwf) hshape hoff hin]

/-- Settles O10: the one window of the store is its last, and carries the 8 bytes of the register. -/
theorem storeResult : Obligations.StoreResult := by
  intro s a off d p h hr hwf hp hmem hpl hin hready
  obtain ⟨f, hf⟩ := memoryFamily_brings hr (i := .store a off d) (.inl (.inr rfl))
  obtain ⟨-, operands, -⟩ := transferOperands s a d d off 0 f hr.notRetrying
  obtain ⟨hphysical, hoff, hbuf⟩ := operands hf
  obtain rfl : f.physical = p := hphysical.trans hp.symm
  have hnext : f.physical + f.offset = f.physical := InFlight.nextAddr_first hoff _
  have window := storeWindow s a off d f h hwf hf (dataOk_of_le hmem hpl) (by omega) (by rwa [hnext])
  have bytes : (f.buf.drop f.offset).take (f.chunk s.cfg.l1d.busWidth f.physical 8) = bytes8 (s.reg d) := by
    rw [InFlight.chunk_oneWindow hoff hin, hoff, hbuf]
    rfl
  rw [window, if_pos (InFlight.oneWindow_last hoff hin), hnext, bytes]

/-! ## Clear and Flush -/

/-- The positions that a flush writes back: the dirty ones of the window (R62). -/
theorem Line.getElem?_windowDirtyMask (ln : Line) (w n q : Nat) :
    (ln.windowDirtyMask w n)[q]? = some true ↔ w ≤ q ∧ q < w + n ∧ ∃ l, ln.lanes[q]? = some l ∧ l.dirty = true := by
  rw [Line.windowDirtyMask, List.getElem?_zipWith]
  rcases lt_or_ge q ln.lanes.length with hq | hq
  · simp [hq, and_left_comm, and_comm]
  · simp [hq]

theorem Line.windowDirtyMask_length (ln : Line) (w n : Nat) :
    (ln.windowDirtyMask w n).length = ln.lanes.length := by
  simp [Line.windowDirtyMask]

/-- What a fresh visit of Clear or Flush brings to Execute (R121, R125, R126). -/
theorem clearFlush_brings {s : State} (hr : s.focalCtx.Ready) (a : Reg) (off : BitVec 17) {i : Instr}
    (hi : i = .clear a off ∨ i = .flush a off) :
    ∃ f, s.Brings i f ∧
      f.physical = (if s.focalCtx.interrupted then 0 else s.focalCtx.ps.toNat) + (s.reg a + off.setWidth 64).toNat ∧
      f.offset = 0 := by
  obtain ⟨f, hf⟩ := memoryFamily_brings hr (d := a) (.inr hi)
  obtain ⟨-, -, operands, -⟩ := transferOperands s a a a off 0 f hr.notRetrying
  rcases hi with rfl | rfl
  · exact ⟨f, hf, operands (.inl hf)⟩
  · exact ⟨f, hf, operands (.inr hf)⟩

section Visits

variable {s : State} {a : Reg} {off : BitVec 17} {f : InFlight}

/-- THE VISIT OF A CLEAR (R125). -/
theorem exec_clear (h : s.Alone) (hwf : s.cfg.wellFormed = true) (hf : s.Brings (.clear a off) f)
    (hok : dataOk s.focalEnv s.focalCtx f.physical 1 = true) (hoff : f.offset = 0) :
    exec (.clear a off) s
      = .next (s.afterVisit ((s.focalCtx.withL1d (s.focalCtx.l1d.afterClear s.cfg.l1d f.physical)).completed)) := by
  have serves : Serves s f .clear f.physical 1 _ := .clear h (InFlight.nextAddr_first_lt hwf hok hoff Nat.one_pos)
  rw [InFlight.nextAddr_first hoff] at serves
  have window := exec_window_advances h hf (.clear hok) serves rfl (fun _ _ _ => rfl) (.refl (hf.noPending _))
  rwa [if_pos (InFlight.oneWindow_last hoff (Config.byte_inWindow hwf _))] at window

/-- THE VISIT OF A FLUSH, fresh or a retry, that finds its window clean (R62, R126). -/
theorem exec_flush_clean (h : s.Alone) (hwf : s.cfg.wellFormed = true) (hf : s.Brings (.flush a off) f)
    (hok : dataOk s.focalEnv s.focalCtx f.physical 1 = true) (hoff : f.offset = 0)
    (hclean : s.focalCtx.l1d.FlushClean s.cfg.l1d f.physical) :
    exec (.flush a off) s
      = .next (s.afterVisit ((s.focalCtx.withL1d (s.focalCtx.l1d.afterFlush f.physical)).completed)) := by
  have hnext := InFlight.nextAddr_first hoff f.physical
  have serves : Serves s f .flush f.physical 1 _ :=
    .flush h (InFlight.nextAddr_first_lt hwf hok hoff Nat.one_pos) (by rwa [hnext])
  rw [hnext] at serves
  have window := exec_window_advances h hf (.flush hok) serves rfl (fun _ _ _ => rfl) (.refl (hf.noPending _))
  rwa [if_pos (InFlight.oneWindow_last hoff (Config.byte_inWindow hwf _))] at window

/-- THE VISIT OF A FLUSH of a dirty window above an L2 that is not idle: nothing is sent (R55, R62). -/
theorem exec_flush_waits (h : s.Alone) (hwf : s.cfg.wellFormed = true) (hf : s.Brings (.flush a off) f)
    (hok : dataOk s.focalEnv s.focalCtx f.physical 1 = true) (hoff : f.offset = 0)
    (hdirty : ¬ s.focalCtx.l1d.FlushClean s.cfg.l1d f.physical) (hl2 : s.core0.l2.port.idle = false) :
    exec (.flush a off) s = .next (s.afterVisit
      ((s.focalCtx.withL1d (s.focalCtx.l1d.afterFlushDirty f.physical .idle)).retrying f.failed)) := by
  have haddr := InFlight.nextAddr_first_lt hwf hok hoff Nat.one_pos
  refine visit_window_waits h hf (.flush hok) ?_ rfl rfl rfl rfl
  rw [InFlight.nextAddr_first hoff] at haddr ⊢
  exact Cache.clock_flush_waits _ _ h.l1d.noLower haddr hdirty hl2

/-- THE VISIT OF A FLUSH of a dirty window above an idle L2: the L1D sends its write-back and notes it (R55, R62). -/
theorem exec_flush_sends (h : s.Alone) (hwf : s.cfg.wellFormed = true) (hf : s.Brings (.flush a off) f)
    (hok : dataOk s.focalEnv s.focalCtx f.physical 1 = true) (hoff : f.offset = 0)
    (hdirty : ¬ s.focalCtx.l1d.FlushClean s.cfg.l1d f.physical) (hl2 : s.core0.l2.port.idle = true)
    (h4 : (s.cycle + 4) % s.cfg.divL2 ≠ 0) (h5 : (s.cycle + 5) % s.cfg.divL2 ≠ 0) :
    exec (.flush a off) s = .next ((s.afterVisit
        ((s.focalCtx.withL1d (s.focalCtx.l1d.afterFlushDirty f.physical (.writeBack (lineAddr s.cfg.l1d f.physical)
          (s.focalCtx.l1d.flushMask s.cfg.l1d f.physical) false))).retrying f.failed)).withL2Port
      (s.core0.l2.port.taken .write (lineAddr s.cfg.l1d f.physical)
        ((s.focalCtx.l1d.lineOf s.cfg.l1d f.physical).writeBackBus
          (s.focalCtx.l1d.flushMask s.cfg.l1d f.physical)))) := by
  have haddr := InFlight.nextAddr_first_lt hwf hok hoff Nat.one_pos
  refine visit_window_sends h hf (.flush hok) ?_ rfl rfl rfl rfl h4 h5
  rw [InFlight.nextAddr_first hoff] at haddr ⊢
  exact Cache.clock_flush_dirty (Config.wellFormed_l1d hwf) _ h.l1d.noLower haddr hdirty hl2

end Visits

/-- Settles O11: the visits of Clear and of Flush, by what the flush finds in its window and at the L2. -/
theorem clearFlushResults : Obligations.ClearFlushResults := by
  refine ⟨fun s a off p h hr hwf hp hmem hpl => ?_, fun s a off f h hwf hf hok hoff => ?_⟩
  · obtain ⟨k, hk, kphysical, koff⟩ := clearFlush_brings hr a off (.inl rfl)
    obtain ⟨f, hf, fphysical, foff⟩ := clearFlush_brings hr a off (.inr rfl)
    have hok : dataOk s.focalEnv s.focalCtx p 1 = true := dataOk_of_le hmem hpl
    have kp : k.physical = p := kphysical.trans hp.symm
    obtain rfl : f.physical = p := fphysical.trans hp.symm
    refine ⟨?_, exec_flush_clean h hwf hf hok foff, f, hf, rfl, foff⟩
    rw [← kp] at hok ⊢
    exact exec_clear h hwf hk hok koff
  · exact ⟨Line.getElem?_windowDirtyMask _ _ _, Line.writeBackBus_carries (Line.windowDirtyMask_length ..),
      exec_flush_clean h hwf hf hok hoff, exec_flush_waits h hwf hf hok hoff, exec_flush_sends h hwf hf hok hoff⟩

end Sys2Proof.Machine
end

section
/-! Obligations O2 to O6: an ALU instruction writes the result of its operation, or raises where the operation has none. -/

namespace Sys2Proof.Machine

/-! ## The visit of an ALU instruction (R127) -/

/-- What Load leaves of an ALU instruction of two operands (R127). -/
def State.aluLoaded (s : State) (i : Instr) (a b : Reg) : InFlight :=
  (InFlight.fresh i s.focalCtx.latchMark).withOperands (s.reg a) (s.reg b)

section Visit

variable {s : State} {i : Instr} {op : Word → Word → Option Word} {a b d : Reg} {r : Word}

/-- Execute of an ALU instruction whose operation answers passes the answer on as the result (R127). -/
theorem aluPhase_execute_some {f : InFlight} (hop : op f.op0 f.op1 = some r) (e : Env) (c : Context) :
    aluPhase op a b d .execute e c f = .ok (.just (c.put (f.withResult r))) := by
  simp only [aluPhase, hop]
  rfl

/-- Execute of an ALU instruction whose operation has no answer raises (R137, R138). -/
theorem aluPhase_execute_none {f : InFlight} (hop : op f.op0 f.op1 = none) (e : Env) (c : Context) :
    aluPhase op a b d .execute e c f = justly (c.raise arithmeticError) := by
  simp only [aluPhase, hop]

/-- THE VISIT OF AN ALU INSTRUCTION OF TWO OPERANDS WHOSE OPERATION ANSWERS, to a destination it may write. -/
theorem exec_alu_written (h : s.Alone) (hr : s.focalCtx.Ready) (hd : s.focalCtx.mayWrite d = true)
    (hi : ∀ p e c f, runPhase i p e c f = aluPhase op a b d p e c f) (hop : op (s.reg a) (s.reg b) = some r) :
    exec i s = .next (s.afterVisit (s.focalCtx.hwWrite d r).completed) :=
  visit_registerWritten h hr hd (f1 := s.aluLoaded i a b) (f2 := (s.aluLoaded i a b).withResult r)
    (hi ..) ((hi ..).trans (aluPhase_execute_some hop ..)) (hi ..) (hi ..) (fun _ => hi ..) rfl rfl rfl

/-- The same, for an operation that always answers. -/
theorem exec_totalAlu_written (op : Word → Word → Word) (h : s.Alone) (hr : s.focalCtx.Ready)
    (hd : s.focalCtx.mayWrite d = true)
    (hi : ∀ p e c f, runPhase i p e c f = aluPhase (fun x y => some (op x y)) a b d p e c f)
    (hop : op (s.reg a) (s.reg b) = r) : exec i s = .next (s.afterVisit (s.focalCtx.hwWrite d r).completed) :=
  exec_alu_written h hr hd hi (congrArg some hop)

/-- THE VISIT OF AN ALU INSTRUCTION WHOSE OPERATION HAS NO ANSWER (R153, R158): the Error is raised before Store, so the
destination does not matter. -/
theorem exec_alu_raises (h : s.Alone) (hr : s.focalCtx.Ready)
    (hi : ∀ p e c f, runPhase i p e c f = aluPhase op a b d p e c f) (hop : op (s.reg a) (s.reg b) = none) :
    (s.focalCtx.interrupted = false → exec i s = .next (s.afterVisit (s.focalCtx.trapped arithmeticError))) ∧
    (s.focalCtx.interrupted = true → exec i s = .fault .doubleInterrupt) := by
  have hexec : runPhase i .execute s.focalEnv (s.focalCtx.holding (s.aluLoaded i a b)) (s.aluLoaded i a b)
      = justly ((s.focalCtx.holding (s.aluLoaded i a b)).raise arithmeticError) :=
    (hi ..).trans (aluPhase_execute_none hop ..)
  refine ⟨fun hn => ?normal, fun hn => ?interrupted⟩
  case normal =>
    rw [Context.raise_holding hr.noPending hn] at hexec
    exact visit_trap_execute h hr i (hi ..) hexec (f3 := (s.aluLoaded i a b).failed) (hi ..) rfl rfl rfl
  case interrupted =>
    rw [Context.raise_fatal (c := s.focalCtx.holding _) (.inr hn)] at hexec
    exact visit_fatal_execute h hr i (hi ..) hexec rfl

end Visit

/-! ## The operations (R128 to R138) -/

theorem aluNot_eq_xor (x : Word) : aluNot x = x ^^^ 0xFFFFFFFFFFFFFFFF#64 := (BitVec.xor_allOnes (x := x)).symm

theorem aluLeftshift_eq (x y : Word) :
    aluLeftshift x y = if y.toNat < 64 then BitVec.ofNat 64 (x.toNat * 2 ^ y.toNat) else 0 := by
  refine if_congr Iff.rfl (BitVec.eq_of_toNat_eq ?_) rfl
  rw [BitVec.toNat_shiftLeft, BitVec.toNat_ofNat, Nat.shiftLeft_eq]

theorem aluRightshift_eq (x y : Word) :
    aluRightshift x y = if y.toNat < 64 then BitVec.ofNat 64 (x.toNat / 2 ^ y.toNat) else 0 := by
  refine if_congr Iff.rfl (BitVec.eq_of_toNat_eq ?_) rfl
  have small : x.toNat / 2 ^ y.toNat < 2 ^ 64 := (Nat.div_le_self ..).trans_lt x.isLt
  rw [BitVec.toNat_ushiftRight, BitVec.toNat_ofNat, Nat.shiftRight_eq_div_pow, Nat.mod_eq_of_lt small]

theorem aluAdd_eq (x y : Word) : aluAdd x y = BitVec.ofNat 64 ((x.toNat + y.toNat) % 2 ^ 64) := by
  apply BitVec.eq_of_toNat_eq
  rw [aluAdd, BitVec.toNat_add, BitVec.toNat_ofNat, Nat.mod_mod]

theorem aluSubtract_eq (x y : Word) : aluSubtract x y = BitVec.ofInt 64 ((x.toNat : Int) - (y.toNat : Int)) := by
  apply BitVec.eq_of_toInt_eq
  rw [aluSubtract, BitVec.toInt_sub, BitVec.toInt_ofInt, BitVec.toInt_eq_toNat_bmod, BitVec.toInt_eq_toNat_bmod,
    Int.bmod_sub_bmod, Int.sub_bmod_bmod]

theorem aluMultiply_eq (x y : Word) : aluMultiply x y = BitVec.ofNat 64 (x.toNat * y.toNat % 2 ^ 64) := by
  apply BitVec.eq_of_toNat_eq
  rw [aluMultiply, BitVec.toNat_mul, BitVec.toNat_ofNat, Nat.mod_mod]

theorem aluDivide_nonzero {y : Word} (hy : y ≠ 0) (x : Word) :
    aluDivide x y = some (BitVec.ofNat 64 (x.toNat / y.toNat)) := if_neg hy

theorem aluModulo_nonzero {y : Word} (hy : y ≠ 0) (x : Word) :
    aluModulo x y = some (BitVec.ofNat 64 (x.toNat % y.toNat)) := if_neg hy

theorem aluDivide_zero {y : Word} (hy : y = 0) (x : Word) : aluDivide x y = none := if_pos hy

theorem aluModulo_zero {y : Word} (hy : y = 0) (x : Word) : aluModulo x y = none := if_pos hy

/-! ## The obligations -/

/-- Settles O2: Not reads one operand, so its visit is its own; the other three are ALU visits of two operands. -/
theorem bitwiseResults : Obligations.BitwiseResults := by
  refine ⟨fun a b d => ⟨Laws.MatchesTable.not .., Laws.MatchesTable.and .., Laws.MatchesTable.or ..,
    Laws.MatchesTable.xor ..⟩, fun s a b d h hr hd => ⟨?not, ?and, ?or, ?xor⟩⟩
  case not =>
    rw [← aluNot_eq_xor]
    exact visit_registerWritten h hr hd
      (f1 := (InFlight.fresh (.not a d) s.focalCtx.latchMark).withOperands (s.reg a) 0)
      (f2 := ((InFlight.fresh (.not a d) s.focalCtx.latchMark).withOperands (s.reg a) 0).withResult (aluNot (s.reg a)))
      rfl rfl rfl rfl (fun _ => rfl) rfl rfl rfl
  case and => exact exec_totalAlu_written aluAnd h hr hd (fun _ _ _ _ => rfl) rfl
  case or => exact exec_totalAlu_written aluOr h hr hd (fun _ _ _ _ => rfl) rfl
  case xor => exact exec_totalAlu_written aluXor h hr hd (fun _ _ _ _ => rfl) rfl

/-- Settles O3: the operation of each shift is the product or the quotient by the power of two, and 0 from 64 on. -/
theorem shiftResults : Obligations.ShiftResults := by
  refine ⟨fun a b d => ⟨Laws.MatchesTable.leftshift .., Laws.MatchesTable.rightshift ..⟩,
    fun s a b d h hr hd => ⟨?left, ?right⟩⟩
  case left => exact exec_totalAlu_written aluLeftshift h hr hd (fun _ _ _ _ => rfl) (aluLeftshift_eq ..)
  case right => exact exec_totalAlu_written aluRightshift h hr hd (fun _ _ _ _ => rfl) (aluRightshift_eq ..)

/-- Settles O4: the operation of each instruction is the one of the integers modulo 2^64. -/
theorem arithmeticResults : Obligations.ArithmeticResults := by
  refine ⟨fun a b d => ⟨Laws.MatchesTable.add .., Laws.MatchesTable.subtract .., Laws.MatchesTable.multiply ..⟩,
    fun s a b d h hr hd => ⟨?add, ?subtract, ?multiply⟩⟩
  case add => exact exec_totalAlu_written aluAdd h hr hd (fun _ _ _ _ => rfl) (aluAdd_eq ..)
  case subtract => exact exec_totalAlu_written aluSubtract h hr hd (fun _ _ _ _ => rfl) (aluSubtract_eq ..)
  case multiply => exact exec_totalAlu_written aluMultiply h hr hd (fun _ _ _ _ => rfl) (aluMultiply_eq ..)

/-- Settles O5: with a divisor that is not zero both operations answer. -/
theorem divisionResults : Obligations.DivisionResults := by
  intro s a b d h hr hd hb
  exact ⟨exec_alu_written h hr hd (fun _ _ _ _ => rfl) (aluDivide_nonzero hb _),
    exec_alu_written h hr hd (fun _ _ _ _ => rfl) (aluModulo_nonzero hb _)⟩

/-- Settles O6: with a zero divisor neither operation answers, so Execute raises `ArithmeticError`. -/
theorem divisionByZero : Obligations.DivisionByZero := by
  intro s a b d h hr hb
  obtain ⟨divideTraps, divideFatal⟩ :=
    exec_alu_raises (i := .divide a b d) h hr (fun _ _ _ _ => rfl) (aluDivide_zero hb _)
  obtain ⟨moduloTraps, moduloFatal⟩ :=
    exec_alu_raises (i := .modulo a b d) h hr (fun _ _ _ _ => rfl) (aluModulo_zero hb _)
  exact ⟨fun hn => ⟨divideTraps hn, moduloTraps hn⟩, fun hn => ⟨divideFatal hn, moduloFatal hn⟩⟩

end Sys2Proof.Machine
end

section
/-! Obligation O20: a stack check that fails raises its Error and issues nothing. -/

namespace Sys2Proof.Machine

/-! ## The stack checks (R20, R140 to R143) -/

section Checks

variable {e : Env} {c : Context} {sp : Word} {n : Nat}

/-- The check against SL comes first (R140, R142). -/
theorem pushError_overflow (h : c.sl.toNat ≤ sp.toNat + 8 * (n - 1)) : pushError e c sp n = some stackOverflowError :=
  if_pos h

/-- The check against `MemorySize` speaks only inside the stack bound (R140, R142). -/
theorem pushError_pastMemory (hsl : sp.toNat + 8 * (n - 1) < c.sl.toNat) (h : e.cfg.memorySize < sp.toNat + 8 * n) :
    pushError e c sp n = some programAccessError :=
  (if_neg (Nat.not_le.mpr hsl)).trans (if_pos h)

/-- The check against SS comes first; the address it compares may be negative (R141, R143). -/
theorem popError_underflow (h : sp.toNat < c.ss.toNat + 8 * n) : popError e c sp n = some stackUnderflowError :=
  if_pos (by omega)

/-- The check against `MemorySize` speaks only inside the stack bound (R141, R143). -/
theorem popError_pastMemory (hss : c.ss.toNat + 8 * n ≤ sp.toNat) (h : e.cfg.memorySize < sp.toNat) :
    popError e c sp n = some programAccessError :=
  (if_neg (by omega)).trans (if_pos h)

end Checks

/-! ## The visit whose stack check fails (R114, R153) -/

/-- With no request outstanding `AccessFormat` takes success away and nothing else (R113). -/
theorem accessFormat_idle (e : Env) (op : StoreOp) (p n : Nat) (c : Context) {f : InFlight} (hf : f.issued = false) :
    accessFormat e op p n c f = .ok (c.put f.failed) :=
  if_pos (by rw [hf]; rfl)

section Visits

variable {s : State} {v : BitVec 8}

/-- THE VISIT OF AN INSTRUCTION THAT USES THE ENGINE AND WHOSE CHECK FAILS: the Error of the check is raised and nothing
is issued. -/
theorem exec_checkFails (h : s.Alone) (hr : s.focalCtx.Ready) {i : Instr} {f : InFlight} {op : StoreOp} {p n : Nat}
    {check : Option (BitVec 8)}
    (hload : runPhase i .load s.focalEnv (s.focalCtx.holding (.fresh i s.focalCtx.latchMark))
      (.fresh i s.focalCtx.latchMark) = .ok (.just (s.focalCtx.holding f)))
    (hexec : runPhase i .execute s.focalEnv (s.focalCtx.holding f) f
      = justly (checkedAccess s.focalEnv op p n check (s.focalCtx.holding f) f))
    (hformat : ∀ c, runPhase i .format s.focalEnv c f.failed = justly (accessFormat s.focalEnv op p n c f.failed))
    (hinstr : f.instr = i) (hissued : f.issued = false) (hcheck : check = some v) :
    exec i s = if s.focalCtx.interrupted then .fault .doubleInterrupt
      else .next (s.afterVisit (s.focalCtx.trapped v)) := by
  rw [hcheck] at hexec
  exact exec_dataError h hr hload hexec
    (fun c => (hformat c).trans (congrArg justly (accessFormat_idle _ _ _ _ c (f := f.failed) hissued))) hinstr

/-- THE VISIT OF A PUSH WHOSE CHECK FAILS (R140). -/
theorem exec_push_raises (h : s.Alone) (hr : s.focalCtx.Ready) {mask : BitVec 16} (hn : 0 < maskCount mask)
    (hv : pushError s.focalEnv s.focalCtx s.focalCtx.sp (maskCount mask) = some v) :
    exec (.push mask) s = if s.focalCtx.interrupted then .fault .doubleInterrupt
      else .next (s.afterVisit (s.focalCtx.trapped v)) :=
  exec_checkFails h hr rfl (if_neg hn.ne') (fun _ => if_neg hn.ne') rfl rfl hv

/-- THE VISIT OF A POP WHOSE CHECK FAILS (R141). -/
theorem exec_pop_raises (h : s.Alone) (hr : s.focalCtx.Ready) {mask : BitVec 16} (hn : 0 < maskCount mask)
    (hv : popError s.focalEnv s.focalCtx s.focalCtx.sp (maskCount mask) = some v) :
    exec (.pop mask) s = if s.focalCtx.interrupted then .fault .doubleInterrupt
      else .next (s.afterVisit (s.focalCtx.trapped v)) :=
  exec_checkFails h hr rfl (if_neg hn.ne') (fun _ => if_neg hn.ne') rfl rfl hv

/-- THE VISIT OF A CALL WHOSE CHECK FAILS (R142). -/
theorem exec_call_raises (h : s.Alone) (hr : s.focalCtx.Ready) {r : Reg}
    (hv : pushError s.focalEnv s.focalCtx s.focalCtx.sp 1 = some v) :
    exec (.call r) s = if s.focalCtx.interrupted then .fault .doubleInterrupt
      else .next (s.afterVisit (s.focalCtx.trapped v)) :=
  exec_checkFails h hr rfl rfl (fun _ => rfl) rfl rfl hv

/-- THE VISIT OF A RETURN WHOSE CHECK FAILS (R143). -/
theorem exec_ret_raises (h : s.Alone) (hr : s.focalCtx.Ready)
    (hv : popError s.focalEnv s.focalCtx s.focalCtx.sp 1 = some v) :
    exec .ret s = if s.focalCtx.interrupted then .fault .doubleInterrupt
      else .next (s.afterVisit (s.focalCtx.trapped v)) :=
  exec_checkFails h hr rfl rfl (fun _ => rfl) rfl rfl hv

end Visits

/-- Settles O20: each clause is the visit of its instruction at the branch of the check that its bounds select. -/
theorem stackTraps : Obligations.StackTraps := by
  intro s mask r h hr sp trap n
  refine ⟨fun hn hsl => ?pushOverflow, fun hn hsl hmem => ?pushPastMemory, fun hsl => ?callOverflow,
    fun hsl hmem => ?callPastMemory, fun hn hss => ?popUnderflow, fun hn hss hmem => ?popPastMemory,
    fun hss => ?retUnderflow, fun hss hmem => ?retPastMemory⟩
  case pushOverflow => exact exec_push_raises h hr hn (pushError_overflow hsl)
  case pushPastMemory => exact exec_push_raises h hr hn (pushError_pastMemory hsl hmem)
  case callOverflow => exact exec_call_raises h hr (pushError_overflow hsl)
  case callPastMemory => exact exec_call_raises h hr (pushError_pastMemory hsl hmem)
  case popUnderflow => exact exec_pop_raises h hr hn (popError_underflow hss)
  case popPastMemory => exact exec_pop_raises h hr hn (popError_pastMemory hss hmem)
  case retUnderflow => exact exec_ret_raises h hr (popError_underflow hss)
  case retPastMemory => exact exec_ret_raises h hr (popError_pastMemory hss hmem)

end Sys2Proof.Machine
end

section
/-! Obligations O21, O22, O23, O29 and O31: the system instructions that act on their own Context alone. -/

namespace Sys2Proof.Machine

/-- The in-flight instruction with success set, as Execute leaves an instruction that has no operand (R144 to R151). -/
def InFlight.succeeded (f : InFlight) : InFlight := { f with success := true }

section Visits

variable {s : State} {i : Instr} {c' : Context}

/-- THE VISIT OF AN INSTRUCTION WITHOUT OPERAND whose Store phase leaves the Context as `c'`, and whose Retire phase then
advances the PC. -/
theorem exec_plain (h : s.Alone) (hr : s.focalCtx.Ready) {store retire : Context → InFlight → Except Fault PhaseOut}
    (hi : ∀ p e c f, runPhase i p e c f = plainPhase store retire p c f)
    (hstore : ∀ f, store (s.focalCtx.holding f) f = .ok (.just (c'.holding f)))
    (hretire : ∀ f, retire (c'.holding f) f = retireAdvance (c'.holding f)) (hc : s.focalCtx.RegisterChange c') :
    exec i s = .next (s.afterVisit c'.completed) := by
  apply visit_completes h hr i (c' := c') (f1 := (InFlight.fresh i s.focalCtx.latchMark).failed)
    (f2 := (InFlight.fresh i s.focalCtx.latchMark).succeeded) (f3 := (InFlight.fresh i s.focalCtx.latchMark).succeeded)
  case hload => rw [hi]; rfl
  case hexec => rw [hi]; rfl
  case hformat => rw [hi]; rfl
  case hstore => rw [hi]; exact hstore _
  case hretire => rw [hi]; exact hretire _
  case hc => exact hc
  all_goals rfl

/-- THE VISIT OF A PRIVILEGED INSTRUCTION IN INTERRUPT MODE (R160): what its Retire phase answers. -/
theorem exec_privileged (h : s.Alone) (hr : s.focalCtx.Ready) (hn : s.focalCtx.interrupted = true)
    {retire : Context → Except Fault PhaseOut} (hi : ∀ p e c f, runPhase i p e c f = privilegedPhase retire p c f)
    {e : Effect} (hretire : ∀ f, retire (s.focalCtx.holding f) = .ok { ctx := c'.holding f, effect := e, done := true })
    (he : ∀ id, e ≠ .signal id) : exec i s = .next ((s.afterVisit c'.done).withEffect e) := by
  apply visit_simple h hr i (c' := s.focalCtx) (f1 := (InFlight.fresh i s.focalCtx.latchMark).failed)
    (f2 := (InFlight.fresh i s.focalCtx.latchMark).succeeded) (f3 := (InFlight.fresh i s.focalCtx.latchMark).succeeded)
    (r5 := { ctx := c'.holding _, effect := e, done := true })
  case hload => rw [hi]; rfl
  case hexec => rw [hi]; exact if_pos hn
  case hformat => rw [hi]; rfl
  case hstore => rw [hi]; rfl
  case hretire => rw [hi]; exact hretire _
  case hc => exact .refl hr.noPending
  case he => exact he
  all_goals rfl

/-- THE VISIT OF A PRIVILEGED INSTRUCTION IN NORMAL MODE (R160): Execute raises `UnsupportedOperationError`. -/
theorem exec_privileged_traps (h : s.Alone) (hr : s.focalCtx.Ready) (hn : s.focalCtx.interrupted = false)
    {retire : Context → Except Fault PhaseOut} (hi : ∀ p e c f, runPhase i p e c f = privilegedPhase retire p c f) :
    exec i s = .next (s.afterVisit (s.focalCtx.trapped unsupportedOperationError)) := by
  have normal : ¬s.focalCtx.interrupted = true := by simp [hn]
  apply visit_trap_execute h hr i (f1 := (InFlight.fresh i s.focalCtx.latchMark).failed)
    (f2 := (InFlight.fresh i s.focalCtx.latchMark).failed) (f3 := (InFlight.fresh i s.focalCtx.latchMark).failed)
  case hload => rw [hi]; rfl
  case hexec =>
    rw [hi]
    exact (if_neg normal).trans (congrArg justly (Context.raise_holding hr.noPending hn _ _))
  case hformat => rw [hi]; rfl
  all_goals rfl

/-- THE VISIT OF A PUSH OR A POP WITH AN EMPTY MASK (R140, R141): Store writes SP back as Load read it. -/
theorem exec_emptyTransfer (h : s.Alone) (hr : s.focalCtx.Ready) {f : InFlight}
    (hload : runPhase i .load s.focalEnv (s.focalCtx.holding (.fresh i s.focalCtx.latchMark))
      (.fresh i s.focalCtx.latchMark) = .ok (.just (s.focalCtx.holding f)))
    (hexec : ∀ c, runPhase i .execute s.focalEnv c f = .ok (.just (c.put f.succeeded)))
    (hformat : ∀ c, runPhase i .format s.focalEnv c f.succeeded = .ok (.just c))
    (hstore : ∀ c, runPhase i .store s.focalEnv c f.succeeded = .ok (.just (c.setSp s.focalCtx.sp)))
    (hretire : ∀ c, runPhase i .retire s.focalEnv c f.succeeded = retireAdvance c) (hinstr : f.instr = i) :
    exec i s = .next (s.afterVisit s.focalCtx.completed) := by
  have unmoved : s.focalCtx.setSp s.focalCtx.sp = s.focalCtx := by
    rw [Context.setSp_eq, Context.sp]
    simp
  apply visit_completes h hr i hload (hexec _) (hformat _) (f3 := f.succeeded)
  case hstore => rw [hstore, Context.holding_setSp, unmoved]
  case hretire => exact hretire _
  case hc => exact .refl hr.noPending
  case i1 | i2 | i3 => exact hinstr
  case ok2 | ok3 => rfl

end Visits

/-! ## The obligations -/

/-- Settles O21: Retire is reached in interrupt mode; Halt's asks the Processor to halt, Uninterrupt's returns. -/
theorem privilegedResults : Obligations.PrivilegedResults := by
  intro s h hr hn
  constructor
  case left =>
    exact exec_privileged (c' := s.focalCtx.advancePc) (e := .halt) h hr hn (fun _ _ _ _ => rfl) (fun _ => rfl) (by simp)
  case right =>
    exact exec_privileged (c' := s.focalCtx.interruptReturn) (e := .none) h hr hn (fun _ _ _ _ => rfl) (fun _ => rfl)
      (by simp)

/-- Settles O22: in normal mode Execute raises for both, before Retire is reached. -/
theorem privilegedTraps : Obligations.PrivilegedTraps := fun _ h hr hn =>
  ⟨exec_privileged_traps h hr hn fun _ _ _ _ => rfl, exec_privileged_traps h hr hn fun _ _ _ _ => rfl⟩

/-- Settles O23: Noop's Store does nothing, an empty transfer's writes SP back, and Sleep's depends on the Signal. -/
theorem noopSleepResults : Obligations.NoopSleepResults := by
  intro s h hr
  refine ⟨?noop, ?push, ?pop, ?sleep⟩
  case noop => exact exec_plain h hr (fun _ _ _ _ => rfl) (fun _ => rfl) (fun _ => rfl) (.refl hr.noPending)
  case push =>
    exact exec_emptyTransfer h hr rfl (fun _ => rfl) (fun _ => rfl)
      (fun c => congrArg (fun sp => Except.ok (PhaseOut.just (c.setSp sp))) (BitVec.add_zero s.focalCtx.sp)) (fun _ => rfl) rfl
  case pop =>
    exact exec_emptyTransfer h hr rfl (fun _ => rfl) (fun _ => rfl)
      (fun c => congrArg (fun sp => Except.ok (PhaseOut.just (c.setSp sp))) (BitVec.sub_zero s.focalCtx.sp)) (fun _ => rfl) rfl
  case sleep =>
    apply exec_plain h hr (i := .sleep) (fun _ _ _ _ => rfl)
    case hstore =>
      intro f
      cases hs : s.focalCtx.signalled
      all_goals
        simp only [Context.holding_signalled, hs]
        rfl
    case hretire => exact fun _ => rfl
    case hc => split <;> exact ⟨rfl, rfl, rfl, hr.noPending⟩

/-- Settles O29: Retire answers without being done, and no Error is pending, so the instruction stays for a retry. -/
theorem lockWaits : Obligations.LockWaits := by
  intro e c f hinstr hlock hsuccess hpending hacquired
  have answer : runPhase f.instr .retire e c f = .ok (.just c) := by
    rw [hlock]
    exact if_neg (by simp [hacquired])
  simp only [retireStage, hinstr, hsuccess, hpending, Option.isNone_none, Bool.and_self, if_true, answer, Except.map,
    settleRetire, PhaseOut.just, Option.isSome_none, Bool.or_self, Bool.false_eq_true, if_false]

/-- Settles O31: in normal mode the visit enters the handler; in interrupt mode the entry of Retire is a second one. -/
theorem interruptResult : Obligations.InterruptResult := by
  intro s v h hr
  constructor
  case left => exact fun hn => exec_interrupt h hr hn v
  case right =>
    intro hn
    have second : ∀ resume, (s.focalCtx.holding ({ InFlight.fresh (.interrupt v) s.focalCtx.latchMark with
        op0 := zext v, success := true })).interruptEntry (zext v) resume = .error .doubleInterrupt :=
      fun _ => if_pos hn
    exact visit_fatal_retire h hr (.interrupt v) rfl rfl rfl rfl (congrArg (Except.map PhaseOut.retired) (second _))
      rfl rfl rfl

end Sys2Proof.Machine
end

section
/-! SUPPORT. A fresh visit up to its Store stage, and the two clocks after it; what the polls do when the only Context that
may require the lock asks for it or gives it up (R162, R163). -/

namespace Sys2Proof.Machine

/-! ## The last two clocks of a visit -/

/-- THE VISIT OF AN INSTRUCTION THAT USES NO MEMORY, CUT BEFORE ITS STORE STAGE: the clock of Store leaves `t`, and the clock
of Retire `u`. -/
theorem exec_lastClocks {s t u : State} (h : s.Alone) (hr : s.focalCtx.Ready) (i : Instr) {f1 f2 : InFlight}
    (hload : runPhase i .load s.focalEnv (s.focalCtx.holding (.fresh i s.focalCtx.latchMark))
      (.fresh i s.focalCtx.latchMark) = .ok (.just (s.focalCtx.holding f1)))
    (hexec : runPhase i .execute s.focalEnv (s.focalCtx.holding f1) f1 = .ok (.just (s.focalCtx.holding f2)))
    (hformat : runPhase i .format s.focalEnv (s.focalCtx.holding f2) f2 = .ok (.just (s.focalCtx.holding f2)))
    (i1 : f1.instr = i) (i2 : f2.instr = i)
    (hstore : processorClock ((s.setCtx 0 s.focal (s.focalCtx.holding f2)).ticks 4) = .ok t)
    (hretire : processorClock t = .ok u) : exec i s = .next u := by
  have hv : exec i s = visit i s := by cases i <;> rfl
  have hd : s.focalCtx.l1d.AtRest := h.l1d
  have hfour := finishRound_to_store h i (c1 := s.focalCtx.holding f1) (c2 := s.focalCtx.holding f2)
    (c3 := s.focalCtx.holding f2) (l1d := s.focalCtx.l1d)
    (by rw [Context.enter_ready hr]
        simp only [loadDataStage, Context.holding_isRetrying, hr.notRetrying, phaseStage]
        exact hload)
    (by simp only [phaseStage, Context.holding_instruction, i1]; exact hexec)
    (Cache.clock_atRest _ _ _ hd)
    (by show phaseStage .format s.focalEnv (s.focalCtx.holding f2) = _
        simp only [phaseStage, Context.holding_instruction, i2]; exact hformat)
    ⟨rfl, rfl⟩ ⟨rfl, rfl⟩ hd
  rw [hv, visit, hfour]
  simp only [clocks, hstore, hretire, Except.bind, toOutcome]

/-- The Retire stage of a Context whose instruction succeeded and advances the PC (R104). -/
theorem retireStage_completes {e : Env} {c : Context} {f : InFlight} (hsuccess : f.success = true)
    (hpending : c.pending = none)
    (hretire : runPhase f.instr .retire e (c.holding f) f = retireAdvance (c.holding f)) :
    retireStage e (c.holding f) = .ok (.retired c.completed) := by
  simp only [retireStage, Context.holding_instruction, Context.holding_pending, hsuccess, hpending, Option.isNone_none,
    Bool.and_self, if_true, hretire]
  rfl

/-! ## The lock of Core 0 and the system lock -/

/-- The machine with the holder of Core 0's lock, Core 0's claim to the system lock and the latter's holder replaced. -/
def State.withLock (s : State) (holder : Option (Fin 8)) (acquired : Bool) (pholder : Option Nat) : State :=
  { s with core0 := { s.core0 with holder := holder, coreAcquired := acquired }, pholder := pholder }

theorem State.withLock_ticks (s : State) (holder : Option (Fin 8)) (acquired : Bool) (pholder : Option Nat) (n : Nat) :
    (s.withLock holder acquired pholder).ticks n = (s.ticks n).withLock holder acquired pholder := rfl

section Polls

variable {s : State} {j : Fin 8}

/-- Only the Context that requires the lock is a requester of its Core. -/
theorem Core.requesters_eq_singleton {c : Core} (hj : (c.ctx j).requiresLock = true)
    (ho : ∀ i, i ≠ j → (c.ctx i).requiresLock = false) : c.requesters = [j] := by
  obtain ⟨before, after, hsplit, hbefore, hafter⟩ := allCtx_split j
  have none_of : ∀ l : List (Fin 8), j ∉ l → l.filter (fun i => (c.ctx i).requiresLock) = [] := by
    intro l hl
    simp only [List.filter_eq_nil_iff, Bool.not_eq_true]
    exact fun i hi => ho i fun e => hl (e ▸ hi)
  rw [Core.requesters, hsplit, List.filter_append, List.filter_cons_of_pos (by exact hj), none_of before hbefore,
    none_of after hafter, List.nil_append]

/-- Only Core 0 is a requester of the system lock when none of the Cores above has a Context that requires it. -/
theorem State.lockRequesters_eq_singleton (h0 : s.coreRequires 0 = true) (hu : ∀ c ∈ s.upper, c.Quiet) :
    s.lockRequesters = [0] := by
  have above : ∀ k < s.upper.length, s.coreRequires (k + 1) = false := by
    intro k hk
    rw [State.coreRequires, State.core_succ, getD_of_lt _ hk,
      Core.requesters_eq_nil fun i => ((hu _ (List.getElem_mem hk)).ctxs i).noLock]
    rfl
  have rest : ((List.range s.upper.length).map Nat.succ).filter s.coreRequires = [] := by
    simp only [List.filter_eq_nil_iff, List.mem_map, List.mem_range, Bool.not_eq_true]
    rintro _ ⟨k, hk, rfl⟩
    exact above k hk
  rw [State.lockRequesters, State.coreCount, List.range_succ_eq_map, List.filter_cons_of_pos h0, rest]

/-- The election of the only requester chooses it (R164). -/
theorem lockElect_singleton (table : List (List Nat × Nat)) (i : Nat) : lockElect table [i] = i :=
  List.mem_singleton.mp (lockElect_mem table (List.cons_ne_nil i []))

/-- The polls grant a free lock, both levels of it, to the one Context that requires it (R162, R163). -/
theorem State.polled_grants (h : s.Calm j) (hj : (s.ctx 0 j).requiresLock = true) (hfree : s.pholder = none)
    (hholder : s.core0.holder = none) :
    s.polled = (s.setCtx 0 j { s.ctx 0 j with acquiredLock := true }).withLock (some j) true (some 0) := by
  have system : s.lockPoll = s.withLock none true (some 0) := by
    simp only [State.lockPoll, State.releaseSystemLock, State.grantSystemLock, hfree,
      State.lockRequesters_eq_singleton (State.coreRequires_of_ctx hj) h.upper, lockElect_singleton, ne_eq, List.cons_ne_nil,
      not_false_eq_true, and_self, if_true]
    rw [State.withLock, ← hholder]
    rfl
  have only : (s.withLock none true (some 0)).core0.requesters = [j] := Core.requesters_eq_singleton (j := j) hj
    fun i hi => (h.others i hi).noLock
  have core : (s.withLock none true (some 0)).core0.lockPoll s.cfg.lockElect
      = { (s.withLock none true (some 0)).core0.setCtx j { s.ctx 0 j with acquiredLock := true } with holder := some j } := by
    have released : (s.withLock none true (some 0)).core0.releaseLock = (s.withLock none true (some 0)).core0 := rfl
    rw [Core.lockPoll, released, Core.grantLock, only]
    rw [if_pos ⟨rfl, rfl, List.cons_ne_nil _ _⟩]
    have elected : Fin.ofNat 8 (lockElect s.cfg.lockElect ([j].map Fin.val)) = j := by
      rw [List.map_singleton, lockElect_singleton]
      exact Fin.ofNat_val_eq_self j
    simp only [elected]
    rfl
  rw [State.polled, system]
  exact congrArg (State.setCore (s.withLock none true (some 0)) 0) core

/-- The polls take both levels of the lock from the Context that held it and requires it no more (R162, R163). -/
theorem State.polled_releases (h : s.Calm j) (hj : (s.ctx 0 j).requiresLock = false)
    (hheld : s.pholder = some 0) (hholder : s.core0.holder = some j) :
    s.polled = (s.setCtx 0 j { s.ctx 0 j with acquiredLock := false }).withLock none false none := by
  have hreq : ∀ i, (s.ctx 0 i).requiresLock = false := fun i => by
    by_cases hi : i = j
    · exact hi ▸ hj
    · exact (h.others i hi).noLock
  have nobody : s.core0.requesters = [] := Core.requesters_eq_nil hreq
  have released : s.releaseSystemLock = s.withLock (some j) false none := by
    simp only [State.releaseSystemLock, hheld, State.coreRequires, State.core_zero, nobody]
    rw [State.withLock, ← hholder]
    rfl
  have system : s.lockPoll = s.withLock (some j) false none := by
    have none_left : (s.withLock (some j) false none).lockRequesters = [] :=
      State.lockRequesters_eq_nil hreq fun c hc i => ((h.upper c hc).ctxs i).noLock
    rw [State.lockPoll, released, State.grantSystemLock, none_left]
    exact if_neg fun hgrant => hgrant.2 rfl
  have core : (s.withLock (some j) false none).core0.lockPoll s.cfg.lockElect
      = { (s.withLock (some j) false none).core0.setCtx j { s.ctx 0 j with acquiredLock := false } with holder := none } := by
    have dropped : (s.withLock (some j) false none).core0.releaseLock
        = { (s.withLock (some j) false none).core0.setCtx j { s.ctx 0 j with acquiredLock := false } with holder := none } :=
      if_pos (by simp [State.withLock])
    rw [Core.lockPoll, dropped, Core.grantLock]
    exact if_neg fun hgrant => Bool.false_ne_true hgrant.2.1
  rw [State.polled, system]
  exact congrArg (State.setCore (s.withLock (some j) false none) 0) core

/-- ONE CLOCK OF A CALM MACHINE WHOSE POLLS MOVE THE LOCK of the awake Context and leave it as `c`; it then runs its stage. -/
theorem processorClock_polled {c c' : Context} {holder : Option (Fin 8)} {acquired : Bool} {pholder : Option Nat}
    (h : s.Calm j) (hd : (s.ctx 0 j).l1d.AtRest)
    (hpolled : s.polled = (s.setCtx 0 j c).withLock holder acquired pholder) (st : Stage) (hst : s.atStage 0 st = j)
    {done : Bool} (hrun : runStage st (s.env 0 j) c = .ok { ctx := c', effect := .none, done := done }) :
    processorClock s = .ok (((s.setCtx 0 j c').withLock holder acquired pholder).ticks 1) := by
  have quiet : ∀ (x : Context) y, y ≠ st → clockStage 0 ((s.setCtx 0 j x).withLock holder acquired pholder) y
      = .ok ((s.setCtx 0 j x).withLock holder acquired pholder) := by
    intro x y hy
    have hne : s.atStage 0 y ≠ j := fun e => hy (State.atStage_inj (e.trans hst.symm))
    have hquiet : ((s.setCtx 0 j x).ctx 0 (s.atStage 0 y)).Quiet := by
      rw [State.ctx_setCtx_ne _ _ hne]
      exact h.others _ hne
    exact clockStage_quiet y hquiet
  have acts : clockStage 0 ((s.setCtx 0 j c).withLock holder acquired pholder) st
      = .ok ((s.setCtx 0 j c').withLock holder acquired pholder) := by
    have hat : ((s.setCtx 0 j c).withLock holder acquired pholder).atStage 0 st = j := hst
    have hctx : ((s.setCtx 0 j c).withLock holder acquired pholder).ctx 0 j = c := State.ctx_setCtx_same s j c
    have henv : ((s.setCtx 0 j c).withLock holder acquired pholder).env 0 j = s.env 0 j := rfl
    have hset : ((s.setCtx 0 j c).withLock holder acquired pholder).setCtx 0 j c'
        = ((s.setCtx 0 j c).setCtx 0 j c').withLock holder acquired pholder := rfl
    simp only [clockStage, hat, hctx, henv, hrun, Except.bind, State.apply]
    rw [hset, State.setCtx_setCtx]
  exact processorClock_parts h.running ((preStages_polled h.still hd).trans (congrArg Except.ok hpolled)) st acts
    (quiet c) (quiet c') h.upper h.devices

end Polls

end Sys2Proof.Machine
end

section
/-! Obligations O28 and O30: Lock and Unlock. -/

namespace Sys2Proof.Machine

/-- The Context with or without the lock, both the wish and the grant (R148, R149). -/
def Context.locked (c : Context) (b : Bool) : Context := { c with requiresLock := b, acquiredLock := b }

/-- The Context with its wish for the lock replaced (R148, R149). -/
def Context.wishing (c : Context) (b : Bool) : Context := { c with requiresLock := b }

/-- With the wish for the lock as it is, Lock and Unlock change nothing but the PC. -/
theorem Context.wishing_self {c : Context} {b : Bool} (h : c.requiresLock = b) : c.wishing b = c := by rw [← h]; rfl

section Visits

variable {s : State} {i : Instr} {b : Bool} {retire : Context → InFlight → Except Fault PhaseOut}

/-- The Store clock of an instruction that asks for the lock or gives it up. -/
theorem clock_wish (h : s.Alone)
    (hi : ∀ p e c f, runPhase i p e c f = plainPhase (fun c _ => .ok (.just (c.wishing b))) retire p c f) {f : InFlight}
    (hinstr : f.instr = i) (hsuccess : f.success = true) :
    processorClock ((s.setCtx 0 s.focal (s.focalCtx.holding f)).ticks 4)
      = .ok ((s.setCtx 0 s.focal ((s.focalCtx.wishing b).holding f)).ticks 5) := by
  have stored : storeStage s.focalEnv (s.focalCtx.holding f) = .ok (.just ((s.focalCtx.wishing b).holding f)) := by
    simp only [storeStage, Context.holding_instruction, hinstr, hsuccess, if_true]
    exact hi ..
  exact clock_moved h.calm h.locks (c := s.focalCtx.holding f) 4 h.calm.l1i rfl .store
    (s.focal_stage 4 .store (by decide)) (Cache.clock_atRest _ _ _ (show s.focalCtx.l1d.AtRest from h.l1d)) stored
    (by simp [PhaseOut.just])

/-- THE VISIT OF AN INSTRUCTION WHOSE STORE PHASE ASKS FOR THE LOCK OR GIVES IT UP, the polls of the next clock granting it
or taking it, before Retire (R148, R149, R189). -/
theorem exec_lockMoves (h : s.Alone) (hr : s.focalCtx.Ready)
    (hi : ∀ p e c f, runPhase i p e c f = plainPhase (fun c _ => .ok (.just (c.wishing b))) retire p c f)
    (hretire : ∀ f, retire ((s.focalCtx.locked b).holding f) f = retireAdvance ((s.focalCtx.locked b).holding f))
    {holder : Option (Fin 8)} {pholder : Option Nat}
    (hpolled : ∀ t : State, t.Calm s.focal → (t.ctx 0 s.focal).requiresLock = b → t.core0.holder = s.core0.holder →
      t.pholder = s.pholder → t.polled
        = (t.setCtx 0 s.focal { t.ctx 0 s.focal with acquiredLock := b }).withLock holder b pholder) :
    exec i s = .next ((s.afterVisit (s.focalCtx.locked b).completed).withLock holder b pholder) := by
  apply exec_lastClocks h hr i (f1 := (InFlight.fresh i s.focalCtx.latchMark).failed)
    (f2 := (InFlight.fresh i s.focalCtx.latchMark).succeeded)
  case hload => rw [hi]; rfl
  case hexec => rw [hi]; rfl
  case hformat => rw [hi]; rfl
  case hstore => exact clock_wish h hi rfl rfl
  case hretire =>
    generalize hf : (InFlight.fresh i s.focalCtx.latchMark).succeeded = f
    have hctx : ((s.setCtx 0 s.focal ((s.focalCtx.wishing b).holding f)).ticks 5).ctx 0 s.focal
        = (s.focalCtx.wishing b).holding f := (State.ticks_ctx ..).trans (State.ctx_setCtx_same ..)
    have calm := h.calm.moved (c := (s.focalCtx.wishing b).holding f) 5 h.calm.l1i
    have polled := hpolled _ calm (by rw [hctx]; rfl) rfl rfl
    have retired : retireStage s.focalEnv ((s.focalCtx.locked b).holding f)
        = .ok (.retired (s.focalCtx.locked b).completed) := by
      subst hf
      exact retireStage_completes rfl hr.noPending ((hi ..).trans (hretire _))
    rw [hctx] at polled
    have clock := processorClock_polled calm (by rw [hctx]; exact h.l1d) polled .retire
      (s.focal_stage 5 .retire (by decide)) retired
    rw [State.setCtx_ticks, State.setCtx_setCtx, State.withLock_ticks, State.ticks_ticks] at clock
    exact clock
  all_goals rfl

end Visits

/-! ## The obligations -/

/-- Settles O28: the polls between Store and Retire grant a free lock; a lock held is held still. -/
theorem lockResult : Obligations.LockResult := by
  intro s h hr
  constructor
  case left =>
    intro hfree
    obtain ⟨-, hp, hh⟩ | ⟨hreq, -⟩ := h.locks
    case inr => exact absurd (hfree.symm.trans hreq) Bool.false_ne_true
    case inl =>
      exact exec_lockMoves h hr (i := .lock) (fun _ _ _ _ => rfl) (fun _ => if_pos rfl)
        fun t ht hreq hholder hpholder => State.polled_grants ht hreq (hpholder.trans hp) (hholder.trans hh)
  case right =>
    intro hreq hacquired
    exact exec_plain h hr (i := .lock) (fun _ _ _ _ => rfl)
      (fun f => congrArg (fun c : Context => Except.ok (PhaseOut.just (c.holding f))) (Context.wishing_self hreq))
      (fun _ => if_pos hacquired) (.refl hr.noPending)

/-- Settles O30: the polls between Store and Retire take the lock back; without the lock there is nothing to take. -/
theorem unlockResult : Obligations.UnlockResult := by
  intro s h hr
  constructor
  case left =>
    intro hheld
    obtain ⟨hreq, -⟩ | ⟨-, hp, -, hh⟩ := h.locks
    case inl => exact absurd (hreq.symm.trans hheld) Bool.false_ne_true
    case inr =>
      exact exec_lockMoves h hr (i := .unlock) (fun _ _ _ _ => rfl) (fun _ => rfl)
        fun t ht hreq hholder hpholder => State.polled_releases ht hreq (hpholder.trans hp) (hholder.trans hh)
  case right =>
    intro hreq
    exact exec_plain h hr (i := .unlock) (fun _ _ _ _ => rfl)
      (fun f => congrArg (fun c : Context => Except.ok (PhaseOut.just (c.holding f))) (Context.wishing_self hreq))
      (fun _ => rfl) (.refl hr.noPending)

end Sys2Proof.Machine
end

section
/-! SUPPORT. What a Signal does at once (R161, R172), and a change of any one Context of the machine beside the passing of
clocks and a change of the focal Context. -/

namespace Sys2Proof.Machine

/-! ## One Context of any Core -/

section Contexts

variable {s : State} {k : Nat} {j : Fin 8}

theorem State.core_ticks (hk : k < s.coreCount) (n : Nat) : (s.ticks n).core k = (s.core k).ticks n := by
  cases k with
  | zero => rfl
  | succ k =>
    have hlt : k < s.upper.length := Nat.succ_lt_succ_iff.mp hk
    rw [State.core_succ, State.core_succ, getD_of_lt _ hlt, State.ticks_upper,
      getD_of_lt _ (by rw [List.length_map]; exact hlt), List.getElem_map]

theorem State.ctx_ticks (hk : k < s.coreCount) (n : Nat) : (s.ticks n).ctx k j = s.ctx k j := by
  rw [State.ctx, State.core_ticks hk, Core.ticks_ctx]
  rfl

theorem State.setCtx_ticks_core (hk : k < s.coreCount) (n : Nat) (x : Context) :
    (s.ticks n).setCtx k j x = (s.setCtx k j x).ticks n := by
  have hcore := State.core_ticks hk n
  cases k with
  | zero => rfl
  | succ k =>
    have hupper : (s.upper.map (Core.ticks · n)).set k (((s.core (k + 1)).ticks n).setCtx j x)
        = (s.upper.set k ((s.core (k + 1)).setCtx j x)).map (Core.ticks · n) := by
      rw [List.map_set]
      rfl
    rw [State.setCtx, hcore]
    exact congrArg (fun upper => { s.ticks n with upper := upper }) hupper

/-- Changes of two different Contexts, one of them of Core 0, come in either order. -/
theorem State.setCtx_comm {i : Fin 8} (hne : ¬(k = 0 ∧ j = i)) (x y : Context) :
    (s.setCtx k j x).setCtx 0 i y = (s.setCtx 0 i y).setCtx k j x := by
  cases k with
  | zero =>
    have hval : (j : Nat) ≠ (i : Nat) := fun e => hne ⟨rfl, Fin.ext e⟩
    simp only [State.setCtx_zero, Core.setCtx, Vector.set_comm _ _ hval]
  | succ k => rfl

theorem State.setCtx_setCtx_core (hk : k < s.coreCount) (x y : Context) :
    (s.setCtx k j x).setCtx k j y = s.setCtx k j y := by
  rw [State.setCtx, State.setCtx, State.core_setCore hk, if_pos rfl, State.setCore_setCore, Core.setCtx_setCtx]
  rfl

theorem State.setCtx_self (s : State) (k : Nat) (j : Fin 8) : s.setCtx k j (s.ctx k j) = s := by
  rw [State.setCtx, State.ctx, Core.setCtx_ctx, State.setCore_core]

theorem State.atStage_setCtx (hk : k < s.coreCount) (x : Context) (k' : Nat) (st : Stage) :
    (s.setCtx k j x).atStage k' st = s.atStage k' st := by
  rw [State.atStage, State.atStage, State.setCtx, State.core_setCore hk]
  split
  · next e => rw [e, Core.setCtx_next]
  · rfl

theorem State.env_setCtx (s : State) (k : Nat) (j : Fin 8) (x : Context) (k' : Nat) (j' : Fin 8) :
    (s.setCtx k j x).env k' j' = s.env k' j' := by
  rw [State.env, State.env, State.setCtx, State.setCore_cfg]

/-- In a calm machine every Context but the awake one is quiet. -/
theorem State.Calm.quiet {i : Fin 8} (h : s.Calm i) (hk : k < s.coreCount) (hne : ¬(k = 0 ∧ j = i)) :
    (s.ctx k j).Quiet := by
  cases k with
  | zero => exact h.others j fun e => hne ⟨rfl, e⟩
  | succ k =>
    have hlt : k < s.upper.length := Nat.succ_lt_succ_iff.mp hk
    rw [State.ctx, State.core_succ, getD_of_lt _ hlt]
    exact (h.upper _ (List.getElem_mem hlt)).ctxs j

end Contexts

/-! ## Signals (R161, R172) -/

/-- A Signal to the id of a Context wakes it and is posted (R161). -/
theorem State.signal_context {s : State} {k : Nat} {j : Fin 8} (hk : k < s.coreCount) :
    s.signal (8 * k + j) = .ok (s.setCtx k j (s.ctx k j).signal) := by
  have hdiv : (8 * k + j) / 8 = k := by omega
  have hmod : Fin.ofNat 8 ((8 * k + j) % 8) = j := by
    apply Fin.ext
    show (8 * k + j) % 8 % 8 = j
    omega
  rw [State.signal, if_pos (by omega)]
  simp only [hdiv, hmod]

/-- A Signal to the id of an idle Device starts it reading its control block (R172). -/
theorem State.signal_device {s : State} {d : Nat} {x : Device} {cfg : DeviceConfig} (hx : s.devices[d]? = some x)
    (hcfg : s.cfg.devices[d]? = some cfg) (hidle : x.work = .idle) :
    s.signal (8 * s.coreCount + d) = .ok { s with devices := s.devices.set d { x with work := .readingBlock [] } } := by
  have started : x.signal cfg = .ok { x with work := .readingBlock [] } := by
    rw [Device.signal, hidle]
  rw [State.signal, if_neg (by omega)]
  simp only [Nat.add_sub_cancel_left, hx, hcfg, started]
  rfl

/-! ## The focal Context's clock, by its parts -/

/-- The Processor's poll of a machine whose lock is settled changes nothing, whoever is awake (R162). -/
theorem State.lockPoll_settled_awake {s : State} {j : Fin 8} (hl : s.LocksSettled j)
    (hreq : ∀ k < s.coreCount, ∀ i, ¬(k = 0 ∧ i = j) → (s.ctx k i).requiresLock = false) : s.lockPoll = s := by
  obtain ⟨hfree, hp, -⟩ | ⟨hheld, hp, -⟩ := hl
  · have core0 : ∀ i, (s.ctx 0 i).requiresLock = false := fun i => by
      by_cases hi : i = j
      · exact hi ▸ hfree
      · exact hreq 0 (Nat.succ_pos _) i fun e => hi e.2
    have above : ∀ c ∈ s.upper, ∀ i, (c.ctx i).requiresLock = false := by
      intro c hc i
      obtain ⟨k, hk, rfl⟩ := List.getElem_of_mem hc
      have key := hreq (k + 1) (Nat.succ_lt_succ hk) i fun e => Nat.succ_ne_zero _ e.1
      rwa [State.ctx, State.core_succ, getD_of_lt _ hk] at key
    simp [State.lockPoll, State.releaseSystemLock, hp, State.grantSystemLock, State.lockRequesters_eq_nil core0 above]
  · simp [State.lockPoll, State.releaseSystemLock, hp, State.coreRequires_of_ctx hheld, State.grantSystemLock]

/-- What comes before the stages of a clock changes nothing in a machine where no cache has work and the lock is settled. -/
theorem preStages_atRest {s : State} {j : Fin 8} (hmemory : s.memory.port.busy = false) (hl3 : s.l3.AtRest)
    (hl2 : s.core0.l2.AtRest) (hl1 : ∀ i, (s.ctx 0 i).l1i.AtRest ∧ (s.ctx 0 i).l1d.AtRest)
    (hreq : ∀ k < s.coreCount, ∀ i, ¬(k = 0 ∧ i = j) → (s.ctx k i).requiresLock = false) (hl : s.LocksSettled j) :
    preStages s = .ok s := by
  have others : ∀ i, i ≠ j → (s.ctx 0 i).requiresLock = false := fun i hi => hreq 0 (Nat.succ_pos _) i fun e => hi e.2
  have l1s : clockL1s 0 s = .ok s := by
    rw [clockL1s, State.core_zero, foldlM_clockL1_atRest s.cfg s.core0 allCtx fun i _ => hl1 i]
    rfl
  simp only [preStages, clockMemory_quiet s hmemory, clockL3_quiet s hl3, State.lockPoll_settled_awake hl hreq,
    clockL2_quiet s (.inl hl2), l1s, bind,
    Except.bind, State.core_zero, Core.lockPoll_settled s.cfg.lockElect others hl]
  rfl

/-- The machine with its Devices replaced. -/
def State.withDevices (s : State) (devices : List Device) : State := { s with devices := devices }

theorem State.withDevices_ticks (s : State) (devices : List Device) (n : Nat) :
    (s.withDevices devices).ticks n = (s.ticks n).withDevices devices := rfl

theorem State.withDevices_setCtx (s : State) (devices : List Device) (j : Fin 8) (c : Context) :
    (s.withDevices devices).setCtx 0 j c = (s.setCtx 0 j c).withDevices devices := rfl

/-- Before the stages of a clock of a calm machine nothing changes, whatever the Devices are about. -/
theorem State.Calm.preStages_withDevices {s : State} {j : Fin 8} (h : s.Calm j) (hl : s.LocksSettled j)
    (hd : (s.ctx 0 j).l1d.AtRest) (devices : List Device) :
    preStages (s.withDevices devices) = .ok (s.withDevices devices) := by
  refine preStages_atRest (j := j) h.memory h.l3 h.l2 (fun i => ?caches) (fun k hk i hne => ?noLock) hl
  case caches =>
    by_cases hi : i = j
    · subst hi; exact ⟨h.l1i, hd⟩
    · exact ⟨(h.others i hi).l1i, (h.others i hi).l1d⟩
  case noLock => cases k <;> exact (h.quiet hk hne).noLock

/-- ONE CLOCK OF A MACHINE IN WHICH NO OTHER CONTEXT OF CORE 0 HAS WORK: the awake Context runs its stage, what it asks for
touches no other Context of Core 0, and the Cores above and the Devices then have their clocks. -/
theorem processorClock_asks {s t u : State} {j : Fin 8} (hrun : s.halted = false) (hpre : preStages s = .ok s)
    (hq : ∀ i, i ≠ j → (s.ctx 0 i).Quiet) (st : Stage) (hst : s.atStage 0 st = j)
    (hacts : clockStage 0 s st = .ok t)
    (hothers : ∀ i, i ≠ j → t.ctx 0 i = s.ctx 0 i) (hnext : t.core0.next = s.core0.next) (hpost : postStages t = .ok u) :
    processorClock s = .ok u := by
  have hne : ∀ y, y ≠ st → s.atStage 0 y ≠ j := fun y hy e => hy (State.atStage_inj (e.trans hst.symm))
  have before : ∀ y, y ≠ st → clockStage 0 s y = .ok s := fun y hy => clockStage_quiet y (hq _ (hne y hy))
  have after : ∀ y, y ≠ st → clockStage 0 t y = .ok t := by
    intro y hy
    apply clockStage_quiet
    have hat : t.atStage 0 y = s.atStage 0 y := congrArg (· - y.number) hnext
    rw [hat, hothers _ (hne y hy)]
    exact hq _ (hne y hy)
  rw [processorClock_eq hrun, hpre]
  simp only [Except.bind, foldlM_allStages st hacts before after, hpost]

/-! ## The visit of a Signal (R147) -/

/-- The Signal with its target in its slot, as Execute leaves it (R147). -/
def State.signalling (s : State) (r : Reg) : InFlight :=
  ((InFlight.fresh (.signal r) s.focalCtx.latchMark).withOperands (s.reg r) 0).succeeded

/-- The machine `n` clocks after the Decode stage of a Signal that has run its Execute phase, and nothing else. -/
def State.midSignal (s : State) (r : Reg) (n : Nat) : State :=
  (s.setCtx 0 s.focal (s.focalCtx.holding (s.signalling r))).ticks n

section Visits

variable {s : State} {r : Reg} {k : Nat} {j : Fin 8}

@[simp] theorem State.midSignal_ctx (s : State) (r : Reg) (n : Nat) :
    (s.midSignal r n).ctx 0 s.focal = s.focalCtx.holding (s.signalling r) :=
  (State.ticks_ctx ..).trans (State.ctx_setCtx_same ..)

theorem State.midSignal_calm (h : s.Alone) (n : Nat) : (s.midSignal r n).Calm s.focal := h.calm.moved n h.calm.l1i

theorem State.midSignal_locks (h : s.Alone) (n : Nat) : (s.midSignal r n).LocksSettled s.focal := h.locks.moved n rfl

/-- Every other Context is as it was. -/
theorem State.midSignal_ctx_other (hk : k < s.coreCount) (hne : ¬(k = 0 ∧ j = s.focal)) (n : Nat) :
    (s.midSignal r n).ctx k j = s.ctx k j := by
  rw [State.midSignal, State.ctx_ticks (by exact hk), State.ctx_setCtx (Nat.succ_pos _), if_neg hne]

theorem State.midSignal_coreCount (s : State) (r : Reg) (n : Nat) : (s.midSignal r n).coreCount = s.coreCount := by
  rw [State.coreCount, State.coreCount, State.midSignal, State.ticks_upper, List.length_map, State.setCtx_upper]

/-- The focal Context with its Signal in flight changed, in the middle of the visit. -/
theorem State.midSignal_setCtx (n : Nat) (c : Context) :
    (s.midSignal r n).setCtx 0 s.focal c = (s.setCtx 0 s.focal c).ticks n := by
  rw [State.midSignal, State.setCtx_ticks, State.setCtx_setCtx]

/-- The Store stage of a Signal lets the Processor see it and changes nothing else (R147, R161). -/
theorem clockStage_signal : clockStage 0 (s.midSignal r 4) .store = (s.midSignal r 4).signal (s.reg r).toNat := by
  have hat : (s.midSignal r 4).atStage 0 .store = s.focal := s.focal_stage 4 .store (by decide)
  have asked : ∀ e, storeStage e (s.focalCtx.holding (s.signalling r))
      = .ok { ctx := s.focalCtx.holding (s.signalling r), effect := .signal (s.reg r), done := false } := fun _ => rfl
  simp only [clockStage, hat, State.midSignal_ctx, runStage, asked, Except.bind, State.midSignal_setCtx]
  rfl

/-- The Retire stage of a Signal completes it, whatever has changed around it (R104). -/
theorem clockStage_signal_retires (hr : s.focalCtx.Ready) {t : State} (hat : t.atStage 0 .retire = s.focal)
    (hctx : t.ctx 0 s.focal = s.focalCtx.holding (s.signalling r)) :
    clockStage 0 t .retire = .ok (t.setCtx 0 s.focal s.focalCtx.completed) := by
  have retired : ∀ e, retireStage e (s.focalCtx.holding (s.signalling r)) = .ok (.retired s.focalCtx.completed) :=
    fun _ => retireStage_completes rfl hr.noPending rfl
  simp only [clockStage, hat, hctx, runStage, retired, Except.bind]
  rfl

/-- THE VISIT OF A SIGNAL, CUT BEFORE ITS STORE STAGE, in which the Processor sees the Signal. -/
theorem exec_signal {t u : State} (h : s.Alone) (hr : s.focalCtx.Ready)
    (hstore : processorClock (s.midSignal r 4) = .ok t) (hretire : processorClock t = .ok u) :
    exec (.signal r) s = .next u :=
  exec_lastClocks h hr (.signal r) (f1 := (InFlight.fresh (.signal r) s.focalCtx.latchMark).withOperands (s.reg r) 0)
    (f2 := s.signalling r) rfl rfl rfl rfl rfl hstore hretire

/-- Before the stages of a clock in the middle of the visit nothing changes. -/
theorem preStages_midSignal (h : s.Alone) (n : Nat) (devices : List Device) :
    preStages ((s.midSignal r n).withDevices devices) = .ok ((s.midSignal r n).withDevices devices) :=
  (State.midSignal_calm h n).preStages_withDevices (State.midSignal_locks h n)
    (by rw [State.midSignal_ctx]; exact h.l1d) devices

end Visits

end Sys2Proof.Machine
end

section
/-! Obligations O24 and O26: a Signal to oneself, and to a Device. -/

namespace Sys2Proof.Machine

/-- Settles O24: the Signal wakes and is posted in the clock of Store, and the Retire stage sees neither. -/
theorem signalSelf : Obligations.SignalSelf := by
  intro s r h hr hid
  have calm := State.midSignal_calm (r := r) h 4
  have posted : (s.midSignal r 4).signal (s.reg r).toNat
      = .ok ((s.setCtx 0 s.focal (s.focalCtx.signal.holding (s.signalling r))).ticks 4) := by
    have target : (s.reg r).toNat = 8 * 0 + s.focal := hid.trans (Nat.zero_add _).symm
    rw [target, State.signal_context (Nat.succ_pos _), State.midSignal_ctx, State.midSignal_setCtx]
    rfl
  have store : processorClock (s.midSignal r 4)
      = .ok ((s.setCtx 0 s.focal (s.focalCtx.signal.holding (s.signalling r))).ticks 5) := by
    apply processorClock_asks calm.running (preStages_midSignal h 4 s.devices) calm.others .store
      (s.focal_stage 4 .store (by decide)) (clockStage_signal.trans posted)
    case hothers =>
      intro i hi
      rw [State.midSignal, State.ticks_ctx, State.ticks_ctx, State.ctx_setCtx_ne _ _ hi, State.ctx_setCtx_ne _ _ hi]
    case hnext => rfl
    case hpost =>
      rw [postStages_quiet (by exact calm.upper) (by exact calm.devices), State.ticks_ticks]
  have retire := clock_moved h.calm h.locks (c := s.focalCtx.signal.holding (s.signalling r)) 5 h.calm.l1i rfl .retire
    (s.focal_stage 5 .retire (by decide)) (Cache.clock_atRest _ _ _ (by exact h.l1d))
    (r := .retired s.focalCtx.signal.completed)
    (retireStage_completes (c := s.focalCtx.signal) rfl hr.noPending rfl) (by simp [PhaseOut.retired])
  exact exec_signal h hr store retire

/-- What comes after the stages in a clock that is not the Devices', with quiet upper Cores, only ticks. -/
theorem postStages_notDue {s : State} (hu : ∀ c ∈ s.upper, c.Quiet) (hdue : s.cycle % s.cfg.divDev ≠ 0) :
    postStages s = .ok (s.ticks 1) := by
  unfold postStages
  rw [clockUpper_quiet { s with core0 := s.core0.tick } hu]
  simp only [bind, Except.bind]
  rw [clockDevices, if_neg (by exact hdue)]
  rfl

section Devices

variable {s : State} {r : Reg} {devices : List Device}

/-- The Store clock of a Signal that a Device hears, in a clock that is not the Devices'. -/
theorem storeClock_withDevices (h : s.Alone) (hdue : (s.cycle + 4) % s.cfg.divDev ≠ 0)
    (hsignal : (s.midSignal r 4).signal (s.reg r).toNat = .ok ((s.midSignal r 4).withDevices devices)) :
    processorClock (s.midSignal r 4) = .ok ((s.midSignal r 5).withDevices devices) := by
  have calm := State.midSignal_calm (r := r) h 4
  apply processorClock_asks calm.running (preStages_midSignal h 4 s.devices) calm.others .store
    (s.focal_stage 4 .store (by decide)) (clockStage_signal.trans hsignal)
  case hothers => exact fun _ _ => rfl
  case hnext => rfl
  case hpost =>
    rw [postStages_notDue (by exact calm.upper) (by exact hdue), State.withDevices_ticks, State.midSignal,
      State.ticks_ticks]
    rfl

/-- The Retire clock of a Signal that a Device has heard, in a clock that is not the Devices'. -/
theorem retireClock_withDevices (h : s.Alone) (hr : s.focalCtx.Ready) (hdue : (s.cycle + 5) % s.cfg.divDev ≠ 0) :
    processorClock ((s.midSignal r 5).withDevices devices)
      = .ok ((s.afterVisit s.focalCtx.completed).withDevices devices) := by
  have calm := State.midSignal_calm (r := r) h 5
  have hat : ((s.midSignal r 5).withDevices devices).atStage 0 .retire = s.focal := s.focal_stage 5 .retire (by decide)
  apply processorClock_asks (s := (s.midSignal r 5).withDevices devices) calm.running (preStages_midSignal h 5 devices)
    calm.others .retire hat (clockStage_signal_retires hr hat (s.midSignal_ctx r 5))
  case hothers => exact fun i hi => State.ctx_setCtx_ne _ _ hi
  case hnext => rfl
  case hpost =>
    rw [postStages_notDue (by exact calm.upper) (by exact hdue), State.withDevices_setCtx, State.midSignal_setCtx,
      State.withDevices_ticks, State.ticks_ticks]
    rfl

end Devices

/-- Settles O26: the Device starts in the clock of Store; no clock of its own comes before the visit ends. -/
theorem signalDevice : Obligations.SignalDevice := by
  intro s r d x cfg h hr hid hx hcfg notDue4 notDue5
  have idle : x.work = .idle := (h.calm.devices x (List.mem_of_getElem? hx)).idle
  have started : (s.midSignal r 4).signal (s.reg r).toNat
      = .ok ((s.midSignal r 4).withDevices (s.devices.set d { x with work := .readingBlock [] })) := by
    have target : (s.reg r).toNat = 8 * (s.midSignal r 4).coreCount + d := by
      rw [hid, State.midSignal_coreCount]
    rw [target, State.signal_device (s := s.midSignal r 4) hx hcfg idle]
    rfl
  exact exec_signal h hr (storeClock_withDevices h notDue4 started) (retireClock_withDevices h hr notDue5)

end Sys2Proof.Machine
end

section
/-! SUPPORT. A clock of any Core in which one Context has work and the others are quiet, and what a sleeping Context does in
the clock in which it is signalled and in the next (R98, R100, R101, R161). -/

namespace Sys2Proof.Machine

/-! ## Stages -/

/-- The stage a Context runs in the clock after `st` (R106). -/
def Stage.succ : Stage → Stage
  | .fetch => .loadInstruction
  | .loadInstruction => .decodeInstruction
  | .decodeInstruction => .loadData
  | .loadData => .execute
  | .execute => .format
  | .format => .store
  | .store => .retire
  | .retire => .fetch

theorem Stage.number_succ (st : Stage) : st.succ.number = st.number + 1 := by cases st <;> rfl

/-- Every Context is at some stage (R106). -/
theorem State.exists_atStage (s : State) (k : Nat) (j : Fin 8) : ∃ st, s.atStage k st = j := by
  have numbered : ∀ n : Fin 8, ∃ st : Stage, st.number = n := by
    intro n
    fin_cases n
    exacts [⟨.fetch, rfl⟩, ⟨.loadInstruction, rfl⟩, ⟨.decodeInstruction, rfl⟩, ⟨.loadData, rfl⟩, ⟨.execute, rfl⟩,
      ⟨.format, rfl⟩, ⟨.store, rfl⟩, ⟨.retire, rfl⟩]
  obtain ⟨st, hst⟩ := numbered ((s.core k).next - j)
  exact ⟨st, by rw [State.atStage, hst, sub_sub_cancel]⟩

theorem State.atStage_inj_core {s : State} {k : Nat} {a b : Stage} (h : s.atStage k a = s.atStage k b) : a = b :=
  Stage.number_inj (sub_right_injective (G := Fin 8) h)

theorem mem_allStages (st : Stage) : st ∈ allStages := by cases st <;> decide

theorem nodup_allStages : allStages.Nodup := by decide

/-! ## One Context of a Core -/

section OneContext

variable {s : State} {k : Nat} {j : Fin 8}

/-- A quiet Context's stage changes nothing, on any Core. -/
theorem clockStage_quietOn {st : Stage} (h : (s.ctx k (s.atStage k st)).Quiet) : clockStage k s st = .ok s := by
  simp only [clockStage, runStage_quiet st _ h, Except.bind, PhaseOut.just, State.apply, State.setCtx_self]

theorem foldlM_clockStage_quietOn {l : List Stage} (h : ∀ y ∈ l, (s.ctx k (s.atStage k y)).Quiet) :
    l.foldlM (clockStage k) s = .ok s := by
  induction l with
  | nil => rfl
  | cons y l ih =>
    rw [List.foldlM_cons, clockStage_quietOn (h y List.mem_cons_self)]
    exact ih fun z hz => h z (List.mem_cons_of_mem y hz)

/-- Stages of a Core of which at most one has work: the one of Context `j`, if it is among them. -/
theorem foldlM_clockStage_one (hk : k < s.coreCount) {l : List Stage} (hnodup : l.Nodup)
    (hothers : ∀ y ∈ l, s.atStage k y ≠ j → (s.ctx k (s.atStage k y)).Quiet) {st : Stage} (hst : s.atStage k st = j)
    {c : Context} (hrun : runStage st (s.env k j) (s.ctx k j) = .ok (.just c)) :
    l.foldlM (clockStage k) s = .ok (if st ∈ l then s.setCtx k j c else s) := by
  induction l with
  | nil => rfl
  | cons y l ih =>
    obtain ⟨hy, hnodup⟩ := List.nodup_cons.mp hnodup
    by_cases he : y = st
    · subst he
      have acts : clockStage k s y = .ok (s.setCtx k j c) := by
        simp only [clockStage, hst, hrun, Except.bind, PhaseOut.just, State.apply]
      rw [List.foldlM_cons, acts, if_pos List.mem_cons_self]
      refine foldlM_clockStage_quietOn fun z hz => ?_
      have hne : s.atStage k z ≠ j := fun e => hy (State.atStage_inj_core (e.trans hst.symm) ▸ hz)
      rw [State.atStage_setCtx hk, State.ctx_setCtx hk, if_neg fun e => hne e.2]
      exact hothers z (List.mem_cons_of_mem y hz) hne
    · have hne : s.atStage k y ≠ j := fun e => he (State.atStage_inj_core (e.trans hst.symm))
      rw [List.foldlM_cons, clockStage_quietOn (hothers y List.mem_cons_self hne)]
      have hmem : st ∈ y :: l ↔ st ∈ l := List.mem_cons.trans (or_iff_right (Ne.symm he))
      simp only [hmem]
      exact ih hnodup fun z hz => hothers z (List.mem_cons_of_mem y hz)

end OneContext

/-! ## The clock of a Core above -/

/-- A Core's clock is its caches, its poll, its eight stages, and the move of its cursor (R106). -/
theorem clockCore_eq (s : State) (k : Nat) : clockCore s k
    = ((clockL2 k s).bind (clockL1s k)).bind fun t =>
      (allStages.foldlM (clockStage k) (t.setCore k ((t.core k).lockPoll t.cfg.lockElect))).map
        fun u => u.setCore k (u.core k).tick := by
  simp only [clockCore, coreBeforeDecode, coreAfterDecode, bind, allStages, List.foldlM_append, List.foldlM_cons]
  cases clockL2 k s with
  | error x => rfl
  | ok s1 =>
    simp only [Except.bind]
    cases clockL1s k s1 with
    | error x => rfl
    | ok s2 =>
      dsimp only
      cases stagesBeforeDecode.foldlM (clockStage k) (s2.setCore k ((s2.core k).lockPoll s2.cfg.lockElect)) with
      | error x => rfl
      | ok s3 =>
        dsimp only
        cases clockStage k s3 .decodeInstruction <;> rfl

/-- The poll of a Core that no Context wants and none holds changes nothing (R163). -/
theorem Core.lockPoll_unwanted (table : List (List Nat × Nat)) {c : Core} (hreq : ∀ i, (c.ctx i).requiresLock = false)
    (hholder : c.holder = none) : c.lockPoll table = c := by
  have hnone : c.requesters = [] := Core.requesters_eq_nil hreq
  simp [Core.lockPoll, Core.releaseLock, hholder, Core.grantLock, hnone]

/-- The clock of a Core above Core 0 in which one Context has work. -/
theorem clockCore_one {s : State} {k : Nat} (hk : k + 1 < s.coreCount) {c : Core} (hq : c.Quiet) {j : Fin 8}
    {x x' : Context} (hx : x.Settled) (hcore : s.core (k + 1) = c.setCtx j x) {st : Stage}
    (hst : s.atStage (k + 1) st = j) (hrun : runStage st (s.env (k + 1) j) x = .ok (.just x')) :
    clockCore s (k + 1) = .ok (s.setCore (k + 1) (c.setCtx j x').tick) := by
  have settled : ∀ i, ((c.setCtx j x).ctx i).Settled := by
    intro i
    rw [Core.ctx_setCtx]
    split
    · exact hx
    · exact (hq.ctxs i).settled
  have l2 : clockL2 (k + 1) s = .ok s := by
    unfold clockL2
    split
    · rw [hcore, Cache.clock_atRest _ _ _ (by exact hq.l2)]
      show Except.ok { s.setCore (k + 1) (c.setCtx j x) with l3 := s.l3 } = Except.ok s
      rw [← hcore, State.setCore_core]
    · rfl
  have l1s : clockL1s (k + 1) s = .ok s := by
    rw [clockL1s, hcore, foldlM_clockL1_atRest _ _ _ fun i _ => ⟨(settled i).l1i, (settled i).l1d⟩, Except.map, ← hcore,
      State.setCore_core]
  have poll : s.setCore (k + 1) ((s.core (k + 1)).lockPoll s.cfg.lockElect) = s := by
    rw [hcore, Core.lockPoll_unwanted _ (fun i => (settled i).noLock) (by exact hq.noHolder), ← hcore, State.setCore_core]
  have hctx : ∀ i, s.ctx (k + 1) i = (c.setCtx j x).ctx i := fun i => by rw [State.ctx, hcore]
  have stages := foldlM_clockStage_one hk nodup_allStages (j := j) (st := st) (c := x')
    (fun y _ hne => by rw [hctx, Core.ctx_setCtx_ne _ _ hne]; exact hq.ctxs _) hst
    (by rw [hctx, Core.ctx_setCtx_same]; exact hrun)
  rw [if_pos (mem_allStages st)] at stages
  rw [clockCore_eq, l2, Except.bind, l1s, Except.bind, poll, stages, Except.map, State.setCtx, State.core_setCore hk,
    if_pos rfl, State.setCore_setCore, hcore, Core.setCtx_setCtx]

/-- The Cores above one after another, each one's clock being known. -/
theorem foldlM_clockCore_each {s : State} {cores : List Core} (hlen : cores.length = s.upper.length)
    (h : ∀ k (hk : k < s.upper.length), ∀ before : List Core, before[k]? = s.upper[k]? →
      clockCore { s with upper := before } (k + 1)
        = .ok { s with upper := before.set k (cores[k]'(by omega)) }) (n : Nat) (hn : n ≤ s.upper.length) :
    ((List.range n).map (· + 1)).foldlM clockCore s
      = .ok { s with upper := cores.take n ++ s.upper.drop n } := by
  induction n with
  | zero => rfl
  | succ n ih =>
    have htake : (cores.take n).length = n := by rw [List.length_take]; omega
    have hget : (cores.take n ++ s.upper.drop n)[n]? = s.upper[n]? := by
      rw [List.getElem?_append_right (by omega), htake, List.getElem?_drop]
      congr 1
      omega
    rw [List.range_succ, List.map_append, List.foldlM_append, ih (by omega)]
    simp only [bind, Except.bind, List.map_cons, List.map_nil, List.foldlM_cons, List.foldlM_nil]
    rw [h n (by omega) _ hget]
    simp only [pure, Except.pure]
    congr 2
    rw [List.set_append_right _ _ (by omega), htake, Nat.sub_self, List.drop_eq_getElem_cons (by omega),
      List.set_cons_zero, List.take_add_one, List.getElem?_eq_getElem (by omega), List.append_assoc]
    rfl

/-- The Cores above, all quiet but for one Context of one of them. -/
theorem clockUpper_one {s : State} {k : Nat} (hk : k + 1 < s.coreCount) (hu : ∀ c ∈ s.upper, c.Quiet) {j : Fin 8}
    {x x' : Context} (hx : x.Settled) {st : Stage} (hst : s.atStage (k + 1) st = j)
    (hrun : runStage st (s.env (k + 1) j) x = .ok (.just x')) :
    clockUpper (s.setCtx (k + 1) j x) = .ok { s with upper := (s.setCtx (k + 1) j x').upper.map Core.tick } := by
  have hlt : k < s.upper.length := Nat.succ_lt_succ_iff.mp hk
  have hcore : s.core (k + 1) = s.upper[k] := getD_of_lt _ hlt
  have hupper : ∀ y, (s.setCtx (k + 1) j y).upper = s.upper.set k ((s.upper[k]).setCtx j y) := fun y => by
    rw [State.setCtx, hcore]
    rfl
  have hlen : ∀ y, (s.setCtx (k + 1) j y).upper.length = s.upper.length := fun y => by rw [hupper, List.length_set]
  have each := foldlM_clockCore_each (s := s.setCtx (k + 1) j x)
    (cores := (s.setCtx (k + 1) j x').upper.map Core.tick) (by rw [List.length_map, hlen, hlen]) ?clocks
    (s.setCtx (k + 1) j x).upper.length (le_refl _)
  case clocks =>
    intro m hbound before hbefore
    have hm : m < s.upper.length := hlen x ▸ hbound
    by_cases he : m = k
    · subst he
      have hget : before[m]? = some ((s.upper[m]).setCtx j x) := by
        rw [hbefore, hupper, List.getElem?_set_self hm]
      obtain ⟨hmem, hval⟩ := List.getElem?_eq_some_iff.mp hget
      have here : ({ s.setCtx (m + 1) j x with upper := before } : State).core (m + 1) = (s.upper[m]).setCtx j x :=
        (getD_of_lt _ hmem).trans hval
      have hat : ({ s.setCtx (m + 1) j x with upper := before } : State).atStage (m + 1) st = j := by
        rw [State.atStage, here, Core.setCtx_next, ← hcore]
        exact hst
      rw [clockCore_one (Nat.succ_lt_succ hmem) (hu _ (List.getElem_mem hlt)) hx here hat hrun]
      simp only [hupper, List.getElem_map, List.getElem_set_self]
      rfl
    · have hget : before[m]? = some s.upper[m] := by
        rw [hbefore, hupper, List.getElem?_set_ne (Ne.symm he), List.getElem?_eq_getElem hm]
      obtain ⟨hmem, hval⟩ := List.getElem?_eq_some_iff.mp hget
      rw [clockCore_quiet { s.setCtx (k + 1) j x with upper := before } m hmem
        (by simp only [hval]; exact hu _ (List.getElem_mem hm))]
      simp only [hval, hupper, List.getElem_map, List.getElem_set_ne (Ne.symm he)]
      rfl
  rw [clockUpper, each, List.drop_length, List.append_nil, List.take_of_length_le (by rw [List.length_map, hlen, hlen])]
  rfl

/-! ## The rest of a clock -/

/-- THE REST OF A CLOCK OF A CALM MACHINE, after the stage of the awake Context, in which one more Context of any Core has
work: those of the stages left that are not the awake Context's, the Cores above, and the Devices. -/
theorem restOfClock_one {s : State} {i : Fin 8} (h : s.Calm i) {k : Nat} (hk : k < s.coreCount) {j : Fin 8}
    (hne : ¬(k = 0 ∧ j = i)) {x x' : Context} (hx : x.Settled) {st : Stage} (hst : s.atStage k st = j)
    (hrun : runStage st (s.env k j) x = .ok (.just x')) {l : List Stage} (hnodup : l.Nodup)
    (hi : ∀ y ∈ l, s.atStage 0 y ≠ i) (hleft : k = 0 → st ∉ l → x' = x) :
    (l.foldlM (clockStage 0) (s.setCtx k j x)).bind postStages = .ok ((s.setCtx k j x').ticks 1) := by
  cases k with
  | zero =>
    have stages := foldlM_clockStage_one (s := s.setCtx 0 j x) hk hnodup (j := j) (st := st) (c := x')
      (fun y hy hother => by
        rw [State.ctx_setCtx_ne _ _ hother]
        exact h.others _ (hi y hy))
      hst (by rw [State.ctx_setCtx_same]; exact hrun)
    have after : (if st ∈ l then (s.setCtx 0 j x).setCtx 0 j x' else s.setCtx 0 j x) = s.setCtx 0 j x' := by
      split
      · exact State.setCtx_setCtx ..
      · next hmem => rw [hleft rfl hmem]
    rw [stages, after]
    exact postStages_quiet h.upper h.devices
  | succ k =>
    have stages : l.foldlM (clockStage 0) (s.setCtx (k + 1) j x) = .ok (s.setCtx (k + 1) j x) :=
      foldlM_clockStage_quiet _ l fun y hy => h.others _ (hi y hy)
    have upper := clockUpper_one (s := { s with core0 := s.core0.tick }) hk h.upper hx hst hrun
    rw [stages]
    show (do
      let t ← clockUpper ({ s with core0 := s.core0.tick }.setCtx (k + 1) j x)
      let t ← clockDevices t
      Except.ok t.tick) = _
    rw [upper]
    simp only [bind, Except.bind]
    rw [clockDevices_quiet _ (by exact h.devices)]
    rfl

/-- ONE CLOCK IN WHICH A SECOND CONTEXT, of any Core, HAS WORK after the awake one has run its stage: the stages before that
one change nothing, and that one leaves a calm machine but for the second Context. -/
theorem processorClock_two {s t : State} {i : Fin 8} (hrun : s.halted = false) (hpre : preStages s = .ok s)
    {before after : List Stage} {st0 : Stage} (hsplit : allStages = before ++ st0 :: after)
    (hbefore : before.foldlM (clockStage 0) s = .ok s) (h : t.Calm i) (hat : t.atStage 0 st0 = i) {k : Nat}
    (hk : k < t.coreCount) {j : Fin 8} (hne : ¬(k = 0 ∧ j = i)) {x x' : Context} (hx : x.Settled)
    (hacts : clockStage 0 s st0 = .ok (t.setCtx k j x)) {st : Stage} (hst : t.atStage k st = j)
    (hruns : runStage st (t.env k j) x = .ok (.just x')) (hleft : k = 0 → st ∉ after → x' = x) :
    processorClock s = .ok ((t.setCtx k j x').ticks 1) := by
  obtain ⟨hnotMem, hnodup⟩ := List.nodup_cons.mp (List.nodup_append.mp (hsplit ▸ nodup_allStages)).2.1
  have other : ∀ y ∈ after, t.atStage 0 y ≠ i := fun y hy e => hnotMem (State.atStage_inj (e.trans hat.symm) ▸ hy)
  rw [processorClock_eq hrun, hpre, Except.bind, hsplit, List.foldlM_append, hbefore]
  simp only [bind, Except.bind, List.foldlM_cons, hacts]
  exact restOfClock_one h hk hne hx hst hruns hnodup other hleft

/-- Before the stages of a clock of a calm machine nothing changes when one more Context, of any Core, has woken. -/
theorem State.Calm.preStages_setCtx {s : State} {i : Fin 8} (h : s.Calm i) (hl : s.LocksSettled i)
    (hd : (s.ctx 0 i).l1d.AtRest) {k : Nat} (hk : k < s.coreCount) {j : Fin 8} (hne : ¬(k = 0 ∧ j = i)) {x : Context}
    (hx : x.Settled) : preStages (s.setCtx k j x) = .ok (s.setCtx k j x) := by
  have settled : ∀ k' < s.coreCount, ∀ j', ¬(k' = 0 ∧ j' = i) → ((s.setCtx k j x).ctx k' j').Settled := by
    intro k' hk' j' hne'
    rw [State.ctx_setCtx hk]
    split
    · exact hx
    · exact (h.quiet hk' hne').settled
  have awake : (s.setCtx k j x).ctx 0 i = s.ctx 0 i := by
    rw [State.ctx_setCtx hk, if_neg fun e => hne ⟨e.1.symm, e.2.symm⟩]
  have locks : (s.setCtx k j x).LocksSettled i := by
    rw [State.LocksSettled, awake]
    cases k <;> exact hl
  refine preStages_atRest (j := i) ?memory ?l3 ?l2 (fun j' => ?caches)
    (fun k' hk' j' hne' => (settled k' ((SameShape.setCtx s k j x).coreCount ▸ hk') j' hne').noLock) locks
  case memory => cases k <;> exact h.memory
  case l3 => cases k <;> exact h.l3
  case l2 => cases k <;> exact h.l2
  case caches =>
    by_cases he : j' = i
    · rw [he, awake]; exact ⟨h.l1i, hd⟩
    · have := settled 0 (Nat.succ_pos _) j' fun e => he e.2
      exact ⟨this.l1i, this.l1d⟩

/-! ## A sleeping Context that is signalled -/

/-- A quiet Context that will take a Signal as soon as it is at LoadInstruction (R98, R100). -/
structure Context.Receptive (c : Context) : Prop where
  quiet : c.Quiet
  normal : c.interrupted = false
  noPending : c.pending = none
  noFetch : c.fetchIssued = false
  notRetrying : c.isRetrying = false

/-- The Context as its stage `st` leaves it in the clock in which it is signalled. -/
def Context.noticed (c : Context) : Stage → Context
  | .loadInstruction => c.signal.latchedInterrupt 0
  | _ => c.signal

/-- The Context as it is one clock later, when it was at stage `st` as it was signalled. -/
def Context.roused (c : Context) : Stage → Context
  | .fetch => c.signal.latchedInterrupt 0
  | .loadInstruction => (c.signal.latchedInterrupt 0).inFlight (.interrupt 0) true
  | _ => c.signal

theorem Context.noticed_of_ne (c : Context) {st : Stage} (h : st ≠ .loadInstruction) : c.noticed st = c.signal := by
  cases st with
  | loadInstruction => exact absurd rfl h
  | _ => rfl

theorem Context.roused_of_ne (c : Context) {st : Stage} (hfetch : st ≠ .fetch) (hload : st ≠ .loadInstruction) :
    c.roused st = c.noticed st := by
  cases st with
  | fetch => exact absurd rfl hfetch
  | loadInstruction => exact absurd rfl hload
  | _ => rfl

section Receptive

variable {c : Context}

/-- A Context with nothing in its latch and nothing in flight has work at Fetch and LoadInstruction only. -/
theorem runStage_empty {st : Stage} (hopcode : c.opcode = none) (hinstr : c.instruction = none) (hfetch : st ≠ .fetch)
    (hload : st ≠ .loadInstruction) (e : Env) : runStage st e c = .ok (.just c) := by
  cases st with
  | fetch => exact absurd rfl hfetch
  | loadInstruction => exact absurd rfl hload
  | decodeInstruction => simp only [runStage, decodeStage, hopcode, ite_self]; rfl
  | loadData => simp only [runStage, loadDataStage, phaseStage, hinstr, ite_self]
  | execute | format => simp only [runStage, phaseStage, hinstr]
  | store => simp only [runStage, storeStage, hinstr]
  | retire => simp only [runStage, retireStage, hinstr]

theorem Context.signal_takes (h : c.Receptive) : c.signal.Takes 0 := .inr ⟨h.noPending, rfl, rfl⟩

/-- With a Signal to take Fetch waits (R98). -/
theorem fetchStage_signalled (h : c.Receptive) (e : Env) : runStage .fetch e c.signal = .ok (.just c.signal) :=
  congrArg justly (fetchStage_takeable (Context.takeable_of_interrupt (by exact h.normal) (Context.signal_takes h)) e)

/-- LoadInstruction takes the Signal (R100). -/
theorem loadInstructionStage_signalled (h : c.Receptive) (e : Env) :
    runStage .loadInstruction e c.signal = .ok (.just (c.signal.latchedInterrupt 0)) :=
  congrArg justly (loadInstructionStage_interrupt (c := c.signal) rfl h.notRetrying h.noFetch h.normal
    (Context.signal_takes h) e)

/-- Decode puts the synthesized Interrupt in flight (R101). -/
theorem decodeStage_latchedInterrupt (h : c.Receptive) (e : Env) :
    runStage .decodeInstruction e (c.signal.latchedInterrupt 0)
      = .ok (.just ((c.signal.latchedInterrupt 0).inFlight (.interrupt 0) true)) := by
  have retries : (c.signal.latchedInterrupt 0).isRetrying = false := c.signal.taken_isRetrying.trans h.notRetrying
  have latched : (c.signal.latchedInterrupt 0).opcode = some { word := synthesizedWord 0, synthesized := true } := rfl
  have decoded : decode (synthesizedWord 0) = .ok (.interrupt 0) := decodeEncode _
  simp only [runStage, decodeStage, retries, latched, decoded, Bool.false_eq_true, if_false]
  rfl

/-- What each stage does with a Context in the clock in which it is signalled. -/
theorem runStage_signalled (h : c.Receptive) (st : Stage) (e : Env) :
    runStage st e c.signal = .ok (.just (c.noticed st)) := by
  cases st with
  | fetch => exact fetchStage_signalled h e
  | loadInstruction => exact loadInstructionStage_signalled h e
  | _ => exact runStage_empty (c := c.signal) h.quiet.noOpcode h.quiet.noInstruction (by decide) (by decide) e

/-- What the next stage does with it in the next clock. -/
theorem runStage_noticed (h : c.Receptive) (st : Stage) (e : Env) :
    runStage st.succ e (c.noticed st) = .ok (.just (c.roused st)) := by
  cases st with
  | fetch => exact loadInstructionStage_signalled h e
  | loadInstruction => exact decodeStage_latchedInterrupt h e
  | retire => exact fetchStage_signalled h e
  | _ => exact runStage_empty (c := c.signal) h.quiet.noOpcode h.quiet.noInstruction (by decide) (by decide) e

theorem Context.noticed_settled (h : c.Receptive) (st : Stage) : (c.noticed st).Settled := by
  cases st with
  | loadInstruction =>
    exact ⟨c.signal.taken_requiresLock.trans h.quiet.noLock, c.signal.taken_l1i ▸ h.quiet.l1i,
      c.signal.taken_l1d ▸ h.quiet.l1d⟩
  | _ => exact ⟨h.quiet.noLock, h.quiet.l1i, h.quiet.l1d⟩

/-- Which stage the Context was at as it was signalled says what is left of it one clock later. -/
theorem Context.woken_eq (h : c.Receptive) (next : Fin 8) (st : Stage) :
    c.woken next (next + 4 - st.number) = c.roused st := by
  have atLoad : next + 4 - st.number = next + 3 ↔ st = .loadInstruction := by
    rw [add_sub_assoc, add_right_inj]
    cases st <;> decide
  have atFetch : next + 4 - st.number = next + 4 ↔ st = .fetch := by
    rw [add_sub_assoc, add_right_inj]
    cases st <;> decide
  have latched : c.signal.latchedInterrupt 0
      = { c with asleep := false, signalled := false, opcode := some { word := 0x01600000, synthesized := true } } := by
    have taken : c.signal.taken = { c with asleep := false, signalled := false } :=
      if_neg (by simp [Context.signal, h.noPending])
    rw [Context.latchedInterrupt, taken]
    rfl
  simp only [Context.woken, atLoad, atFetch]
  cases st with
  | fetch => exact latched.symm
  | loadInstruction => rw [Context.roused, latched]; rfl
  | _ => rfl

end Receptive

end Sys2Proof.Machine
end

section
/-! Obligation O25: a Signal to another, sleeping Context of any Core. -/

namespace Sys2Proof.Machine

section Target

variable {s : State} {r : Reg} {k : Nat} {j : Fin 8} {st : Stage}

/-- The Store clock of a Signal to another Context: the target wakes, and its own stage of the clock sees it. -/
theorem storeClock_context (h : s.Alone) (hk : k < s.coreCount) (hne : ¬(k = 0 ∧ j = s.focal))
    (hid : (s.reg r).toNat = 8 * k + j) (htarget : (s.ctx k j).Receptive) (hst : (s.midSignal r 4).atStage k st = j) :
    processorClock (s.midSignal r 4) = .ok ((s.midSignal r 5).setCtx k j ((s.ctx k j).noticed st)) := by
  have calm := State.midSignal_calm (r := r) h 4
  have hk4 : k < (s.midSignal r 4).coreCount := by rwa [State.midSignal_coreCount]
  have hat : (s.midSignal r 4).atStage 0 .store = s.focal := s.focal_stage 4 .store (by decide)
  have signalled : clockStage 0 (s.midSignal r 4) .store = .ok ((s.midSignal r 4).setCtx k j (s.ctx k j).signal) := by
    rw [clockStage_signal, hid, State.signal_context hk4, State.midSignal_ctx_other hk hne]
  have settled : (s.ctx k j).signal.Settled := ⟨htarget.quiet.noLock, htarget.quiet.l1i, htarget.quiet.l1d⟩
  have retireQuiet : [Stage.retire].foldlM (clockStage 0) (s.midSignal r 4) = .ok (s.midSignal r 4) := by
    apply foldlM_clockStage_quiet
    intro y hy
    rw [List.mem_singleton.mp hy]
    exact calm.others _ fun e => absurd (State.atStage_inj (e.trans hat.symm)) (by decide)
  have clock := processorClock_two calm.running (preStages_midSignal h 4 s.devices) (before := [.retire])
    (after := [.format, .execute, .loadData, .decodeInstruction, .loadInstruction, .fetch]) rfl retireQuiet calm hat hk4
    hne settled signalled hst (runStage_signalled htarget st _)
    (fun _ hmem => Context.noticed_of_ne _ (by rintro rfl; exact hmem (by decide)))
  rw [clock, ← State.setCtx_ticks_core hk4, State.midSignal, State.ticks_ticks]
  rfl

/-- The Retire clock of a Signal to another Context, which goes on one stage further. -/
theorem retireClock_context (h : s.Alone) (hr : s.focalCtx.Ready) (hk : k < s.coreCount) (hne : ¬(k = 0 ∧ j = s.focal))
    (htarget : (s.ctx k j).Receptive) (hst : (s.midSignal r 5).atStage k st.succ = j) :
    processorClock ((s.midSignal r 5).setCtx k j ((s.ctx k j).noticed st))
      = .ok ((s.setCtx k j ((s.ctx k j).roused st)).afterVisit s.focalCtx.completed) := by
  have hk5 : k < (s.midSignal r 5).coreCount := by rwa [State.midSignal_coreCount]
  have settled := Context.noticed_settled htarget st
  have calm5 := State.midSignal_calm (r := r) h 5
  have calm : ((s.setCtx 0 s.focal s.focalCtx.completed).ticks 5).Calm s.focal := h.calm.moved 5 h.calm.l1i
  have pre := calm5.preStages_setCtx (State.midSignal_locks h 5) (by rw [State.midSignal_ctx]; exact h.l1d) hk5 hne settled
  have hat : ((s.midSignal r 5).setCtx k j ((s.ctx k j).noticed st)).atStage 0 .retire = s.focal :=
    (State.atStage_setCtx hk5 _ _ _).trans (s.focal_stage 5 .retire (by decide))
  have retired : clockStage 0 ((s.midSignal r 5).setCtx k j ((s.ctx k j).noticed st)) .retire
      = .ok (((s.setCtx 0 s.focal s.focalCtx.completed).ticks 5).setCtx k j ((s.ctx k j).noticed st)) := by
    rw [clockStage_signal_retires hr hat (by
        rw [State.ctx_setCtx hk5, if_neg fun e => hne ⟨e.1.symm, e.2.symm⟩, State.midSignal_ctx]),
      State.setCtx_comm hne, State.midSignal_setCtx]
  have hst' : ((s.setCtx 0 s.focal s.focalCtx.completed).ticks 5).atStage k st.succ = j := by
    rw [← State.midSignal_setCtx (r := r), State.atStage_setCtx (Nat.succ_pos _), hst]
  have running : ((s.midSignal r 5).setCtx k j ((s.ctx k j).noticed st)).halted = false := by
    cases k <;> exact calm5.running
  have clock := processorClock_two running pre (before := [])
    (after := [.store, .format, .execute, .loadData, .decodeInstruction, .loadInstruction, .fetch]) rfl rfl calm
    (s.focal_stage 5 .retire (by decide)) (by exact hk5) hne settled retired hst' (runStage_noticed htarget st _)
    (fun _ hmem => Context.roused_of_ne _ (by rintro rfl; exact hmem (by decide)) (by rintro rfl; exact hmem (by decide)))
  have focal : (s.setCtx k j ((s.ctx k j).roused st)).focal = s.focal := State.atStage_setCtx hk _ _ _
  rw [clock, State.setCtx_ticks_core (by exact hk), State.ticks_ticks, ← State.setCtx_comm hne, State.afterVisit, focal]

end Target

/-- Settles O25: the target's stage as it is signalled, and its next one, leave it as `woken` says. -/
theorem signalContext : Obligations.SignalContext := by
  intro s r k j h hr hk hne hid hnormal hpending hfetch hretry
  have htarget : (s.ctx k j).Receptive := ⟨h.calm.quiet hk hne, hnormal, hpending, hfetch, hretry⟩
  obtain ⟨st, hst⟩ := (s.midSignal r 4).exists_atStage k j
  have next : ∀ n, ((s.midSignal r n).core k).next = (s.core k).next + Fin.ofNat 8 n := by
    intro n
    rw [State.midSignal, State.core_ticks (by exact hk), Core.ticks_next]
    cases k <;> rfl
  have place : j = (s.core k).next + 4 - st.number := by
    rw [← hst, State.atStage, next]
    rfl
  have hst5 : (s.midSignal r 5).atStage k st.succ = j := by
    have five : Fin.ofNat 8 5 = (4 + 1 : Fin 8) := rfl
    rw [State.atStage, next, Stage.number_succ, five, ← add_assoc, add_sub_add_right_eq_sub, ← place]
  have woken : (s.ctx k j).woken (s.core k).next j = (s.ctx k j).roused st :=
    (congrArg (Context.woken _ _) place).trans (Context.woken_eq htarget _ st)
  rw [woken]
  exact exec_signal h hr (storeClock_context h hk hne hid htarget hst) (retireClock_context h hr hk hne htarget hst5)

end Sys2Proof.Machine
end

section
/-! SUPPORT. What an agent can do to the cursor and the lock of a Core, and to who holds the system lock: everything but the
polls and the end of a Core's clock leaves them alone (R106, R162, R163). -/

namespace Sys2Proof.Machine

/-! ## A Core whose cursor and lock stay as they are -/

/-- The cursor of a Core, its lock and its claim to the system lock are the same (R32). -/
structure Core.KeepsLock (c d : Core) : Prop where
  next : d.next = c.next
  holder : d.holder = c.holder
  coreAcquired : d.coreAcquired = c.coreAcquired
  acquiredLock : ∀ j, (d.ctx j).acquiredLock = (c.ctx j).acquiredLock

theorem Core.KeepsLock.refl (c : Core) : c.KeepsLock c := ⟨rfl, rfl, rfl, fun _ => rfl⟩

theorem Core.KeepsLock.trans {c d e : Core} (h : c.KeepsLock d) (h' : d.KeepsLock e) : c.KeepsLock e :=
  ⟨h'.next.trans h.next, h'.holder.trans h.holder, h'.coreAcquired.trans h.coreAcquired,
    fun j => (h'.acquiredLock j).trans (h.acquiredLock j)⟩

theorem Core.KeepsLock.setCtx {c : Core} {j : Fin 8} {x : Context} (h : x.acquiredLock = (c.ctx j).acquiredLock) :
    c.KeepsLock (c.setCtx j x) := by
  refine ⟨rfl, rfl, rfl, fun i => ?_⟩
  rw [Core.ctx_setCtx]
  split
  · next e => rw [e, h]
  · rfl

/-- A Signal and the halt leave the lock alone (R144, R161). -/
theorem Core.Notified.keepsLock {c d : Core} (h : c.Notified d) : c.KeepsLock d := by
  rcases h with rfl | ⟨j, rfl⟩
  · exact .refl d
  · exact .setCtx rfl

/-- A Core's poll leaves its cursor and its claim to the system lock alone (R163). -/
theorem Core.lockPoll_keeps (table : List (List Nat × Nat)) (c : Core) :
    (c.lockPoll table).next = c.next ∧ (c.lockPoll table).coreAcquired = c.coreAcquired := by
  have release : c.releaseLock.next = c.next ∧ c.releaseLock.coreAcquired = c.coreAcquired := by
    unfold Core.releaseLock
    split
    · split <;> exact ⟨rfl, rfl⟩
    · exact ⟨rfl, rfl⟩
  unfold Core.lockPoll Core.grantLock
  split
  all_goals exact release

/-- No stage grants or takes the lock: only the poll writes `acquiredLock` (R163). -/
theorem StageChange.acquiredLock {st : Stage} {e : Env} {c : Context} {r : PhaseOut} (h : StageChange e c st r) :
    r.ctx.acquiredLock = c.acquiredLock := by
  cases h with
  | same => rfl
  | fetchError h => exact (PhaseFrame.raise h).acquiredLock
  | fetch => rfl
  | latch => rfl
  | decode => rfl
  | phase _ _ h => exact ((runPhase_frame ..).frame r h).acquiredLock
  | @retire f r hf h =>
    have before : r.ctx.acquiredLock = c.acquiredLock := by
      rcases h with rfl | h
      · rfl
      · exact ((runPhase_frame ..).frame r h).acquiredLock
    rcases settleRetire_ctx r with hs | hs
    · rw [hs]; exact before
    · rw [hs]; exact before

/-! ## What an agent can do to a Core's cursor and lock -/

/-- All an agent can do to the cursor and the lock of Core k, which is `c`, with the election table `table`. -/
inductive CoreChange (a : Agent) (table : List (List Nat × Nat)) (k : Nat) (c : Core) : Core → Prop where
  | keeps {d : Core} (h : c.KeepsLock d) : CoreChange a table k c d
  | acquired (ha : a = .poll) (b : Bool) : CoreChange a table k c { c with coreAcquired := b }
  | polled (ha : a = .corePoll k) : CoreChange a table k c (c.lockPoll table)
  | tick (ha : a = .coreTick k) : CoreChange a table k c c.tick

/-- WHAT AN AGENT DOES TO A CORE'S CURSOR AND LOCK (R106, R161 to R163). -/
theorem Agent.act_core {a : Agent} {s t : State} (hr : a.InRange s.coreCount) (h : a.act s = .ok t) (k : Nat) :
    CoreChange a s.cfg.lockElect k (s.core k) (t.core k) := by
  have of_core : t.core k = s.core k → CoreChange a s.cfg.lockElect k (s.core k) (t.core k) :=
    fun e => e ▸ .keeps (.refl _)
  have of_setCore : ∀ (i : Nat) (c : Core) (u : State), i < s.coreCount → u.core k = (s.setCore i c).core k →
      CoreChange a s.cfg.lockElect i (s.core i) c → CoreChange a s.cfg.lockElect k (s.core k) (u.core k) := by
    intro i c u hi hu hc
    rw [hu, State.core_setCore hi]
    split
    · next e => exact e ▸ hc
    · exact .keeps (.refl _)
  cases a with
  | memory =>
    rcases clockMemory_ok h with rfl | ⟨m, -, rfl⟩
    · exact .keeps (.refl _)
    · exact of_core (by cases k <;> rfl)
  | l3 =>
    rcases clockL3_ok h with rfl | ⟨l3, port, -, rfl⟩
    · exact .keeps (.refl _)
    · exact of_core (by cases k <;> rfl)
  | poll =>
    injection h with h
    subst h
    obtain ⟨b, hb⟩ := s.lockPoll_polled.core k
    rw [hb]
    exact .acquired rfl b
  | l2 i =>
    rcases clockL2_ok h with rfl | ⟨l2, port, -, rfl⟩
    · exact .keeps (.refl _)
    · exact of_setCore i { s.core i with l2 := l2 } _ (hr i rfl) (by cases k <;> rfl)
        (.keeps ⟨rfl, rfl, rfl, fun _ => rfl⟩)
  | l1 i m =>
    obtain ⟨d, hc, rfl⟩ := map_ok h
    obtain ⟨l1i, p1, l1d, p2, -, -, rfl⟩ := Core.clockL1_ok hc
    have caches : (s.core i).KeepsLock ((s.core i).setCtx m { (s.core i).ctx m with l1i := l1i, l1d := l1d }) :=
      .setCtx rfl
    exact of_setCore i _ _ (hr i rfl) rfl (.keeps (caches.trans ⟨rfl, rfl, rfl, fun _ => rfl⟩))
  | corePoll i =>
    injection h with h
    subst h
    exact of_setCore i _ _ (hr i rfl) rfl (.polled rfl)
  | stage i st =>
    obtain ⟨r, hrun, hn⟩ := clockStage_ok h
    have stage : (s.core k).KeepsLock ((s.setCtx i (s.atStage i st) r.ctx).core k) := by
      rw [State.setCtx, State.core_setCore (hr i rfl)]
      split
      · next e =>
        subst e
        exact .setCtx (runStage_change hrun).acquiredLock
      · exact .refl _
    exact .keeps (stage.trans (hn.core k).keepsLock)
  | coreTick i =>
    injection h with h
    subst h
    exact of_setCore i _ _ (hr i rfl) rfl (.tick rfl)
  | device d =>
    rcases clockDevice_ok h with rfl | ⟨x, cfg, x', port, done, -, -, hn⟩
    · exact .keeps (.refl _)
    · have same : State.core { s with devices := s.devices.set d x', memory := { s.memory with port := port } } k
          = s.core k := by cases k <;> rfl
      exact .keeps (same ▸ (hn.core k).keepsLock)

/-! ## What an agent can do to the holder of the system lock -/

@[simp] theorem State.setCore_pholder (s : State) (k : Nat) (c : Core) : (s.setCore k c).pholder = s.pholder := by
  cases k <;> rfl

theorem State.signal_pholder {s t : State} {id : Nat} (h : s.signal id = .ok t) : t.pholder = s.pholder := by
  unfold State.signal at h
  split at h
  · injection h with h
    rw [← h, State.setCtx, State.setCore_pholder]
  · split at h
    · obtain ⟨x, -, h⟩ := bind_ok h
      injection h with h
      rw [← h]
    · cases h

theorem State.apply_pholder {s t : State} {e : Effect} (h : s.apply e = .ok t) : t.pholder = s.pholder := by
  cases e with
  | none => injection h with h; rw [h]
  | signal id => exact State.signal_pholder h
  | halt => injection h with h; rw [← h]

/-- Only the Processor's poll moves the system lock (R162). -/
theorem Agent.act_pholder {a : Agent} {s t : State} (h : a.act s = .ok t) (ha : a ≠ .poll) : t.pholder = s.pholder := by
  cases a with
  | memory => rcases clockMemory_ok h with rfl | ⟨m, -, rfl⟩ <;> rfl
  | l3 => rcases clockL3_ok h with rfl | ⟨l3, port, -, rfl⟩ <;> rfl
  | poll => exact absurd rfl ha
  | l2 k => rcases clockL2_ok h with rfl | ⟨l2, port, -, rfl⟩ <;> simp
  | l1 k j => obtain ⟨c, -, rfl⟩ := map_ok h; simp
  | corePoll k => injection h with h; rw [← h, State.setCore_pholder]
  | stage k st =>
    obtain ⟨r, -, h⟩ := bind_ok h
    rw [State.apply_pholder h, State.setCtx, State.setCore_pholder]
  | coreTick k => injection h with h; rw [← h, State.setCore_pholder]
  | device d =>
    change clockDevice s d = .ok t at h
    unfold clockDevice at h
    split at h
    · obtain ⟨⟨x, port, done⟩, -, h⟩ := bind_ok h
      cases done with
      | none => injection h with h; rw [← h]
      | some id =>
        exact State.signal_pholder
          (s := { s with devices := s.devices.set d x, memory := { s.memory with port := port } }) h
    · injection h with h; rw [h]

/-! ## A run of the agents of a machine -/

/-- A relation that is reflexive and transitive, and that every agent of the list keeps in the machine it belongs to, holds
across the list. -/
theorem Runs.relInRange {R : State → State → Prop} (hrefl : ∀ s, R s s) (htrans : ∀ s t u, R s t → R t u → R s u)
    {l : List Agent} {s t : State} (h : Runs l s t) (hl : ∀ a ∈ l, a.InRange s.coreCount)
    (hact : ∀ a ∈ l, ∀ u v, a.InRange u.coreCount → a.act u = .ok v → R u v) : R s t := by
  have across : s.coreCount = s.coreCount → t.coreCount = s.coreCount ∧ R s t := by
    refine h.rel (R := fun u v => u.coreCount = s.coreCount → v.coreCount = s.coreCount ∧ R u v) ?_ ?_ ?_
    · exact fun u hu => ⟨hu, hrefl u⟩
    · intro u v w huv hvw hu
      obtain ⟨hv, ruv⟩ := huv hu
      obtain ⟨hw, rvw⟩ := hvw hv
      exact ⟨hw, htrans u v w ruv rvw⟩
    · exact fun a ha u v hact' hu => ⟨(Agent.act_shape hact').coreCount.trans hu, hact a ha u v (hu ▸ hl a ha) hact'⟩
  exact (across rfl).2

/-- The agents of a clock are those before Core k's, Core k's own, and those after them (R106, R110). -/
theorem State.schedule_core {s : State} {k : Nat} (hk : k < s.coreCount) :
    ∃ l l', s.schedule = .memory :: .l3 :: .poll :: (l ++ (coreAgents k ++ l')) ∧
      ∀ a ∈ l ++ l', a.core? ≠ some k ∧ a ≠ .poll := by
  obtain ⟨before, after, hsplit⟩ := List.append_of_mem (List.mem_range.2 hk)
  have nodup := List.nodup_range (n := s.coreCount)
  rw [hsplit, List.nodup_middle, List.nodup_cons] at nodup
  have other : ∀ i ∈ before ++ after, ∀ a ∈ coreAgents i, a.core? ≠ some k ∧ a ≠ .poll := by
    intro i hi a ha
    have hcore := coreAgents_core ha
    refine ⟨fun e => nodup.1 ?_, ?_⟩
    · rwa [← Option.some.inj (hcore.symm.trans e)]
    · rintro rfl; cases hcore
  refine ⟨before.flatMap coreAgents, after.flatMap coreAgents ++
    if s.cycle % s.cfg.divDev = 0 then (List.range s.devices.length).map .device else [], ?_, ?_⟩
  · simp only [State.schedule, hsplit, List.flatMap_append, List.flatMap_cons, List.append_assoc]
  · intro a ha
    simp only [List.mem_append, List.mem_flatMap] at ha
    rcases ha with ⟨i, hi, ha⟩ | ⟨i, hi, ha⟩ | ha
    · exact other i (List.mem_append_left _ hi) a ha
    · exact other i (List.mem_append_right _ hi) a ha
    · split at ha
      · obtain ⟨d, -, rfl⟩ := List.mem_map.1 ha
        exact ⟨Option.some_ne_none k |>.symm, Agent.noConfusion⟩
      · cases ha

end Sys2Proof.Machine
end

section
/-! Obligation O59: the lock is exclusive. Between the Processor's poll and its own a Core may still have a holder without the
system lock; the rest of the two levels' consistency holds at every moment of a clock. -/

namespace Sys2Proof.Machine

/-! ## The lock of a Core (R163) -/

/-- The Context that has acquired the lock of a Core is its holder (R32). -/
def Core.HolderAcquired (c : Core) : Prop := ∀ j, (c.ctx j).acquiredLock = true ↔ c.holder = some j

/-- Only a Core with the system lock has a holder (R163). -/
def Core.HolderEntitled (c : Core) : Prop := c.holder.isSome = true → c.coreAcquired = true

theorem Core.KeepsLock.holderAcquired {c d : Core} (h : c.KeepsLock d) (hc : c.HolderAcquired) : d.HolderAcquired := by
  intro j
  rw [h.acquiredLock, h.holder]
  exact hc j

theorem Core.KeepsLock.holderEntitled {c d : Core} (h : c.KeepsLock d) (hc : c.HolderEntitled) : d.HolderEntitled := by
  rw [Core.HolderEntitled, h.holder, h.coreAcquired]
  exact hc

/-- The release takes the lock from the Context that held it and from no other. -/
theorem Core.releaseLock_holderAcquired {c : Core} (h : c.HolderAcquired) : c.releaseLock.HolderAcquired := by
  unfold Core.releaseLock
  split
  · next j hj =>
    split
    · intro i
      show ((c.setCtx j { c.ctx j with acquiredLock := false }).ctx i).acquiredLock = true ↔ none = some i
      rw [Core.ctx_setCtx]
      split
      · simp
      · next hne => simpa [hj, Ne.symm hne] using h i
    · exact h
  · exact h

/-- After the release only a Core with the system lock has a holder. -/
theorem Core.releaseLock_holderEntitled (c : Core) : c.releaseLock.HolderEntitled := by
  unfold Core.releaseLock
  split
  · split
    · exact fun h => absurd h Bool.false_ne_true
    · next hkeep =>
      intro _
      simp only [Bool.or_eq_true, not_or, Bool.not_eq_true, Bool.not_eq_false'] at hkeep
      exact hkeep.2
  · next hnone => simp [Core.HolderEntitled, hnone]

/-- The grant gives a lock that nobody holds to one Context. -/
theorem Core.grantLock_holderAcquired {c : Core} (table : List (List Nat × Nat)) (h : c.HolderAcquired) :
    (c.grantLock table).HolderAcquired := by
  unfold Core.grantLock
  split
  · next hfree =>
    intro i
    generalize Fin.ofNat 8 (lockElect table (c.requesters.map Fin.val)) = j
    show ((c.setCtx j { c.ctx j with acquiredLock := true }).ctx i).acquiredLock = true ↔ some j = some i
    rw [Core.ctx_setCtx]
    split
    · next e => simp [e]
    · next hne => simpa [hfree.1, Ne.symm hne] using h i
  · exact h

/-- The grant is made only with the system lock. -/
theorem Core.grantLock_holderEntitled {c : Core} (table : List (List Nat × Nat)) (h : c.HolderEntitled) :
    (c.grantLock table).HolderEntitled := by
  unfold Core.grantLock
  split
  · next hfree => exact fun _ => hfree.2.1
  · exact h

/-- Every change of a Core keeps its holder the Context that has acquired its lock. -/
theorem CoreChange.holderAcquired {a : Agent} {table : List (List Nat × Nat)} {k : Nat} {c d : Core}
    (h : CoreChange a table k c d) (hc : c.HolderAcquired) : d.HolderAcquired := by
  cases h with
  | keeps h => exact h.holderAcquired hc
  | acquired => exact hc
  | polled => exact Core.grantLock_holderAcquired table (Core.releaseLock_holderAcquired hc)
  | tick => exact hc

/-- Every change of a Core but the Processor's poll keeps its holder entitled. -/
theorem CoreChange.holderEntitled {a : Agent} {table : List (List Nat × Nat)} {k : Nat} {c d : Core}
    (h : CoreChange a table k c d) (ha : a ≠ .poll) (hc : c.HolderEntitled) : d.HolderEntitled := by
  cases h with
  | keeps h => exact h.holderEntitled hc
  | acquired hpoll => exact absurd hpoll ha
  | polled => exact Core.grantLock_holderEntitled table c.releaseLock_holderEntitled
  | tick => exact hc

/-- Every change of a Core but the polls keeps its claim to the system lock. -/
theorem CoreChange.coreAcquired {a : Agent} {table : List (List Nat × Nat)} {k : Nat} {c d : Core}
    (h : CoreChange a table k c d) (ha : a ≠ .poll) : d.coreAcquired = c.coreAcquired := by
  cases h with
  | keeps h => exact h.coreAcquired
  | acquired hpoll => exact absurd hpoll ha
  | polled => exact (c.lockPoll_keeps table).2
  | tick => rfl

/-! ## The system lock (R162) -/

/-- The Cores with the system lock are the one that `pholder` names (R165). -/
def State.SystemLockHeld (s : State) : Prop := ∀ k < s.coreCount, (s.core k).coreAcquired = true ↔ s.pholder = some k

/-- A Core that the machine does not have is not replaced. -/
theorem State.setCore_of_le {s : State} {k : Nat} (hk : s.coreCount ≤ k) (c : Core) : s.setCore k c = s := by
  cases k with
  | zero => exact absurd hk (Nat.not_succ_le_zero _)
  | succ k => rw [State.setCore_succ, List.set_eq_of_length_le (Nat.succ_le_succ_iff.1 hk)]

/-- The claims to the system lock after one of them is replaced (R162). -/
theorem State.coreAcquired_setAcquired {s : State} {k' : Nat} (hk' : k' < s.coreCount) (k : Nat) (b : Bool) :
    ((s.setAcquired k b).core k').coreAcquired = if k' = k then b else (s.core k').coreAcquired := by
  rw [State.setAcquired]
  rcases lt_or_ge k s.coreCount with hk | hk
  · rw [State.core_setCore hk]
    split <;> rfl
  · rw [State.setCore_of_le hk, if_neg (Nat.ne_of_lt (hk'.trans_le hk))]

/-- The system lock is held as it should be after Core k's claim and the holder are replaced, when k was the only Core with a
claim and keeps it just when it is the new holder. -/
theorem State.SystemLockHeld.setAcquired {s : State} {k : Nat} (h : s.SystemLockHeld) (b : Bool) {p : Option Nat}
    (honly : ∀ k', k' ≠ k → s.pholder ≠ some k' ∧ p ≠ some k') (hb : b = true ↔ p = some k) :
    State.SystemLockHeld { s.setAcquired k b with pholder := p } := by
  intro k' hk'
  have hcore : State.core { s.setAcquired k b with pholder := p } k' = (s.setAcquired k b).core k' := by cases k' <;> rfl
  have hlt : k' < s.coreCount := by simpa [State.coreCount, State.setAcquired] using hk'
  rw [hcore, State.coreAcquired_setAcquired hlt]
  split
  · next e => rw [e]; exact hb
  · next hne =>
    obtain ⟨hold, hnew⟩ := honly k' hne
    exact iff_of_false (fun hc => hold ((h k' hlt).1 hc)) hnew

/-- The Processor's poll keeps the system lock with the Core that `pholder` names: the release takes the only claim, the
grant finds none (R162). -/
theorem State.lockPoll_held {s : State} (h : s.SystemLockHeld) : s.lockPoll.SystemLockHeld := by
  have release : s.releaseSystemLock.SystemLockHeld := by
    unfold State.releaseSystemLock
    split
    · next k hk =>
      split
      · exact h
      · exact h.setAcquired false (fun k' hne => ⟨by simp [hk, Ne.symm hne], by simp⟩) (by simp)
    · exact h
  unfold State.lockPoll State.grantSystemLock
  split
  · next hfree => exact release.setAcquired true (fun k' hne => ⟨by simp [hfree.1], by simp [Ne.symm hne]⟩) (by simp)
  · exact release

/-! ## The two levels in a clock -/

/-- What holds of the two-level lock at every moment of a clock: at each level the holder is the one with the lock. -/
def State.LocksHeld (s : State) : Prop := (∀ k < s.coreCount, (s.core k).HolderAcquired) ∧ s.SystemLockHeld

theorem State.locksConsistent_iff {s : State} :
    s.LocksConsistent ↔ s.LocksHeld ∧ ∀ k < s.coreCount, (s.core k).HolderEntitled := by
  constructor
  · rintro ⟨hcores, hsystem⟩
    exact ⟨⟨fun k hk => (hcores k hk).1, hsystem⟩, fun k hk => (hcores k hk).2⟩
  · rintro ⟨⟨hcores, hsystem⟩, hentitled⟩
    exact ⟨fun k hk => ⟨hcores k hk, hentitled k hk⟩, hsystem⟩

/-- Every agent keeps it. -/
theorem Agent.act_locksHeld {a : Agent} {s t : State} (hr : a.InRange s.coreCount) (h : a.act s = .ok t)
    (hs : s.LocksHeld) : t.LocksHeld := by
  obtain ⟨hcores, hsystem⟩ := hs
  have hcount := (Agent.act_shape h).coreCount
  refine ⟨fun k hk => (Agent.act_core hr h k).holderAcquired (hcores k (hcount ▸ hk)), ?_⟩
  by_cases ha : a = .poll
  · subst ha
    injection h with h
    exact h ▸ State.lockPoll_held hsystem
  · intro k hk
    rw [(Agent.act_core hr h k).coreAcquired ha, Agent.act_pholder h ha]
    exact hsystem k (hcount ▸ hk)

/-- After a Core's own poll the Processor's does not come again in a clock (R106, R110). -/
theorem State.schedule_corePoll {s : State} {k : Nat} (hk : k < s.coreCount) :
    ∃ before after, s.schedule = before ++ .corePoll k :: after ∧ .poll ∉ after := by
  obtain ⟨l, l', hsplit, hother⟩ := State.schedule_core hk
  have own : ∀ a ∈ coreAgents k, a ≠ .poll := by
    rintro a ha rfl
    cases coreAgents_core ha
  have hnone : .poll ∉ l ++ (coreAgents k ++ l') := by
    intro hm
    simp only [List.mem_append] at hm
    rcases hm with hm | hm | hm
    · exact (hother _ (List.mem_append_left _ hm)).2 rfl
    · exact own _ hm rfl
    · exact (hother _ (List.mem_append_right _ hm)).2 rfl
  have hmem : .corePoll k ∈ l ++ (coreAgents k ++ l') := by simp [coreAgents]
  obtain ⟨before, after, htail⟩ := List.append_of_mem hmem
  rw [htail] at hsplit hnone
  exact ⟨.memory :: .l3 :: .poll :: before, after, hsplit, fun hm => hnone (by simp [hm])⟩

/-- At the end of a clock the holder of every Core is entitled: the Core's own poll comes after the Processor's (R110). -/
theorem Runs.holderEntitled {s t : State} (h : Runs s.schedule s t) {k : Nat} (hk : k < s.coreCount) :
    (t.core k).HolderEntitled := by
  obtain ⟨before, after, hsplit, hnone⟩ := State.schedule_corePoll hk
  have hrange := s.schedule_inRange
  rw [hsplit] at h hrange
  obtain ⟨u, hbefore, h⟩ := runs_append.1 h
  obtain ⟨v, hpoll, hafter⟩ := runs_cons h
  have hu := hbefore.shape.coreCount
  have hv := (Agent.act_shape hpoll).coreCount
  have entitled : (v.core k).HolderEntitled := by
    injection hpoll with hpoll
    rw [← hpoll, State.core_setCore (hu ▸ hk), if_pos rfl]
    exact Core.grantLock_holderEntitled _ (Core.releaseLock_holderEntitled _)
  refine hafter.relInRange (R := fun x y => (x.core k).HolderEntitled → (y.core k).HolderEntitled) (fun _ => id)
    (fun _ _ _ hxy hyz hx => hyz (hxy hx)) ?_ ?_ entitled
  · intro a ha
    rw [hv, hu]
    exact hrange a (by simp [ha])
  · exact fun a ha x y hr hact => (Agent.act_core hr hact k).holderEntitled fun e => hnone (e ▸ ha)

/-- A clock keeps the two-level lock consistent. -/
theorem processorClock_locksConsistent {s t : State} (h : processorClock s = .ok t) (hs : s.LocksConsistent) :
    t.LocksConsistent := by
  cases hrun : s.halted with
  | true =>
    rw [processorClock, hrun] at h
    injection h with h
    exact h ▸ hs
  | false =>
    obtain ⟨hheld, -⟩ := State.locksConsistent_iff.1 hs
    obtain ⟨u, hu, rfl⟩ := processorClock_runs hrun h
    have tick : ∀ x : State, ∀ k, x.tick.core k = x.core k := fun x k => by cases k <;> rfl
    have keeps : u.LocksHeld := hu.relInRange (R := fun x y => x.LocksHeld → y.LocksHeld) (fun _ => id)
      (fun _ _ _ hxy hyz hx => hyz (hxy hx)) s.schedule_inRange (fun _ _ _ _ => Agent.act_locksHeld) hheld
    have entitled : ∀ k < u.coreCount, (u.core k).HolderEntitled := fun k hk =>
      hu.holderEntitled (hu.shape.coreCount ▸ hk)
    obtain ⟨hcores, hsystem⟩ := State.locksConsistent_iff.2 ⟨keeps, entitled⟩
    refine ⟨fun k hk => ?_, fun k hk => ?_⟩
    · rw [tick]; exact hcores k hk
    · rw [tick]; exact hsystem k hk

/-- With a consistent lock a Context that has acquired it sits in the Core that `pholder` names, and is that Core's holder. -/
theorem State.LocksConsistent.exclusive {s : State} (h : s.LocksConsistent) : s.LockExclusive := by
  obtain ⟨hcores, hsystem⟩ := h
  have holds : ∀ k < s.coreCount, ∀ j, (s.ctx k j).acquiredLock = true →
      (s.core k).holder = some j ∧ s.pholder = some k := by
    intro k hk j hj
    obtain ⟨hacquired, hentitled⟩ := hcores k hk
    have hholder : (s.core k).holder = some j := (hacquired j).1 hj
    exact ⟨hholder, (hsystem k hk).1 (hentitled (by rw [hholder]; rfl))⟩
  intro k hk k' hk' j j' hj hj'
  obtain ⟨hholder, hp⟩ := holds k hk j hj
  obtain ⟨hholder', hp'⟩ := holds k' hk' j' hj'
  have hcore : k = k' := Option.some.inj (hp.symm.trans hp')
  subst hcore
  exact ⟨rfl, Option.some.inj (hholder.symm.trans hholder')⟩

/-- Settles O59: each of a step's clocks keeps the lock consistent, and a consistent lock is exclusive. -/
theorem lockExclusion : Obligations.LockExclusion := by
  intro s t hs h
  have ht : t.LocksConsistent :=
    clocks_keeps (fun _ _ hclock => processorClock_locksConsistent hclock) 8 (step_clocks h) hs
  exact ⟨ht, ht.exclusive⟩

end Sys2Proof.Machine
end

section
/-! Obligation O46: the mode changes only at the Retire of Interrupt and of Uninterrupt. -/

namespace Sys2Proof.Machine

/-- A Context has in flight a successful Interrupt, and `mode` is interrupt mode, or a successful Uninterrupt, and `mode` is
normal mode (R150, R151). -/
def Context.Moves (c : Context) (mode : Bool) : Prop :=
  ∃ f, c.instruction = some f ∧ f.success = true ∧
    ((∃ v, f.instr = .interrupt v ∧ mode = true) ∨ (f.instr = .uninterrupt ∧ mode = false))

/-- A phase that changes the mode is an Interrupt's entry or an Uninterrupt's return (R160). -/
theorem PhaseChange.mode {i : Instr} {p : Phase} {c c' : Context} (h : PhaseChange i p c c')
    (hm : c'.interrupted ≠ c.interrupted) :
    (∃ v, i = .interrupt v ∧ c'.interrupted = true) ∨ (i = .uninterrupt ∧ c'.interrupted = false) := by
  cases h with
  | step h => exact absurd h.control.mode hm
  | entry v hi _ h =>
    obtain ⟨-, rfl⟩ := Context.interruptEntry_ok h
    exact .inl ⟨v, hi, by simp [Context.setPc]⟩
  | back hi _ h =>
    subst h
    exact .inr ⟨hi, rfl⟩

/-- A Retire stage that changes the mode ran the Retire phase of a successful instruction, so that instruction is an
Interrupt or an Uninterrupt (R104, R160). -/
theorem retireStage_mode {e : Env} {c : Context} {r : PhaseOut} (h : retireStage e c = .ok r)
    (hm : r.ctx.interrupted ≠ c.interrupted) : c.Moves r.ctx.interrupted := by
  unfold retireStage at h
  split at h
  · injection h with h
    exact absurd (h ▸ rfl) hm
  · next f hf =>
    obtain ⟨out, hout, rfl⟩ := map_ok h
    have settled : (settleRetire out).ctx.interrupted = out.ctx.interrupted := by
      rcases settleRetire_ctx out with hs | hs
      · rw [hs]; rfl
      · rw [hs]
    rw [settled] at hm ⊢
    split at hout
    · next hsuccess =>
      exact ⟨f, hf, (Bool.and_eq_true_iff.1 hsuccess).1, (runPhase_change hout).mode hm⟩
    · injection hout with hout
      exact absurd (hout ▸ rfl) hm

/-- The Retire stage of Core k changes the mode of the Context at it only, and only so. -/
theorem ContextChange.retire_mode {s : State} {k : Nat} {j : Fin 8} {c c' : Context}
    (h : ContextChange (.stage k .retire) s k j c c') (hm : c'.interrupted ≠ c.interrupted) :
    s.atStage k .retire = j ∧ c.Moves c'.interrupted := by
  cases h with
  | same => exact absurd rfl hm
  | caches => exact absurd rfl hm
  | polled => exact absurd rfl hm
  | signalled => exact absurd rfl hm
  | stage ha hj h | stageSignalled ha hj h =>
    cases ha
    exact ⟨hj, retireStage_mode h hm⟩

/-! ## Before the Retire stage of a Core -/

/-- What the agents before a Core's Retire stage leave alone: the Core's cursor and what its Contexts have in flight. -/
def Agent.Spares (a : Agent) (k : Nat) : Prop := a ≠ .coreTick k ∧ ∀ st, a ≠ .stage k st

theorem ContextChange.instruction {a : Agent} {s : State} {k : Nat} {j : Fin 8} {c c' : Context}
    (h : ContextChange a s k j c c') (ha : a.Spares k) : c'.instruction = c.instruction := by
  cases h with
  | same => rfl
  | caches => rfl
  | polled => rfl
  | signalled => rfl
  | stage hstage => exact absurd hstage (ha.2 _)
  | stageSignalled hstage => exact absurd hstage (ha.2 _)

theorem CoreChange.next {a : Agent} {table : List (List Nat × Nat)} {k : Nat} {c d : Core}
    (h : CoreChange a table k c d) (ha : a.Spares k) : d.next = c.next := by
  cases h with
  | keeps h => exact h.next
  | acquired => rfl
  | polled => exact (c.lockPoll_keeps table).1
  | tick htick => exact absurd htick ha.1

/-- The Retire stage of a Core comes before everything that touches the Core's cursor or what its Contexts have in flight,
and once in a clock (R106, R110). -/
theorem State.schedule_retire {s : State} {k : Nat} (hk : k < s.coreCount) :
    ∃ before after, s.schedule = before ++ .stage k .retire :: after ∧ (∀ a ∈ before, a.Spares k) ∧
      .stage k .retire ∉ after := by
  obtain ⟨l, l', hsplit, hother⟩ := State.schedule_core hk
  have elsewhere : ∀ a : Agent, a.core? ≠ some k → a.Spares k :=
    fun a ha => ⟨fun e => ha (e ▸ rfl), fun _ e => ha (e ▸ rfl)⟩
  refine ⟨.memory :: .l3 :: .poll :: (l ++ .l2 k :: (allCtx.map (.l1 k) ++ [.corePoll k])),
    allStages.tail.map (.stage k) ++ .coreTick k :: l', ?_, ?_, ?_⟩
  · simp [hsplit, coreAgents, allStages, stagesBeforeDecode]
  · intro a ha
    simp only [List.mem_cons, List.mem_append, List.mem_map, List.not_mem_nil, or_false] at ha
    rcases ha with rfl | rfl | rfl | ha | rfl | ⟨j, -, rfl⟩ | rfl
    case inr.inr.inr.inl => exact elsewhere a (hother a (List.mem_append_left _ ha)).1
    all_goals exact ⟨Agent.noConfusion, fun _ => Agent.noConfusion⟩
  · intro hm
    rcases List.mem_append.1 hm with hm | hm
    · exact absurd hm (by simp [allStages, stagesBeforeDecode, stagesAfterDecode])
    · rcases List.mem_cons.1 hm with hm | hm
      · cases hm
      · exact (hother _ (List.mem_append_right _ hm)).1 rfl

/-- A run of agents that spare Core k leaves its cursor alone, and what its Contexts have in flight. -/
theorem Runs.spares {l : List Agent} {s t : State} {k : Nat} (h : Runs l s t) (hl : ∀ a ∈ l, a.InRange s.coreCount)
    (hspare : ∀ a ∈ l, a.Spares k) (j : Fin 8) :
    (t.core k).next = (s.core k).next ∧ (t.ctx k j).instruction = (s.ctx k j).instruction := by
  refine h.relInRange (R := fun u v => (v.core k).next = (u.core k).next ∧
    (v.ctx k j).instruction = (u.ctx k j).instruction) (fun _ => ⟨rfl, rfl⟩) ?_ hl ?_
  · rintro _ _ _ ⟨hn, hi⟩ ⟨hn', hi'⟩
    exact ⟨hn'.trans hn, hi'.trans hi⟩
  · intro a ha u v hr hact
    exact ⟨(Agent.act_core hr hact k).next (hspare a ha), (Agent.act_ctx hr hact k j).instruction (hspare a ha)⟩

/-- Settles O46: the agents before the Core's Retire stage keep the mode, the cursor and what is in flight, those after it
keep the mode, and the Retire stage changes it only so. -/
theorem modeChanges : Obligations.ModeChanges := by
  intro s t k j h hk hm
  cases hrun : s.halted with
  | true =>
    rw [processorClock, hrun] at h
    injection h with h
    exact absurd (h ▸ rfl) hm
  | false =>
    obtain ⟨u, hu, rfl⟩ := processorClock_runs hrun h
    obtain ⟨before, after, hsplit, hspare, honce⟩ := State.schedule_retire hk
    have hrange := s.schedule_inRange
    rw [hsplit] at hu hrange
    obtain ⟨s1, hbefore, hu⟩ := runs_append.1 hu
    obtain ⟨s2, hretire, hafter⟩ := runs_cons hu
    have range_before : ∀ a ∈ before, a.InRange s.coreCount := fun a ha => hrange a (List.mem_append_left _ ha)
    have count1 := hbefore.shape.coreCount
    have count2 := (Agent.act_shape hretire).coreCount
    obtain ⟨hnext, hflight⟩ := hbefore.spares range_before hspare j
    have mode1 : (s1.ctx k j).interrupted = (s.ctx k j).interrupted :=
      (hbefore.keepsControl (fun hmem => (hspare _ hmem).2 .retire rfl) range_before j).mode
    have mode2 : (u.ctx k j).interrupted = (s2.ctx k j).interrupted :=
      (hafter.keepsControl honce (fun a ha => by rw [count2, count1]; exact hrange a (by simp [ha])) j).mode
    rw [State.tick_ctx, mode2] at hm ⊢
    have change := Agent.act_ctx (count1 ▸ hrange _ (by simp)) hretire k j
    obtain ⟨hat, f, hf, hmoves⟩ := change.retire_mode (by rw [mode1]; exact hm.symm)
    refine ⟨?_, f, hflight ▸ hf, hmoves⟩
    rw [← hat, State.atStage, State.atStage, hnext]

end Sys2Proof.Machine
end

section
/-! Obligation O47: an Error is precise. -/

namespace Sys2Proof.Machine

/-- A phase of Context `c` leaves what is pending alone, or it is the raising of an Error and nothing else (R153). -/
inductive Precise (c : Context) (out : PhaseOut) : Prop where
  | kept (h : out.ctx.pending = c.pending)
  | raised {v : BitVec 8} {c' : Context} (h : c.raise v = .ok c') (hout : out = .just c')

/-- A computation of a phase whose every answer is precise. -/
structure Precisely (c : Context) (r : Except Fault PhaseOut) : Prop where
  precise : ∀ out, r = .ok out → Precise c out

/-- The registers of a Pop are written by the hardware: nothing is raised (R141). -/
theorem popRegs_pending (l : List Reg) : ∀ (bytes : List Byte) (c : Context), (popRegs l bytes c).pending = c.pending := by
  induction l with
  | nil => exact fun _ _ => rfl
  | cons r rs ih => exact fun bytes c => (ih _ _).trans (Context.hwWrite_pending ..)

namespace Precisely

theorem kept {c : Context} {out : PhaseOut} (h : out.ctx.pending = c.pending) : Precisely c (.ok out) :=
  ⟨fun _ ho => .kept (Except.ok.inj ho ▸ h)⟩

theorem put (c : Context) (f : InFlight) : Precisely c (.ok (.just (c.put f))) := kept rfl

theorem same (c : Context) : Precisely c (.ok (.just c)) := kept rfl

theorem advance (c : Context) : Precisely c (retireAdvance c) := kept rfl

theorem raise (c : Context) (v : BitVec 8) : Precisely c (justly (c.raise v)) := by
  refine ⟨fun out ho => ?_⟩
  obtain ⟨c', hc, rfl⟩ := justly_ok ho
  exact .raised hc rfl

/-- An architectural write stores, or raises `RegisterAccessError` (R15). -/
theorem archWrite (c : Context) (i : Reg) (v : Word) : Precisely c (justly (c.archWrite i v)) := by
  unfold Context.archWrite
  split
  · exact kept (Context.hwWrite_pending c i v)
  · exact raise ..

/-- The check raises, or the engine sends a request (R113, R114). -/
theorem access (e : Env) (op : StoreOp) (p n : Nat) (error : Option (BitVec 8)) (c : Context) (f : InFlight) :
    Precisely c (justly (checkedAccess e op p n error c f)) := by
  cases error with
  | some v => exact raise c v
  | none =>
    refine ⟨fun out ho => ?_⟩
    obtain ⟨c', hc, rfl⟩ := justly_ok ho
    rcases accessExecute_ok hc with rfl | ⟨-, -, rfl⟩ <;> exact .kept rfl

theorem format (e : Env) (op : StoreOp) (p n : Nat) (c : Context) (f : InFlight) :
    Precisely c (justly (accessFormat e op p n c f)) := by
  refine ⟨fun out ho => ?_⟩
  obtain ⟨c', hc, rfl⟩ := justly_ok ho
  rcases accessFormat_ok hc with rfl | ⟨_, _, -, -, -, rfl, -⟩ <;> exact .kept rfl

theorem ite {c : Context} {b : Prop} [Decidable b] {r r' : Except Fault PhaseOut} (h : Precisely c r)
    (h' : Precisely c r') : Precisely c (if b then r else r') := by
  split
  · exact h
  · exact h'

/-- The five phases of an instruction, one after another (R95). -/
theorem phases {c : Context} {g : Phase → Except Fault PhaseOut} (hl : Precisely c (g .load))
    (he : Precisely c (g .execute)) (hf : Precisely c (g .format)) (hs : Precisely c (g .store))
    (hr : Precisely c (g .retire)) (p : Phase) : Precisely c (g p) := by
  cases p with
  | load => exact hl
  | execute => exact he
  | format => exact hf
  | store => exact hs
  | retire => exact hr

theorem jump (cond : Word → Bool) (dir : Direction) (off : BitVec 22) (r : Reg) (p : Phase) (e : Env) (c : Context)
    (f : InFlight) : Precisely c (jumpPhase cond dir off r p e c f) :=
  phases (g := (jumpPhase cond dir off r · e c f)) (put ..) (put ..) (same c) (same c) (ite (kept rfl) (advance c)) p

/-- Execute of an ALU instruction raises where its operation has no result (R127, R137, R138). -/
theorem aluExecute (op : Word → Word → Option Word) (a b d : Reg) (e : Env) (c : Context) (f : InFlight) :
    Precisely c (aluPhase op a b d .execute e c f) := by
  unfold aluPhase
  dsimp only
  split
  · exact put ..
  · exact raise ..

theorem alu (op : Word → Word → Option Word) (a b d : Reg) (p : Phase) (e : Env) (c : Context) (f : InFlight) :
    Precisely c (aluPhase op a b d p e c f) :=
  phases (g := (aluPhase op a b d · e c f)) (put ..) (aluExecute ..) (same c) (archWrite ..) (advance c) p

theorem interruptRetire (c : Context) (v resume : Word) :
    Precisely c ((c.interruptEntry v resume).map PhaseOut.retired) := by
  refine ⟨fun out ho => ?_⟩
  obtain ⟨c', hc, rfl⟩ := map_ok ho
  obtain ⟨-, rfl⟩ := Context.interruptEntry_ok hc
  exact .kept rfl

/-- Every phase of every instruction is precise. -/
theorem runPhase (i : Instr) (p : Phase) (e : Env) (c : Context) (f : InFlight) :
    Precisely c (Machine.runPhase i p e c f) := by
  cases i with
  | loadc k d => exact phases (g := (loadcPhase k d · e c f)) (put ..) (put ..) (same c) (archWrite ..) (advance c) p
  | jez | jnz | jle | jlz => exact jump ..
  | load a off d =>
    exact phases (g := (loadPhase a off d · e c f)) (put ..) (access ..) (format ..) (archWrite ..) (advance c) p
  | store a off d =>
    exact phases (g := (storePhase a off d · e c f)) (put ..) (access ..) (format ..) (same c) (advance c) p
  | clear a off =>
    exact phases (g := (clearPhase a off · e c f)) (put ..) (access ..) (format ..) (same c) (advance c) p
  | flush a off =>
    exact phases (g := (flushPhase a off · e c f)) (put ..) (access ..) (format ..) (same c) (advance c) p
  | not a d => exact phases (g := (notPhase a d · e c f)) (put ..) (put ..) (same c) (archWrite ..) (advance c) p
  | and | or | xor | leftshift | rightshift | add | subtract | multiply | divide | modulo =>
    dsimp only [Machine.runPhase, andPhase, orPhase, xorPhase, leftshiftPhase, rightshiftPhase, addPhase, subtractPhase,
      multiplyPhase, dividePhase, moduloPhase]
    exact alu ..
  | push mask =>
    exact phases (g := (pushPhase mask · e c f)) (put ..) (ite (put ..) (access ..)) (ite (same c) (format ..))
      (kept rfl) (advance c) p
  | pop mask =>
    exact phases (g := (popPhase mask · e c f)) (put ..) (ite (put ..) (access ..)) (ite (same c) (format ..))
      (kept (popRegs_pending _ _ c)) (advance c) p
  | call r => exact phases (g := (callPhase r · e c f)) (put ..) (access ..) (format ..) (kept rfl) (kept rfl) p
  | ret => exact phases (g := (retPhase · e c f)) (put ..) (access ..) (format ..) (kept rfl) (kept rfl) p
  | halt =>
    exact phases (g := (haltPhase · e c f)) (put ..) (ite (put ..) (raise ..)) (same c) (same c) (kept rfl) p
  | noop => exact phases (g := (noopPhase · e c f)) (put ..) (put ..) (same c) (same c) (advance c) p
  | sleep =>
    have stored : (if c.signalled then c else { c with asleep := true }).pending = c.pending := by split <;> rfl
    exact phases (g := (sleepPhase · e c f)) (put ..) (put ..) (same c) (kept stored) (advance c) p
  | signal r => exact phases (g := (signalPhase r · e c f)) (put ..) (put ..) (same c) (kept rfl) (advance c) p
  | lock =>
    exact phases (g := (lockPhase · e c f)) (put ..) (put ..) (same c) (kept rfl) (ite (advance c) (same c)) p
  | unlock => exact phases (g := (unlockPhase · e c f)) (put ..) (put ..) (same c) (kept rfl) (advance c) p
  | interrupt v =>
    exact phases (g := (interruptPhase v · e c f)) (put ..) (put ..) (same c) (same c) (interruptRetire ..) p
  | uninterrupt =>
    exact phases (g := (uninterruptPhase · e c f)) (put ..) (ite (put ..) (raise ..)) (same c) (same c) (kept rfl) p

end Precisely

/-- Settles O47: every phase is precise, and one that leaves an Error pending where none was is the raising of it. -/
theorem errorsPrecise : Obligations.ErrorsPrecise := by
  intro i p e c f out v h hnone hsome
  cases (Precisely.runPhase i p e c f).precise out h with
  | kept hkept => simp [hkept, hnone] at hsome
  | raised hraise hout =>
    obtain ⟨-, hnormal, rfl⟩ := Context.raise_ok hraise
    subst hout
    exact ⟨rfl, rfl, rfl, rfl, rfl, hnormal, hnormal, rfl⟩

end Sys2Proof.Machine
end

section
/-! Obligation O27: a Signal to an id that names nothing is fatal. -/

namespace Sys2Proof.Machine

section Nobody

variable {s : State} {r : Reg} {x : Fault}

/-- A Signal to an id past the last Context and the last Device names nobody (R161). -/
theorem State.signal_nobody {id : Nat} (h : 8 * s.coreCount + s.devices.length ≤ id) :
    s.signal id = .error .unknownSignalTarget := by
  have none_there : s.devices[id - 8 * s.coreCount]? = none := List.getElem?_eq_none (by omega)
  rw [State.signal, if_neg (by omega), none_there]

/-- A stage that is fatal ends the stages of a clock when the Contexts at the stages before it are quiet. -/
theorem foldlM_clockStage_error {st : Stage} (hst : clockStage 0 s st = .error x)
    (hquiet : ∀ y, y ≠ st → clockStage 0 s y = .ok s) {l : List Stage} (hmem : st ∈ l) :
    l.foldlM (clockStage 0) s = .error x := by
  induction l with
  | nil => cases hmem
  | cons y l ih =>
    rw [List.foldlM_cons]
    by_cases hy : y = st
    · rw [hy, hst]; rfl
    · rw [hquiet y hy]
      exact ih ((List.mem_cons.1 hmem).resolve_left fun e => hy e.symm)

/-- The Store clock of a Signal that the Processor finds fatal. -/
theorem storeClock_fatal (h : s.Alone) (hsignal : (s.midSignal r 4).signal (s.reg r).toNat = .error x) :
    processorClock (s.midSignal r 4) = .error x := by
  have calm := State.midSignal_calm (r := r) h 4
  have hat : (s.midSignal r 4).atStage 0 .store = s.focal := s.focal_stage 4 .store (by decide)
  have quiet : ∀ y, y ≠ .store → clockStage 0 (s.midSignal r 4) y = .ok (s.midSignal r 4) := fun y hy =>
    clockStage_quiet y (calm.others _ fun e => hy (State.atStage_inj (e.trans hat.symm)))
  have pre : preStages (s.midSignal r 4) = .ok (s.midSignal r 4) := preStages_midSignal h 4 s.devices
  rw [processorClock_eq calm.running, pre]
  simp only [Except.bind, foldlM_clockStage_error (clockStage_signal.trans hsignal) quiet
    (show Stage.store ∈ allStages by decide)]

/-- The visit of a Signal up to its Store stage (R147). -/
theorem exec_signal_eq (h : s.Alone) (hr : s.focalCtx.Ready) :
    exec (.signal r) s = toOutcome (clocks 2 (s.midSignal r 4)) := by
  have loaded : loadDataStage s.focalEnv (s.focalCtx.enter (.signal r)) = .ok (.just (s.focalCtx.holding
      ((InFlight.fresh (.signal r) s.focalCtx.latchMark).withOperands (s.reg r) 0))) := by
    rw [Context.enter_ready hr, loadDataStage, Context.holding_isRetrying, hr.notRetrying]
    rfl
  rw [exec_eq_visit, visit]
  exact congrArg toOutcome (finishRound_to_store h (.signal r) (c2 := s.focalCtx.holding (s.signalling r))
    (c3 := s.focalCtx.holding (s.signalling r)) loaded rfl (Cache.clock_atRest _ _ _ (by exact h.l1d)) rfl
    ⟨rfl, rfl⟩ ⟨rfl, rfl⟩ h.l1d)

end Nobody

/-- Settles O27: the Processor finds no target for the Signal in the clock of Store, and that is fatal. -/
theorem signalNobody : Obligations.SignalNobody := by
  intro s r h hr hid
  have nobody : (s.midSignal r 4).signal (s.reg r).toNat = .error .unknownSignalTarget :=
    State.signal_nobody (by rw [State.midSignal_coreCount]; exact hid)
  rw [exec_signal_eq h hr, clocks, storeClock_fatal h nobody]
  rfl

end Sys2Proof.Machine
end

section
/-! SUPPORT. The parts of the machine as construction leaves them (R174): every Core, Context, cache and port at its reset
value. -/

namespace Sys2Proof.Machine

/-! ## Ports, caches and Devices -/

theorem Port.reset_legal (width : Nat) : (Port.reset width).Legal := fun h => Bool.false_ne_true h.1

theorem Cache.reset_atRest (g : CacheConfig) : (Cache.reset g).AtRest := ⟨rfl, rfl⟩

theorem Device.reset_quiet (d : DeviceConfig) : (Device.reset d).Quiet := ⟨rfl, rfl, rfl⟩

/-- Every byte position of a cache at reset is the reset value (R37). -/
theorem Cache.reset_lane {g : CacheConfig} {ln : Line} {l : Lane} (hln : ln ∈ (Cache.reset g).lines)
    (hl : l ∈ ln.lanes) : l = Lane.reset := by
  rw [List.eq_of_mem_replicate hln] at hl
  exact List.eq_of_mem_replicate hl

theorem Cache.reset_dirtyValid (g : CacheConfig) : (Cache.reset g).DirtyValid := by
  intro ln hln l hl hdirty
  rw [Cache.reset_lane hln hl] at hdirty
  exact absurd hdirty Bool.false_ne_true

theorem Cache.reset_neverWritten (g : CacheConfig) : (Cache.reset g).NeverWritten :=
  ⟨fun _ hln _ hl => congrArg Lane.dirty (Cache.reset_lane hln hl), fun _ _ _ => LowerRequest.noConfusion⟩

/-! ## Contexts and Cores -/

/-- Every stored register reads 0 at reset (R25). -/
theorem Context.reset_read (cfg : Config) (e : Env) {r : Reg} (hr : 4 ≤ r.toNat) : (Context.reset cfg).read e r = 0 := by
  obtain ⟨k, hk, -⟩ := storedIndex_of_le hr
  simp only [Context.read, hk, Context.reset, Fin.getElem_fin, Vector.getElem_replicate]

theorem Context.reset_quiet (cfg : Config) : (Context.reset cfg).Quiet :=
  ⟨rfl, rfl, rfl, rfl, Cache.reset_atRest _, Cache.reset_atRest _⟩

theorem Context.reset_fetchOnly (cfg : Config) : (Context.reset cfg).FetchOnly :=
  ⟨Cache.reset_neverWritten _, fun h => absurd h Bool.false_ne_true⟩

theorem Context.reset_retryHasInstruction (cfg : Config) : (Context.reset cfg).RetryHasInstruction :=
  fun h => absurd h Bool.false_ne_true

@[simp] theorem Core.reset_ctx (cfg : Config) (j : Fin 8) : (Core.reset cfg).ctx j = Context.reset cfg :=
  Vector.getElem_replicate ..

theorem Core.reset_quiet (cfg : Config) : (Core.reset cfg).Quiet :=
  ⟨fun j => (Core.reset_ctx cfg j).symm ▸ Context.reset_quiet cfg, Cache.reset_atRest _, rfl⟩

theorem Core.reset_lockConsistent (cfg : Config) : (Core.reset cfg).LockConsistent := by
  refine ⟨fun j => ?_, fun h => absurd h Bool.false_ne_true⟩
  rw [Core.reset_ctx]
  exact ⟨fun h => absurd h Bool.false_ne_true, fun h => nomatch h⟩

/-! ## The machine -/

@[simp] theorem State.construct_core (cfg : Config) (k : Nat) : (State.construct cfg).core k = Core.reset cfg := by
  cases k with
  | zero => rfl
  | succ k => exact List.getElem?_getD_replicate_default_eq ..

@[simp] theorem State.construct_ctx (cfg : Config) (k : Nat) (j : Fin 8) :
    (State.construct cfg).ctx k j = Context.reset cfg := by
  rw [State.ctx, State.construct_core, Core.reset_ctx]

/-- A configuration with a Core gets the Cores it names (R3). -/
theorem State.construct_coreCount {cfg : Config} (h : 1 ≤ cfg.coreCount) :
    (State.construct cfg).coreCount = cfg.coreCount := by
  simp only [State.coreCount, State.construct, List.length_replicate]
  omega

theorem State.construct_everyContext {cfg : Config} {p : Context → Prop} (h : p (Context.reset cfg)) :
    (State.construct cfg).EveryContext p :=
  State.everyContext_iff.2 fun k _ j => (State.construct_ctx cfg k j).symm ▸ h

theorem State.construct_everyCache (cfg : Config) {p : Cache → Prop} (h : ∀ g, p (Cache.reset g)) :
    (State.construct cfg).EveryCache p := by
  refine State.everyCache_iff.2 ⟨fun k _ j => ?_, fun k _ => ?_, h _⟩
  · rw [State.construct_ctx]; exact ⟨h _, h _⟩
  · rw [State.construct_core]; exact h _

/-- Construction leaves every port idle, those of the Devices too (R35). -/
theorem State.construct_portsLegal (cfg : Config) : (State.construct cfg).PortsLegal := by
  refine ⟨State.construct_everyCache cfg fun _ => Port.reset_legal _, Port.reset_legal _, fun x hx => ?_⟩
  obtain ⟨d, -, rfl⟩ := List.mem_map.1 hx
  exact Port.reset_legal _

/-- Nobody holds either level of the lock after construction (R32, R33). -/
theorem State.construct_locksConsistent (cfg : Config) : (State.construct cfg).LocksConsistent := by
  refine ⟨fun k _ => ?_, fun k _ => ?_⟩
  · rw [State.construct_core]; exact Core.reset_lockConsistent cfg
  · rw [State.construct_core]; exact ⟨fun h => absurd h Bool.false_ne_true, fun h => nomatch h⟩

end Sys2Proof.Machine
end

section
/-! Obligation O60: what construction leaves, and the invariants at reset. -/

namespace Sys2Proof.Machine

/-- Settles O60: every Core and Context of the constructed machine is the reset one, and every invariant holds of it. -/
theorem resetState : Obligations.ResetState := by
  refine ⟨fun cfg k j r a hcfg _ => ?_, rfl, reset_memory_wf, State.construct_portsLegal _,
    State.construct_everyCache _ Cache.reset_dirtyValid, State.construct_everyContext (Context.reset_fetchOnly _),
    State.construct_everyContext (Context.reset_retryHasInstruction _), State.construct_locksConsistent _⟩
  dsimp only
  rw [State.construct_ctx, State.construct_core, State.construct_coreCount hcfg]
  exact ⟨Context.reset_read cfg _, rfl, rfl, rfl, rfl, rfl, rfl, rfl, rfl, rfl, rfl, rfl, rfl, rfl, rfl, rfl, rfl, rfl, rfl,
    rfl, rfl, rfl, rfl, rfl⟩

end Sys2Proof.Machine
end

section
/-! Obligation O42: the boot, from construction to the handler of the host's Signal. -/

namespace Sys2Proof.Machine

/-! ## The machine with the host's image (R175, R176) -/

/-- The machine right after construction, with the host's image at an address (R175). -/
def State.loaded (cfg : Config) (a : Nat) (image : List Byte) : State := (State.construct cfg).hostWrite a image

section Loaded

variable (cfg : Config) (a : Nat) (image : List Byte)

/-- Memory holds the bytes of the image that lie in it, and 0 everywhere else (R175, log entry 12). -/
theorem State.loaded_cells : (State.loaded cfg a image).memory.cells = loadImage cfg [] a image := rfl

theorem State.loaded_ctx (k : Nat) (j : Fin 8) : (State.loaded cfg a image).ctx k j = Context.reset cfg := by
  have hcore : (State.loaded cfg a image).core k = (State.construct cfg).core k := by cases k <;> rfl
  rw [State.ctx, hcore, State.construct_core, Core.reset_ctx]

/-- With every part at its reset value the machine is calm around any Context of Core 0 (R174). -/
theorem State.loaded_calm (j : Fin 8) : (State.loaded cfg a image).Calm j where
  running := rfl
  others i _ := State.loaded_ctx cfg a image 0 i ▸ Context.reset_quiet cfg
  l1i := State.loaded_ctx cfg a image 0 j ▸ Cache.reset_atRest _
  l2 := Cache.reset_atRest _
  l3 := Cache.reset_atRest _
  memory := rfl
  upper _ hc := List.eq_of_mem_replicate hc ▸ Core.reset_quiet cfg
  devices x hx := by
    obtain ⟨d, -, rfl⟩ := List.mem_map.1 hx
    exact Device.reset_quiet d

theorem State.loaded_locksSettled (j : Fin 8) : (State.loaded cfg a image).LocksSettled j :=
  .inl ⟨congrArg Context.requiresLock (State.loaded_ctx cfg a image 0 j), rfl, rfl⟩

/-- The machine after the host's `Signal(0)`: Context 0 of Core 0 is awake with the Signal posted (R161, R176). -/
theorem State.boot_eq :
    State.boot cfg a image = .ok ((State.loaded cfg a image).setCtx 0 0 (Context.reset cfg).signal) := by
  have hsignal : State.boot cfg a image
      = .ok ((State.loaded cfg a image).setCtx 0 0 ((State.loaded cfg a image).ctx 0 0).signal) :=
    State.signal_context (k := 0) (j := 0) (Nat.zero_lt_succ _)
  rw [hsignal, State.loaded_ctx]

end Loaded

/-! ## The handler at address 0 (R156, R176) -/

/-- Writing 0 to a register of a Context whose stored registers are all 0 changes nothing. -/
theorem Context.hwWrite_zero {c : Context} (h : c.regs = Vector.replicate 28 0) (i : Reg) : c.hwWrite i 0 = c := by
  unfold Context.hwWrite
  split
  · next k _ =>
    have hset : c.regs.set k 0 = c.regs := by rw [h, Vector.set_replicate_self]
    rw [hset]
  · rfl

/-- Entering the handler of a Signal with every stored register 0 changes the mode only: PC, IPC and IV are 0. -/
theorem Context.entered_zero {c : Context} (h : c.regs = Vector.replicate 28 0) :
    c.entered 0 c.pc = { c with interrupted := true } := by
  have hpc : c.pc = 0 := by simp [Context.pc, h]
  have hvector : c.ivt + 0 = 0 := by simp [Context.ivt, h]
  rw [Context.entered, hpc, hvector, Context.hwWrite_zero h, Context.hwWrite_zero h]
  exact Context.hwWrite_zero (c := { c with interrupted := true }) h 7

/-- The first step of a booted machine: Context 0 of Core 0 takes the host's Signal (R100, R155, R176). -/
theorem step_boot {cfg : Config} (hwf : cfg.wellFormed = true) (a : Nat) (image : List Byte) :
    step ((State.loaded cfg a image).setCtx 0 0 (Context.reset cfg).signal) = .next (((State.loaded cfg a image).setCtx 0 0
      { Context.reset cfg with asleep := false, interrupted := true }).ticks 8) := by
  let s := (State.loaded cfg a image).setCtx 0 0 (Context.reset cfg).signal
  let c := (Context.reset cfg).signal.taken
  have hcalm : s.Calm 0 := s.ticks_zero ▸ (State.loaded_calm cfg a image 0).moved 0 (Cache.reset_atRest cfg.l1i)
  have hlocks : s.LocksSettled 0 := s.ticks_zero ▸ (State.loaded_locksSettled cfg a image 0).moved 0 rfl
  have hstep : step s = .next ((s.setCtx 0 0 (c.entered 0 c.pc).done).ticks 8) :=
    interruptTaken s 0 hwf hcalm hlocks (Cache.reset_atRest _) rfl rfl rfl rfl rfl rfl (.inr ⟨rfl, rfl, rfl⟩)
  rw [hstep, Context.entered_zero (c := c) rfl, State.setCtx_setCtx]
  rfl

/-- Settles O42: the boot posts the host's Signal, and the first step takes it with every register still 0. -/
theorem boot : Obligations.Boot := by
  intro a image s booted
  exact ⟨_, State.boot_eq Config.reference a image, step_boot (by decide) a image,
    State.loaded_cells Config.reference a image⟩

end Sys2Proof.Machine
end

section
/-! Obligation O34: the words of the spec's examples decode as the spec says. -/

namespace Sys2Proof

/-- The word an instruction encodes to decodes to the instruction (R93). -/
theorem decode_of_encode_eq {w : InstrWord} {i : Instr} (h : encode i = w) : decode w = .ok i := h ▸ decodeEncode i

/-- Settles O34: each of the words is what the encoder gives for its instruction, and decoding undoes encoding. -/
theorem decodeWords : Obligations.DecodeWords := by
  refine ⟨?loadc, ?jnz, ?jle, ?load, ?flush, ?add, ?push, ?pop, ?call, ?ret, ?signal, ?interrupt⟩
  all_goals exact decode_of_encode_eq rfl

end Sys2Proof
end
